-- ==== Sys2Proof/Word.lean ====
section
/-! DEFINITION. The word types of the device (R2, R26): registers, addresses, device words, and the plainest
arithmetic on them. -/

namespace Sys2Proof

/-- A lane register (R97). -/
abbrev Word := BitVec 32
/-- A pair of registers, a global address, a sidecar, an instruction word (R26, R42, R44). -/
abbrev DWord := BitVec 64
/-- A byte of memory. -/
abbrev Byte := BitVec 8
/-- A register field of an instruction (R39). -/
abbrev VReg := BitVec 9
/-- A program counter (R26). -/
abbrev Pc := BitVec 56

end Sys2Proof
end

