-- ==== Sys2Proof/Syntax.lean ====
section
/-! DEFINITION. The operations and events of the device: one constructor of `Instr` for each row of
spec/opcode_table.json. The first 168 opcodes of R45 carry the operands their words encode; the remaining rows are
the device's other indivisible steps (95_what_each_step_holds.md) and carry what the outside, or the agent that
takes the step, supplies. -/

namespace Sys2Proof

/-- Lane type codes (R40). -/
inductive Ty where
  | i32 | n32 | i64 | n64 | i16x2 | n16x2 | i8x4 | n8x4 | f32 | bf16x2 | f16x2 | f64 | e4m3 | e5m2 | i8 | n8
  deriving DecidableEq, Repr

/-- Sweep type codes (R40, R201). -/
inductive STy where
  | i32 | f32 | bf16 | f16 | e4m3 | e5m2 | i8
  deriving DecidableEq, Repr

/-- Rounding selections (R59). -/
inductive Rnd where
  | dyn | rne | rtz | rup | rdn | sr
  deriving DecidableEq, Repr

/-- Compare conditions (R134). -/
inductive Cond where
  | eq | ne | lt | le | gt | ge | ltu | leu | gtu | geu | uno | ord
  deriving DecidableEq, Repr

/-- Branch conditions (R37). -/
inductive BrCond where
  | z | nz | b0c | b0s | neg | nneg
  deriving DecidableEq, Repr

/-- Width codes of the loads and stores (R36). -/
inductive Width where
  | b8 | b16 | b32 | b64 | b128 | i8 | i16
  deriving DecidableEq, Repr

/-- Orderings of an access (R35). -/
inductive MOrd where
  | plain | acq | rel | ar | seq
  deriving DecidableEq, Repr

/-- Scopes (R35, R83). -/
inductive Scope where
  | unit | core | die | dev | sys
  deriving DecidableEq, Repr

/-- Cache hints (R35). -/
inductive Hint where
  | normal | keep | evict | nol1
  deriving DecidableEq, Repr

/-- Integer types of CVTI and SATN (R135). -/
inductive CvtTy where
  | i8 | n8 | i16 | n16 | i32 | n32 | i64 | n64
  deriving DecidableEq, Repr

/-- Element types of the block-scaled instructions (R146). -/
inductive BTy where
  | e4m3 | e5m2 | e3m2 | e2m3 | e2m1 | int8
  deriving DecidableEq, Repr

/-- MX record types of SWQMX and SWDMX (R212). -/
inductive MxTy where
  | mxf4 | mxf6a | mxf6b | mxf8a | mxf8b | mxi8
  deriving DecidableEq, Repr

/-- Result types of TST (R283). -/
inductive TstTy where
  | f32 | bf16 | f16 | e4m3 | e5m2 | mxf8a | mxf8b | mxf6a | mxf6b | mxf4 | mxi8
  deriving DecidableEq, Repr

/-- SHFL modes (R153). -/
inductive ShMode where
  | idx | up | down | xor
  deriving DecidableEq, Repr

/-- VOTE modes (R154). -/
inductive VoteMode where
  | all | any | ballot | count
  deriving DecidableEq, Repr

/-- Reduction operations of RED and SCAN (R155). -/
inductive RedOp where
  | add | min | max | and | or | xor
  deriving DecidableEq, Repr

/-- Fold operations of SWRED (R216). -/
inductive FoldOp where
  | add | max | min
  deriving DecidableEq, Repr

/-- Atomic operations (R174). -/
inductive AtomOp where
  | add | fadd | min | max | minu | maxu | and | or | xor | xchg | cas
  deriving DecidableEq, Repr

/-- Anchors of private addresses (R36). -/
inductive Anchor where
  | fp | sp | none
  deriving DecidableEq, Repr

/-- The words TSTAT can read (R285). -/
inductive TstatSel where
  | tile | prog | mir
  deriving DecidableEq, Repr

/-- The mod field of the float instructions, bits 14:13 and 8:0 (R136). -/
structure FMods where
  sel  : BitVec 2 := 0
  sat  : Bool := false
  absb : Bool := false
  absa : Bool := false
  negc : Bool := false
  negb : Bool := false
  nega : Bool := false
  rnd  : Rnd := .dyn
  deriving DecidableEq, Repr

/-- The mod field of the block-scaled instructions (R145), without BCVT's destination type. -/
structure BMods where
  negc : Bool := false
  negb : Bool := false
  nega : Bool := false
  rnd  : Rnd := .dyn
  ty   : BTy
  deriving DecidableEq, Repr

/-- The address and ordering fields of format FM (R35). -/
structure MemF where
  base  : VReg
  off   : BitVec 22
  ord   : MOrd := .plain
  scope : Scope := .unit
  hint  : Hint := .normal
  deriving DecidableEq, Repr

/-- The fields of format FS but for mod (R37). -/
structure SwF where
  ty    : STy
  count : BitVec 12
  d     : VReg
  a     : VReg
  b     : VReg
  bound : BitVec 6
  deriving DecidableEq, Repr

/-- The usual mod field of a sweep (R206). -/
structure SwM where
  sat  : Bool := false
  rnd  : Rnd := .dyn
  scal : Bool := false
  deriving DecidableEq, Repr

/-- A clause header, field by field (R27). -/
structure Header where
  sig   : BitVec 4
  cls   : BitVec 4
  cnt   : BitVec 4
  wL    : BitVec 6
  wS    : BitVec 6
  wC    : BitVec 6
  wT    : BitVec 6
  wF    : BitVec 6
  yld   : BitVec 1
  rsv   : BitVec 21
  deriving DecidableEq, Repr

/-! ### What the outside supplies to a device step -/

/-- A bundle that a quadrant picks in one kclk (R104): unit and bundle number. -/
structure Pick where
  unit   : Nat
  bundle : Nat
  deriving DecidableEq, Repr

/-- One packet of the fabric as its fields (R316); the cipher and CRC results are the receiver's findings. `claim` names
the claim at its issuer (a ring's rid for a chunk), `opId` the operation there, `sub` the element type, atomic operation
or kind of acknowledgement, `aw` and `arrive` an arrival at the target, `doff` an offset, `last` the last packet of an
operation. -/
structure Packet where
  ptype  : Nat
  dstN   : Nat := 0
  srcN   : Nat := 0
  job    : Nat := 0
  va     : DWord := 0
  age    : Nat := 0
  tag    : Nat := 0
  seq    : Nat := 0
  view   : Nat := 0
  claim  : Nat := 0
  opId   : Nat := 0
  sub    : Nat := 0
  aw     : Option DWord := none
  arrive : Nat := 0
  doff   : Nat := 0
  last   : Bool := true
  data   : List Byte := []
  group  : Nat := 0
  members : List Nat := []
  noarv  : Bool := false
  wide   : Bool := false
  /-- Payload type of a claim that compresses, and the 16-byte chunk header of a payload sent so (R314). -/
  ctype  : Option Nat := none
  chunk  : List Byte := []
  /-- Writes of the packet, by number, that have arrived at home slices and are not yet performed (R85). -/
  held   : List Nat := []
  /-- The device time from which its age in a port counts (R303). -/
  at_    : Nat := 0
  /-- The handle of its claim at the issuer, and the counter of its cipher flow (R316, R382). -/
  handle : Nat := 0
  ctr    : Nat := 0
  deriving DecidableEq, Repr

/-- What the claim phase of another node's claim leaves on this one (R293, R295): the node, the job, the claim's name there,
kind, response-cache slots, the port of its route here, and the ranges it pins with whether it writes them; or the end of
that claim. -/
structure FarClaim where
  node   : Nat
  job    : Nat
  name   : Nat
  kind   : Nat
  slots  : Nat := 0
  port   : Nat := 0
  ranges : List (DWord × Nat × Bool) := []
  gone   : Bool := false
  deriving DecidableEq, Repr

/-- What another node brings into the end of a claim phase (R293, R295): landing space there, or none; or the claim is that
node's own. -/
inductive Landing where
  | given | full
  | far (c : FarClaim)
  deriving DecidableEq, Repr

/-- A multicast group by its job and its number (R308). -/
structure GroupName where
  job   : Nat
  group : Nat
  deriving DecidableEq, Repr

/-- A change by system software: of a page (R243), of what the hypervisor gives a virtual machine (R380), or of a grant
(R348). -/
inductive PageChange where
  | unmap   (ctx : Nat) (va : DWord) (size : Nat)
  | migrate (ctx : Nat) (va : DWord) (size : Nat) (pa : Nat)
  | protect (ctx : Nat) (va : DWord) (size : Nat) (r w x : Bool)
  | map     (ctx : Nat) (va : DWord) (size : Nat) (pa : Nat) (r w x user : Bool) (world : Nat)
  /-- Changes of stage 2: intermediate addresses of a context lose their pages, or have other permissions (R78). -/
  | unmap2  (ctx : Nat) (ipa : Nat) (size : Nat)
  | protect2 (ctx : Nat) (ipa : Nat) (size : Nat) (r w x : Bool)
  | migrate2 (ctx : Nat) (ipa : Nat) (size : Nat) (pa : Nat)
  /-- Device pages go to the virtual machine of a world; world 0 takes them back. -/
  | vmPages (world pa size : Nat)
  /-- A context gets the right to another one's event, or loses it. -/
  | grant   (ctx owner name : Nat) (on : Bool)
  /-- A change at another node that takes away an access that remote pins of a job need there (R293). -/
  | far     (node job : Nat) (va : DWord) (size cause : Nat) (r w : Bool)
  /-- The end of the context that another node binds to a job (R296). -/
  | farKill (node job : Nat)
  deriving DecidableEq, Repr

/-- What becomes of a translation miss (R199). -/
inductive Resolution where
  | mapped
  | refused
  deriving DecidableEq, Repr

/-- Mirror comparisons of one A row that the clay array found unequal (R266): the row, and for the first pass and
the replay whether each half gave a product that differs from the true one. -/
structure MirFault where
  row     : Nat
  lower   : Bool
  upper   : Bool
  again   : Bool
  deriving DecidableEq, Repr

/-- A register of the bundle window or of the power block (R196, R402) with no row of its own. -/
inductive RegTarget where
  | window (leaf : Nat) (off : Nat) (wide : Bool)
  | power  (off : Nat)
  deriving DecidableEq, Repr

/-- What signed configuration records say of the management ring (R366) and of the context descriptor table (R368): the
address of its descriptor, its rings, and their sizes. -/
structure MgmtCfg where
  desc : Nat
  ring : DWord
  bell : DWord
  cring : DWord
  log  : Nat
  clog : Nat
  ctab : Nat
  deriving DecidableEq, Repr

/-- Where an image comes from (R388, R389): a slot of the flash, 0 A and 1 B; the host link; or an Ethernet port. -/
inductive BootSrc where
  | flash (slot : Nat)
  | host
  | eth (port : Nat)
  deriving DecidableEq, Repr

/-- A partition as a configuration record defines it (R399): its number and compute dies. -/
structure PartCfg where
  part : Nat
  dies : BitVec 8
  deriving DecidableEq, Repr

/-- What signed configuration records set: the management ring (R366), the counting thresholds and windows (R377), partitions
with the partition of each virtual function and the function that a context is started for (R399), the power limit (R402),
the trust mailbox (R384), and the link by which stage one fetches the main image (R388). -/
structure BootRecs where
  mgmt   : Option MgmtCfg := none
  limits : Option (List (Nat × Nat)) := none
  parts  : Option (List PartCfg) := none
  vfs    : List (Nat × Nat) := []
  ctxVf  : List (Nat × Nat) := []
  plimit : Option (BitVec 16) := none
  mbox   : Option Nat := none
  link   : BootSrc := .host
  deriving DecidableEq, Repr

/-- A boot image as the trust core sees it (R387 to R391): its own digest; those of its configuration records and of stage
one's key manifest; those of the firmware that the main image starts. -/
structure BootImage where
  digest : BitVec 256
  svn    : Nat
  sigOk  : Bool
  recsOk : Bool
  from_  : BootSrc
  recDig : BitVec 256 := 0
  manifest : BitVec 256 := 0
  gsc    : BitVec 256 := 0
  leaf   : BitVec 256 := 0
  app    : BitVec 256 := 0
  recs   : BootRecs := {}
  deriving DecidableEq, Repr

/-- A structure that counts error events (R377). -/
inductive ErrStruct where
  | way (slice way : Nat) (uncorrectable : Bool)
  | bank (core bank : Nat)
  | regfile (core bank : Nat)
  | acc (core bank : Nat)
  | mirror (core : Nat) (half : Nat)
  | lane (port lane : Nat)
  /-- The pseudo-channel that serves a line. -/
  | channel (line : Nat)
  /-- A wrong tag of a packet of the on-package network: its flow, the line it goes to, and whether this is the second failure
  of one transfer (R383). -/
  | package (world src dst line : Nat) (again : Bool)
  deriving DecidableEq, Repr

/-- An SPDM request (R393): its mailbox, 0 for the physical function and 1 + v for the virtual function v, and its bytes. -/
structure SpdmReq where
  box : Nat
  msg : List Byte := []
  deriving DecidableEq, Repr

/-- A step of a key slot's removal (R385): the request, or its going on. -/
inductive KeyStep where
  | request (world : Nat)
  | resume (world : Nat)
  deriving DecidableEq, Repr

/-- The consumption of a poisoned line, and the context that consumes it, when one does (R373, R374). -/
structure Poison where
  line : Nat
  by_  : Option Nat := none
  deriving DecidableEq, Repr

/-- A context descriptor's writable fields (R368). -/
structure CtxDesc where
  world  : Nat := 0
  part   : BitVec 8 := 0
  rsv    : Bool := false
  dbg    : Bool := false
  mirx   : Bool := false
  hmask  : BitVec 4 := 0
  s1root : DWord := 0
  s2root : DWord := 0
  qtab   : DWord := 0
  ctab   : DWord := 0
  heap   : DWord := 0
  heapsz : Word := 0
  fjob   : BitVec 16 := 0
  lsa    : DWord := 0
  evb    : DWord := 0
  himg   : DWord := 0
  save   : DWord := 0
  savesz : Word := 0
  etab   : DWord := 0
  deriving DecidableEq, Repr

/-- What the device has measured in one interval (R404): energy in µJ of cores, of HBM and of the fabric, and engine-busy
cycles of units. -/
structure EnergyUse where
  cores  : List (Nat × Nat) := []
  hbm    : Nat := 0
  fabric : Nat := 0
  busy   : List (Nat × Nat) := []
  deriving DecidableEq, Repr

/-- An application core and the world of the virtual machine that it runs (R15, R400). -/
structure AppCore where
  core  : Nat
  world : Nat
  deriving DecidableEq, Repr

/-- An access of the host or of an application core (R397, R400). -/
inductive ExtAccess where
  | read  (pa : Nat) (n : Nat)
  | write (pa : Nat) (data : List Byte)
  /-- An RMW of an application core (R88, R400). -/
  | atom  (op : AtomOp) (wide : Bool) (pa : Nat) (x y : DWord)
  | fence
  /-- The agent's accesses behind a FENCE go on. -/
  | resume
  deriving DecidableEq, Repr

/-- One row of spec/opcode_table.json per constructor. -/
inductive Instr where
  -- the clause header, and some device events out of the order of the table
  | clauseHeader (h : Header)
  | poisonConsume (x : Poison)
  | keyRetire (k : KeyStep)
  | controllerRestart (leaf : Nat)
  | firmwareMessage (leaf : Nat) (up : Bool) (seq : Nat)
  | applicationCoreAccess (who : AppCore) (a : ExtAccess)
  | hostMemAccess (a : ExtAccess)
  | ctxStart (qseq : Word) (ctx : Nat) (d : CtxDesc)
  | ctxUpdate (qseq : Word) (ctx : Nat) (mask : DWord) (new : CtxDesc)
  | ctxStop (qseq : Word) (ctx : Nat)
  | ctxKill (qseq : Word) (ctx : Nat)
  | preempt (qseq : Word) (ctx : Nat) (launchId : Word)
  | qclear (qseq : Word) (structId : Word)
  | managementResync (qseq : Word)
  | managementRejected (qseq : Word) (rtype : Nat) (ctx : Nat)
  | cheadWrite (ctx q : Nat) (v : Word)
  | doorbellWrite (ctx q : Nat) (v : DWord)
  | cancel (ctx q : Nat)
  | eventWait (ctx q : Nat)
  | eventSignal (ctx q : Nat)
  | graph (ctx q : Nat)
  | guardedLaunch (ctx q : Nat)
  | launch (ctx q : Nat)
  | prologueTimeout (ctx blk : Nat)
  | commandStart (ctx : Nat) (cmd : Nat)
  | commandRejected (ctx q : Nat)
  | resync (ctx q : Nat)
  | powerControlTick (pnow : Nat)
  | tilthSlice (ctx : Nat)
  | l1ModeChange (cluster : Nat)
  -- integer and logic (R126)
  | mov   (t : Ty) (d a : VReg)
  | movi  (t : Ty) (d : VReg) (imm : BitVec 34)
  | add   (t : Ty) (d a b : VReg) (sat : Bool)
  | addi  (t : Ty) (d a : VReg) (imm : BitVec 34)
  | sub   (t : Ty) (d a b : VReg) (sat : Bool)
  | mul   (t : Ty) (d a b : VReg) (sat : Bool)
  | mulh  (t : Ty) (d a b : VReg)
  | mad   (t : Ty) (d a b c : VReg) (sat : Bool)
  | div   (t : Ty) (d a b : VReg)
  | rem   (t : Ty) (d a b : VReg)
  | min   (t : Ty) (d a b : VReg)
  | max   (t : Ty) (d a b : VReg)
  | abs   (t : Ty) (d a : VReg) (sat : Bool)
  | neg   (t : Ty) (d a : VReg) (sat : Bool)
  | dp4   (t : Ty) (d a b c : VReg) (mix sat : Bool)
  | band  (t : Ty) (d a b : VReg)
  | bor   (t : Ty) (d a b : VReg)
  | bxor  (t : Ty) (d a b : VReg)
  | bandn (t : Ty) (d a b : VReg)
  | andi  (t : Ty) (d a : VReg) (imm : BitVec 34)
  | ori   (t : Ty) (d a : VReg) (imm : BitVec 34)
  | xori  (t : Ty) (d a : VReg) (imm : BitVec 34)
  | lop3  (t : Ty) (d a b c : VReg) (table : BitVec 8)
  | shl   (t : Ty) (d a b : VReg)
  | shr   (t : Ty) (d a b : VReg)
  | sar   (t : Ty) (d a b : VReg)
  | rot   (t : Ty) (d a b : VReg)
  | shli  (t : Ty) (d a : VReg) (n : BitVec 6)
  | shri  (t : Ty) (d a : VReg) (n : BitVec 6)
  | sari  (t : Ty) (d a : VReg) (n : BitVec 6)
  | clz   (t : Ty) (d a : VReg)
  | popc  (t : Ty) (d a : VReg)
  | brev  (t : Ty) (d a : VReg)
  | bfx   (t : Ty) (d a : VReg) (pos len1 : BitVec 6)
  | bfi   (t : Ty) (d a b : VReg) (pos len1 : BitVec 6)
  | cmp   (t : Ty) (d a b : VReg) (c : Cond)
  | cmpi  (c : Cond) (d a : VReg) (imm : BitVec 34)
  | sel   (t : Ty) (d a b c : VReg)
  | lea   (t : Ty) (d a b : VReg) (sh : BitVec 3)
  | cvti  (d a : VReg) (src dst : CvtTy)
  | satn  (d a : VReg) (src dst : CvtTy)
  -- float (R137)
  | fadd  (t : Ty) (d a b : VReg) (m : FMods)
  | fsub  (t : Ty) (d a b : VReg) (m : FMods)
  | fmul  (t : Ty) (d a b : VReg) (m : FMods)
  | ffma  (t : Ty) (d a b c : VReg) (m : FMods)
  | fmin  (t : Ty) (d a b : VReg) (m : FMods)
  | fmax  (t : Ty) (d a b : VReg) (m : FMods)
  | fcmp  (t : Ty) (d a b : VReg) (c : Cond) (m : FMods)
  | fdiv  (t : Ty) (d a b : VReg) (m : FMods)
  | frcp  (t : Ty) (d a : VReg) (m : FMods)
  | frsq  (t : Ty) (d a : VReg) (m : FMods)
  | fsqrt (t : Ty) (d a : VReg) (m : FMods)
  | fexp2 (t : Ty) (d a : VReg) (m : FMods)
  | flog2 (t : Ty) (d a : VReg) (m : FMods)
  | fsin  (t : Ty) (d a : VReg) (m : FMods)
  | fcos  (t : Ty) (d a : VReg) (m : FMods)
  | ftanh (t : Ty) (d a : VReg) (m : FMods)
  | frnd  (t : Ty) (d a : VReg) (m : FMods)
  | fcvt  (t dst : Ty) (d a b : VReg) (m : FMods)
  | ftoi  (t dst : Ty) (d a : VReg) (m : FMods)
  | itof  (t dst : Ty) (d a : VReg) (m : FMods)
  | fclass (t : Ty) (d a : VReg)
  | fscale (t : Ty) (d a b : VReg) (m : FMods)
  -- block-scaled (R151)
  | bset  (d a : VReg)
  | bget  (d a : VReg)
  | badd  (d a b : VReg) (m : BMods)
  | bmul  (d a b : VReg) (m : BMods)
  | bfma  (d a b c : VReg) (m : BMods)
  | bmax  (d a b : VReg) (m : BMods)
  | bnorm (d a : VReg) (m : BMods)
  | bqnt  (d a : VReg) (m : BMods)
  | bdeq  (d a : VReg) (m : BMods)
  | bcvt  (d a : VReg) (dty : BTy) (m : BMods)
  -- cross-lane (R152)
  | shfl  (t : Ty) (d a b : VReg) (mode : ShMode) (imm : Bool) (off : BitVec 5)
  | vote  (d a : VReg) (mode : VoteMode)
  | red   (t : Ty) (d a : VReg) (op : RedOp) (rnd : Rnd)
  | scan  (t : Ty) (d a : VReg) (op : RedOp) (rnd : Rnd) (excl : Bool)
  | vmatch (t : Ty) (d a : VReg) (all : Bool)
  | elect (d a : VReg) (nz : Bool)
  | bcast (t : Ty) (d a : VReg) (fixed : Bool) (slot : BitVec 5)
  -- control (R157 to R168)
  | br    (c : BrCond) (a : VReg) (off : BitVec 40)
  | bra   (off : BitVec 40)
  | jmpr  (a : VReg)
  | call  (off : BitVec 40)
  | callr (a : VReg)
  | join  (d : VReg) (t : BitVec 34)
  | joinTimeout (unit tid : Nat)
  | mark  (off : BitVec 16)
  | cut   (d a : VReg) (n : BitVec 6)
  | graft (a b : VReg)
  | drop  (a : VReg)
  | trap  (code : BitVec 16)
  | brk   (code : BitVec 16)
  | sleep (n : BitVec 34)
  | sleepWake (unit tid : Nat)
  | rep   (n1 sd sa sb sc : BitVec 4)
  -- memory (R169 to R182)
  | ld    (w : Width) (d : VReg) (m : MemF)
  | st    (w : Width) (d : VReg) (m : MemF)
  | lds   (w : Width) (d : VReg) (m : MemF)
  | sts   (w : Width) (d : VReg) (m : MemF)
  | ldp   (w : Width) (d base : VReg) (off : BitVec 22) (an : Anchor) (idx : Bool)
  | stp   (w : Width) (d base : VReg) (off : BitVec 22) (an : Anchor) (idx : Bool)
  | ldk   (w : Width) (d : VReg) (m : MemF)
  | pref  (base : VReg) (off : BitVec 22) (hint : Hint)
  | atom  (scr wide : Bool) (op : AtomOp) (d base : VReg) (off : BitVec 22) (ord : MOrd) (scope : Scope)
  | lr    (wide : Bool) (d : VReg) (m : MemF)
  | sc    (wide : Bool) (d : VReg) (m : MemF)
  | fence (ord : MOrd) (scope : Scope)
  | fenceO2e (scope : Scope)
  | fenceE2o (scope : Scope)
  | wait  (l s c t f : BitVec 6)
  | stb   (d base : VReg) (off : BitVec 22) (ord : MOrd) (scope : Scope) (k : BitVec 6)
  | bar   (id : BitVec 4) (arrive : Bool) (count : BitVec 11)
  | awinit (scr : Bool) (d base : VReg) (off : BitVec 22) (ord : MOrd) (scope : Scope)
  | await  (scr : Bool) (d base : VReg) (off : BitVec 22) (scope : Scope)
  | awadd  (scr : Bool) (d base : VReg) (off : BitVec 22) (ord : MOrd) (scope : Scope)
  | awget  (scr : Bool) (d base : VReg) (off : BitVec 22) (ord : MOrd) (scope : Scope)
  | sbind  (d a : VReg) (k : BitVec 3)
  | sstart (d : VReg) (k : BitVec 3)
  | sstop  (k : BitVec 3)
  | sstat  (d : VReg) (k : BitVec 3)
  | streamElementRead (unit tid k : Nat)
  | streamElementWrite (unit tid k : Nat)
  -- sweep (R201 to R219)
  | swadd (f : SwF) (m : SwM)
  | swmul (f : SwF) (m : SwM)
  | swfma (f : SwF) (m : SwM)
  | swmax (f : SwF) (scal : Bool)
  | swmin (f : SwF) (scal : Bool)
  | swexp (f : SwF) (m : SwM)
  | swrcp (f : SwF) (m : SwM)
  | swcvt (f : SwF) (dst : STy) (rnd : Rnd)
  | swqmx (f : SwF) (mx : MxTy) (rnd : Rnd)
  | swdmx (f : SwF) (mx : MxTy) (rnd : Rnd)
  | swred (f : SwF) (op : FoldOp) (acc : Bool) (rnd : Rnd)
  | swcmp (f : SwF) (c : Cond) (scal : Bool)
  | swsel (f : SwF) (scal : Bool)
  | swcpy (f : SwF) (scal : Bool)
  | swgat (f : SwF) (n : BitVec 5)
  | swtrn (f : SwF)
  | sweepStart (core : Nat)
  | sweepComplete (core : Nat)
  | scratchPageFill (unit page : Nat)
  -- tile (R271)
  | tgang (d a : VReg) (n : BitVec 3)
  | tldb  (d a b c : VReg)
  | tldm  (d a b : VReg)
  | tmma  (d a b c : VReg)
  | tzero (d a : VReg)
  | tst   (d a b : VReg) (clr sat : Bool) (rnd : Rnd) (ty : TstTy) (bound : BitVec 6)
  | tstat (d : VReg) (sel : TstatSel)
  | tmir  (d : VReg) (on : Bool)
  | tileOpStart (core : Nat) (faults : List MirFault)
  | tileOpComplete (core : Nat)
  -- copy (R233 to R242)
  | claim (d a : VReg)
  | claimComplete (ctx h : Nat) (refused : Bool) (landing : Landing)
  | flow  (d a b c : VReg) (noarv : Bool)
  | flowBegin (op : Nat)
  | flowEnd (op : Nat)
  | rlse  (d a : VReg)
  | cqry  (d a : VReg)
  | cpin  (d a b : VReg)
  | cunpin (d a b : VReg)
  | pageUnmap (chg : PageChange)
  -- fabric (R297 to R313)
  | puts  (d a b c : VReg) (noarv : Bool)
  | get   (d a b c : VReg) (noarv : Bool)
  | radd  (d a b c : VReg) (noarv : Bool)
  | ratom (wide : Bool) (op : AtomOp) (d a b c : VReg)
  | mcst  (d a b c : VReg) (noarv : Bool)
  | mcseq (d a : VReg)
  | ring  (d a : VReg)
  | engineOpComplete (op : Nat)
  | fabricAccepted (op : Nat)
  | fabricLanded (op : Nat)
  | putPacketRx (p : Packet)
  | getRequestRx (p : Packet)
  | getDataRx (p : Packet)
  | ratomRequestRx (p : Packet)
  | ratomResponseRx (p : Packet)
  | ratomRetry (op : Nat)
  | ratomUnknown (op : Nat)
  | ratomSlotRelease (op : Nat)
  | ringChunkRx (p : Packet)
  | mcstStamp (p : Packet)
  | mcstPacketRx (port : Nat) (p : Packet)
  | mcstNack (name : GroupName)
  | nackRx (p : Packet)
  | mcstAckRx (p : Packet)
  | memberLost (name : GroupName) (member : Nat)
  | handlerTimeout (leaf : Nat)
  | linkRetrain (port : Nat) (ok : Bool) (peerLast : Nat)
  | linkLoss (port : Nat)
  -- launch class, events, special state
  | lset  (a : VReg) (sel : BitVec 12)
  | evsig (d a b : VReg) (scope : Scope)
  | evwait (d a b c : VReg) (scope : Scope)
  | evwaitTimeout (unit tid : Nat)
  | gcheck (a : VReg)
  | gets  (d : VReg) (sel : BitVec 12)
  | sets  (sel : BitVec 12) (a : VReg)
  -- lane engine steps (R102 to R121)
  | issueCycle (picks : List Pick)
  | elderRule (unit bundle : Nat)
  | spill (unit bundle : Nat)
  | bundleBuild (unit : Nat)
  | loadReturn (op : Nat)
  | gwctReturn (op : Nat)
  | leaseExpiry (core line : Nat)
  | reservationTimeout (unit tid : Nat)
  | translationResolved (unit tid : Nat) (r : Resolution)
  | placeUnit (launch core : Nat) (privBase : List DWord)
  | preemptRequest (unit : Nat)
  | unitSave (unit : Nat)
  | restoreUnit (unit core : Nat)
  | unitRetire (unit : Nat)
  -- handler and bundle window (R195 to R198), and events that only the outside brings about
  | handlerDispatch (leaf : Nat)
  | linkPacketRx (port : Nat) (seq : Nat) (crcOk tagOk : Bool) (p : Packet)
  | handlerReturn (leaf : Nat)
  | wcmdNone (leaf : Nat)
  | resume (leaf : Nat)
  | skip (leaf : Nat)
  | endthread (leaf : Nat)
  | endunit (leaf : Nat)
  | wcmdReserved (leaf : Nat) (code : BitVec 3)
  | wctl (leaf : Nat) (v : Word)
  | registerWrite (t : RegTarget) (v : DWord)
  -- launch engine (R322 to R360)
  | tilthPolicyLoad (ctx : Nat) (image : List (BitVec 16))
  | queueReenable (ctx q : Nat)
  -- firmware and reliability (R364 to R378)
  | uncorrectableError (line : Nat) (refetchOk : Bool)
  | errorEvent (e : ErrStruct)
  -- trust core (R384 to R395)
  | keyLoad (world : Nat) (blobOk : Bool) (net : BitVec 256) (memKey : BitVec 512)
  | keyDestroy (world : Nat)
  | svnRaise (floor : Nat) (sigOk : Bool)
  | extend (reg : Nat) (digest : BitVec 256)
  | trustRequestInvalid (rtype world : Nat)
  | deviceReset
  | bootStageLoad (img : BootImage)
  | watchdogReset
  | bootComplete
  | getVersion (r : SpdmReq)
  | getCapabilities (r : SpdmReq)
  | negotiateAlgorithms (r : SpdmReq)
  | getDigests (r : SpdmReq)
  | getCertificate (r : SpdmReq)
  | challenge (r : SpdmReq)
  | getMeasurements (r : SpdmReq) (index : Nat) (signed : Bool)
  | spdmUnsupported (r : SpdmReq) (code : Nat)
  -- host, power, energy (R396 to R404)
  | partitionGate (p : Nat)
  | plimit (v : BitVec 16)
  | energyAttribution (edev : Nat) (use : EnergyUse)
  | multicastGroupCreate (group : Nat) (job : Nat) (members : List Nat) (anchor : Nat) (xop : Bool) (next : Nat)
  -- words and events without an operand
  | energyWindow
  | nop
  | ret
  | exit
  | yield
  | fquiet
  | lcancel
  | lrepeat
  | lend
  deriving DecidableEq, Repr

end Sys2Proof
end

