-- ==== Sys2Proof/WellFormed.lean ====
section
/-! DEFINITION. Which instructions have an encoding: the operand values that R46 does not call reserved, and the
fields that R34 requires to be zero. Register groups and declared counts (R41, R42) depend on the state and are
checked at issue. -/

namespace Sys2Proof

/-- Types 0 to 3 of R126. -/
def Ty.scalar : Ty → Bool
  | .i32 | .n32 | .i64 | .n64 => true
  | _ => false

/-- Types 4 to 7. -/
def Ty.packedInt : Ty → Bool
  | .i16x2 | .n16x2 | .i8x4 | .n8x4 => true
  | _ => false

/-- Types 0 to 7. -/
def Ty.int (t : Ty) : Bool := t.scalar || t.packedInt

/-- Types 0 and 2. -/
def Ty.plain : Ty → Bool
  | .i32 | .i64 => true
  | _ => false

/-- Types 0, 2, 4 and 6, of ABS. -/
def Ty.signed : Ty → Bool
  | .i32 | .i64 | .i16x2 | .i8x4 => true
  | _ => false

/-- Types 8 to 11 (R137). -/
def Ty.float : Ty → Bool
  | .f32 | .bf16x2 | .f16x2 | .f64 => true
  | _ => false

/-- Types 8 to 10 (R139). -/
def Ty.approx : Ty → Bool
  | .f32 | .bf16x2 | .f16x2 => true
  | _ => false

/-- Types 8 to 13 (R141). -/
def Ty.convertible : Ty → Bool
  | .f32 | .bf16x2 | .f16x2 | .f64 | .e4m3 | .e5m2 => true
  | _ => false

/-- Types of RED and SCAN (R152). -/
def Ty.reducible : Ty → Bool
  | .i32 | .n32 | .i64 | .n64 | .f32 | .f64 => true
  | _ => false

def Ty.packedFloat : Ty → Bool
  | .bf16x2 | .f16x2 => true
  | _ => false

def Ty.byteFloat : Ty → Bool
  | .e4m3 | .e5m2 => true
  | _ => false

/-- A 64-bit type code, under which register operands are pairs (R123). -/
def Ty.wide : Ty → Bool
  | .i64 | .n64 | .f64 => true
  | _ => false

/-- The operand width of a scalar integer type. -/
def Ty.width : Ty → Nat
  | .i64 | .n64 | .f64 => 64
  | .i16x2 | .n16x2 | .bf16x2 | .f16x2 => 16
  | .i8x4 | .n8x4 | .e4m3 | .e5m2 | .i8 | .n8 => 8
  | _ => 32

/-- An immediate of a 32-bit operation lies in −2^31 to 2^32 − 1 (R35). -/
def imm32Ok (imm : BitVec 34) : Bool :=
  decide (-(2 ^ 31 : Int) ≤ imm.toInt) && decide (imm.toInt ≤ 2 ^ 32 - 1)

/-- The immediate of a scalar operation (R35): any for 64 bits. -/
def immOk (t : Ty) (imm : BitVec 34) : Bool := t.wide || imm32Ok imm

/-- The fields of `m` that a float instruction does not use are zero (R136, R137). -/
def FMods.onlyUses (m : FMods) (sel sat rnd nega negb negc absa absb : Bool) : Bool :=
  (sel || m.sel == 0) && (sat || !m.sat) && (rnd || m.rnd == .dyn) && (nega || !m.nega) && (negb || !m.negb) &&
  (negc || !m.negc) && (absa || !m.absa) && (absb || !m.absb)

/-- FADD's fields. -/
def FMods.arith (m : FMods) : Bool :=
  m.onlyUses false true true true true false true true && m.rnd != .sr

/-- FFMA's fields. -/
def FMods.fma (m : FMods) : Bool :=
  m.onlyUses false true true true true true true true && m.rnd != .sr

/-- FMIN's, FMAX's and FCMP's fields. A non-zero rnd of FMIN and FMAX counts as a reserved value (R138). DESIGN CHOICE, log 59. -/
def FMods.compare (m : FMods) : Bool :=
  m.onlyUses false false false true true false true true

/-- FRCP's and FSCALE's fields. -/
def FMods.unary (m : FMods) : Bool :=
  m.onlyUses false true true true false false true false && m.rnd != .sr

/-- FSQRT's and FRND's fields. -/
def FMods.unaryNoSat (m : FMods) : Bool :=
  m.onlyUses false false true true false false true false && m.rnd != .sr

/-- The approximated instructions take rnd 000 or 001 alone (R139). -/
def FMods.approxOk (m : FMods) : Bool :=
  m.unary && (m.rnd == .dyn || m.rnd == .rne)

/-- sel of a source or destination of type `t`: bit 13 alone for packed types, none for the others (R136). -/
def selOk (t : Ty) (sel : BitVec 2) : Bool :=
  if t.byteFloat then true else if t.packedFloat then sel.toNat < 2 else sel == 0

/-- FCVT's fields (R141). The one sel field serves the source and the destination byte. DEDUCED, log 17. -/
def fcvtOk (t dst : Ty) (b : VReg) (m : FMods) : Bool :=
  t.convertible && dst.convertible && t != dst && (m.rnd != .sr || dst.byteFloat) && !m.negc &&
  (if t.byteFloat then true else if t.packedFloat then m.sel.toNat < 2
    else if dst.byteFloat then true else m.sel == 0) &&
  (dst.packedFloat || (b == 0 && !m.negb && !m.absb))

/-- rnd of RED and SCAN (R155). -/
def redRndOk (t : Ty) (op : RedOp) (rnd : Rnd) : Bool :=
  if t.float && op == .add then rnd != .sr else rnd == .dyn

def redOk (t : Ty) (op : RedOp) (rnd : Rnd) : Bool :=
  t.reducible && (!t.float || op == .add || op == .min || op == .max) && redRndOk t op rnd

/-- Orderings of a load (R36). -/
def MOrd.load : MOrd → Bool
  | .plain | .acq | .seq => true
  | _ => false

/-- Orderings of a store (R36). -/
def MOrd.store : MOrd → Bool
  | .plain | .rel | .seq => true
  | _ => false

/-- With ord 000, scope must be 000 (R36). -/
def ordScopeOk (o : MOrd) (s : Scope) : Bool := o != .plain || s == .unit

/-- A scratchpad arrival word takes scope 000 or 001 (R182). -/
def awScopeOk (scr : Bool) (s : Scope) : Bool := !scr || s == .unit || s == .core

def STy.bytes : STy → Nat
  | .i32 | .f32 => 4
  | .bf16 | .f16 => 2
  | .e4m3 | .e5m2 | .i8 => 1

def STy.isInt : STy → Bool
  | .i32 | .i8 => true
  | _ => false

/-- rnd of a sweep with result type `t`: SR for 8-bit results alone, 000 for integers (R206, R209). -/
def swRndOk (t : STy) (rnd : Rnd) : Bool :=
  if t.isInt then rnd == .dyn else rnd != .sr || t.bytes == 1

def swArith (f : SwF) (m : SwM) : Bool := swRndOk f.ty m.rnd

def STy.wideFloat : STy → Bool
  | .f32 | .bf16 | .f16 => true
  | _ => false

/-- rnd of SWCVT: SR for an 8-bit destination alone (R59, R206). DEDUCED, log 17. -/
def swcvtRndOk (_src dst : STy) (rnd : Rnd) : Bool := rnd != .sr || dst.bytes == 1

/-- Conditions of SWCMP (R214). -/
def swcmpOk (t : STy) (c : Cond) : Bool :=
  match c with
  | .eq | .ne | .lt | .le | .gt | .ge => true
  | .ltu | .leu | .gtu | .geu => t.isInt
  | .uno | .ord => !t.isInt

/-- The table of SWGAT holds at most 4 MiB (R217). -/
def swgatOk (t : STy) (n : BitVec 5) : Bool := 2 ^ n.toNat * t.bytes ≤ 4194304

def TstTy.isMx : TstTy → Bool
  | .f32 | .bf16 | .f16 | .e4m3 | .e5m2 => false
  | _ => true

/-- TST's rounding and saturation (R283): SR for types 3 to 10, sat for the others than MX. -/
def tstOk (t : TstTy) (sat : Bool) (rnd : Rnd) : Bool :=
  (rnd != .sr || (t != .f32 && t != .bf16 && t != .f16)) && !(sat && t.isMx)

/-- Access codes of the special-state selectors (R190): none for an unassigned one, whether a pair is read, and
whether SETS may write it. -/
def selInfo (sel : BitVec 12) : Option (Bool × Bool) :=
  let n := sel.toNat
  if n ≤ 0x00B then some (false, false)
  else if 0x010 ≤ n ∧ n ≤ 0x013 then some (false, false)
  else if 0x020 ≤ n ∧ n ≤ 0x023 then some (true, false)
  else if n = 0x024 then some (false, false)
  else if n = 0x030 ∨ n = 0x031 then some (false, true)
  else if n = 0x032 then some (false, false)
  else if n = 0x040 then some (true, false)
  else if 0x050 ≤ n ∧ n ≤ 0x052 then some (false, true)
  else if n = 0x060 ∨ n = 0x070 then some (false, false)
  else if 0x100 ≤ n ∧ n ≤ 0x13F then some (true, true)
  else none

/-- The LSET selectors (R335): none for a reserved one, else whether the source is a pair. -/
def lsetInfo (sel : BitVec 12) : Option Bool :=
  let n := sel.toNat
  if n ≤ 0x004 then some false
  else if n = 0x008 then some true
  else if 0x101 ≤ n ∧ n ≤ 0x13F then some true
  else if 0x141 ≤ n ∧ n ≤ 0x17F then some true
  else if 0x400 ≤ n ∧ n ≤ 0x7FF then some false
  else none

/-- dev and sys, the scopes of EVSIG and EVWAIT (R349). -/
def evScopeOk (s : Scope) : Bool := s == .dev || s == .sys

/-- The values that R46 does not call reserved, instruction by instruction. Steps without an encoding are well
formed as they stand. -/
def Instr.wf : Instr → Bool
  | .mov t _ _ => t.scalar
  | .movi t _ imm => t.scalar && immOk t imm
  | .add t _ _ _ _ | .sub t _ _ _ _ | .mul t _ _ _ _ => t.int
  | .addi t _ _ imm => t.scalar && immOk t imm
  | .mulh t _ _ _ => t.scalar
  | .mad t _ _ _ _ _ => t.int
  | .div t _ _ _ | .rem t _ _ _ => t.scalar
  | .min t _ _ _ | .max t _ _ _ => t.int
  | .abs t _ _ _ => t.signed
  | .neg t _ _ _ => t.int
  | .dp4 t _ _ _ _ mix _ => t.packedInt && (!mix || t == .i8x4 || t == .i16x2)
  | .band t _ _ _ | .bor t _ _ _ | .bxor t _ _ _ | .bandn t _ _ _ => t.plain
  | .andi t _ _ imm | .ori t _ _ imm | .xori t _ _ imm => t.plain && immOk t imm
  | .lop3 t _ _ _ _ _ => t.plain
  | .shl t _ _ _ | .shr t _ _ _ | .sar t _ _ _ | .rot t _ _ _ => t.int
  | .shli t _ _ n | .shri t _ _ n | .sari t _ _ n => t.plain && decide (n.toNat < t.width)
  | .clz t _ _ | .popc t _ _ | .brev t _ _ => t.plain
  | .bfx t _ _ pos len1 => t.scalar && decide (pos.toNat + len1.toNat + 1 ≤ t.width)
  | .bfi t _ _ _ pos len1 => t.scalar && decide (pos.toNat + len1.toNat + 1 ≤ t.width)
  | .cmp t _ _ _ c => t.int && c != .uno && c != .ord
  | .cmpi c _ _ imm => c != .uno && c != .ord && imm32Ok imm
  | .sel t _ _ _ _ => t.plain
  | .lea t _ _ _ _ => t == .i32 || t == .n32
  | .cvti _ _ src dst | .satn _ _ src dst => src != dst
  | .fadd t _ _ _ m | .fsub t _ _ _ m | .fmul t _ _ _ m | .fdiv t _ _ _ m => t.float && m.arith
  | .ffma t _ _ _ _ m => t.float && m.fma
  | .fmin t _ _ _ m | .fmax t _ _ _ m => t.float && m.compare
  | .fcmp t _ _ _ c m => t.float && m.compare && c != .ltu && c != .leu && c != .gtu && c != .geu
  | .frcp t _ _ m => t.float && (if t == .f64 then m.unary else m.approxOk)
  | .frsq t _ _ m | .fexp2 t _ _ m | .flog2 t _ _ m | .fsin t _ _ m | .fcos t _ _ m | .ftanh t _ _ m =>
    t.approx && m.approxOk
  | .fsqrt t _ _ m | .frnd t _ _ m => t.float && m.unaryNoSat
  | .fcvt t dst _ _ b m => fcvtOk t dst b m
  | .ftoi t dst _ _ m =>
    t.float && dst.scalar && m.onlyUses true false true false false false false false && m.rnd != .sr &&
    selOk t m.sel
  | .itof t dst _ _ m =>
    t.scalar && (dst == .f32 || dst == .f64) && m.onlyUses false false true false false false false false &&
    m.rnd != .sr
  | .fclass t _ _ => t.float
  | .fscale t _ _ _ m => t.float && m.unary
  | .bset d _ => decide (d.toNat < 64)
  | .bget _ a => decide (a.toNat < 64)
  | .badd d a b m | .bmul d a b m | .bmax d a b m =>
    decide (d.toNat < 64) && decide (a.toNat < 64) && decide (b.toNat < 64) && !m.negc
  | .bfma d a b c _ =>
    decide (d.toNat < 64) && decide (a.toNat < 64) && decide (b.toNat < 64) && decide (c.toNat < 64)
  | .bnorm d a m => decide (d.toNat < 64) && decide (a.toNat < 64) && !m.negb && !m.negc
  | .bqnt d _ m => decide (d.toNat < 64) && !m.negb && !m.negc
  | .bdeq _ a m => decide (a.toNat < 64) && !m.negb && !m.negc && m.rnd != .sr
  | .bcvt d a dty m => decide (d.toNat < 64) && decide (a.toNat < 64) && !m.negb && !m.negc && m.ty != dty
  | .shfl t _ _ b _ imm off => t.plain && (if imm then b == 0 else off == 0)
  | .vote _ _ _ => true
  | .red t _ _ op rnd | .scan t _ _ op rnd _ => redOk t op rnd
  | .vmatch t _ _ _ => t.plain
  | .elect _ a nz => nz || a == 0
  | .bcast t _ _ fixed slot => t.plain && (fixed || slot == 0)
  | .cut _ _ n => decide (n.toNat ≤ 32)
  | .ld _ _ m => m.ord.load && ordScopeOk m.ord m.scope
  | .st _ _ m => m.ord.store && ordScopeOk m.ord m.scope
  | .lds _ _ m => m.ord.load && m.scope == .unit
  | .sts _ _ m => m.ord.store && m.scope == .unit
  | .ldk _ _ m => m.ord == .plain && m.scope == .unit
  | .ldp w _ base off an idx | .stp w _ base off an idx =>
    (w == .b32 || w == .b64 || w == .b128) && decide (off.toNat % 4 = 0) && (idx || base == 0) &&
    (an == .fp || an == .sp || an == .none)
  | .atom scr wide op _ _ _ ord scope =>
    ordScopeOk ord scope && (!scr || scope == .unit) && !(op == .fadd && wide)
  | .lr _ _ m => m.ord.load && ordScopeOk m.ord m.scope
  | .sc _ _ m => m.ord.store && ordScopeOk m.ord m.scope
  | .fence ord _ => ord != .plain
  | .stb _ _ _ ord scope k => ord.store && ordScopeOk ord scope && k != 0
  | .bar _ _ count => decide (count.toNat ≤ 1024)
  | .awinit scr _ _ _ ord scope | .awadd scr _ _ _ ord scope =>
    (ord == .plain || ord == .rel) && ordScopeOk ord scope && awScopeOk scr scope
  | .await scr _ _ _ scope => awScopeOk scr scope
  | .awget scr _ _ _ ord scope => (ord == .plain || ord == .acq) && ordScopeOk ord scope && awScopeOk scr scope
  | .swadd f m | .swmul f m | .swfma f m => swArith f m
  | .swmax _ _ | .swmin _ _ => true
  | .swexp f m => f.ty.wideFloat && (m.rnd == .dyn || m.rnd == .rne)
  | .swrcp f m => f.ty.wideFloat && (m.rnd == .dyn || m.rnd == .rne) && f.b == 0 && !m.scal
  | .swcvt f dst rnd => f.ty != dst && swcvtRndOk f.ty dst rnd && f.b == 0
  | .swqmx f _ rnd => f.ty == .f32 && (rnd == .dyn || rnd == .rne || rnd == .sr) && f.b == 0
  | .swdmx f _ rnd => f.ty == .f32 && rnd != .sr && f.b == 0
  | .swred f op _ rnd =>
    f.b == 0 && (if op == .add && !f.ty.isInt then swRndOk f.ty rnd else rnd == .dyn)
  | .swcmp f c _ => swcmpOk f.ty c && f.bound == 0
  | .swcpy f scal => if scal then f.a == 0 else f.b == 0
  | .swgat f n => swgatOk f.ty n
  | .swtrn f => f.b == 0 && decide (f.count.toNat % 32 = 0)
  | .tgang _ _ n => n != 1 && n != 7
  | .tst _ _ _ _ sat rnd ty _ => tstOk ty sat rnd
  | .ratom wide op _ _ _ _ => !(op == .fadd && wide)
  | .lset _ sl => (lsetInfo sl).isSome
  | .evsig _ _ _ s | .evwait _ _ _ _ s => evScopeOk s
  | .gets _ sl => (selInfo sl).isSome
  | .sets sl _ => (selInfo sl).any (·.2)
  | _ => true

end Sys2Proof
end

