-- ==== Sys2Proof/Decode.lean ====
section
/-! DEFINITION. From instruction words to instructions and back: the formats of R34 to R38, the opcode map of R45 and
each instruction's own fields, and after them the encoder, written from the same tables. -/

namespace Sys2Proof

/-- Why a word is no instruction, in R46's order of the checks that need the word alone. -/
inductive Bad where
  /-- The opcode is unassigned (sub-cause 1). -/
  | unassigned
  /-- A field the instruction does not use is non-zero (sub-cause 2). -/
  | reservedField
  /-- A used field holds a reserved value (sub-cause 3). -/
  | reservedValue
  deriving DecidableEq, Repr

/-- Bits lo + n − 1 : lo of a word. -/
def fld {w : Nat} (x : BitVec w) (lo n : Nat) : BitVec n := x.extractLsb' lo n

/-- A single bit. -/
def bit {w : Nat} (x : BitVec w) (i : Nat) : Bool := x.getLsbD i

/-- A Bool as one bit. -/
def b1 (b : Bool) : BitVec 1 := BitVec.ofBool b

/-! ### The formats (R34 to R38), put together and taken apart -/

def fr (op : BitVec 8) (fn : BitVec 4) (d a b c : VReg) (m : BitVec 16) : DWord :=
  op ++ fn ++ d ++ a ++ b ++ c ++ m
def fi (op : BitVec 8) (fn : BitVec 4) (d a : VReg) (imm : BitVec 34) : DWord := op ++ fn ++ d ++ a ++ imm
def fm (op : BitVec 8) (w : BitVec 4) (d base : VReg) (off : BitVec 22) (ord scope : BitVec 3) (hint : BitVec 2)
    (aux : BitVec 4) : DWord := op ++ w ++ d ++ base ++ off ++ ord ++ scope ++ hint ++ aux
def fb (op : BitVec 8) (cond : BitVec 4) (a : VReg) (off : BitVec 40) : DWord := op ++ cond ++ a ++ 0#3 ++ off
def fs (op : BitVec 8) (fn : BitVec 4) (count : BitVec 12) (d a b : VReg) (bound : BitVec 6) (m : BitVec 7) : DWord :=
  op ++ fn ++ count ++ d ++ a ++ b ++ bound ++ m
def fp (op : BitVec 8) (n1 sd sa sb sc : BitVec 4) : DWord := op ++ n1 ++ sd ++ sa ++ sb ++ sc ++ 0#36

namespace W
variable (w : DWord)
def op : BitVec 8 := fld w 56 8
def fn : BitVec 4 := fld w 52 4
def d : VReg := fld w 43 9
def a : VReg := fld w 34 9
def b : VReg := fld w 25 9
def c : VReg := fld w 16 9
def mod : BitVec 16 := fld w 0 16
def imm : BitVec 34 := fld w 0 34
def off22 : BitVec 22 := fld w 12 22
def ord : BitVec 3 := fld w 9 3
def scope : BitVec 3 := fld w 6 3
def hint : BitVec 2 := fld w 4 2
def aux : BitVec 4 := fld w 0 4
def ba : VReg := fld w 43 9
def brsv : BitVec 3 := fld w 40 3
def off40 : BitVec 40 := fld w 0 40
def count : BitVec 12 := fld w 40 12
def sd : VReg := fld w 31 9
def sa : VReg := fld w 22 9
def sb : VReg := fld w 13 9
def bound : BitVec 6 := fld w 7 6
def smod : BitVec 7 := fld w 0 7
end W

/-! ### Codes of the enumerated fields -/

def Ty.code : Ty → BitVec 4
  | .i32 => 0 | .n32 => 1 | .i64 => 2 | .n64 => 3 | .i16x2 => 4 | .n16x2 => 5 | .i8x4 => 6 | .n8x4 => 7
  | .f32 => 8 | .bf16x2 => 9 | .f16x2 => 10 | .f64 => 11 | .e4m3 => 12 | .e5m2 => 13 | .i8 => 14 | .n8 => 15

def Ty.ofCode (x : BitVec 4) : Ty :=
  match x.toNat with
  | 0 => .i32 | 1 => .n32 | 2 => .i64 | 3 => .n64 | 4 => .i16x2 | 5 => .n16x2 | 6 => .i8x4 | 7 => .n8x4
  | 8 => .f32 | 9 => .bf16x2 | 10 => .f16x2 | 11 => .f64 | 12 => .e4m3 | 13 => .e5m2 | 14 => .i8 | _ => .n8

def STy.code : STy → BitVec 4
  | .i32 => 0 | .f32 => 8 | .bf16 => 9 | .f16 => 10 | .e4m3 => 12 | .e5m2 => 13 | .i8 => 14

def STy.ofCode (x : BitVec 4) : Option STy :=
  match x.toNat with
  | 0 => some .i32 | 8 => some .f32 | 9 => some .bf16 | 10 => some .f16 | 12 => some .e4m3 | 13 => some .e5m2
  | 14 => some .i8 | _ => none

def Rnd.code : Rnd → BitVec 3
  | .dyn => 0 | .rne => 1 | .rtz => 2 | .rup => 3 | .rdn => 4 | .sr => 5

def Rnd.ofCode (x : BitVec 3) : Option Rnd :=
  match x.toNat with
  | 0 => some .dyn | 1 => some .rne | 2 => some .rtz | 3 => some .rup | 4 => some .rdn | 5 => some .sr | _ => none

def Cond.code : Cond → BitVec 4
  | .eq => 0 | .ne => 1 | .lt => 2 | .le => 3 | .gt => 4 | .ge => 5 | .ltu => 6 | .leu => 7 | .gtu => 8 | .geu => 9
  | .uno => 10 | .ord => 11

def Cond.ofCode (x : BitVec 4) : Option Cond :=
  match x.toNat with
  | 0 => some .eq | 1 => some .ne | 2 => some .lt | 3 => some .le | 4 => some .gt | 5 => some .ge | 6 => some .ltu
  | 7 => some .leu | 8 => some .gtu | 9 => some .geu | 10 => some .uno | 11 => some .ord | _ => none

def BrCond.code : BrCond → BitVec 4
  | .z => 0 | .nz => 1 | .b0c => 2 | .b0s => 3 | .neg => 4 | .nneg => 5

def BrCond.ofCode (x : BitVec 4) : Option BrCond :=
  match x.toNat with
  | 0 => some .z | 1 => some .nz | 2 => some .b0c | 3 => some .b0s | 4 => some .neg | 5 => some .nneg | _ => none

def Width.code : Width → BitVec 4
  | .b8 => 0 | .b16 => 1 | .b32 => 2 | .b64 => 3 | .b128 => 4 | .i8 => 5 | .i16 => 6

def Width.ofCode (x : BitVec 4) : Option Width :=
  match x.toNat with
  | 0 => some .b8 | 1 => some .b16 | 2 => some .b32 | 3 => some .b64 | 4 => some .b128 | 5 => some .i8
  | 6 => some .i16 | _ => none

def MOrd.code : MOrd → BitVec 3
  | .plain => 0 | .acq => 1 | .rel => 2 | .ar => 3 | .seq => 4

def MOrd.ofCode (x : BitVec 3) : Option MOrd :=
  match x.toNat with
  | 0 => some .plain | 1 => some .acq | 2 => some .rel | 3 => some .ar | 4 => some .seq | _ => none

def Scope.code : Scope → BitVec 3
  | .unit => 0 | .core => 1 | .die => 2 | .dev => 3 | .sys => 4

def Scope.ofCode (x : BitVec 3) : Option Scope :=
  match x.toNat with
  | 0 => some .unit | 1 => some .core | 2 => some .die | 3 => some .dev | 4 => some .sys | _ => none

def Hint.code : Hint → BitVec 2
  | .normal => 0 | .keep => 1 | .evict => 2 | .nol1 => 3

def Hint.ofCode (x : BitVec 2) : Hint :=
  match x.toNat with
  | 0 => .normal | 1 => .keep | 2 => .evict | _ => .nol1

def CvtTy.code : CvtTy → BitVec 4
  | .i8 => 0 | .n8 => 1 | .i16 => 2 | .n16 => 3 | .i32 => 4 | .n32 => 5 | .i64 => 6 | .n64 => 7

def CvtTy.ofCode (x : BitVec 4) : Option CvtTy :=
  match x.toNat with
  | 0 => some .i8 | 1 => some .n8 | 2 => some .i16 | 3 => some .n16 | 4 => some .i32 | 5 => some .n32
  | 6 => some .i64 | 7 => some .n64 | _ => none

def BTy.code : BTy → BitVec 3
  | .e4m3 => 0 | .e5m2 => 1 | .e3m2 => 2 | .e2m3 => 3 | .e2m1 => 4 | .int8 => 5

def BTy.ofCode (x : BitVec 3) : Option BTy :=
  match x.toNat with
  | 0 => some .e4m3 | 1 => some .e5m2 | 2 => some .e3m2 | 3 => some .e2m3 | 4 => some .e2m1 | 5 => some .int8
  | _ => none

def MxTy.code : MxTy → BitVec 3
  | .mxf4 => 0 | .mxf6a => 1 | .mxf6b => 2 | .mxf8a => 3 | .mxf8b => 4 | .mxi8 => 5

def MxTy.ofCode (x : BitVec 3) : Option MxTy :=
  match x.toNat with
  | 0 => some .mxf4 | 1 => some .mxf6a | 2 => some .mxf6b | 3 => some .mxf8a | 4 => some .mxf8b | 5 => some .mxi8
  | _ => none

def TstTy.code : TstTy → BitVec 4
  | .f32 => 0 | .bf16 => 1 | .f16 => 2 | .e4m3 => 3 | .e5m2 => 4 | .mxf8a => 5 | .mxf8b => 6 | .mxf6a => 7
  | .mxf6b => 8 | .mxf4 => 9 | .mxi8 => 10

def TstTy.ofCode (x : BitVec 4) : Option TstTy :=
  match x.toNat with
  | 0 => some .f32 | 1 => some .bf16 | 2 => some .f16 | 3 => some .e4m3 | 4 => some .e5m2 | 5 => some .mxf8a
  | 6 => some .mxf8b | 7 => some .mxf6a | 8 => some .mxf6b | 9 => some .mxf4 | 10 => some .mxi8 | _ => none

def ShMode.code : ShMode → BitVec 2
  | .idx => 0 | .up => 1 | .down => 2 | .xor => 3

def ShMode.ofCode (x : BitVec 2) : ShMode :=
  match x.toNat with
  | 0 => .idx | 1 => .up | 2 => .down | _ => .xor

def VoteMode.code : VoteMode → BitVec 2
  | .all => 0 | .any => 1 | .ballot => 2 | .count => 3

def VoteMode.ofCode (x : BitVec 2) : VoteMode :=
  match x.toNat with
  | 0 => .all | 1 => .any | 2 => .ballot | _ => .count

def RedOp.code : RedOp → BitVec 4
  | .add => 0 | .min => 1 | .max => 2 | .and => 3 | .or => 4 | .xor => 5

def RedOp.ofCode (x : BitVec 4) : Option RedOp :=
  match x.toNat with
  | 0 => some .add | 1 => some .min | 2 => some .max | 3 => some .and | 4 => some .or | 5 => some .xor | _ => none

def FoldOp.code : FoldOp → BitVec 2
  | .add => 0 | .max => 1 | .min => 2

def FoldOp.ofCode (x : BitVec 2) : Option FoldOp :=
  match x.toNat with
  | 0 => some .add | 1 => some .max | 2 => some .min | _ => none

def AtomOp.code : AtomOp → BitVec 4
  | .add => 0 | .fadd => 1 | .min => 2 | .max => 3 | .minu => 4 | .maxu => 5 | .and => 6 | .or => 7 | .xor => 8
  | .xchg => 9 | .cas => 10

def AtomOp.ofCode (x : BitVec 4) : Option AtomOp :=
  match x.toNat with
  | 0 => some .add | 1 => some .fadd | 2 => some .min | 3 => some .max | 4 => some .minu | 5 => some .maxu
  | 6 => some .and | 7 => some .or | 8 => some .xor | 9 => some .xchg | 10 => some .cas | _ => none

def Anchor.code : Anchor → BitVec 2
  | .fp => 0 | .sp => 1 | .none => 2

def Anchor.ofCode (x : BitVec 2) : Option Anchor :=
  match x.toNat with
  | 0 => some .fp | 1 => some .sp | 2 => some .none | _ => Option.none

def TstatSel.code : TstatSel → BitVec 2
  | .tile => 0 | .prog => 1 | .mir => 2

def TstatSel.ofCode (x : BitVec 2) : Option TstatSel :=
  match x.toNat with
  | 0 => some .tile | 1 => some .prog | 2 => some .mir | _ => none

/-- SWCVT's destination codes (R211). -/
def STy.dcode : STy → BitVec 3
  | .i32 => 0 | .f32 => 1 | .bf16 => 2 | .f16 => 3 | .e4m3 => 4 | .e5m2 => 5 | .i8 => 6

def STy.ofDcode (x : BitVec 3) : Option STy :=
  match x.toNat with
  | 0 => some .i32 | 1 => some .f32 | 2 => some .bf16 | 3 => some .f16 | 4 => some .e4m3 | 5 => some .e5m2
  | 6 => some .i8 | _ => none

/-! ### The layouts of mod -/

/-- Float mod (R136): bit 15 reserved, 14:13 sel, 12:9 type or condition, 8 sat, 7 absb, 6 absa, 5 negc, 4 negb,
3 nega, 2:0 rnd. -/
def FMods.bits (m : FMods) (x : BitVec 4) : BitVec 16 :=
  0#1 ++ m.sel ++ x ++ b1 m.sat ++ b1 m.absb ++ b1 m.absa ++ b1 m.negc ++ b1 m.negb ++ b1 m.nega ++ m.rnd.code

def FMods.ofBits (m : BitVec 16) : Option FMods :=
  (Rnd.ofCode (fld m 0 3)).map fun r =>
    { sel := fld m 13 2, sat := bit m 8, absb := bit m 7, absa := bit m 6, negc := bit m 5, negb := bit m 4,
      nega := bit m 3, rnd := r }

/-- Block mod (R145): 15:13 reserved, 12:10 destination type, 9 reserved, 8 negc, 7 negb, 6 nega, 5:3 rnd, 2:0
type. -/
def BMods.bits (m : BMods) (dty : BitVec 3) : BitVec 16 :=
  0#3 ++ dty ++ 0#1 ++ b1 m.negc ++ b1 m.negb ++ b1 m.nega ++ m.rnd.code ++ m.ty.code

def BMods.ofBits (m : BitVec 16) : Option BMods :=
  (Rnd.ofCode (fld m 3 3)).bind fun r => (BTy.ofCode (fld m 0 3)).map fun t =>
    { negc := bit m 8, negb := bit m 7, nega := bit m 6, rnd := r, ty := t }

/-- The usual sweep mod (R206): 6:5 op, 4 sat, 3:1 rnd, 0 scal. -/
def SwM.bits (m : SwM) : BitVec 7 := 0#2 ++ b1 m.sat ++ m.rnd.code ++ b1 m.scal

def SwM.ofBits (m : BitVec 7) : Option SwM :=
  (Rnd.ofCode (fld m 1 3)).map fun r => { sat := bit m 4, rnd := r, scal := bit m 0 }

/-- The FS fields but for mod. -/
def SwF.ofWord (w : DWord) : Option SwF :=
  (STy.ofCode (W.fn w)).map fun t =>
    { ty := t, count := W.count w, d := W.sd w, a := W.sa w, b := W.sb w, bound := W.bound w }

/-- The FM address and ordering fields. -/
def MemF.ofWord (w : DWord) : Option MemF :=
  (MOrd.ofCode (W.ord w)).bind fun o => (Scope.ofCode (W.scope w)).map fun s =>
    { base := W.a w, off := W.off22 w, ord := o, scope := s, hint := Hint.ofCode (W.hint w) }

/-! ### Decoding -/

/-- R46's order: a non-zero unused field before a reserved value. DEDUCED, log 16. -/
def chk (clean : Bool) (v : Option Instr) : Except Bad Instr :=
  if clean then
    match v with
    | some i => if i.wf then .ok i else .error .reservedValue
    | none => .error .reservedValue
  else .error .reservedField

/-- Opcodes 0x00 to 0x0F (R126). -/
def decodeArith (w : DWord) : Except Bad Instr :=
  match (W.op w).toNat with
  | 0x00 => if w == 0 then .ok .nop else .error .reservedField
  | 0x01 => chk (W.b w == 0 && W.c w == 0 && W.mod w == 0) (some (.mov (Ty.ofCode (W.fn w)) (W.d w) (W.a w)))
  | 0x02 => chk (W.a w == 0) (some (.movi (Ty.ofCode (W.fn w)) (W.d w) (W.imm w)))
  | 0x03 => chk (W.c w == 0 && fld (W.mod w) 1 15 == 0) (some (.add (Ty.ofCode (W.fn w)) (W.d w) (W.a w) (W.b w) (bit (W.mod w) 0)))
  | 0x04 => chk true (some (.addi (Ty.ofCode (W.fn w)) (W.d w) (W.a w) (W.imm w)))
  | 0x05 => chk (W.c w == 0 && fld (W.mod w) 1 15 == 0) (some (.sub (Ty.ofCode (W.fn w)) (W.d w) (W.a w) (W.b w) (bit (W.mod w) 0)))
  | 0x06 => chk (W.c w == 0 && fld (W.mod w) 1 15 == 0) (some (.mul (Ty.ofCode (W.fn w)) (W.d w) (W.a w) (W.b w) (bit (W.mod w) 0)))
  | 0x07 => chk (W.c w == 0 && W.mod w == 0) (some (.mulh (Ty.ofCode (W.fn w)) (W.d w) (W.a w) (W.b w)))
  | 0x08 => chk (fld (W.mod w) 1 15 == 0) (some (.mad (Ty.ofCode (W.fn w)) (W.d w) (W.a w) (W.b w) (W.c w) (bit (W.mod w) 0)))
  | 0x09 => chk (W.c w == 0 && W.mod w == 0) (some (.div (Ty.ofCode (W.fn w)) (W.d w) (W.a w) (W.b w)))
  | 0x0A => chk (W.c w == 0 && W.mod w == 0) (some (.rem (Ty.ofCode (W.fn w)) (W.d w) (W.a w) (W.b w)))
  | 0x0B => chk (W.c w == 0 && W.mod w == 0) (some (.min (Ty.ofCode (W.fn w)) (W.d w) (W.a w) (W.b w)))
  | 0x0C => chk (W.c w == 0 && W.mod w == 0) (some (.max (Ty.ofCode (W.fn w)) (W.d w) (W.a w) (W.b w)))
  | 0x0D => chk (W.b w == 0 && W.c w == 0 && fld (W.mod w) 1 15 == 0) (some (.abs (Ty.ofCode (W.fn w)) (W.d w) (W.a w) (bit (W.mod w) 0)))
  | 0x0E => chk (W.b w == 0 && W.c w == 0 && fld (W.mod w) 1 15 == 0) (some (.neg (Ty.ofCode (W.fn w)) (W.d w) (W.a w) (bit (W.mod w) 0)))
  | 0x0F => chk (fld (W.mod w) 2 14 == 0) (some (.dp4 (Ty.ofCode (W.fn w)) (W.d w) (W.a w) (W.b w) (W.c w) (bit (W.mod w) 1) (bit (W.mod w) 0)))
  | _ => .error .unassigned

/-- Opcodes 0x10 to 0x1E (R126, R129, R132). -/
def decodeLogic (w : DWord) : Except Bad Instr :=
  match (W.op w).toNat with
  | 0x10 => chk (W.c w == 0 && W.mod w == 0) (some (.band (Ty.ofCode (W.fn w)) (W.d w) (W.a w) (W.b w)))
  | 0x11 => chk (W.c w == 0 && W.mod w == 0) (some (.bor (Ty.ofCode (W.fn w)) (W.d w) (W.a w) (W.b w)))
  | 0x12 => chk (W.c w == 0 && W.mod w == 0) (some (.bxor (Ty.ofCode (W.fn w)) (W.d w) (W.a w) (W.b w)))
  | 0x13 => chk (W.c w == 0 && W.mod w == 0) (some (.bandn (Ty.ofCode (W.fn w)) (W.d w) (W.a w) (W.b w)))
  | 0x14 => chk true (some (.andi (Ty.ofCode (W.fn w)) (W.d w) (W.a w) (W.imm w)))
  | 0x15 => chk true (some (.ori (Ty.ofCode (W.fn w)) (W.d w) (W.a w) (W.imm w)))
  | 0x16 => chk true (some (.xori (Ty.ofCode (W.fn w)) (W.d w) (W.a w) (W.imm w)))
  | 0x17 => chk (fld (W.mod w) 8 8 == 0) (some (.lop3 (Ty.ofCode (W.fn w)) (W.d w) (W.a w) (W.b w) (W.c w) (fld (W.mod w) 0 8)))
  | 0x18 => chk (W.c w == 0 && W.mod w == 0) (some (.shl (Ty.ofCode (W.fn w)) (W.d w) (W.a w) (W.b w)))
  | 0x19 => chk (W.c w == 0 && W.mod w == 0) (some (.shr (Ty.ofCode (W.fn w)) (W.d w) (W.a w) (W.b w)))
  | 0x1A => chk (W.c w == 0 && W.mod w == 0) (some (.sar (Ty.ofCode (W.fn w)) (W.d w) (W.a w) (W.b w)))
  | 0x1B => chk (W.c w == 0 && W.mod w == 0) (some (.rot (Ty.ofCode (W.fn w)) (W.d w) (W.a w) (W.b w)))
  | 0x1C => chk true (if fld (W.imm w) 6 28 == 0 then (some (.shli (Ty.ofCode (W.fn w)) (W.d w) (W.a w) (fld (W.imm w) 0 6))) else none)
  | 0x1D => chk true (if fld (W.imm w) 6 28 == 0 then (some (.shri (Ty.ofCode (W.fn w)) (W.d w) (W.a w) (fld (W.imm w) 0 6))) else none)
  | 0x1E => chk true (if fld (W.imm w) 6 28 == 0 then (some (.sari (Ty.ofCode (W.fn w)) (W.d w) (W.a w) (fld (W.imm w) 0 6))) else none)
  | _ => .error .unassigned

/-- Opcodes 0x20 to 0x2D (R126, R128, R133 to R135). -/
def decodeBits (w : DWord) : Except Bad Instr :=
  match (W.op w).toNat with
  | 0x20 => chk (W.b w == 0 && W.c w == 0 && W.mod w == 0) (some (.clz (Ty.ofCode (W.fn w)) (W.d w) (W.a w)))
  | 0x21 => chk (W.b w == 0 && W.c w == 0 && W.mod w == 0) (some (.popc (Ty.ofCode (W.fn w)) (W.d w) (W.a w)))
  | 0x22 => chk (W.b w == 0 && W.c w == 0 && W.mod w == 0) (some (.brev (Ty.ofCode (W.fn w)) (W.d w) (W.a w)))
  | 0x23 => chk (W.b w == 0 && W.c w == 0 && fld (W.mod w) 12 4 == 0) (some (.bfx (Ty.ofCode (W.fn w)) (W.d w) (W.a w) (fld (W.mod w) 0 6) (fld (W.mod w) 6 6)))
  | 0x24 => chk (W.c w == 0 && fld (W.mod w) 12 4 == 0) (some (.bfi (Ty.ofCode (W.fn w)) (W.d w) (W.a w) (W.b w) (fld (W.mod w) 0 6) (fld (W.mod w) 6 6)))
  | 0x28 => chk (W.c w == 0 && fld (W.mod w) 0 9 == 0 && fld (W.mod w) 13 3 == 0) ((Cond.ofCode (fld (W.mod w) 9 4)).map fun x => .cmp (Ty.ofCode (W.fn w)) (W.d w) (W.a w) (W.b w) x)
  | 0x29 => chk true ((Cond.ofCode (W.fn w)).map fun x => .cmpi x (W.d w) (W.a w) (W.imm w))
  | 0x2A => chk (W.mod w == 0) (some (.sel (Ty.ofCode (W.fn w)) (W.d w) (W.a w) (W.b w) (W.c w)))
  | 0x2B => chk (W.c w == 0 && fld (W.mod w) 3 13 == 0) (some (.lea (Ty.ofCode (W.fn w)) (W.d w) (W.a w) (W.b w) (fld (W.mod w) 0 3)))
  | 0x2C => chk (W.b w == 0 && W.c w == 0 && fld (W.mod w) 8 8 == 0) (if W.fn w == 0 then (CvtTy.ofCode (fld (W.mod w) 4 4)).bind fun x =>
      (CvtTy.ofCode (fld (W.mod w) 0 4)).map fun y => .cvti (W.d w) (W.a w) x y else none)
  | 0x2D => chk (W.b w == 0 && W.c w == 0 && fld (W.mod w) 8 8 == 0) (if W.fn w == 0 then (CvtTy.ofCode (fld (W.mod w) 4 4)).bind fun x =>
      (CvtTy.ofCode (fld (W.mod w) 0 4)).map fun y => .satn (W.d w) (W.a w) x y else none)
  | _ => .error .unassigned

/-- Opcodes 0x40 to 0x55 (R136, R137). -/
def decodeFloat (w : DWord) : Except Bad Instr :=
  match (W.op w).toNat with
  | 0x40 => chk (W.c w == 0 && fld (W.mod w) 5 1 == 0 && fld (W.mod w) 9 7 == 0) ((FMods.ofBits (W.mod w)).map fun m => .fadd (Ty.ofCode (W.fn w)) (W.d w) (W.a w) (W.b w) m)
  | 0x41 => chk (W.c w == 0 && fld (W.mod w) 5 1 == 0 && fld (W.mod w) 9 7 == 0) ((FMods.ofBits (W.mod w)).map fun m => .fsub (Ty.ofCode (W.fn w)) (W.d w) (W.a w) (W.b w) m)
  | 0x42 => chk (W.c w == 0 && fld (W.mod w) 5 1 == 0 && fld (W.mod w) 9 7 == 0) ((FMods.ofBits (W.mod w)).map fun m => .fmul (Ty.ofCode (W.fn w)) (W.d w) (W.a w) (W.b w) m)
  | 0x43 => chk (fld (W.mod w) 9 7 == 0) ((FMods.ofBits (W.mod w)).map fun m => .ffma (Ty.ofCode (W.fn w)) (W.d w) (W.a w) (W.b w) (W.c w) m)
  | 0x44 => chk (W.c w == 0 && fld (W.mod w) 5 1 == 0 && fld (W.mod w) 8 8 == 0) ((FMods.ofBits (W.mod w)).map fun m => .fmin (Ty.ofCode (W.fn w)) (W.d w) (W.a w) (W.b w) m)
  | 0x45 => chk (W.c w == 0 && fld (W.mod w) 5 1 == 0 && fld (W.mod w) 8 8 == 0) ((FMods.ofBits (W.mod w)).map fun m => .fmax (Ty.ofCode (W.fn w)) (W.d w) (W.a w) (W.b w) m)
  | 0x46 => chk (W.c w == 0 && fld (W.mod w) 0 3 == 0 && fld (W.mod w) 5 1 == 0 && fld (W.mod w) 8 1 == 0 && fld (W.mod w) 13 3 == 0) ((FMods.ofBits (W.mod w)).bind fun m => (Cond.ofCode (fld (W.mod w) 9 4)).map fun x =>
      .fcmp (Ty.ofCode (W.fn w)) (W.d w) (W.a w) (W.b w) x m)
  | 0x47 => chk (W.c w == 0 && fld (W.mod w) 5 1 == 0 && fld (W.mod w) 9 7 == 0) ((FMods.ofBits (W.mod w)).map fun m => .fdiv (Ty.ofCode (W.fn w)) (W.d w) (W.a w) (W.b w) m)
  | 0x48 => chk (W.b w == 0 && W.c w == 0 && fld (W.mod w) 4 2 == 0 && fld (W.mod w) 7 1 == 0 && fld (W.mod w) 9 7 == 0) ((FMods.ofBits (W.mod w)).map fun m => .frcp (Ty.ofCode (W.fn w)) (W.d w) (W.a w) m)
  | 0x49 => chk (W.b w == 0 && W.c w == 0 && fld (W.mod w) 4 2 == 0 && fld (W.mod w) 7 1 == 0 && fld (W.mod w) 9 7 == 0) ((FMods.ofBits (W.mod w)).map fun m => .frsq (Ty.ofCode (W.fn w)) (W.d w) (W.a w) m)
  | 0x4A => chk (W.b w == 0 && W.c w == 0 && fld (W.mod w) 4 2 == 0 && fld (W.mod w) 7 1 == 0 && fld (W.mod w) 8 8 == 0) ((FMods.ofBits (W.mod w)).map fun m => .fsqrt (Ty.ofCode (W.fn w)) (W.d w) (W.a w) m)
  | 0x4B => chk (W.b w == 0 && W.c w == 0 && fld (W.mod w) 4 2 == 0 && fld (W.mod w) 7 1 == 0 && fld (W.mod w) 9 7 == 0) ((FMods.ofBits (W.mod w)).map fun m => .fexp2 (Ty.ofCode (W.fn w)) (W.d w) (W.a w) m)
  | 0x4C => chk (W.b w == 0 && W.c w == 0 && fld (W.mod w) 4 2 == 0 && fld (W.mod w) 7 1 == 0 && fld (W.mod w) 9 7 == 0) ((FMods.ofBits (W.mod w)).map fun m => .flog2 (Ty.ofCode (W.fn w)) (W.d w) (W.a w) m)
  | 0x4D => chk (W.b w == 0 && W.c w == 0 && fld (W.mod w) 4 2 == 0 && fld (W.mod w) 7 1 == 0 && fld (W.mod w) 9 7 == 0) ((FMods.ofBits (W.mod w)).map fun m => .fsin (Ty.ofCode (W.fn w)) (W.d w) (W.a w) m)
  | 0x4E => chk (W.b w == 0 && W.c w == 0 && fld (W.mod w) 4 2 == 0 && fld (W.mod w) 7 1 == 0 && fld (W.mod w) 9 7 == 0) ((FMods.ofBits (W.mod w)).map fun m => .fcos (Ty.ofCode (W.fn w)) (W.d w) (W.a w) m)
  | 0x4F => chk (W.b w == 0 && W.c w == 0 && fld (W.mod w) 4 2 == 0 && fld (W.mod w) 7 1 == 0 && fld (W.mod w) 9 7 == 0) ((FMods.ofBits (W.mod w)).map fun m => .ftanh (Ty.ofCode (W.fn w)) (W.d w) (W.a w) m)
  | 0x50 => chk (W.b w == 0 && W.c w == 0 && fld (W.mod w) 4 2 == 0 && fld (W.mod w) 7 1 == 0 && fld (W.mod w) 8 8 == 0) ((FMods.ofBits (W.mod w)).map fun m => .frnd (Ty.ofCode (W.fn w)) (W.d w) (W.a w) m)
  | 0x51 => chk (W.c w == 0 && fld (W.mod w) 5 1 == 0 && fld (W.mod w) 15 1 == 0 && ((Ty.ofCode (fld (W.mod w) 9 4)).packedFloat || (W.b w == 0 && fld (W.mod w) 4 1 == 0 && fld (W.mod w) 7 1 == 0))) ((FMods.ofBits (W.mod w)).map fun m => .fcvt (Ty.ofCode (W.fn w)) (Ty.ofCode (fld (W.mod w) 9 4)) (W.d w) (W.a w) (W.b w) m)
  | 0x52 => chk (W.b w == 0 && W.c w == 0 && fld (W.mod w) 3 6 == 0 && fld (W.mod w) 15 1 == 0) ((FMods.ofBits (W.mod w)).map fun m => .ftoi (Ty.ofCode (W.fn w)) (Ty.ofCode (fld (W.mod w) 9 4)) (W.d w) (W.a w) m)
  | 0x53 => chk (W.b w == 0 && W.c w == 0 && fld (W.mod w) 3 6 == 0 && fld (W.mod w) 15 1 == 0) ((FMods.ofBits (W.mod w)).map fun m => .itof (Ty.ofCode (W.fn w)) (Ty.ofCode (fld (W.mod w) 9 4)) (W.d w) (W.a w) m)
  | 0x54 => chk (W.b w == 0 && W.c w == 0 && W.mod w == 0) (some (.fclass (Ty.ofCode (W.fn w)) (W.d w) (W.a w)))
  | 0x55 => chk (W.c w == 0 && fld (W.mod w) 4 2 == 0 && fld (W.mod w) 7 1 == 0 && fld (W.mod w) 9 7 == 0) ((FMods.ofBits (W.mod w)).map fun m => .fscale (Ty.ofCode (W.fn w)) (W.d w) (W.a w) (W.b w) m)
  | _ => .error .unassigned

/-- Opcodes 0x60 to 0x69 (R145 to R151). -/
def decodeBlock (w : DWord) : Except Bad Instr :=
  match (W.op w).toNat with
  | 0x60 => chk (W.b w == 0 && W.c w == 0 && W.mod w == 0) (if W.fn w == 0 then some (.bset (W.d w) (W.a w)) else none)
  | 0x61 => chk (W.b w == 0 && W.c w == 0 && W.mod w == 0) (if W.fn w == 0 then some (.bget (W.d w) (W.a w)) else none)
  | 0x62 => chk (W.c w == 0 && fld (W.mod w) 8 8 == 0) (if W.fn w == 0 then (BMods.ofBits (W.mod w)).map fun m => .badd (W.d w) (W.a w) (W.b w) m else none)
  | 0x63 => chk (W.c w == 0 && fld (W.mod w) 8 8 == 0) (if W.fn w == 0 then (BMods.ofBits (W.mod w)).map fun m => .bmul (W.d w) (W.a w) (W.b w) m else none)
  | 0x64 => chk (fld (W.mod w) 9 7 == 0) (if W.fn w == 0 then (BMods.ofBits (W.mod w)).map fun m => .bfma (W.d w) (W.a w) (W.b w) (W.c w) m else none)
  | 0x65 => chk (W.c w == 0 && fld (W.mod w) 8 8 == 0) (if W.fn w == 0 then (BMods.ofBits (W.mod w)).map fun m => .bmax (W.d w) (W.a w) (W.b w) m else none)
  | 0x66 => chk (W.b w == 0 && W.c w == 0 && fld (W.mod w) 7 9 == 0) (if W.fn w == 0 then (BMods.ofBits (W.mod w)).map fun m => .bnorm (W.d w) (W.a w) m else none)
  | 0x67 => chk (W.b w == 0 && W.c w == 0 && fld (W.mod w) 7 9 == 0) (if W.fn w == 0 then (BMods.ofBits (W.mod w)).map fun m => .bqnt (W.d w) (W.a w) m else none)
  | 0x68 => chk (W.b w == 0 && W.c w == 0 && fld (W.mod w) 7 9 == 0) (if W.fn w == 0 then (BMods.ofBits (W.mod w)).map fun m => .bdeq (W.d w) (W.a w) m else none)
  | 0x69 => chk (W.b w == 0 && W.c w == 0 && fld (W.mod w) 7 3 == 0 && fld (W.mod w) 13 3 == 0) (if W.fn w == 0 then (BMods.ofBits (W.mod w)).bind fun m =>
      (BTy.ofCode (fld (W.mod w) 10 3)).map fun y => .bcvt (W.d w) (W.a w) y m else none)
  | _ => .error .unassigned

/-- Opcodes 0x70 to 0x76 (R152 to R156). -/
def decodeCross (w : DWord) : Except Bad Instr :=
  match (W.op w).toNat with
  | 0x70 => chk ((if bit (W.mod w) 2 then W.b w == 0 else fld (W.mod w) 4 5 == 0) && W.c w == 0 && fld (W.mod w) 3 1 == 0 && fld (W.mod w) 9 7 == 0) (some (.shfl (Ty.ofCode (W.fn w)) (W.d w) (W.a w) (W.b w) (ShMode.ofCode (fld (W.mod w) 0 2)) (bit (W.mod w) 2) (fld (W.mod w) 4 5)))
  | 0x71 => chk (W.b w == 0 && W.c w == 0 && fld (W.mod w) 2 14 == 0) (if W.fn w == 0 then (some (.vote (W.d w) (W.a w) (VoteMode.ofCode (fld (W.mod w) 0 2)))) else none)
  | 0x72 => chk (W.b w == 0 && W.c w == 0 && fld (W.mod w) 7 9 == 0) ((RedOp.ofCode (fld (W.mod w) 0 4)).bind fun x => (Rnd.ofCode (fld (W.mod w) 4 3)).map fun y =>
      .red (Ty.ofCode (W.fn w)) (W.d w) (W.a w) x y)
  | 0x73 => chk (W.b w == 0 && W.c w == 0 && fld (W.mod w) 8 8 == 0) ((RedOp.ofCode (fld (W.mod w) 0 4)).bind fun x => (Rnd.ofCode (fld (W.mod w) 4 3)).map fun y =>
      .scan (Ty.ofCode (W.fn w)) (W.d w) (W.a w) x y (bit (W.mod w) 7))
  | 0x74 => chk (W.b w == 0 && W.c w == 0 && fld (W.mod w) 1 15 == 0) (some (.vmatch (Ty.ofCode (W.fn w)) (W.d w) (W.a w) (bit (W.mod w) 0)))
  | 0x75 => chk ((bit (W.mod w) 0 || W.a w == 0) && W.b w == 0 && W.c w == 0 && fld (W.mod w) 1 15 == 0) (if W.fn w == 0 then (some (.elect (W.d w) (W.a w) (bit (W.mod w) 0))) else none)
  | 0x76 => chk (W.b w == 0 && W.c w == 0 && fld (W.mod w) 6 10 == 0 && (bit (W.mod w) 5 || fld (W.mod w) 0 5 == 0)) (some (.bcast (Ty.ofCode (W.fn w)) (W.d w) (W.a w) (bit (W.mod w) 5) (fld (W.mod w) 0 5)))
  | _ => .error .unassigned

/-- Opcodes 0x80 to 0x8F and REP (R38, R157 to R163). -/
def decodeControl (w : DWord) : Except Bad Instr :=
  match (W.op w).toNat with
  | 0x80 => chk (W.brsv w == 0) ((BrCond.ofCode (W.fn w)).map fun x => .br x (W.ba w) (W.off40 w))
  | 0x81 => chk (W.fn w == 0 && W.ba w == 0 && W.brsv w == 0) (some (.bra (W.off40 w)))
  | 0x82 => chk (W.fn w == 0 && W.d w == 0 && W.b w == 0 && W.c w == 0 && W.mod w == 0) (some (.jmpr (W.a w)))
  | 0x83 => chk (W.fn w == 0 && W.ba w == 0 && W.brsv w == 0) (some (.call (W.off40 w)))
  | 0x84 => chk (W.fn w == 0 && W.d w == 0 && W.b w == 0 && W.c w == 0 && W.mod w == 0) (some (.callr (W.a w)))
  | 0x85 => chk (fld w 0 56 == 0) (some (.ret))
  | 0x86 => chk (W.fn w == 0 && W.a w == 0) (some (.join (W.d w) (W.imm w)))
  | 0x87 => chk (fld w 0 56 == 0) (some (.exit))
  | 0x88 => chk (W.fn w == 0 && W.d w == 0 && W.a w == 0 && W.b w == 0 && W.c w == 0) (some (.mark (W.mod w)))
  | 0x89 => chk (W.fn w == 0 && W.b w == 0 && W.c w == 0 && fld (W.mod w) 6 10 == 0) (some (.cut (W.d w) (W.a w) (fld (W.mod w) 0 6)))
  | 0x8A => chk (W.fn w == 0 && W.d w == 0 && W.c w == 0 && W.mod w == 0) (some (.graft (W.a w) (W.b w)))
  | 0x8B => chk (W.fn w == 0 && W.d w == 0 && W.b w == 0 && W.c w == 0 && W.mod w == 0) (some (.drop (W.a w)))
  | 0x8C => chk (W.fn w == 0 && W.d w == 0 && W.a w == 0) (if fld (W.imm w) 16 18 == 0 then (some (.trap (fld (W.imm w) 0 16))) else none)
  | 0x8D => chk (W.fn w == 0 && W.d w == 0 && W.a w == 0) (if fld (W.imm w) 16 18 == 0 then (some (.brk (fld (W.imm w) 0 16))) else none)
  | 0x8E => chk (fld w 0 56 == 0) (some (.yield))
  | 0x8F => chk (W.fn w == 0 && W.d w == 0 && W.a w == 0) (some (.sleep (W.imm w)))
  | 0x9E => chk (fld w 0 36 == 0) (some (.rep (W.fn w) (fld w 48 4) (fld w 44 4) (fld w 40 4) (fld w 36 4)))
  | _ => .error .unassigned

/-- Opcodes 0xA0 to 0xAE (R169 to R179). -/
def decodeMemory (w : DWord) : Except Bad Instr :=
  match (W.op w).toNat with
  | 0xA0 => chk true (if W.aux w == 0 then (Width.ofCode (W.fn w)).bind fun x => (MemF.ofWord w).map fun m =>
      .ld x (W.d w) m else none)
  | 0xA1 => chk true (if W.aux w == 0 then (Width.ofCode (W.fn w)).bind fun x => (MemF.ofWord w).map fun m =>
      .st x (W.d w) m else none)
  | 0xA2 => chk true (if W.aux w == 0 then (Width.ofCode (W.fn w)).bind fun x => (MemF.ofWord w).map fun m =>
      .lds x (W.d w) m else none)
  | 0xA3 => chk true (if W.aux w == 0 then (Width.ofCode (W.fn w)).bind fun x => (MemF.ofWord w).map fun m =>
      .sts x (W.d w) m else none)
  | 0xA4 => chk (W.hint w == 0 && (bit w 2 || W.a w == 0)) (if W.ord w == 0 && W.scope w == 0 && !bit w 3 then
      (Width.ofCode (W.fn w)).bind fun x => (Anchor.ofCode (fld w 0 2)).map fun y =>
      .ldp x (W.d w) (W.a w) (W.off22 w) y (bit w 2) else none)
  | 0xA5 => chk (W.hint w == 0 && (bit w 2 || W.a w == 0)) (if W.ord w == 0 && W.scope w == 0 && !bit w 3 then
      (Width.ofCode (W.fn w)).bind fun x => (Anchor.ofCode (fld w 0 2)).map fun y =>
      .stp x (W.d w) (W.a w) (W.off22 w) y (bit w 2) else none)
  | 0xA6 => chk true (if W.aux w == 0 then (Width.ofCode (W.fn w)).bind fun x => (MemF.ofWord w).map fun m =>
      .ldk x (W.d w) m else none)
  | 0xA7 => chk (W.d w == 0) (if W.aux w == 0 && W.fn w == 0 && W.ord w == 0 && W.scope w == 0 then
      some (.pref (W.a w) (W.off22 w) (Hint.ofCode (W.hint w))) else none)
  | 0xA8 => chk true (if W.hint w == 0 && (W.fn w == 2 || W.fn w == 3 || W.fn w == 10 || W.fn w == 11) then
      (AtomOp.ofCode (W.aux w)).bind fun x => (MOrd.ofCode (W.ord w)).bind fun o => (Scope.ofCode (W.scope w)).map fun s =>
      .atom (bit w 55) (bit w 52) x (W.d w) (W.a w) (W.off22 w) o s else none)
  | 0xA9 => chk (W.aux w == 0) (if W.fn w == 2 || W.fn w == 3 then (MemF.ofWord w).map fun m => .lr (bit w 52) (W.d w) m else none)
  | 0xAA => chk (W.aux w == 0) (if W.fn w == 2 || W.fn w == 3 then (MemF.ofWord w).map fun m => .sc (bit w 52) (W.d w) m else none)
  | 0xAB => chk (W.d w == 0 && W.a w == 0 && W.off22 w == 0 && W.hint w == 0 && W.aux w == 0) ((Scope.ofCode (W.scope w)).bind fun s =>
      match (W.fn w).toNat with
      | 0 => (MOrd.ofCode (W.ord w)).map fun o => .fence o s
      | 1 => if W.ord w == 2 then some (.fenceO2e s) else none
      | 2 => if W.ord w == 1 then some (.fenceE2o s) else none
      | _ => none)
  | 0xAC => chk (W.fn w == 0 && W.d w == 0 && W.a w == 0 && fld (W.imm w) 30 4 == 0) (some (.wait (fld (W.imm w) 24 6) (fld (W.imm w) 18 6) (fld (W.imm w) 12 6) (fld (W.imm w) 6 6) (fld (W.imm w) 0 6)))
  | 0xAD => chk true (if W.fn w == 2 then (MOrd.ofCode (W.ord w)).bind fun o => (Scope.ofCode (W.scope w)).map fun s =>
      .stb (W.d w) (W.a w) (W.off22 w) o s (fld w 0 6) else none)
  | 0xAE => chk (W.fn w == 0 && W.d w == 0 && W.a w == 0 && fld (W.imm w) 16 18 == 0) (some (.bar (fld (W.imm w) 0 4) (bit (W.imm w) 4) (fld (W.imm w) 5 11)))
  | _ => .error .unassigned

/-- Opcodes 0xB0 to 0xB7 (R182, R185). -/
def decodeArrive (w : DWord) : Except Bad Instr :=
  match (W.op w).toNat with
  | 0xB0 => chk (fld w 0 6 == 0) (if (W.fn w == 0 || W.fn w == 1) then (MOrd.ofCode (W.ord w)).bind fun o => (Scope.ofCode (W.scope w)).map fun s =>
      .awinit (bit w 52) (W.d w) (W.a w) (W.off22 w) o s else none)
  | 0xB1 => chk (fld w 0 6 == 0) (if (W.fn w == 0 || W.fn w == 1) && W.ord w == 1 then (Scope.ofCode (W.scope w)).map fun s =>
      .await (bit w 52) (W.d w) (W.a w) (W.off22 w) s else none)
  | 0xB2 => chk (fld w 0 6 == 0) (if (W.fn w == 0 || W.fn w == 1) then (MOrd.ofCode (W.ord w)).bind fun o => (Scope.ofCode (W.scope w)).map fun s =>
      .awadd (bit w 52) (W.d w) (W.a w) (W.off22 w) o s else none)
  | 0xB3 => chk (fld w 0 6 == 0) (if (W.fn w == 0 || W.fn w == 1) then (MOrd.ofCode (W.ord w)).bind fun o => (Scope.ofCode (W.scope w)).map fun s =>
      .awget (bit w 52) (W.d w) (W.a w) (W.off22 w) o s else none)
  | 0xB4 => chk (W.fn w == 0 && W.b w == 0 && W.c w == 0 && fld (W.mod w) 3 13 == 0) (some (.sbind (W.d w) (W.a w) (fld (W.mod w) 0 3)))
  | 0xB5 => chk (W.fn w == 0 && W.a w == 0 && W.b w == 0 && W.c w == 0 && fld (W.mod w) 3 13 == 0) (some (.sstart (W.d w) (fld (W.mod w) 0 3)))
  | 0xB6 => chk (W.fn w == 0 && W.d w == 0 && W.a w == 0 && W.b w == 0 && W.c w == 0 && fld (W.mod w) 3 13 == 0) (some (.sstop (fld (W.mod w) 0 3)))
  | 0xB7 => chk (W.fn w == 0 && W.a w == 0 && W.b w == 0 && W.c w == 0 && fld (W.mod w) 3 13 == 0) (some (.sstat (W.d w) (fld (W.mod w) 0 3)))
  | _ => .error .unassigned

/-- Opcodes 0xC0 to 0xCF (R206 to R218). -/
def decodeSweep (w : DWord) : Except Bad Instr :=
  match (W.op w).toNat with
  | 0xC0 => chk (fld (W.smod w) 5 2 == 0) ((SwF.ofWord w).bind fun f => (SwM.ofBits (W.smod w)).map fun m => .swadd f m)
  | 0xC1 => chk (fld (W.smod w) 5 2 == 0) ((SwF.ofWord w).bind fun f => (SwM.ofBits (W.smod w)).map fun m => .swmul f m)
  | 0xC2 => chk (fld (W.smod w) 5 2 == 0) ((SwF.ofWord w).bind fun f => (SwM.ofBits (W.smod w)).map fun m => .swfma f m)
  | 0xC3 => chk (fld (W.smod w) 1 6 == 0) ((SwF.ofWord w).map fun f => .swmax f (bit (W.smod w) 0))
  | 0xC4 => chk (fld (W.smod w) 1 6 == 0) ((SwF.ofWord w).map fun f => .swmin f (bit (W.smod w) 0))
  | 0xC5 => chk (fld (W.smod w) 5 2 == 0) ((SwF.ofWord w).bind fun f => (SwM.ofBits (W.smod w)).map fun m => .swexp f m)
  | 0xC6 => chk (fld (W.smod w) 5 2 == 0 && fld (W.smod w) 0 1 == 0 && W.sb w == 0) ((SwF.ofWord w).bind fun f => (SwM.ofBits (W.smod w)).map fun m =>
      .swrcp f m)
  | 0xC7 => chk (fld (W.smod w) 0 1 == 0 && W.sb w == 0) ((SwF.ofWord w).bind fun f => (STy.ofDcode (fld (W.smod w) 4 3)).bind fun x =>
      (Rnd.ofCode (fld (W.smod w) 1 3)).map fun y => .swcvt f x y)
  | 0xC8 => chk (fld (W.smod w) 0 1 == 0 && W.sb w == 0) ((SwF.ofWord w).bind fun f => (MxTy.ofCode (fld (W.smod w) 4 3)).bind fun x =>
      (Rnd.ofCode (fld (W.smod w) 1 3)).map fun y => .swqmx f x y)
  | 0xC9 => chk (fld (W.smod w) 0 1 == 0 && W.sb w == 0) ((SwF.ofWord w).bind fun f => (MxTy.ofCode (fld (W.smod w) 4 3)).bind fun x =>
      (Rnd.ofCode (fld (W.smod w) 1 3)).map fun y => .swdmx f x y)
  | 0xCA => chk (fld (W.smod w) 0 1 == 0 && W.sb w == 0) ((SwF.ofWord w).bind fun f => (FoldOp.ofCode (fld (W.smod w) 5 2)).bind fun x =>
      (Rnd.ofCode (fld (W.smod w) 1 3)).map fun y => .swred f x (bit (W.smod w) 4) y)
  | 0xCB => chk (fld (W.smod w) 1 2 == 0 && W.bound w == 0) ((SwF.ofWord w).bind fun f => (Cond.ofCode (fld (W.smod w) 3 4)).map fun x =>
      .swcmp f x (bit (W.smod w) 0))
  | 0xCC => chk (fld (W.smod w) 1 6 == 0) ((SwF.ofWord w).map fun f => .swsel f (bit (W.smod w) 0))
  | 0xCD => chk (fld (W.smod w) 1 6 == 0 && (if bit (W.smod w) 0 then W.sa w == 0 else W.sb w == 0)) ((SwF.ofWord w).map fun f => .swcpy f (bit (W.smod w) 0))
  | 0xCE => chk (fld (W.smod w) 0 2 == 0) ((SwF.ofWord w).map fun f => .swgat f (fld (W.smod w) 2 5))
  | 0xCF => chk ((W.smod w) == 0 && W.sb w == 0) ((SwF.ofWord w).map fun f => .swtrn f)
  | _ => .error .unassigned

/-- Opcodes 0xD0 to 0xDD (R271, R233, R238, R240). -/
def decodeTileCopy (w : DWord) : Except Bad Instr :=
  match (W.op w).toNat with
  | 0xD0 => chk (W.fn w == 0 && W.b w == 0 && W.c w == 0 && fld (W.mod w) 3 13 == 0) (some (.tgang (W.d w) (W.a w) (fld (W.mod w) 0 3)))
  | 0xD1 => chk (W.fn w == 0 && W.mod w == 0) (some (.tldb (W.d w) (W.a w) (W.b w) (W.c w)))
  | 0xD2 => chk (W.fn w == 0 && W.c w == 0 && W.mod w == 0) (some (.tldm (W.d w) (W.a w) (W.b w)))
  | 0xD3 => chk (W.fn w == 0 && W.mod w == 0) (some (.tmma (W.d w) (W.a w) (W.b w) (W.c w)))
  | 0xD4 => chk (W.fn w == 0 && W.b w == 0 && W.c w == 0 && W.mod w == 0) (some (.tzero (W.d w) (W.a w)))
  | 0xD5 => chk (W.fn w == 0 && W.c w == 0 && fld (W.mod w) 15 1 == 0) ((Rnd.ofCode (fld (W.mod w) 10 3)).bind fun x => (TstTy.ofCode (fld (W.mod w) 6 4)).map fun y =>
      .tst (W.d w) (W.a w) (W.b w) (bit (W.mod w) 14) (bit (W.mod w) 13) x y (fld (W.mod w) 0 6))
  | 0xD6 => chk (W.fn w == 0 && W.a w == 0 && W.b w == 0 && W.c w == 0 && fld (W.mod w) 2 14 == 0) ((TstatSel.ofCode (fld (W.mod w) 0 2)).map fun x => .tstat (W.d w) x)
  | 0xD7 => chk (W.fn w == 0 && W.a w == 0 && W.b w == 0 && W.c w == 0 && fld (W.mod w) 1 15 == 0) (some (.tmir (W.d w) (bit (W.mod w) 0)))
  | 0xD8 => chk (W.fn w == 0 && W.b w == 0 && W.c w == 0 && W.mod w == 0) (some (.claim (W.d w) (W.a w)))
  | 0xD9 => chk (W.fn w == 0 && fld (W.mod w) 1 15 == 0) (some (.flow (W.d w) (W.a w) (W.b w) (W.c w) (bit (W.mod w) 0)))
  | 0xDA => chk (W.fn w == 0 && W.b w == 0 && W.c w == 0 && W.mod w == 0) (some (.rlse (W.d w) (W.a w)))
  | 0xDB => chk (W.fn w == 0 && W.b w == 0 && W.c w == 0 && W.mod w == 0) (some (.cqry (W.d w) (W.a w)))
  | 0xDC => chk (W.fn w == 0 && W.c w == 0 && W.mod w == 0) (some (.cpin (W.d w) (W.a w) (W.b w)))
  | 0xDD => chk (W.fn w == 0 && W.c w == 0 && W.mod w == 0) (some (.cunpin (W.d w) (W.a w) (W.b w)))
  | _ => .error .unassigned

/-- Opcodes 0xE0 to 0xF1 (R297 to R313, R335, R336, R349, R350, R353, R189). -/
def decodeFabricLaunch (w : DWord) : Except Bad Instr :=
  match (W.op w).toNat with
  | 0xE0 => chk (W.fn w == 0 && fld (W.mod w) 1 15 == 0) (some (.puts (W.d w) (W.a w) (W.b w) (W.c w) (bit (W.mod w) 0)))
  | 0xE1 => chk (W.fn w == 0 && fld (W.mod w) 1 15 == 0) (some (.get (W.d w) (W.a w) (W.b w) (W.c w) (bit (W.mod w) 0)))
  | 0xE2 => chk (W.fn w == 0 && fld (W.mod w) 1 15 == 0) (some (.radd (W.d w) (W.a w) (W.b w) (W.c w) (bit (W.mod w) 0)))
  | 0xE3 => chk (W.fn w == 0 && fld (W.mod w) 5 11 == 0) ((AtomOp.ofCode (fld (W.mod w) 0 4)).map fun x => .ratom (bit (W.mod w) 4) x (W.d w) (W.a w) (W.b w) (W.c w))
  | 0xE4 => chk (W.fn w == 0 && fld (W.mod w) 1 15 == 0) (some (.mcst (W.d w) (W.a w) (W.b w) (W.c w) (bit (W.mod w) 0)))
  | 0xE5 => chk (W.fn w == 0 && W.b w == 0 && W.c w == 0 && W.mod w == 0) (some (.mcseq (W.d w) (W.a w)))
  | 0xE6 => chk (W.fn w == 0 && W.b w == 0 && W.c w == 0 && W.mod w == 0) (some (.ring (W.d w) (W.a w)))
  | 0xE7 => chk (fld w 0 56 == 0) (some (.fquiet))
  | 0xE8 => chk (W.fn w == 0 && W.d w == 0 && fld (W.imm w) 12 22 == 0) (some (.lset (W.a w) (fld (W.imm w) 0 12)))
  | 0xE9 => chk (fld w 0 56 == 0) (some (.lcancel))
  | 0xEA => chk (fld w 0 56 == 0) (some (.lrepeat))
  | 0xEB => chk (fld w 0 56 == 0) (some (.lend))
  | 0xEC => chk (W.fn w == 0 && W.c w == 0 && fld (W.mod w) 3 13 == 0) ((Scope.ofCode (fld (W.mod w) 0 3)).map fun s => .evsig (W.d w) (W.a w) (W.b w) s)
  | 0xED => chk (W.fn w == 0 && fld (W.mod w) 3 13 == 0) ((Scope.ofCode (fld (W.mod w) 0 3)).map fun s => .evwait (W.d w) (W.a w) (W.b w) (W.c w) s)
  | 0xEE => chk (W.fn w == 0 && W.d w == 0 && W.b w == 0 && W.c w == 0 && W.mod w == 0) (some (.gcheck (W.a w)))
  | 0xF0 => chk (W.fn w == 0 && W.a w == 0 && fld (W.imm w) 12 22 == 0) (some (.gets (W.d w) (fld (W.imm w) 0 12)))
  | 0xF1 => chk (W.fn w == 0 && W.d w == 0 && fld (W.imm w) 12 22 == 0) (some (.sets (fld (W.imm w) 0 12) (W.a w)))
  | _ => .error .unassigned

/-- An instruction word (R34, R45, R46). -/
def decodeWord (w : DWord) : Except Bad Instr :=
  match (fld w 60 4).toNat with
  | 0x0 => decodeArith w
  | 0x1 => decodeLogic w
  | 0x2 => decodeBits w
  | 0x4 | 0x5 => decodeFloat w
  | 0x6 => decodeBlock w
  | 0x7 => decodeCross w
  | 0x8 | 0x9 => decodeControl w
  | 0xA => decodeMemory w
  | 0xB => decodeArrive w
  | 0xC => decodeSweep w
  | 0xD => decodeTileCopy w
  | 0xE | 0xF => decodeFabricLaunch w
  | _ => .error .unassigned

/-- A word at a header position (R27). Whether it is a legal header is checked when it is reached (R29). -/
def decodeHeader (w : DWord) : Header :=
  { sig := fld w 60 4, cls := fld w 56 4, cnt := fld w 52 4, wL := fld w 46 6, wS := fld w 40 6, wC := fld w 34 6,
    wT := fld w 28 6, wF := fld w 22 6, yld := fld w 21 1, rsv := fld w 0 21 }

/-- The class of an opcode (R45): none for an unassigned one; 15 stands for "any" (REP, R45). -/
def opClass (op : BitVec 8) : Option Nat :=
  let n := op.toNat
  if n ≤ 0x1E ∨ (0x20 ≤ n ∧ n ≤ 0x24) ∨ (0x28 ≤ n ∧ n ≤ 0x2D) ∨ (0x40 ≤ n ∧ n ≤ 0x55) ∨ (0x60 ≤ n ∧ n ≤ 0x69) ∨
      (0x70 ≤ n ∧ n ≤ 0x76) ∨ (0x80 ≤ n ∧ n ≤ 0x8F) ∨ (0xA0 ≤ n ∧ n ≤ 0xAE) ∨ (0xB0 ≤ n ∧ n ≤ 0xB7) then some 0
  else if n = 0x9E then some 15
  else if 0xC0 ≤ n ∧ n ≤ 0xCF then some 1
  else if 0xD0 ≤ n ∧ n ≤ 0xD7 then some 2
  else if 0xD8 ≤ n ∧ n ≤ 0xDD then some 3
  else if 0xE0 ≤ n ∧ n ≤ 0xE7 then some 4
  else if (0xE8 ≤ n ∧ n ≤ 0xEB) ∨ n = 0xEE then some 5
  else if n = 0xEC ∨ n = 0xED ∨ n = 0xF0 ∨ n = 0xF1 then some 6
  else none

/-- The clause-ending opcodes (R30). -/
def opEnds (op : BitVec 8) : Bool :=
  let n := op.toNat
  (0x80 ≤ n ∧ n ≤ 0x87) ∨ n = 0x89 ∨ n = 0x8A ∨ n = 0x8E ∨ n = 0x8F ∨ n = 0xAC ∨ n = 0xAE ∨ n = 0xB1 ∨ n = 0xD3 ∨
    n = 0xE7 ∨ (0xE9 ≤ n ∧ n ≤ 0xEB) ∨ n = 0xED ∨ n = 0xEE

/-- The instruction that the decoder reads from a table word: a 64-bit instruction word. A clause header is known by
its position alone (R27), so a word is read here as an instruction. -/
def decodeTableWord (_nbits w : Nat) : Option Instr :=
  match decodeWord (BitVec.ofNat 64 w) with
  | .ok i => some i
  | .error _ => none

/-! ### The encoder -/

/-- mod with one option bit. -/
def mod1 (b : Bool) : BitVec 16 := 0#15 ++ b1 b

/-- The word of an instruction; none for a step that has no encoding. -/
def encode : Instr → Option DWord
  | .clauseHeader h => some (h.sig ++ h.cls ++ h.cnt ++ h.wL ++ h.wS ++ h.wC ++ h.wT ++ h.wF ++ h.yld ++ h.rsv)
  | .nop => some (0)
  | .mov t d a => some (fr 0x01 t.code d a 0 0 0)
  | .movi t d imm => some (fi 0x02 t.code d 0 imm)
  | .add t d a b s => some (fr 0x03 t.code d a b 0 (mod1 s))
  | .sub t d a b s => some (fr 0x05 t.code d a b 0 (mod1 s))
  | .mul t d a b s => some (fr 0x06 t.code d a b 0 (mod1 s))
  | .addi t d a imm => some (fi 0x04 t.code d a imm)
  | .andi t d a imm => some (fi 0x14 t.code d a imm)
  | .ori t d a imm => some (fi 0x15 t.code d a imm)
  | .xori t d a imm => some (fi 0x16 t.code d a imm)
  | .mulh t d a b => some (fr 0x07 t.code d a b 0 0)
  | .div t d a b => some (fr 0x09 t.code d a b 0 0)
  | .rem t d a b => some (fr 0x0A t.code d a b 0 0)
  | .min t d a b => some (fr 0x0B t.code d a b 0 0)
  | .max t d a b => some (fr 0x0C t.code d a b 0 0)
  | .band t d a b => some (fr 0x10 t.code d a b 0 0)
  | .bor t d a b => some (fr 0x11 t.code d a b 0 0)
  | .bxor t d a b => some (fr 0x12 t.code d a b 0 0)
  | .bandn t d a b => some (fr 0x13 t.code d a b 0 0)
  | .shl t d a b => some (fr 0x18 t.code d a b 0 0)
  | .shr t d a b => some (fr 0x19 t.code d a b 0 0)
  | .sar t d a b => some (fr 0x1A t.code d a b 0 0)
  | .rot t d a b => some (fr 0x1B t.code d a b 0 0)
  | .mad t d a b c s => some (fr 0x08 t.code d a b c (mod1 s))
  | .abs t d a s => some (fr 0x0D t.code d a 0 0 (mod1 s))
  | .neg t d a s => some (fr 0x0E t.code d a 0 0 (mod1 s))
  | .dp4 t d a b c mix s => some (fr 0x0F t.code d a b c (0#14 ++ b1 mix ++ b1 s))
  | .lop3 t d a b c x => some (fr 0x17 t.code d a b c (0#8 ++ x))
  | .shli t d a n => some (fi 0x1C t.code d a (0#28 ++ n))
  | .shri t d a n => some (fi 0x1D t.code d a (0#28 ++ n))
  | .sari t d a n => some (fi 0x1E t.code d a (0#28 ++ n))
  | .clz t d a => some (fr 0x20 t.code d a 0 0 0)
  | .popc t d a => some (fr 0x21 t.code d a 0 0 0)
  | .brev t d a => some (fr 0x22 t.code d a 0 0 0)
  | .fclass t d a => some (fr 0x54 t.code d a 0 0 0)
  | .bfx t d a pos len1 => some (fr 0x23 t.code d a 0 0 (0#4 ++ len1 ++ pos))
  | .bfi t d a b pos len1 => some (fr 0x24 t.code d a b 0 (0#4 ++ len1 ++ pos))
  | .cmp t d a b x => some (fr 0x28 t.code d a b 0 (0#3 ++ x.code ++ 0#9))
  | .cmpi x d a imm => some (fi 0x29 x.code d a imm)
  | .sel t d a b c => some (fr 0x2A t.code d a b c 0)
  | .lea t d a b sh => some (fr 0x2B t.code d a b 0 (0#13 ++ sh))
  | .cvti d a x y => some (fr 0x2C 0 d a 0 0 (0#8 ++ x.code ++ y.code))
  | .satn d a x y => some (fr 0x2D 0 d a 0 0 (0#8 ++ x.code ++ y.code))
  | .fadd t d a b m => some (fr 0x40 t.code d a b 0 (m.bits 0))
  | .fsub t d a b m => some (fr 0x41 t.code d a b 0 (m.bits 0))
  | .fmul t d a b m => some (fr 0x42 t.code d a b 0 (m.bits 0))
  | .fmin t d a b m => some (fr 0x44 t.code d a b 0 (m.bits 0))
  | .fmax t d a b m => some (fr 0x45 t.code d a b 0 (m.bits 0))
  | .fdiv t d a b m => some (fr 0x47 t.code d a b 0 (m.bits 0))
  | .fscale t d a b m => some (fr 0x55 t.code d a b 0 (m.bits 0))
  | .ffma t d a b c m => some (fr 0x43 t.code d a b c (m.bits 0))
  | .fcmp t d a b x m => some (fr 0x46 t.code d a b 0 (m.bits x.code))
  | .frcp t d a m => some (fr 0x48 t.code d a 0 0 (m.bits 0))
  | .frsq t d a m => some (fr 0x49 t.code d a 0 0 (m.bits 0))
  | .fsqrt t d a m => some (fr 0x4A t.code d a 0 0 (m.bits 0))
  | .fexp2 t d a m => some (fr 0x4B t.code d a 0 0 (m.bits 0))
  | .flog2 t d a m => some (fr 0x4C t.code d a 0 0 (m.bits 0))
  | .fsin t d a m => some (fr 0x4D t.code d a 0 0 (m.bits 0))
  | .fcos t d a m => some (fr 0x4E t.code d a 0 0 (m.bits 0))
  | .ftanh t d a m => some (fr 0x4F t.code d a 0 0 (m.bits 0))
  | .frnd t d a m => some (fr 0x50 t.code d a 0 0 (m.bits 0))
  | .fcvt t u d a b m => some (fr 0x51 t.code d a b 0 (m.bits u.code))
  | .ftoi t u d a m => some (fr 0x52 t.code d a 0 0 (m.bits u.code))
  | .itof t u d a m => some (fr 0x53 t.code d a 0 0 (m.bits u.code))
  | .bset d a => some (fr 0x60 0 d a 0 0 0)
  | .bget d a => some (fr 0x61 0 d a 0 0 0)
  | .badd d a b m => some (fr 0x62 0 d a b 0 (m.bits 0))
  | .bmul d a b m => some (fr 0x63 0 d a b 0 (m.bits 0))
  | .bmax d a b m => some (fr 0x65 0 d a b 0 (m.bits 0))
  | .bfma d a b c m => some (fr 0x64 0 d a b c (m.bits 0))
  | .bnorm d a m => some (fr 0x66 0 d a 0 0 (m.bits 0))
  | .bqnt d a m => some (fr 0x67 0 d a 0 0 (m.bits 0))
  | .bdeq d a m => some (fr 0x68 0 d a 0 0 (m.bits 0))
  | .bcvt d a y m => some (fr 0x69 0 d a 0 0 (m.bits y.code))
  | .shfl t d a b mode im off => some (fr 0x70 t.code d a b 0 (0#7 ++ off ++ 0#1 ++ b1 im ++ mode.code))
  | .vote d a mode => some (fr 0x71 0 d a 0 0 (0#14 ++ mode.code))
  | .red t d a x r => some (fr 0x72 t.code d a 0 0 (0#9 ++ r.code ++ x.code))
  | .scan t d a x r excl => some (fr 0x73 t.code d a 0 0 (0#8 ++ b1 excl ++ r.code ++ x.code))
  | .vmatch t d a al => some (fr 0x74 t.code d a 0 0 (mod1 al))
  | .elect d a nz => some (fr 0x75 0 d a 0 0 (mod1 nz))
  | .bcast t d a fx slot => some (fr 0x76 t.code d a 0 0 (0#10 ++ b1 fx ++ slot))
  | .br x a off => some (fb 0x80 x.code a off)
  | .bra off => some (fb 0x81 0 0 off)
  | .jmpr a => some (fr 0x82 0 0 a 0 0 0)
  | .call off => some (fb 0x83 0 0 off)
  | .callr a => some (fr 0x84 0 0 a 0 0 0)
  | .ret => some (fr 0x85 0 0 0 0 0 0)
  | .join d x => some (fi 0x86 0 d 0 x)
  | .exit => some (fr 0x87 0 0 0 0 0 0)
  | .mark off => some (fr 0x88 0 0 0 0 0 off)
  | .cut d a n => some (fr 0x89 0 d a 0 0 (0#10 ++ n))
  | .graft a b => some (fr 0x8A 0 0 a b 0 0)
  | .drop a => some (fr 0x8B 0 0 a 0 0 0)
  | .trap x => some (fi 0x8C 0 0 0 (0#18 ++ x))
  | .brk x => some (fi 0x8D 0 0 0 (0#18 ++ x))
  | .yield => some (fr 0x8E 0 0 0 0 0 0)
  | .sleep n => some (fi 0x8F 0 0 0 n)
  | .rep n1 sd sa sb sc => some (fp 0x9E n1 sd sa sb sc)
  | .ld x d m => some (fm 0xA0 x.code d m.base m.off m.ord.code m.scope.code m.hint.code 0)
  | .st x d m => some (fm 0xA1 x.code d m.base m.off m.ord.code m.scope.code m.hint.code 0)
  | .lds x d m => some (fm 0xA2 x.code d m.base m.off m.ord.code m.scope.code m.hint.code 0)
  | .sts x d m => some (fm 0xA3 x.code d m.base m.off m.ord.code m.scope.code m.hint.code 0)
  | .ldk x d m => some (fm 0xA6 x.code d m.base m.off m.ord.code m.scope.code m.hint.code 0)
  | .ldp x d base off an idx => some (fm 0xA4 x.code d base off 0 0 0 (0#1 ++ b1 idx ++ an.code))
  | .stp x d base off an idx => some (fm 0xA5 x.code d base off 0 0 0 (0#1 ++ b1 idx ++ an.code))
  | .pref base off hint => some (fm 0xA7 0 0 base off 0 0 hint.code 0)
  | .atom scr wide x d base off o s => some (fm 0xA8 (b1 scr ++ 0#1 ++ 1#1 ++ b1 wide) d base off o.code s.code 0 x.code)
  | .lr wide d m => some (fm 0xA9 (0#2 ++ 1#1 ++ b1 wide) d m.base m.off m.ord.code m.scope.code m.hint.code 0)
  | .sc wide d m => some (fm 0xAA (0#2 ++ 1#1 ++ b1 wide) d m.base m.off m.ord.code m.scope.code m.hint.code 0)
  | .fence o s => some (fm 0xAB 0 0 0 0 o.code s.code 0 0)
  | .fenceO2e s => some (fm 0xAB 1 0 0 0 2 s.code 0 0)
  | .fenceE2o s => some (fm 0xAB 2 0 0 0 1 s.code 0 0)
  | .wait l s c t f => some (fi 0xAC 0 0 0 (0#4 ++ l ++ s ++ c ++ t ++ f))
  | .stb d base off o s k => some (fm 0xAD 2 d base off o.code s.code (fld k 4 2) (fld k 0 4))
  | .bar id arr count => some (fi 0xAE 0 0 0 (0#18 ++ count ++ b1 arr ++ id))
  | .awinit scr d base off o s => some (fm 0xB0 (0#3 ++ b1 scr) d base off o.code s.code 0 0)
  | .awadd scr d base off o s => some (fm 0xB2 (0#3 ++ b1 scr) d base off o.code s.code 0 0)
  | .awget scr d base off o s => some (fm 0xB3 (0#3 ++ b1 scr) d base off o.code s.code 0 0)
  | .await scr d base off s => some (fm 0xB1 (0#3 ++ b1 scr) d base off 1 s.code 0 0)
  | .sbind d a k => some (fr 0xB4 0 d a 0 0 (0#13 ++ k))
  | .sstart d k => some (fr 0xB5 0 d 0 0 0 (0#13 ++ k))
  | .sstat d k => some (fr 0xB7 0 d 0 0 0 (0#13 ++ k))
  | .sstop k => some (fr 0xB6 0 0 0 0 0 (0#13 ++ k))
  | .swadd f m => some (fs 0xC0 f.ty.code f.count f.d f.a f.b f.bound m.bits)
  | .swmul f m => some (fs 0xC1 f.ty.code f.count f.d f.a f.b f.bound m.bits)
  | .swfma f m => some (fs 0xC2 f.ty.code f.count f.d f.a f.b f.bound m.bits)
  | .swexp f m => some (fs 0xC5 f.ty.code f.count f.d f.a f.b f.bound m.bits)
  | .swrcp f m => some (fs 0xC6 f.ty.code f.count f.d f.a f.b f.bound m.bits)
  | .swmax f x => some (fs 0xC3 f.ty.code f.count f.d f.a f.b f.bound (0#6 ++ b1 x))
  | .swmin f x => some (fs 0xC4 f.ty.code f.count f.d f.a f.b f.bound (0#6 ++ b1 x))
  | .swsel f x => some (fs 0xCC f.ty.code f.count f.d f.a f.b f.bound (0#6 ++ b1 x))
  | .swcpy f x => some (fs 0xCD f.ty.code f.count f.d f.a f.b f.bound (0#6 ++ b1 x))
  | .swcvt f x r => some (fs 0xC7 f.ty.code f.count f.d f.a f.b f.bound (x.dcode ++ r.code ++ 0#1))
  | .swqmx f x r => some (fs 0xC8 f.ty.code f.count f.d f.a f.b f.bound (x.code ++ r.code ++ 0#1))
  | .swdmx f x r => some (fs 0xC9 f.ty.code f.count f.d f.a f.b f.bound (x.code ++ r.code ++ 0#1))
  | .swred f x acc r => some (fs 0xCA f.ty.code f.count f.d f.a f.b f.bound (x.code ++ b1 acc ++ r.code ++ 0#1))
  | .swcmp f x sc => some (fs 0xCB f.ty.code f.count f.d f.a f.b f.bound (x.code ++ 0#2 ++ b1 sc))
  | .swgat f n => some (fs 0xCE f.ty.code f.count f.d f.a f.b f.bound (n ++ 0#2))
  | .swtrn f => some (fs 0xCF f.ty.code f.count f.d f.a f.b f.bound 0)
  | .tgang d a n => some (fr 0xD0 0 d a 0 0 (0#13 ++ n))
  | .tldb d a b c => some (fr 0xD1 0 d a b c 0)
  | .tldm d a b => some (fr 0xD2 0 d a b 0 0)
  | .tmma d a b c => some (fr 0xD3 0 d a b c 0)
  | .tzero d a => some (fr 0xD4 0 d a 0 0 0)
  | .tst d a b clr s r y k => some (fr 0xD5 0 d a b 0 (0#1 ++ b1 clr ++ b1 s ++ r.code ++ y.code ++ k))
  | .tstat d x => some (fr 0xD6 0 d 0 0 0 (0#14 ++ x.code))
  | .tmir d x => some (fr 0xD7 0 d 0 0 0 (mod1 x))
  | .claim d a => some (fr 0xD8 0 d a 0 0 0)
  | .flow d a b c x => some (fr 0xD9 0 d a b c (mod1 x))
  | .puts d a b c x => some (fr 0xE0 0 d a b c (mod1 x))
  | .get d a b c x => some (fr 0xE1 0 d a b c (mod1 x))
  | .radd d a b c x => some (fr 0xE2 0 d a b c (mod1 x))
  | .mcst d a b c x => some (fr 0xE4 0 d a b c (mod1 x))
  | .rlse d a => some (fr 0xDA 0 d a 0 0 0)
  | .cqry d a => some (fr 0xDB 0 d a 0 0 0)
  | .mcseq d a => some (fr 0xE5 0 d a 0 0 0)
  | .ring d a => some (fr 0xE6 0 d a 0 0 0)
  | .cpin d a b => some (fr 0xDC 0 d a b 0 0)
  | .cunpin d a b => some (fr 0xDD 0 d a b 0 0)
  | .ratom wide x d a b c => some (fr 0xE3 0 d a b c (0#11 ++ b1 wide ++ x.code))
  | .fquiet => some (fr 0xE7 0 0 0 0 0 0)
  | .lcancel => some (fr 0xE9 0 0 0 0 0 0)
  | .lrepeat => some (fr 0xEA 0 0 0 0 0 0)
  | .lend => some (fr 0xEB 0 0 0 0 0 0)
  | .lset a x => some (fi 0xE8 0 0 a (0#22 ++ x))
  | .evsig d a b s => some (fr 0xEC 0 d a b 0 (0#13 ++ s.code))
  | .evwait d a b c s => some (fr 0xED 0 d a b c (0#13 ++ s.code))
  | .gcheck a => some (fr 0xEE 0 0 a 0 0 0)
  | .gets d x => some (fi 0xF0 0 d 0 (0#22 ++ x))
  | .sets x a => some (fi 0xF1 0 0 a (0#22 ++ x))
  | _ => none

end Sys2Proof
end

