-- ==== Sys2Proof/Config.lean ====
section
/-! DEFINITION. What an implementation fixes and the spec does not give: free values, without a body, so that no
proof can see what they are. -/

namespace Sys2Proof.Config

/-- The functions whose result patterns belong to the implementation within stated bounds (R139, R210). -/
inductive ApproxFn where
  | rcp | rsq | exp2 | log2 | sin | cos | tanh
  deriving DecidableEq, Repr

/-- Free value: which of the patterns that R139 and R210 allow an approximated function gives for an operand pattern
of a format of `width` bits. One fixed answer per function, format and operand (log entry 11). -/
opaque approxChoice : ApproxFn → (width manBits : Nat) → (pattern : Nat) → Nat

/-- Free value: virtual channel reservations that a port has for claims (R295), which the spec does not number (log entry
27). -/
opaque vcReservations : (port : Nat) → Nat

/-- Free value: the home slice of a line, a fixed hash over the 64 slices that the spec does not give (R79, log entry 49). -/
opaque homeSlice : (line : Nat) → Nat

/-- Free value: the pseudo-channel of its slice that serves a line, a fixed hash of physical address bits 47:13 that the spec
does not give (R401, log entry 49). -/
opaque channelHash : (bits : Nat) → Nat

/-- Free values: the identity key pair that the trust core derives from the device's unclonable function, private and public;
the certificate chain of slot 0; and the signature of a hash under a private key (R387, R393, log entry 37). -/
opaque identityKey : Bool → BitVec 3072
opaque identityChain : List Byte
opaque signature : (key : BitVec 3072) → (hash : BitVec 256) → BitVec 3072

/-- Free value: the choice of a way when a line is filled for the n-th time (R14, log entry 49). -/
opaque fillWay : (line n : Nat) → Nat

/-- Free value: a value the spec leaves open, one for each use, drawn from `State.fresh` (log entry 3). -/
opaque freeValue : Nat → BitVec 64

end Sys2Proof.Config
end

