-- ==== Sys2Proof/Machine/Num.lean ====
section
/-! DEFINITION. Number formats and arithmetic (R54 to R65, R71 to R75): exact values, one rounding function for every
format, the operations of IEEE 754 on exact values, and the bounded free choice of the approximated functions. -/

namespace Sys2Proof.Machine

/-- How a format ends: IEEE infinities and NaNs, E4M3's single NaN code, or finite codes alone (R56). -/
inductive FmtKind where
  | ieee | e4m3 | finite
  deriving DecidableEq, Repr

/-- A floating-point element format. -/
structure Fmt where
  expBits : Nat
  man     : Nat
  bias    : Nat
  kind    : FmtKind
  deriving DecidableEq, Repr

def fp64 : Fmt := ⟨11, 52, 1023, .ieee⟩
def fp32 : Fmt := ⟨8, 23, 127, .ieee⟩
def fp16 : Fmt := ⟨5, 10, 15, .ieee⟩
def bf16 : Fmt := ⟨8, 7, 127, .ieee⟩
def fE4m3 : Fmt := ⟨4, 3, 7, .e4m3⟩
def fE5m2 : Fmt := ⟨5, 2, 15, .ieee⟩
def fE3m2 : Fmt := ⟨3, 2, 3, .finite⟩
def fE2m3 : Fmt := ⟨2, 3, 1, .finite⟩
def fE2m1 : Fmt := ⟨2, 1, 1, .finite⟩

/-- An exact value: a NaN, a signed infinity, or (−1)^neg × m × 2^e, with signed zeros. -/
inductive Val where
  | nan
  | inf (neg : Bool)
  | fin (neg : Bool) (m : Nat) (e : Int)
  deriving DecidableEq, Repr

/-- The rounding that an operation uses once DYN is resolved; SR carries the generator's state. -/
inductive RM where
  | rne | rtz | rup | rdn
  | sr (g : BitVec 32)
  deriving DecidableEq, Repr

def Fmt.signPos (f : Fmt) : Nat := f.expBits + f.man
def Fmt.emin (f : Fmt) : Int := 1 - (f.bias : Int)

/-- The code of the largest finite magnitude. -/
def Fmt.maxCode (f : Fmt) : Nat :=
  match f.kind with
  | .ieee => (2 ^ f.expBits - 1) * 2 ^ f.man - 1
  | .e4m3 => 2 ^ f.signPos - 2
  | .finite => 2 ^ f.signPos - 1

/-- The canonical NaN (R58); in a format without NaN, +0 (R62). -/
def Fmt.nan (f : Fmt) : Nat :=
  match f.kind with
  | .ieee => (2 ^ f.expBits - 1) * 2 ^ f.man + 2 ^ (f.man - 1)
  | .e4m3 => 2 ^ f.signPos - 1
  | .finite => 0

/-- The infinity's magnitude code, of a format that has one. -/
def Fmt.infCode (f : Fmt) : Nat := (2 ^ f.expBits - 1) * 2 ^ f.man

def Fmt.signed (f : Fmt) (neg : Bool) (mag : Nat) : Nat := (if neg then 2 ^ f.signPos else 0) + mag

/-- The value of a code (R56). -/
def Fmt.dec (f : Fmt) (x : Nat) : Val :=
  let neg := x / 2 ^ f.signPos % 2 == 1
  let mag := x % 2 ^ f.signPos
  let e := mag / 2 ^ f.man
  let m := mag % 2 ^ f.man
  if f.kind == .ieee && e == 2 ^ f.expBits - 1 then (if m == 0 then .inf neg else .nan)
  else if f.kind == .e4m3 && mag == 2 ^ f.signPos - 1 then .nan
  else if e == 0 then .fin neg m (f.emin - f.man)
  else .fin neg (2 ^ f.man + m) ((e : Int) - f.bias - f.man)

/-- Whether a non-zero remainder `r` of 2^sh units rounds the truncated magnitude `t` up (R59, R65). -/
def roundUp (rm : RM) (neg : Bool) (t r sh : Nat) : Bool :=
  match rm with
  | .rne => decide (2 * r > 2 ^ sh) || (decide (2 * r = 2 ^ sh) && t % 2 == 1)
  | .rtz => false
  | .rup => !neg && r != 0
  | .rdn => neg && r != 0
  | .sr g => decide ((g.toNat % 65536) < r * 65536 / 2 ^ sh)

/-- m × 2^e as a multiple of 2^q, rounded. -/
def quantise (rm : RM) (neg : Bool) (m : Nat) (e q : Int) : Nat :=
  if q ≤ e then m * 2 ^ (e - q).toNat
  else
    let sh := (q - e).toNat
    let t := m / 2 ^ sh
    let r := m % 2 ^ sh
    if roundUp rm neg t r sh then t + 1 else t

/-- Whether an overflow gives infinity (R61). -/
def overflowsToInf (f : Fmt) (rm : RM) (sat neg : Bool) : Bool :=
  f.kind == .ieee && !sat &&
  match rm with
  | .rne => true
  | .rtz => false
  | .rup => !neg
  | .rdn => neg
  | .sr _ => false

/-- The exponent of the quantum at a non-zero magnitude m × 2^e: the ulp of its binade, or of the subnormals. -/
def Fmt.quantum (f : Fmt) (m : Nat) (e : Int) : Int := max ((Nat.log2 m : Int) + e) f.emin - f.man

/-- Rounds a finite magnitude into the format (R61). -/
def Fmt.roundFin (f : Fmt) (rm : RM) (sat neg : Bool) (m : Nat) (e : Int) : Nat :=
  if m == 0 then f.signed neg 0
  else
    let q := f.quantum m e
    let t := quantise rm neg m e q
    let ef := (q + f.man + f.bias).toNat
    let code := ef * 2 ^ f.man + t - 2 ^ f.man
    if code ≤ f.maxCode then f.signed neg code
    else if overflowsToInf f rm sat neg then f.signed neg f.infCode
    else f.signed neg f.maxCode

/-- The result of any exact value in the format (R61, R62). -/
def Fmt.round (f : Fmt) (rm : RM) (sat : Bool) (v : Val) : Nat :=
  match v with
  | .nan => f.nan
  | .inf neg => if f.kind == .ieee && !sat then f.signed neg f.infCode else f.signed neg f.maxCode
  | .fin neg m e => f.roundFin rm sat neg m e

/-- The flush of R60: a subnormal code becomes the zero of its sign. -/
def Fmt.flush (f : Fmt) (on : Bool) (x : Nat) : Nat :=
  let mag := x % 2 ^ f.signPos
  if on && decide (0 < mag) && decide (mag < 2 ^ f.man) then x / 2 ^ f.signPos % 2 * 2 ^ f.signPos else x

/-! ### Operations on exact values -/

namespace Val

def neg : Val → Val
  | .nan => .nan
  | .inf s => .inf (!s)
  | .fin s m e => .fin (!s) m e

def abs : Val → Val
  | .nan => .nan
  | .inf _ => .inf false
  | .fin _ m e => .fin false m e

def isNan : Val → Bool
  | .nan => true
  | _ => false

def isInf : Val → Bool
  | .inf _ => true
  | _ => false

def isZero : Val → Bool
  | .fin _ m _ => m == 0
  | _ => false

def isNeg : Val → Bool
  | .nan => false
  | .inf s => s
  | .fin s _ _ => s

/-- The signed integer of a finite value in units of 2^q, for q no greater than its exponent. -/
def units (s : Bool) (m : Nat) (e q : Int) : Int :=
  let x : Int := m * 2 ^ (e - q).toNat
  if s then -x else x

/-- A signed integer times 2^q; an exact zero takes the sign `z`. -/
def ofUnits (x : Int) (q : Int) (z : Bool) : Val :=
  if x == 0 then .fin z 0 q else .fin (decide (x < 0)) x.natAbs q

/-- Exact sum. An exact zero of unlike signs is +0, but −0 when rounding toward −∞ (IEEE 754). -/
def add (rm : RM) : Val → Val → Val
  | .nan, _ => .nan
  | _, .nan => .nan
  | .inf s, .inf t => if s == t then .inf s else .nan
  | .inf s, .fin .. => .inf s
  | .fin .., .inf t => .inf t
  | .fin s m e, .fin t n g =>
    let q := min e g
    let z := if m == 0 && n == 0 && s == t then s else rm == .rdn
    ofUnits (units s m e q + units t n g q) q z

def mul : Val → Val → Val
  | .nan, _ => .nan
  | _, .nan => .nan
  | .inf s, .inf t => .inf (s != t)
  | .inf s, .fin t n _ => if n == 0 then .nan else .inf (s != t)
  | .fin s m _, .inf t => if m == 0 then .nan else .inf (s != t)
  | .fin s m e, .fin t n g => .fin (s != t) (m * n) (e + g)

/-- Quotient with at least 66 significant bits, a last bit that says whether a remainder was cut off. -/
def div : Val → Val → Val
  | .nan, _ => .nan
  | _, .nan => .nan
  | .inf _, .inf _ => .nan
  | .inf s, .fin t _ _ => .inf (s != t)
  | .fin s _ e, .inf t => .fin (s != t) 0 e
  | .fin s m e, .fin t n g =>
    if n == 0 then (if m == 0 then .nan else .inf (s != t))
    else
      let k := 66 + Nat.log2 n
      let q := m * 2 ^ k / n
      let r := m * 2 ^ k % n
      .fin (s != t) (2 * q + (if r == 0 then 0 else 1)) (e - g - k - 1)

/-- Largest r with r × r ≤ n, bit by bit from bit `k` − 1 down. -/
def isqrtGo (n : Nat) : Nat → Nat → Nat
  | 0, r => r
  | k + 1, r => if (r + 2 ^ k) * (r + 2 ^ k) ≤ n then isqrtGo n k (r + 2 ^ k) else isqrtGo n k r

def isqrt (n : Nat) : Nat := isqrtGo n (Nat.log2 n / 2 + 1) 0

/-- Square root with at least 64 significant bits and a sticky last bit. -/
def sqrt : Val → Val
  | .nan => .nan
  | .inf s => if s then .nan else .inf false
  | .fin s m e =>
    if m == 0 then .fin s 0 e
    else if s then .nan
    else
      let k : Nat := 130 + (if (e - 130) % 2 == 0 then 0 else 1)
      let n := m * 2 ^ k
      let r := isqrt n
      .fin false (2 * r + (if r * r == n then 0 else 1)) ((e - k) / 2 - 1)

/-- a < b as numbers, −0 = +0; NaN is below nothing. -/
def lt : Val → Val → Bool
  | .nan, _ => false
  | _, .nan => false
  | .inf s, .inf t => s && !t
  | .inf s, .fin .. => s
  | .fin .., .inf t => !t
  | .fin s m e, .fin t n g => decide (units s m e (min e g) < units t n g (min e g))

/-- Equal as numbers, −0 = +0. -/
def eq : Val → Val → Bool
  | .nan, _ => false
  | _, .nan => false
  | .inf s, .inf t => s == t
  | .inf _, .fin .. => false
  | .fin .., .inf _ => false
  | .fin s m e, .fin t n g => decide (units s m e (min e g) = units t n g (min e g))

/-- a < b with −0 below +0 (R138). -/
def below (a b : Val) : Bool := a.lt b || (a.eq b && a.isNeg && !b.isNeg)

/-- FMIN of R138: the other operand when one is NaN. -/
def min2 (a b : Val) : Val := if a.isNan then b else if b.isNan then a else if b.below a then b else a
def max2 (a b : Val) : Val := if a.isNan then b else if b.isNan then a else if a.below b then b else a

/-- Rounds to an integral value, keeping the sign (FRND). -/
def roundInt (rm : RM) : Val → Val
  | .fin s m e => .fin s (quantise rm s m e 0) 0
  | v => v

/-- Times a power of two. -/
def scale (v : Val) (n : Int) : Val :=
  match v with
  | .fin s m e => .fin s m (e + n)
  | v => v

/-- The value as a clamped integer (R63). -/
def toInt (rm : RM) (lo hi : Int) : Val → Int
  | .nan => 0
  | .inf s => if s then lo else hi
  | .fin s m e =>
    let x : Int := quantise rm s m e 0
    max lo (min hi (if s then -x else x))

def ofInt (x : Int) : Val := ofUnits x 0 false

/-- floor(log2 |x|) of a non-zero finite value. -/
def log2Floor : Val → Int
  | .fin _ m e => (Nat.log2 m : Int) + e
  | _ => 0

end Val

/-! ### Stochastic rounding (R64, R65) -/

/-- One step of the generator (R64). -/
def lfsr (g : BitVec 32) : BitVec 32 :=
  if g.getLsbD 0 then (g >>> 1) ^^^ 0x80200003#32 else g >>> 1

def lfsrSteps : Nat → BitVec 32 → BitVec 32
  | 0, g => g
  | n + 1, g => lfsrSteps n (lfsr g)

/-- G after a value is stored: 0 becomes 1. -/
def nonzeroG (g : BitVec 32) : BitVec 32 := if g == 0 then 1 else g

/-- G at thread creation (R64). -/
def seedG (seed : BitVec 32) (unitlin tid : Nat) : BitVec 32 :=
  nonzeroG (seed ^^^ BitVec.ofNat 32 ((unitlin * 1024 + tid) * 0x9E3779B9))

/-- DYN under a rounding-mode word (R60). -/
def dynMode (rmode : BitVec 32) : RM :=
  match rmode.toNat % 4 with
  | 0 => .rne | 1 => .rtz | 2 => .rup | _ => .rdn

/-- A rounding selection under a thread's words. -/
def resolve (rmode g : BitVec 32) : Rnd → RM
  | .dyn => dynMode rmode
  | .rne => .rne
  | .rtz => .rtz
  | .rup => .rup
  | .rdn => .rdn
  | .sr => .sr g

/-! ### Approximated functions (R139, R210)

A fixed-point evaluation encloses the true value; the candidates are the format's codes within the stated bound of it,
and `Config.approxChoice` picks one. A reference value `.fin s m e` below says that the true value's magnitude lies strictly
between m × 2^e and (m + 1) × 2^e: the special values take every case in which it is a number of the format. -/

/-- Fixed-point unit of the evaluations: 2^128. -/
def fxOne : Nat := 2 ^ 128

/-- ln 2, π, log2 e in fixed point. -/
def fxLn2 : Nat := 0xB17217F7D1CF79ABC9E3B39803F2F6AF
def fxPi : Nat := 0x3243F6A8885A308D313198A2E03707344
def fxLog2e : Nat := 0x171547652B82FE1777D0FFDA0D23A7D12

/-- Σ x^k / k! for k up to `n` from term `t` of index `k`. -/
def fxExpGo (x : Nat) : Nat → Nat → Nat → Nat → Nat
  | 0, _, _, acc => acc
  | n + 1, k, t, acc =>
    let t' := t * x / fxOne / (k + 1)
    fxExpGo x n (k + 1) t' (acc + t')

/-- 2^f for f in [0, 1), in fixed point. -/
def fxExp2 (f : Nat) : Nat := fxExpGo (f * fxLn2 / fxOne) 40 0 fxOne fxOne

/-- log2 of m in [1, 2), digit by digit, by squaring. -/
def fxLog2Go : Nat → Nat → Nat → Nat
  | 0, _, acc => acc
  | n + 1, m, acc =>
    let m2 := m * m / 2 ^ 256
    if m2 ≥ 2 ^ 257 then fxLog2Go n (m2 / 2) (2 * acc + 1) else fxLog2Go n m2 (2 * acc)

/-- log2 of a mantissa in units of 2^−256, to 2^−100. -/
def fxLog2 (m256 : Nat) : Nat := fxLog2Go 100 m256 0 * 2 ^ 28

/-- Alternating Taylor sum of sine or cosine: `t` is the term of degree `k`. -/
def fxTrigGo (x2 : Nat) : Nat → Nat → Nat → Bool → Int → Int
  | 0, _, _, _, acc => acc
  | n + 1, k, t, s, acc =>
    let t' := t * x2 / fxOne / ((k + 1) * (k + 2))
    fxTrigGo x2 n (k + 2) t' (!s) (if s then acc + t' else acc - t')

/-- sin(π f) and cos(π f) for f in [0, 1/2], in fixed point. -/
def fxSinPi (f : Nat) : Nat :=
  let x := f * fxPi / fxOne
  (fxTrigGo (x * x / fxOne) 24 1 x false x).toNat
def fxCosPi (f : Nat) : Nat :=
  let x := f * fxPi / fxOne
  (fxTrigGo (x * x / fxOne) 24 0 fxOne false fxOne).toNat

/-- A magnitude m × 2^e modulo 2, in fixed point: whole halves of a turn and the rest. -/
def fxMod2 (m : Nat) (e : Int) : Nat :=
  (if e ≥ -128 then m * 2 ^ (e + 128).toNat else m / 2 ^ (-(e + 128)).toNat) % (2 * fxOne)

/-- sin(π x) for x in [0, 2) in fixed point: sign and magnitude, which is below 1 wherever an approximation is asked for:
exactly 1 is a special value. -/
def fxSin (x : Nat) : Bool × Nat :=
  let s := decide (x ≥ fxOne)
  let y := x % fxOne
  (s, min (fxOne - 1) (fxSinPi (if y ≤ fxOne / 2 then y else fxOne - y)))

def fxCos (x : Nat) : Bool × Nat :=
  let y := x % fxOne
  let z := min (fxOne - 1) (fxCosPi (if y ≤ fxOne / 2 then y else fxOne - y))
  (decide (y > fxOne / 2) != decide (x ≥ fxOne), z)

/-- The reference of an evaluated magnitude: its first 80 bits, behind which the evaluation's own error lies. DESIGN CHOICE,
log 11. -/
def reference (s : Bool) (m : Nat) (e : Int) : Val :=
  let k := Nat.log2 m - 80
  .fin s (m / 2 ^ k) (e + k)

/-- The ends of a reference, the lower first. -/
def ends (s : Bool) (m : Nat) (e : Int) : Val × Val :=
  if s then (.fin true (m + 1) e, .fin true m e) else (.fin false m e, .fin false (m + 1) e)

/-- |code − true value| ≤ bn × 2^be. -/
def within (f : Fmt) (v : Val) (bn : Nat) (be : Int) (c : Nat) : Bool :=
  match v with
  | .fin s m e =>
    (f.dec c matches .fin ..) && !(Val.lt (ends s m e).1 (Val.add .rne (f.dec c) (.fin true bn be))) &&
      !(Val.lt (Val.add .rne (f.dec c) (.fin false bn be)) (ends s m e).2)
  | _ => false

/-- A code's place among the codes of its format in the order of their values, −0 just below +0; and the code at a place. -/
def Fmt.place (f : Fmt) (c : Nat) : Int := if c < 2 ^ f.signPos then c else 2 ^ f.signPos - 1 - (c : Int)
def Fmt.atPlace (f : Fmt) (i : Int) : Nat := if 0 ≤ i then i.toNat else 2 ^ f.signPos + (-1 - i).toNat

/-- The finite codes within bn × 2^be of a reference: the place of the least, and their number. -/
def allowed (f : Fmt) (s : Bool) (m : Nat) (e : Int) (bn : Nat) (be : Int) : Int × Nat :=
  let least := f.place (f.round .rup true (Val.add .rne (ends s m e).2 (.fin true bn be)))
  let last := f.place (f.round .rdn true (Val.add .rne (ends s m e).1 (.fin false bn be)))
  (least, (last - least + 1).toNat)

/-- What a use of a function further asks of a pattern, given the reference value. -/
abbrev Further := Val → Nat → Bool

/-- Nothing further. -/
def Further.none : Further := fun _ _ => true

/-- The free choice among the patterns that an absolute bound bn × 2^be allows. DESIGN CHOICE, log 11. -/
def pickWithin (fn : Config.ApproxFn) (f : Fmt) (x : Nat) (v : Val) (bn : Nat) (be : Int) : Nat :=
  match v with
  | .fin s m e =>
    let (l, n) := allowed f s m e bn be
    f.atPlace (l + (Config.approxChoice fn (1 + f.signPos) f.man x % n : Nat))
  | _ => f.round .rne false v

/-- The free choice among the patterns within n ulp (R58, R139), of those that meet a further condition, where any does. -/
def pickUlp (fn : Config.ApproxFn) (f : Fmt) (x n : Nat) (v : Val) (ok : Further := Further.none) : Nat :=
  match v with
  | .fin s m e =>
    let (l, k) := allowed f s m e n (f.quantum m e)
    let all := (List.range k).map fun (i : Nat) => f.atPlace (l + i)
    let cs := if all.any (ok v) then all.filter (ok v) else all
    cs.getD (Config.approxChoice fn (1 + f.signPos) f.man x % cs.length) (f.round .rne false v)
  | _ => f.round .rne false v

def isPow2 (m : Nat) : Bool := m != 0 && m == 2 ^ Nat.log2 m

/-- Truncated integer part and whether the magnitude is whole. -/
def wholePart (m : Nat) (e : Int) : Nat × Bool :=
  if e ≥ 0 then (m * 2 ^ e.toNat, true) else (m / 2 ^ (-e).toNat, m % 2 ^ (-e).toNat == 0)

def isF32 (f : Fmt) : Bool := f.man == 23

/-- 1 ÷ a: special values, exact powers of two when representable, else within 1 ulp. -/
def approxRcpWith (ok : Further) (f : Fmt) (sat : Bool) (x : Nat) (v : Val) : Nat :=
  match v with
  | .nan => f.nan
  | .inf s => f.signed s 0
  | .fin s m e =>
    let r := Val.div (.fin false 1 0) v
    if m == 0 then f.round .rne sat (.inf s)
    else if isPow2 m then f.round .rne sat r
    else if (f.dec (f.round .rne sat r)).isInf || f.round .rne false r != f.round .rne sat r then f.round .rne sat r
    else
      let k := 128 + Nat.log2 m
      pickUlp .rcp f x 1 (reference s (2 ^ k / m) (-e - k)) ok

def approxRcp (f : Fmt) (sat : Bool) (x : Nat) (v : Val) : Nat := approxRcpWith Further.none f sat x v

/-- 1 ÷ √a. -/
def approxRsq (f : Fmt) (sat : Bool) (x : Nat) (v : Val) : Nat :=
  match v with
  | .nan => f.nan
  | .inf s => if s then f.nan else 0
  | .fin s m e =>
    if m == 0 then f.round .rne sat (.inf s)
    else if s then f.nan
    else
      let h : Nat := if e % 2 == 0 then 0 else 1
      let k := 256 + 2 * Nat.log2 m
      let r := reference false (Val.isqrt (2 ^ k / (m * 2 ^ h))) (-((e - h) / 2) - k / 2)
      if isPow2 m && (e + Nat.log2 m) % 2 == 0 then f.round .rne sat (.fin false 1 (-((e + Nat.log2 m) / 2)))
      else pickUlp .rsq f x (if isF32 f then 2 else 1) r

/-- 2^a. -/
def approxExp2With (ok : Further) (f : Fmt) (sat : Bool) (x : Nat) (v : Val) : Nat :=
  match v with
  | .nan => f.nan
  | .inf s => if s then 0 else f.round .rne sat (.inf false)
  | .fin s m e =>
    let (k, whole) := wholePart m e
    if k ≥ 4096 then (if s then 0 else f.roundFin .rne sat false 1 4096)
    else if whole then f.round .rne sat (.fin false 1 (if s then -(k : Int) else k))
    else
      let fr := fxMod2 m e % fxOne
      let n : Int := if s then -(k : Int) - 1 else k
      let r := reference false (fxExp2 (if s then fxOne - fr else fr)) (n - 128)
      let c := f.round .rne sat r
      if c > f.maxCode || f.roundFin .rne false false (fxExp2 (if s then fxOne - fr else fr)) (n - 128) > f.maxCode
      then c else pickUlp .exp2 f x (if isF32 f then 2 else 1) r ok

def approxExp2 (f : Fmt) (sat : Bool) (x : Nat) (v : Val) : Nat := approxExp2With Further.none f sat x v

/-- log2 a. For FP32 operands from 0.5 to 2 the bound is absolute. -/
def approxLog2 (f : Fmt) (sat : Bool) (x : Nat) (v : Val) : Nat :=
  match v with
  | .nan => f.nan
  | .inf s => if s then f.nan else f.round .rne sat (.inf false)
  | .fin s m e =>
    if m == 0 then f.round .rne sat (.inf true)
    else if s then f.nan
    else
      let l := Nat.log2 m
      let k : Int := l + e
      if isPow2 m then f.round .rne sat (.ofInt k)
      else
        let fr := fxLog2 (m * 2 ^ 256 / 2 ^ l)
        let r := match Val.add .rne (.ofInt k) (.fin false fr (-128)) with
          | .fin s m e => reference s m e
          | w => w
        if isF32 f && (k == -1 || k == 0) then pickWithin .log2 f x r 1 (-22)
        else pickUlp .log2 f x (if isF32 f then 2 else 1) r

/-- sin(π a). -/
def approxSin (f : Fmt) (x : Nat) (v : Val) : Nat :=
  match v with
  | .nan => f.nan
  | .inf _ => f.nan
  | .fin s m e =>
    let (_, whole) := wholePart m e
    let t := fxMod2 m e
    if whole then f.signed s 0
    else if t % fxOne == fxOne / 2 && (wholePart m (e + 1)).2 then
      f.round .rne false (.fin (s != decide (t ≥ fxOne)) 1 0)
    else
      let (sg, z) := fxSin t
      let r := if Nat.log2 m + e < -40 then reference s (m * fxPi) (e - 128) else reference (s != sg) z (-128)
      if isF32 f then pickWithin .sin f x r 1 (-22) else pickUlp .sin f x 1 r

/-- cos(π a). -/
def approxCos (f : Fmt) (x : Nat) (v : Val) : Nat :=
  match v with
  | .nan => f.nan
  | .inf _ => f.nan
  | .fin _ m e =>
    let (_, whole) := wholePart m e
    let t := fxMod2 m e
    if whole then f.round .rne false (.fin (decide (t ≥ fxOne)) 1 0)
    else if t % fxOne == fxOne / 2 && (wholePart m (e + 1)).2 then 0
    else
      let (sg, z) := fxCos t
      let r := reference sg z (-128)
      if isF32 f then pickWithin .cos f x r 1 (-22) else pickUlp .cos f x 1 r

/-- tanh a, by (2^y − 1) ÷ (2^y + 1) with y = 2 |a| log2 e. For a small |a| the true value lies just below |a|, by less than
any ulp shows. -/
def approxTanh (f : Fmt) (x : Nat) (v : Val) : Nat :=
  match v with
  | .nan => f.nan
  | .inf s => f.round .rne false (.fin s 1 0)
  | .fin s m e =>
    if m == 0 then f.signed s 0
    else if !(Val.lt v.abs (.fin false 9 0)) then f.round .rne false (.fin s 1 0)
    else if Nat.log2 m + e < -40 then pickUlp .tanh f x (if isF32 f then 2 else 1) (.fin s (m * 2 ^ 39 - 1) (e - 39))
    else
      let a := if e ≥ -128 then m * 2 ^ (e + 128).toNat else m / 2 ^ (-(e + 128)).toNat
      let y := 2 * a * fxLog2e / fxOne
      let p := fxExp2 (y % fxOne) * 2 ^ (y / fxOne)
      let r := match Val.div (.fin s (p - fxOne) 0) (.fin false (p + fxOne) 0) with
        | .fin s m e => reference s m e
        | w => w
      pickUlp .tanh f x (if isF32 f then 2 else 1) r

/-- The low `w` bits of a number. -/
def low (w : Nat) (x : Nat) : Nat := x % 2 ^ w
/-- A w-bit number read as two's complement. -/
def toSigned (w x : Nat) : Int := if 2 * low w x < 2 ^ w then low w x else (low w x : Int) - 2 ^ w

end Sys2Proof.Machine
end

