-- ==== Sys2Proof/Machine/State.lean ====
section
/-! DEFINITION. The state of the device as plain data, the reasons a step can stop, and the state after reset. Each
structure's docstring names the rule of spec/ that gives it; INVENTORY.md lists every field with its reset value. -/

namespace Sys2Proof.Machine

/-! ### Threads (R97) -/

/-- The outstanding counters of a thread (R32): L, S, C, T, F. -/
structure Ctrs where
  l : BitVec 6 := 0
  s : BitVec 6 := 0
  c : BitVec 6 := 0
  t : BitVec 6 := 0
  f : BitVec 6 := 0
  deriving DecidableEq, Repr

inductive CtrKind where
  | l | s | c | t | f
  deriving DecidableEq, Repr

/-- Where a thread stands: clause header, position 1 to 16 of the next word (0 at the header), repetition of a REP
(R26, R50); inside a clause, its length, class and yield hint as its header gave them. -/
structure Pos where
  hdr  : Pc := 0
  widx : Nat := 0
  rep  : Nat := 0
  cnt  : Nat := 0
  cls  : Nat := 0
  hint : Bool := false
  deriving DecidableEq, Repr

/-- Trap causes by the name of R193. -/
inductive Cause where
  | illegalInstr | illegalClause | privateLimit | slice | streamEnd | streamDead | formatDivergence
  | blockIncomplete | gangExited | bound | permission | unresolved | spaceRange | software | breakpoint
  | handlerTime | guard
  deriving DecidableEq, Repr

/-- What a trap records beside its position (R193). -/
structure Trap where
  cause : Cause
  sub   : Nat := 0
  info  : Word := 0
  addr  : DWord := 0
  deriving DecidableEq, Repr

/-- The trap record of R196. -/
structure TrapRec where
  fatal  : Bool
  repk   : Nat
  widx   : Nat
  trap   : Trap
  pc     : DWord
  header : DWord
  dt     : Nat
  deriving DecidableEq, Repr

/-- The six spaces of R77 that an access of a lane reaches by address. -/
inductive Space where
  | global | scratch
  deriving DecidableEq, Repr

/-- The clause-ending waits (R30, R102). -/
inductive Wait where
  | join (d : VReg) (deadline : Nat)
  | bar (id : Nat)
  | await (sp : Space) (va : DWord) (d : VReg) (gen : Word) (sys : Bool)
  | sleep (deadline : Nat)
  /-- WAIT and FQUIET hold the threads of one path together (R177, R313). -/
  | limits (l s c t f : BitVec 6) (grp : List Nat) (word : Pos)
  | quiet (grp : List Nat)
  /-- A waiter on the entry's own list, or on the overflow list in memory (R347). -/
  | event (sys : Bool) (ev : Nat) (target : DWord) (d : VReg) (deadline : Option Nat) (ovf : Bool)
  | latch (d : VReg) (base pitch shape fw : Word) (pc : Pos)
  deriving DecidableEq, Repr

/-- What a thread is doing (R102, R191, R196). -/
inductive TSt where
  | ready
  | inPath
  | waiting (w : Wait)
  /-- A translation miss of a fetch or of an access, at a global address (R199). -/
  | missing (va : DWord)
  | trapped (r : TrapRec)
  /-- A spill has begun; it waits for L and for register writes (R107). -/
  | spilling
  | spilled (since : Nat)
  | exited
  deriving DecidableEq, Repr

/-- A stream pattern record (R183). -/
structure Pattern where
  base   : DWord := 0
  c      : List Nat := []
  s      : List Int := []
  ibase  : DWord := 0
  ispace : Bool := false
  iscale : Nat := 0
  iw     : Nat := 0
  ind    : Bool := false
  space  : Bool := false
  sx     : Bool := false
  dir    : Bool := false
  ew     : Nat := 0
  deriving DecidableEq, Repr

inductive StreamSt where
  | unbound | bound | running | ended | dead
  deriving DecidableEq, Repr

/-- A queue register's stream (R185): state, pattern, elements generated or enqueued so far, elements performed,
the queue oldest first, and what made it DEAD. -/
structure Stream where
  st    : StreamSt := .unbound
  pat   : Pattern := {}
  next  : Nat := 0
  done  : Nat := 0
  queue : List Word := []
  cause : Nat := 0
  addr  : DWord := 0
  /-- At its SSTART: the number of the next access, and the elements enqueued so far on each stream (R187). -/
  start : Nat := 0
  snap  : List Nat := []
  deriving DecidableEq, Repr

/-- An LR/SC reservation (R175): the line and the kclk of the LR, and the store in the core's L1, by the number of its
access, from which the LR took its value. -/
structure Resv where
  line  : Nat
  since : Nat
  src   : Option Nat := none
  deriving DecidableEq, Repr

/-- A bound trap owed to a thread (R222): the operation's acceptance number, and the word that the record names when it is
not the WAIT (R284). -/
structure Owed where
  op   : Nat
  trap : Trap
  pos  : Option Pos := none
  deriving DecidableEq, Repr

structure Thread where
  regs    : List Word
  sp      : Word := 0
  fp      : Word := 0
  ctrs    : Ctrs := {}
  gwct    : DWord := 0
  egwct   : DWord := 0
  rng     : Word := 1
  rmode   : Word := 0
  fmode   : Word := 0
  streams : List Stream := List.replicate 8 {}
  resv    : Option Resv := none
  age     : Nat := 0
  pos     : Pos := {}
  /-- Private words, by index; an unlisted word is zero (R81). -/
  priv    : List (Nat × Word) := []
  st      : TSt := .ready
  owed    : List Owed := []
  /-- The PC that a handler has written into the window since the thread trapped (R196). -/
  wpc     : Option DWord := none
  /-- The counter that an access waiting at a translation miss has raised (R199). -/
  replay  : Option CtrKind := none
  /-- Other threads' stores in the core's L1, by number, that happen before what the thread does next or that it has read;
  those behind its plain reads, which a later acquire FENCE adds; what its last release FENCE covers, and whether for its
  unit alone (R89, R90). -/
  seen    : List Nat := []
  heard   : List Nat := []
  told    : List Nat := []
  toldIn  : Bool := false
  /-- Its last AWAIT had no sys scope: it need not see the fabric writes behind the word (R319). -/
  stale   : Bool := false
  deriving DecidableEq, Repr

/-- Bytes by address: ascending addresses, no listed byte equal to what an unlisted one reads as. -/
abbrev Memory := List Host.Cell

/-! ### Cores: the tile engine (R251 to R270) -/

/-- One aligned element of a block: its integer with the sign of the value it stands for (0 for a zero), or a mark for
R73. -/
inductive TElt where
  | fin (n sgn : Int)
  | nan
  | inf (neg : Bool)
  deriving DecidableEq, Repr

/-- A block along K: e_block and its stored elements (R72, R253). -/
structure TBlk where
  e  : Int
  xs : List TElt
  deriving DecidableEq, Repr

/-- The loaded B tile: columns of blocks (R253, R256). -/
structure Tile where
  kb     : Nat
  nb     : Nat
  bfmt   : Nat
  sparse : Bool
  mcopy  : Bool
  cols   : List (List TBlk)
  deriving DecidableEq, Repr

/-- Valid sparsity metadata for (kb, nb): by column, the index of each stored row (R261, R262). -/
structure Side where
  kb  : Nat
  nb  : Nat
  idx : List (List Nat)
  deriving DecidableEq, Repr

/-- The tile engine of a core, or its saved image (R252, R269): accumulator cells by row × 512 + column (an unlisted
cell is +0), highest row written plus one, loaded tile, side store. -/
structure TileSt where
  acc  : List (Nat × Word) := []
  high : Nat := 0
  tile : Option Tile := none
  side : Option Side := none
  deriving DecidableEq, Repr

/-- A line that an L1 data cache holds, with its 32-byte sectors (R13). -/
structure L1Line where
  line    : Nat
  sectors : List Nat := []
  deriving DecidableEq, Repr

/-- A core: the tile engine, the lines of its L1, the latest used first (R13), the scratchpad pages in its frames by unit,
the latest touched first (R372), the frame of each (R377), and the device times of each half's mismatches (R268). -/
structure CoreSt where
  te    : TileSt := {}
  l1    : List L1Line := []
  lru   : List (Nat × Nat) := []
  place : List (Nat × Nat × Nat) := []
  mis0  : List Nat := []
  mis1  : List Nat := []
  deriving DecidableEq, Repr

/-! ### Bundles and units (R98 to R115) -/

/-- A REP in progress (R48): repetitions, the current one, and the four steps. -/
structure RepSt where
  n  : Nat
  k  : Nat
  sd : Int
  sa : Int
  sb : Int
  sc : Int
  deriving DecidableEq, Repr

/-- An open path (R103): its threads in slot order, its clause, its next word, and the repetition at which a REP there goes
on (R50). -/
structure Path where
  tids : List Nat
  hdr  : Pc
  widx : Nat
  cnt  : Nat := 0
  cls  : Nat := 0
  hint : Bool := false
  krep : Nat := 0
  rep  : Option RepSt := none
  deriving DecidableEq, Repr

/-- A bundle (R101) with its window registers (R196). -/
structure Bundle where
  bid   : Nat
  quad  : Nat
  built : Bool := false
  slots : List (Option Nat)
  path0 : Option Path := none
  path1 : Option Path := none
  divc  : Nat := 0
  hold  : Bool := false
  /-- A YIELD, or a clause's yield hint, has asked the quadrant to pick another bundle next (R161; R31). -/
  yld   : Bool := false
  hint  : Bool := false
  wslot : Nat := 0
  wstat : Nat := 0
  deriving DecidableEq, Repr

/-- The states of a unit (R115); a WAITING unit is one that its launch has not handed out yet. -/
inductive USt where
  | resident | saved | draining | retired
  deriving DecidableEq, Repr

/-- What code a unit runs: an ordinary kernel, a guarded launch's surrogate or its exact kernel (R352), or a launch
prologue on the front end's scalar unit (R334). -/
inductive Role where
  | plain | surrogate | exact | prologue
  deriving DecidableEq, Repr

/-- A unit barrier's phase (R179): arrivals so far, and the first arrival's count. -/
structure Bar where
  arrived : List Nat := []
  need    : Nat := 0
  /-- Stores that happen before its arrivals and are still to be performed (R89, R179). -/
  deps    : List Nat := []
  deriving DecidableEq, Repr

structure UnitSt where
  uid    : Nat
  ctx    : Nat
  launch : Nat
  lin    : Nat := 0
  x      : Nat := 0
  y      : Nat := 0
  z      : Nat := 0
  role   : Role := .plain
  st     : USt := .resident
  core   : Nat := 0
  nregs  : Nat := 64
  npriv  : Nat := 0
  nscr   : Nat := 0
  tile   : Bool := false
  threads : List Thread := []
  bundles : List Bundle := []
  /-- Sidecars Z(hb)[0..63] by home bundle (R44). -/
  zs     : List (List DWord) := []
  /-- Private bases P(hb) (R81). -/
  pbase  : List DWord := []
  scr    : Memory := []
  /-- Window bytes that completed engine operations have written and lanes do not see yet, oldest first (R91, R93). -/
  late   : List Memory := []
  bars   : List Bar := List.replicate 16 {}
  gang   : Word := 0
  /-- The gang register as the rendezvous in progress read it (R263). -/
  latch  : Option Word := none
  mirror : Bool := true
  replays : Nat := 0
  /-- Scratchpad pages in the core's frames, and CPIN flags (R205, R242, R372). -/
  frames : List Nat := []
  cpins  : List Nat := []
  /-- Guard-line bytes by physical address, the lines held, the residual and the surrogate's other marks (R352 to R354). -/
  guard  : Memory := []
  glines : List Nat := []
  residual : Option Word := none
  checked  : Nat := 0
  gfault   : Bool := false
  /-- The verdict, once it is reached, and the number of the commit (R354, R355). -/
  verdict  : Option Bool := none
  commit   : Option Nat := none
  preempt  : Bool := false
  faulted  : Bool := false
  /-- The record that goes into the launch's fault record, with its slot (R194). -/
  first    : Option (TrapRec × Nat) := none
  cancelled : Bool := false
  mcheck   : Bool := false
  /-- Remaining kclk of JOIN and EVWAIT timeouts are kept while SAVED: the kclk of the save. -/
  savedAt  : Nat := 0
  /-- Saved tile state (R269). -/
  tsave    : TileSt := {}
  /-- Where the window's backing region, and the saved state, lie in the context's save area (R120, R372), and the unit's
  place in its launch's silt pool (R108). -/
  back     : Nat := 0
  saveAt   : Nat := 0
  silt     : Nat := 0
  /-- Set while the unit stands on no core: from its save to its restoration. -/
  away     : Bool := false
  /-- Energy attributed to the unit so far, in µJ (R360, R404), and its issue cycles in the current interval. -/
  energy   : Nat := 0
  issued   : Nat := 0
  /-- Its save has been reported, and the report acted on (R370). -/
  freed    : Bool := false
  deriving DecidableEq, Repr

/-! ### Memory operations of lanes (R85, R171) -/

/-- What an outstanding access of a thread does when it is performed. -/
inductive MemKind where
  /-- Data fixed at issue: LDP and LDK. -/
  | fixed (d : VReg) (w : Width) (v : BitVec 128)
  | load (d : VReg) (w : Width)
  | lr (d : VReg) (wide : Bool)
  | awget (d : VReg)
  | store (bytes : List Byte)
  | stb (v : Word) (slot : Nat)
  | atom (op : AtomOp) (wide : Bool) (d : VReg) (x y : DWord)
  | sc (d : VReg) (wide : Bool) (v : DWord)
  | awinit (target : Word)
  | awadd (n : Word)
  | evsig (sys : Bool) (d : VReg) (ev : Nat) (inc : DWord)
  /-- Element n of store stream k, which raises no counter (R187). -/
  | elem (bytes : List Byte) (k n : Nat)
  /-- Global bytes that an engine operation of these threads has written (R91). -/
  | engine (bytes : List Byte) (tids : List Nat)
  /-- The arrival that an engine operation of these threads makes at a global word (R181). -/
  | earrive (n : Nat) (tids : List Nat)
  /-- Writes, additions, RMWs and arrivals of a fabric packet for a context (R299 to R303). -/
  | far (ctx : Nat) (bytes : List Byte)
  | farAdd (ctx etype : Nat) (bytes : List Byte)
  | farAtom (ctx : Nat) (op : AtomOp) (wide : Bool) (x y : DWord)
  | farArrive (ctx n : Nat)
  /-- A write of the host or an application core, by the agent's number (R24, R397, R400). -/
  | outside (agent world : Nat) (bytes : List Byte)
  /-- An RMW of an application core (R88, R400). -/
  | outAtom (agent world : Nat) (op : AtomOp) (wide : Bool) (x y : DWord)
  /-- A write of the front end or the firmware, and an addition to a named event's backing word (R85, R347). -/
  | front (ctx : Nat) (bytes : List Byte)
  | frontAdd (ctx inc : Nat)
  /-- The guard lines of a surrogate unit at their commit (R354). -/
  | commit (ctx : Nat) (bytes : List Byte)
  deriving DecidableEq, Repr

/-- An outstanding access, or one aligned piece of an access that is not single-copy atomic (R88, R170): who made it and
on which core, where (one byte address for each byte: physical, or in the window), and how far it has come. -/
structure MemOp where
  id      : Nat
  unit    : Nat
  tid     : Nat
  core    : Nat := 128
  sp      : Space
  addrs   : List Nat
  va      : DWord := 0
  kind    : MemKind
  ord     : MOrd := .plain
  scope   : Scope := .unit
  /-- Elements that the thread had enqueued on each of its store streams when it made the access (R187). -/
  snap    : List Nat := []
  /-- The access that this is a piece of, its first byte there, and bytes that pieces already returned have read. -/
  grp     : Nat := 0
  off     : Nat := 0
  got     : List (Nat × Byte) := []
  /-- The word that made it, which a refused translation names (R199). -/
  pos     : Pos := {}
  /-- The result goes to the queue that d named at issue (R43). -/
  toQ     : Bool := false
  /-- Writes that have entered the core's L1, or left it for the home slice, are numbered (R86). -/
  ent     : Option Nat := none
  /-- Arrived at its home slice, with the number of its arrival and its GWCT (R85). -/
  arrived : Bool := false
  seq     : Nat := 0
  gwct    : Nat := 0
  /-- Stores in the core's L1 that a reader which synchronises with this write takes over, within its unit alone or not
  (R89, R90). -/
  deps    : List Nat := []
  depsIn  : Bool := false
  /-- Performed, with what it has read; its GWCT has been returned. -/
  done    : Bool := false
  res     : BitVec 128 := 0
  ret     : Bool := false
  deriving DecidableEq, Repr

/-- Bytes written last by a write that is performed while stores which happen before it are not: those stores, for the
threads of the core, or of the unit alone (R89, R90). -/
structure Trail where
  sp    : Space
  unit  : Nat
  core  : Nat
  addrs : List Nat
  near  : Bool := false
  deps  : List Nat
  deriving DecidableEq, Repr

/-- A lease of an L1 on a line, to a device time; whether a store waits for it (R84). -/
structure Lease where
  core   : Nat
  line   : Nat
  till   : Nat
  waited : Bool := false
  deriving DecidableEq, Repr

/-- What the memory system holds of a line beside its bytes: whether L2 holds it and how often it has been filled there,
the way that holds it, its lease length in ns (R84), owner context and world (R14), whether L2's copy is dirty, and whether
it is poisoned (R373). -/
structure LineSt where
  line   : Nat
  inL2   : Bool := false
  way    : Nat := 0
  fills  : Nat := 0
  lease  : Nat := 128
  owner  : Option Nat := none
  world  : Nat := 0
  dirty  : Bool := false
  poison : Bool := false
  deriving DecidableEq, Repr

/-- A stage-1 mapping: the table's root, virtual range, intermediate base, permissions (R78, R368). -/
structure Map1 where
  root : Nat
  va   : Nat
  size : Nat
  ipa  : Nat
  r    : Bool
  w    : Bool
  x    : Bool
  user : Bool
  /-- Part of a launch's silt pool (R108). -/
  silt : Bool := false
  deriving DecidableEq, Repr

/-- A stage-2 mapping of intermediate addresses, with the world of the page (R78, R368). -/
structure Map2 where
  root  : Nat
  ipa   : Nat
  size  : Nat
  pa    : Nat
  r     : Bool
  w     : Bool
  x     : Bool
  world : Nat
  deriving DecidableEq, Repr

/-- Device pages that the hypervisor gives to a virtual machine of a world (R380). -/
structure VmPage where
  pa    : Nat
  size  : Nat
  world : Nat
  deriving DecidableEq, Repr

/-! ### Engine operations (R17 to R21) -/

/-- Register operands of the elected lane, each as wide as its group. -/
structure Opnds where
  d : BitVec 128 := 0
  a : BitVec 128 := 0
  b : BitVec 128 := 0
  c : BitVec 128 := 0
  deriving DecidableEq, Repr

/-- How far an engine operation has come. -/
inductive Phase where
  | accepted | begun | fabAccepted | landed
  deriving DecidableEq, Repr

/-- An accepted engine operation: its issuing threads with the register each has for a result, the instruction and
its operands, the copies of the rounding state, the position of its word, and what it has found so far. -/
structure EngOp where
  id    : Nat
  unit  : Nat
  ctx   : Nat
  core  : Nat
  tids  : List (Nat × VReg)
  ins   : Instr
  o     : Opnds
  g     : Word := 1
  rmode : Word := 0
  pos   : Pos := {}
  ctr   : CtrKind
  /-- Registers of d that completion writes. -/
  wd    : Nat := 0
  /-- The c group that an RATOM writes, and how many registers (R302). -/
  wc    : Option (VReg × Nat) := none
  /-- F has fallen when the operation was accepted (R298). -/
  fell  : Bool := false
  phase : Phase := .accepted
  /-- Mirror setting, and whether the tile of this TMMA is mirrored. -/
  mir   : Bool := true
  status : Nat := 0
  /-- Bytes a sweep or TST will write, its violations, and the first of them with its address. -/
  out   : Memory := []
  viol  : Nat := 0
  first : Option (Word × DWord) := none
  /-- The writes of this operation that have arrived at home slices, by number (R85). -/
  held  : List Nat := []
  /-- Window pages that a sweep uses (R205), and those that a tile operation in progress does (R372). -/
  pages : List Nat := []
  touch : List Nat := []
  /-- Block additions of a TMMA done so far (R269), and the window as it was read for a row that is partly added (R281). -/
  prog  : Nat := 0
  row   : Option Memory := none
  /-- The claim entry a copy or fabric operation acts on. -/
  claim : Option Nat := none
  /-- The record a CLAIM read, as 16 words. -/
  recd  : List Word := []
  deriving DecidableEq, Repr

/-! ### Contexts and claims -/

/-- A stack slice (R165, R166). -/
structure Slice where
  slot    : Nat
  words   : List Word
  fpOff   : Nat
  resume  : Pc
  dreg    : VReg
  a0      : VReg
  carried : List Word
  deriving DecidableEq, Repr

/-- Claim states (R235); a FREE entry is unlisted. -/
inductive ClaimSt where
  | claiming | held | flowing | dormant | revoked
  deriving DecidableEq, Repr

/-- An entry of a context's claim table (R229, R235): its record's fields, cause, pending cause, severed bit, and the
physical pages it pins. -/
structure Claim where
  h     : Nat
  unit  : Nat
  /-- The number of its CLAIM: claims accepted before another have lower ones (R231). -/
  op    : Nat := 0
  st    : ClaimSt := .claiming
  kind  : Nat := 0
  node  : Nat := 0
  flags : Nat := 0
  len   : Nat := 0
  src   : DWord := 0
  dst   : DWord := 0
  aw    : DWord := 0
  param : BitVec 128 := 0
  cause : Nat := 0
  pend  : Bool := false
  sev   : Bool := false
  /-- While it was DORMANT, what its route leads to was lost: its re-reservation finds the route gone (R236, R296). -/
  gone  : Bool := false
  /-- A fabric claim whose staging buffer, since its restoration, is one of the core's (R250). -/
  pool  : Bool := false
  /-- The port of its route, the next tag, send number or epoch, and the ring route record (R295, R303, R305, R406). -/
  port  : Nat := 0
  count : Nat := 0
  ring  : List Word := []
  deriving DecidableEq, Repr

/-! ### Launch engine (R322 to R362) -/

/-- A kernel descriptor as read (R330). -/
structure Desc where
  entry : DWord := 0
  thr   : Nat := 32
  regs  : Nat := 64
  priv  : Nat := 0
  scr   : Nat := 0
  fl1   : Bool := false
  tile  : Bool := false
  grd   : Bool := false
  bimg  : DWord := 0
  exact : DWord := 0
  tol   : Word := 0
  deriving DecidableEq, Repr

/-- An entry of a launch's bound table (R220). -/
structure BoundE where
  slot   : Nat
  lo     : Word := 0
  hi     : Word := 0
  arv    : Bool := false
  action : Nat := 0
  aw     : Nat := 0
  count  : Nat := 0
  deriving DecidableEq, Repr

/-- Launch states by the codes of R331. -/
inductive LSt where
  | queued | prologue | running | complete | cancelled | faulted
  deriving DecidableEq, Repr

/-- A launch and its status block (R331, R333). `lid` is context × 4,096 + blk. -/
structure Launch where
  lid     : Nat
  ctx     : Nat
  /-- The command that owns it, and its node index in a GRAPH. -/
  cmd     : Nat
  node    : Option Nat := none
  st      : LSt := .queued
  code    : Nat := 0
  iter    : Nat := 0
  cseq    : Word := 0
  rscope  : Nat := 3
  job     : Nat := 0
  guarded : Bool := false
  cores   : Bool := false
  dimx    : Nat := 0
  dimy    : Nat := 0
  dimz    : Nat := 0
  spill   : Nat := 64
  seed    : Word := 0
  kdesc   : DWord := 0
  pro     : DWord := 0
  cbase   : DWord := 0
  tol     : Word := 0
  /-- The command's own words, to which each iteration returns (R336). -/
  body    : List Word := []
  desc    : Desc := {}
  xdesc   : Desc := {}
  consts  : Memory := []
  bounds  : List BoundE := []
  /-- LSET values of bound slots in this iteration. -/
  blims   : List (Nat × Word × Word) := []
  bacts   : List (Nat × Word × Word) := []
  units   : Nat := 0
  /-- Units of the iteration handed out so far: the next unitlin (R333). -/
  placed  : Nat := 0
  retired : Nat := 0
  gcommit : Nat := 0
  gfail   : Nat := 0
  exact   : Nat := 0
  dtstart : Nat := 0
  dtend   : Nat := 0
  energy  : Nat := 0
  fault   : Option TrapRec := none
  /-- Prologue instruction and load counts and its start (R334); whether LREPEAT ended it; whether it is cancelled,
  and by a cancel that kills. -/
  pinsn   : Nat := 0
  ploads  : Nat := 0
  pstart  : Nat := 0
  rept    : Bool := false
  cancel  : Bool := false
  kill    : Bool := false
  /-- Exact units that wait to be placed after a failed verdict, by unitlin (R354). -/
  redo    : List Nat := []
  /-- Silt pool: its physical address, and the units that it has a place for (R108). -/
  pool    : Nat := 0
  poolN   : Nat := 0
  deriving DecidableEq, Repr

/-- How far a command has come (R324). -/
inductive CmdSt where
  | ready | started | done
  deriving DecidableEq, Repr

/-- A node of a GRAPH (R340): its command words, successors, predecessor counter, mark, and state. -/
structure Node where
  idx   : Nat
  words : List Word
  succ  : List Nat
  ctr   : Nat
  mark  : Bool := false
  st    : CmdSt := .ready
  status : Nat := 0
  code  : Nat := 0
  deriving DecidableEq, Repr

/-- A read command (R326): the queue it came from, its sixteen words, priority, device time of the read, and how it
completed. -/
structure Cmd where
  cid    : Nat
  ctx    : Nat
  q      : Nat
  words  : List Word
  /-- The round of its job when it was read (R343). -/
  round  : Nat := 0
  prio   : Nat := 0
  readAt : Nat := 0
  st     : CmdSt := .ready
  status : Nat := 0
  code   : Nat := 0
  result : Nat := 0
  aux    : Nat := 0
  /-- Energy of a GRAPH's nodes that have completed (R325). -/
  energy : Nat := 0
  nodes  : List Node := []
  /-- Targets of a CANCEL: commands, and (command, node) pairs (R344). -/
  wants  : List (Nat × Option Nat) := []
  cancel : Bool := false
  deriving DecidableEq, Repr

/-- A command queue (R322). -/
structure Queue where
  q     : Nat
  ring  : DWord := 0
  bell  : DWord := 0
  cring : DWord := 0
  en    : Bool := false
  prio  : Nat := 0
  clog  : Nat := 0
  log   : Nat := 0
  st    : Nat := 0
  head  : Word := 0
  ctail : Word := 0
  chead : Word := 0
  rseq  : Word := 0
  /-- The accepted doorbell value, and completion records held back (R323, R325). -/
  upto  : Word := 0
  held  : List (List Word) := []
  lastCseq : Word := 0
  deriving DecidableEq, Repr

/-- A job (R343): its round since it last started again at phase 0, current phase, and what is cancelled of it; its
energy in the current window, the excess of earlier windows, and units placed in the window (R360). -/
structure Job where
  job    : Nat
  round  : Nat := 0
  phase  : Nat := 0
  cancel : Bool := false
  cancelled : List Nat := []
  energy : Nat := 0
  excess : Nat := 0
  placed : Nat := 0
  deriving DecidableEq, Repr

/-- A tilth policy: event mask, entries, operations (R358). -/
structure Policy where
  mask : Nat
  ents : List Nat
  ops  : List (BitVec 16)
  deriving DecidableEq, Repr

/-- A context: its descriptor (R368), claim table (R235), slice heap (R165), queues, jobs, the named events that have an
entry in the scheduler SRAM (R347), grants and policy. -/
structure Ctx where
  ctx     : Nat
  live    : Bool := false
  frz     : Bool := false
  desc    : CtxDesc := {}
  energy  : Nat := 0
  claims  : List Claim := []
  lastClaim : Nat := 4095
  slices  : List Slice := []
  gens    : List (Nat × BitVec 12) := []
  nextSlot : Nat := 0
  queues  : List Queue := []
  jobs    : List Job := []
  events  : List (Nat × DWord) := []
  grants  : List (Nat × Nat) := []
  policy  : Option Policy := none
  /-- Slice length in units of 10 µs, and the device time at which the slice began (R357). -/
  slice10 : Nat := 200
  sliceAt : Nat := 0
  /-- Bytes that the context has moved through HBM and over the fabric in the current interval (R404). -/
  hbmB    : Nat := 0
  fabB    : Nat := 0
  /-- Mean energies by kernel descriptor: the last 16 retired units (R360). -/
  means   : List (DWord × List Nat) := []
  deriving DecidableEq, Repr

/-! ### Fabric (R292 to R321, R406) -/

/-- A fabric port (R316, R317): link up, the nodes that its routes lead to and the groups whose order-point switch they
lead to, retired lanes, link sequence numbers, the last number received in order, packets not yet acknowledged,
consecutive failures of the packet in turn, the device time at which retraining began, error events, and the last link
control message sent: 0 acknowledges up to a number, 1 asks for replay from it. -/
structure Port where
  port   : Nat
  up     : Bool := false
  nodes  : List Nat := []
  xops   : List Nat := []
  gone   : List Nat := []
  txSeq  : Nat := 0
  rxLast : Nat := 0
  unacked : List (Nat × Packet) := []
  fails  : Nat := 0
  downAt : Option Nat := none
  errors : Nat := 0
  ctl    : Option (Nat × Nat) := none
  deriving DecidableEq, Repr

/-- A fabric job's member nodes (R292); the context bound to it names it in its descriptor. -/
structure FJob where
  job     : Nat
  members : List Nat
  deriving DecidableEq, Repr

/-- A packet in a settling buffer: the port it came by and the device time of its arrival. -/
structure Settling where
  port : Nat
  at_  : Nat
  p    : Packet
  deriving DecidableEq, Repr

/-- A packet that the anchor has stamped, as its sender sent it: its number and the device time of the stamp. -/
structure Stamped where
  seq : Nat
  at_ : Nat
  p   : Packet
  deriving DecidableEq, Repr

/-- A multicast group as this node knows it (R308 to R311, R320): as a member its view, the number that it applies next,
waiting packets, and the device time of its last NACK; as the anchor its view and members, the next number, history, the
next number that each member has to acknowledge, and the packets that have not landed, by number, sender and operation. -/
structure Group where
  group   : Nat
  job     : Nat
  members : List Nat
  anchor  : Nat
  xop     : Bool
  view    : Nat := 0
  want    : Nat := 1
  waiting : List Settling := []
  nacked  : Nat := 0
  aview   : Nat := 0
  amembers : List Nat := []
  next    : Nat := 1
  hist    : List Stamped := []
  acks    : List (Nat × Nat) := []
  aloft   : List (Nat × Nat × Nat) := []
  /-- Numbers that some member has still to acknowledge, with the device times of their stamps (R320). -/
  stamps  : List (Nat × Nat) := []
  deriving DecidableEq, Repr

/-- An entry of the response cache: source node, claim, tag, result, device time of the RMW (R303). -/
structure CacheE where
  src    : Nat
  claim  : Nat
  tag    : Nat
  result : DWord
  at_    : Nat
  deriving DecidableEq, Repr

/-- A fabric operation in flight: the engine operation, its claim's number and context, its tag, send number or epoch,
the device times of its first and last sends, its port, bytes received or result bytes written so far, the device time
of its response, UNKNOWN or landed report, its stamp, the packet of an MCST, and a ring's chunks that wait for credit. -/
structure Flight where
  op     : Nat
  claim  : Nat
  ctx    : Nat
  tag    : Nat := 0
  first  : Nat := 0
  sent   : Nat := 0
  port   : Nat := 0
  got    : List (Nat × Byte) := []
  wrote  : Nat := 0
  done   : Option Nat := none
  stamp  : Option Nat := none
  pkt    : Option Packet := none
  queue  : List Packet := []
  deriving DecidableEq, Repr

/-- The fabric engine: its ports, jobs, groups, response cache (R303), operations in flight, ring chunks that wait for
their RING (R307), other nodes' claims on this node (R293), and what bytes that other nodes have written held before, by
context, as long as no agent has observed the write (R319). -/
structure FabSt where
  node   : Nat := 0
  ports  : List Port := (List.range 18).map fun p => { port := p }
  jobs   : List FJob := []
  groups : List Group := []
  cache  : List CacheE := []
  flights : List Flight := []
  chunks : List Packet := []
  far    : List FarClaim := []
  past   : List (Nat × Nat × Byte) := []
  deriving DecidableEq, Repr

/-! ### Firmware (R364 to R378) -/

/-- A report record (R367). -/
structure Report where
  ctx    : Nat := 0
  status : Nat := 0
  kind   : Nat
  qseq   : Word := 0
  pseq   : Word := 0
  detail : Nat := 0
  dt     : Nat := 0
  addr   : Nat := 0
  deriving DecidableEq, Repr

/-- A message on a command link (R364, R370): units to pre-empt, to place and to restore; what a leaf controller reports: a
report to system software, the trap record of a unit that it has ended, a mirror mismatch with its device time, a save. -/
inductive Msg where
  | preempt (units : List Nat)
  | place (launch core : Nat) (privBase : List DWord)
  | restore (unit core : Nat)
  | report (r : Report)
  | fault (unit : Nat) (r : TrapRec)
  | mismatch (core at_ : Nat)
  /-- A unit has been saved (R370). -/
  | saved (unit : Nat)
  deriving DecidableEq, Repr

/-- One direction of a command link (R364, R365): send permits, numbers of the last message sent and acted on modulo 2^16,
messages sent and not acted on, messages held back for want of a permit. -/
structure LinkDir where
  permits : Nat := 16
  sent    : Nat := 0
  acted   : Nat := 0
  queue   : List (Nat × Msg) := []
  held    : List Msg := []
  deriving DecidableEq, Repr

structure Link where
  up   : LinkDir := {}
  down : LinkDir := {}
  deriving DecidableEq, Repr

/-- A handler that runs on a leaf controller (R195, R198): the bundle whose window is mapped, the trapped thread, and
the device time of its start. -/
structure Handler where
  leaf   : Nat
  unit   : Nat
  bundle : Nat
  tid    : Nat
  since  : Nat
  /-- The cause of the trap that it handles (R193). -/
  cause  : Nat := 0
  /-- A command has taken the thread out of its trap. -/
  done   : Bool := false
  deriving DecidableEq, Repr

structure FwSt where
  links    : List Link := List.replicate 32 {}
  /-- Leaf controllers whose firmware restarts (R365). -/
  restarting : List Nat := []
  handlers : List Handler := []
  /-- The management ring (R366, R367), with its report ring as its completion ring; where its index words lie; the number
  of the last request read; and the table of context descriptors (R368). -/
  mq       : Queue := { q := 0 }
  mdesc    : Nat := 0
  mlast    : Word := 0
  ctxTab   : Nat := 0
  /-- Error events by structure identifier, with their device times (R377), the thresholds and windows in ns in the order
  of R377's table, and quarantined identifiers (R378). -/
  events   : List (Nat × List Nat) := []
  limits   : List (Nat × Nat) :=
    [(16, 86400000000000), (1, 0), (16, 86400000000000), (8, 86400000000000), (3, 10000000000), (64, 1000000000),
     (64, 86400000000000)]
  quars    : List Nat := []
  /-- Retired 64 KiB units (R375). -/
  retired  : List Nat := []
  /-- Reason of the last rejected tilth policy image (R359), 0 for none. -/
  polRej   : Nat := 0
  /-- Agents outside, 0 the host and 1 + k application core k, that stand at a FENCE, and accesses behind it in the order
  in which they were made, with their agent and world (R24, R400). -/
  fences   : List Nat := []
  behind   : List (Nat × Nat × ExtAccess) := []
  /-- Error events of pseudo-channels: identifier, device time, and the 64 KiB unit of the row (R377). -/
  rows     : List (Nat × Nat × Nat) := []
  deriving DecidableEq, Repr

/-! ### Trust core (R381 to R395) -/

/-- A loaded key slot: network key, memory key, and the next GCM counter of each flow identifier (R381, R382). -/
structure KeySlot where
  slot : Nat
  net  : BitVec 256 := 0
  key  : BitVec 512 := 0
  ctrs : List (Nat × Nat) := []
  deriving DecidableEq, Repr

/-- A mailbox's responder (R394): requests of the negotiation so far, the bytes of the messages that its transcript's
SHA-256 has taken in, the length of the negotiation's part, and the last response with the hash that its signature covers. -/
structure Spdm where
  phase  : Nat := 0
  script : List Byte := []
  negLen : Nat := 0
  reply  : List Byte := []
  signed : Option (BitVec 256) := none
  deriving DecidableEq, Repr

structure TrustSt where
  /-- The identity key pair, private and public (R387). -/
  identity : Option (BitVec 3072 × BitVec 3072) := none
  /-- The trust mailbox: where configuration records place it, and the type and world of its last request (R384). -/
  mbox     : Option Nat := none
  request  : Nat × Nat := (0, 0)
  slots    : List KeySlot := []
  removing : List Nat := []
  /-- Claims revoked with cause KEY whose report is still to be written: context and handle (R379, R385). -/
  cutKeys  : List (Nat × Nat) := []
  /-- Memory keys of retired worlds, under which their lines stand in HBM (R385, R386). -/
  sealed_  : List (Nat × BitVec 512) := []
  /-- Status of the last trust request (R384). -/
  status   : Nat := 0
  /-- The boot word and the version floor, kept across resets (R389, R390). -/
  boot     : Word := 0
  floor    : Nat := 0
  /-- 0 mask ROM, 1 stage one, 2 main image, 3 boot complete; halted, or in recovery (R387 to R389). -/
  stage    : Nat := 0
  halted   : Bool := false
  recovery : Bool := false
  /-- The host link and the two front-end Ethernet ports (R15, R396, R400), as stage one has brought them up, and the source
  of the main image that its records select (R388). -/
  hostUp   : Bool := false
  eth      : List Bool := [false, false]
  link     : BootSrc := .host
  meas     : List (BitVec 256) := List.replicate 24 0
  fblocks  : List (BitVec 256) := List.replicate 64 0
  spdm     : List Spdm := List.replicate 65 {}
  deriving DecidableEq, Repr

/-! ### Power (R399 to R403) -/

/-- A partition (R399): compute dies, virtual functions, and its gated-state measurement while it is gated (R395). -/
structure Part where
  part  : Nat
  dies  : BitVec 8
  gated : Option (BitVec 256) := none
  deriving DecidableEq, Repr

structure PowerSt where
  plimit : BitVec 16 := 3200
  edev   : BitVec 64 := 0
  pnow   : BitVec 16 := 0
  /-- Core clock in MHz. -/
  freq   : BitVec 16 := 2400
  bad    : Bool := false
  /-- The last energy window (R360) and the last 100 µs interval (R403, R404) that have been acted on. -/
  window : Nat := 0
  tick   : Nat := 0
  share  : Nat := 0
  parts  : List Part := []
  /-- Partition of each virtual function, and virtual function of each context that is started for one. -/
  vfs    : List (Nat × Nat) := []
  ctxVf  : List (Nat × Nat) := []
  deriving DecidableEq, Repr

/-! ### The machine -/

/-- A path that issues in the current kclk: unit, bundle, path slot. -/
structure PathRef where
  unit   : Nat
  bundle : Nat
  slot   : Bool
  deriving DecidableEq, Repr

/-- The state of the device. -/
structure State where
  /-- Device time in units of 1/5,354,228,880 ns (R5); kclk since reset (R190). -/
  time   : Nat
  kclk   : Nat
  /-- The model's own: coming steps, paths still to issue in this kclk, the issuing path, the built-in scheduler's
  turn, the counter of free values, the next number. -/
  agenda : List Instr
  issueQ : List PathRef
  cur    : Option PathRef
  rot    : Nat
  fresh  : Nat
  nextId : Nat
  mem    : Memory
  lines  : List LineSt
  leases : List Lease
  trail  : List Trail
  map1   : List Map1
  map2   : List Map2
  vmap   : List VmPage
  ops    : List MemOp
  eng    : List EngOp
  units  : List UnitSt
  cores  : List CoreSt
  ctxs   : List Ctx
  launches : List Launch
  cmds   : List Cmd
  fused  : List Nat
  changing : List Nat
  fab    : FabSt
  fw     : FwSt
  trust  : TrustSt
  power  : PowerSt
  deriving DecidableEq, Repr

/-- Reasons a step can stop the machine. -/
inductive Fault where
  /-- Raised by no instruction: every exception of the spec is a next state. Kept so that the type is inhabited by a
  name; safe. -/
  | noSuchAddress
  deriving DecidableEq, Repr

/-- Reasons a step has no meaning. -/
inductive Refusal where
  /-- An instruction whose arm in Dispatch has no meaning yet; safe: nothing can be proved of its effect. -/
  | notModelled (mnemonic : String)
  deriving DecidableEq, Repr

/-- The machine right after reset: every field at the value that INVENTORY.md's '## State' names. DESIGN CHOICE where the
spec gives none, logs 1, 2 and 4 to 10. -/
def State.reset : State where
  time := 0
  kclk := 0
  agenda := []
  issueQ := []
  cur := none
  rot := 0
  fresh := 0
  nextId := 0
  mem := []
  lines := []
  leases := []
  trail := []
  map1 := []
  map2 := []
  vmap := []
  ops := []
  eng := []
  units := []
  cores := List.replicate 128 {}
  ctxs := []
  launches := []
  cmds := []
  fused := []
  changing := []
  fab := {}
  fw := {}
  trust := {}
  power := {}

end Sys2Proof.Machine
end

