-- ==== Sys2Proof/Machine/Ops.lean ====
section
/-! DEFINITION. The shared operations over memory, registers, threads and paths: bytes in canonical form, translation
(R78), register checks (R41 to R43), queue registers (R186), posting and ordering of accesses (R84 to R87, R171),
taking a trap (R191 to R194), and the two ways a path issues an instruction: by every thread, and by its elected lane
(R18, R123). -/

namespace Sys2Proof

def Width.bytes : Width → Nat
  | .b8 | .i8 => 1 | .b16 | .i16 => 2 | .b32 => 4 | .b64 => 8 | .b128 => 16
def Width.regs : Width → Nat
  | .b64 => 2 | .b128 => 4 | _ => 1
/-- The register value of loaded bytes (R36). -/
def Width.extend (w : Width) (v : Nat) : BitVec 128 :=
  match w with
  | .i8 => ((BitVec.ofNat 8 v).signExtend 32).setWidth 128
  | .i16 => ((BitVec.ofNat 16 v).signExtend 32).setWidth 128
  | _ => BitVec.ofNat 128 v

def MOrd.isAcq : MOrd → Bool
  | .acq | .ar | .seq => true
  | _ => false
def MOrd.isRel : MOrd → Bool
  | .rel | .ar | .seq => true
  | _ => false

def Scope.beyondCore : Scope → Bool
  | .unit | .core => false
  | _ => true

end Sys2Proof

namespace Sys2Proof.Machine

abbrev Out := Host.Outcome State Fault Refusal

/-! ### Memory -/

/-- What a byte reads as; an unlisted byte reads zero (DESIGN CHOICE, log 4). -/
def Memory.read : Memory → Nat → Byte
  | [], _ => 0
  | (k, v) :: m, a => if k == a then v else Memory.read m a

/-- Writes one byte, keeping the canonical form. -/
def Memory.write : Memory → Nat → Byte → Memory
  | [], a, b => if b == 0 then [] else [(a, b)]
  | (k, v) :: m, a, b =>
    if a < k then (if b == 0 then (k, v) :: m else (a, b) :: (k, v) :: m)
    else if a == k then (if b == 0 then m else (k, b) :: m)
    else (k, v) :: Memory.write m a b

/-- The canonical form: ascending addresses, no listed zero. -/
def Memory.wf : Memory → Bool
  | [] => true
  | [(_, v)] => v != 0
  | (k, v) :: (k', v') :: m => v != 0 && decide (k < k') && Memory.wf ((k', v') :: m)

/-- Little-endian number at a list of byte addresses (R2). -/
def Memory.readN (m : Memory) (as : List Nat) : Nat := as.foldr (fun a acc => (m.read a).toNat + 256 * acc) 0

/-- Writes bytes one by one at a list of addresses. -/
def Memory.writes (m : Memory) : List Nat → List Byte → Memory
  | a :: as, b :: bs => Memory.writes (m.write a b) as bs
  | _, _ => m

/-- Writes a list of cells, in order. -/
def Memory.writeCells (m : Memory) (cs : List Host.Cell) : Memory := cs.foldl (fun m c => m.write c.1 c.2) m

/-- The `n` little-endian bytes of a number. -/
def leBytes : Nat → Nat → List Byte
  | 0, _ => []
  | n + 1, v => BitVec.ofNat 8 v :: leBytes n (v / 256)

/-- Addresses a, a + 1, …, a + n − 1. -/
def span (a n : Nat) : List Nat := (List.range n).map (a + ·)

def ofLe (bs : List Byte) : Nat := bs.foldr (fun b acc => b.toNat + 256 * acc) 0

/-- An access of `n` bytes at a window address (R80). -/
def Memory.at_ (m : Memory) (a n : Nat) : Nat := m.readN (span a n)

/-! ### Time (R5) -/

/-- Units of `State.time` in one ns: the least common multiple of 1 to 24, so that every core clock is whole. -/
def tick : Nat := 5354228880

def State.dt (s : State) : Nat := s.time / tick
def State.dtWord (s : State) : DWord := BitVec.ofNat 64 s.dt

/-! ### Finding and replacing -/

def State.unit? (s : State) (u : Nat) : Option UnitSt := s.units.find? (·.uid == u)
def State.setUnit (s : State) (u : UnitSt) : State :=
  { s with units := s.units.map fun x => if x.uid == u.uid then u else x }
def State.updUnit (s : State) (u : Nat) (f : UnitSt → UnitSt) : State :=
  { s with units := s.units.map fun x => if x.uid == u then f x else x }

def UnitSt.setThread (u : UnitSt) (t : Nat) (th : Thread) : UnitSt := { u with threads := u.threads.set t th }
def UnitSt.updThread (u : UnitSt) (t : Nat) (f : Thread → Thread) : UnitSt := { u with threads := u.threads.modify t f }
def UnitSt.bundle? (u : UnitSt) (b : Nat) : Option Bundle := u.bundles.find? (·.bid == b)
def UnitSt.setBundle (u : UnitSt) (b : Bundle) : UnitSt :=
  { u with bundles := u.bundles.map fun x => if x.bid == b.bid then b else x }

def Bundle.path (b : Bundle) (slot : Bool) : Option Path := if slot then b.path1 else b.path0
def Bundle.setPath (b : Bundle) (slot : Bool) (p : Option Path) : Bundle :=
  if slot then { b with path1 := p } else { b with path0 := p }
def Bundle.slotOf (b : Bundle) (t : Nat) : Nat := (b.slots.findIdx? (· == some t)).getD 0

def State.launch? (s : State) (l : Nat) : Option Launch := s.launches.find? (·.lid == l)
def State.updLaunch (s : State) (l : Nat) (f : Launch → Launch) : State :=
  { s with launches := s.launches.map fun x => if x.lid == l then f x else x }
def State.ctx? (s : State) (c : Nat) : Option Ctx := s.ctxs.find? (·.ctx == c)
def State.updCtx (s : State) (c : Nat) (f : Ctx → Ctx) : State :=
  { s with ctxs := s.ctxs.map fun x => if x.ctx == c then f x else x }
def State.core (s : State) (c : Nat) : CoreSt := s.cores.getD c {}
def State.updCore (s : State) (c : Nat) (f : CoreSt → CoreSt) : State := { s with cores := s.cores.modify c f }

/-- A fresh free value: the state that has used it, and the value (DESIGN CHOICE, log 3). -/
def State.free (s : State) : State × DWord := ({ s with fresh := s.fresh + 1 }, Config.freeValue s.fresh)

/-- Home bundle and home lane of a thread (R98). -/
def hbOf (t : Nat) : Nat := t / 32
def laneOf (t : Nat) : Nat := t % 32

/-! ### Counters (R32) -/

def Ctrs.get (c : Ctrs) : CtrKind → BitVec 6
  | .l => c.l | .s => c.s | .c => c.c | .t => c.t | .f => c.f
def Ctrs.set (c : Ctrs) (k : CtrKind) (v : BitVec 6) : Ctrs :=
  match k with
  | .l => { c with l := v } | .s => { c with s := v } | .c => { c with c := v } | .t => { c with t := v }
  | .f => { c with f := v }

def Thread.raise (th : Thread) (k : CtrKind) : Thread := { th with ctrs := th.ctrs.set k (th.ctrs.get k + 1) }
def Thread.lower (th : Thread) (k : CtrKind) : Thread := { th with ctrs := th.ctrs.set k (th.ctrs.get k - 1) }
/-- An issue that would raise a counter above 62 stalls (R32). -/
def Thread.full (th : Thread) (k : CtrKind) : Bool := decide (62 ≤ (th.ctrs.get k).toNat)

/-- The counters word (R190). -/
def Ctrs.word (c : Ctrs) : Word := 0#2 ++ c.l ++ c.s ++ c.c ++ c.t ++ c.f

/-! ### Registers and queue registers -/

def Thread.reg (th : Thread) (r : Nat) : Word := th.regs.getD r 0
/-- The value of the group of `n` registers from `r`, low register first. -/
def Thread.group (th : Thread) (r n : Nat) : BitVec 128 :=
  BitVec.ofNat 128 ((List.range n).foldr (fun i acc => (th.reg (r + i)).toNat + 2 ^ 32 * acc) 0)

def Thread.stream (th : Thread) (k : Nat) : Stream := th.streams.getD k {}
def Thread.setStream (th : Thread) (k : Nat) (q : Stream) : Thread := { th with streams := th.streams.set k q }
/-- The queue that register field `r` names while a stream is bound to it (R43). -/
def Thread.queue? (th : Thread) (r : Nat) : Option Nat :=
  if 504 ≤ r && r < 512 && (th.stream (r - 504)).st != .unbound then some (r - 504) else none

/-- Elements of a pattern (R184). -/
def Pattern.total (p : Pattern) : Nat := p.c.foldr (· * ·) 1
def Pattern.bytes (p : Pattern) : Nat := 2 ^ p.ew

/-- The SSTAT status word (R185). -/
def Stream.word (q : Stream) : Word :=
  let code : Nat := match q.st with
    | .unbound => 0 | .bound => 1 | .running => 2 | .ended => 3 | .dead => 4
  BitVec.ofNat 32 (q.cause * 256 + (if q.pat.dir then 64 else 0) + q.queue.length * 8 + code)

/-- A register field as an instruction uses it. -/
inductive Fld where
  | d | a | b | c
  deriving DecidableEq, Repr

structure RegUse where
  fld  : Fld
  reg  : VReg
  n    : Nat := 1
  src  : Bool := false
  dst  : Bool := false
  base : Bool := false
  /-- A range that is neither read nor written through fields: the carried range of a CUT (R163). -/
  range : Bool := false
  deriving DecidableEq, Repr

def src (f : Fld) (r : VReg) (n : Nat := 1) : RegUse := { fld := f, reg := r, n := n, src := true }
def dst (r : VReg) (n : Nat := 1) : RegUse := { fld := .d, reg := r, n := n, dst := true }
def srcDst (r : VReg) (n : Nat := 1) : RegUse := { fld := .d, reg := r, n := n, src := true, dst := true }
def base (r : VReg) (n : Nat) : RegUse := { fld := .a, reg := r, n := n, src := true, base := true }
/-- A range of registers from a; an empty one uses none. -/
def carried (r : VReg) (n : Nat) : List RegUse := if n == 0 then [] else [{ fld := .a, reg := r, n := n, range := true }]

/-- R186: a use of a bound queue register that is a reserved value. -/
def Thread.queueMisuse (th : Thread) (lane : Bool) (x : RegUse) : Bool :=
  (List.range x.n).any fun i =>
    match th.queue? (x.reg.toNat + i) with
    | none => false
    | some k => x.n != 1 || x.base || x.range || !lane || (x.src && (th.stream k).pat.dir) || (x.dst && !(th.stream k).pat.dir)

/-- R41, R42: a register at or above the declared count, or a misaligned group. -/
def Thread.regMisuse (th : Thread) (nregs : Nat) (x : RegUse) : Bool :=
  !x.range && !(x.n == 1 && (th.queue? x.reg.toNat).isSome) && (decide (nregs < x.reg.toNat + x.n) || x.reg.toNat % x.n != 0)

/-- R163: a range beyond the declared registers is a reserved value. -/
def RegUse.rangeMisuse (nregs : Nat) (x : RegUse) : Bool := x.range && decide (nregs < x.reg.toNat + x.n)

/-- The ILLEGAL_INSTR sub-cause of an instruction's register fields, in R46's order. -/
def Thread.useBad (th : Thread) (nregs : Nat) (lane : Bool) (us : List RegUse) : Option Nat :=
  if us.any (th.queueMisuse lane) || us.any (RegUse.rangeMisuse nregs) then some 3 else if us.any (th.regMisuse nregs) then some 4 else none

/-- What reading an instruction's operands gives (R186). -/
inductive Fetched where
  | ok (th : Thread) (o : Opnds)
  | stall
  | trap (t : Trap)
  deriving DecidableEq, Repr

def Opnds.set (o : Opnds) (f : Fld) (v : BitVec 128) : Opnds :=
  match f with
  | .d => { o with d := v } | .a => { o with a := v } | .b => { o with b := v } | .c => { o with c := v }

def streamTrap (k : Nat) (q : Stream) : Trap :=
  match q.st with
  | .dead => { cause := .streamDead, sub := k, info := q.word, addr := q.addr }
  | _ => { cause := .streamEnd, sub := k, info := q.word }

/-- One field's part of reading the operands: a source takes its value, dequeuing from a load queue; a destination
queue must have room. -/
def fetchUse (x : RegUse) (th : Thread) (o : Opnds) : Fetched :=
  match th.queue? x.reg.toNat with
  | none => .ok th (if x.src then o.set x.fld (th.group x.reg.toNat x.n) else o)
  | some k =>
    let q := th.stream k
    if x.src then
      match q.st, q.queue with
      | .bound, _ => .trap (streamTrap k q)
      | _, v :: rest => .ok (th.setStream k { q with queue := rest }) (o.set x.fld (v.setWidth 128))
      | .running, [] => .stall
      | _, [] => .trap (streamTrap k q)
    else
      match q.st with
      | .running => if q.queue.length < 4 then .ok th o else .stall
      | _ => .trap (streamTrap k q)

def fetchUses : List RegUse → Thread → Opnds → Fetched
  | [], th, o => .ok th o
  | x :: xs, th, o =>
    match fetchUse x th o with
    | .ok th' o' => fetchUses xs th' o'
    | r => r

/-- Field order d, a, b, c (R186). -/
def Fld.order : Fld → Nat
  | .d => 0 | .a => 1 | .b => 2 | .c => 3

def Thread.fetch (th : Thread) (us : List RegUse) : Fetched := fetchUses us th {}

/-- Writes one register, or enqueues on a bound store queue (R43, R186). -/
def Thread.put (th : Thread) (r : Nat) (v : Word) : Thread :=
  match th.queue? r with
  | none => { th with regs := th.regs.set r v }
  | some k =>
    let q := th.stream k
    th.setStream k { q with
      queue := q.queue ++ [v &&& BitVec.ofNat 32 (2 ^ (8 * q.pat.bytes) - 1)]
      next := q.next + 1
      st := if q.next + 1 == q.pat.total then .ended else q.st }

/-- Writes the ordinary registers of a group of `n` from `r` (R43). -/
def Thread.setN (th : Thread) (r n : Nat) (v : BitVec 128) : Thread :=
  (List.range n).foldl (fun t i => { t with regs := t.regs.set (r + i) ((v >>> (32 * i)).setWidth 32) }) th

/-- Writes the group of `n` registers from `r`. -/
def Thread.putN (th : Thread) (r : Nat) : Nat → BitVec 128 → Thread
  | 0, _ => th
  | 1, v => th.put r (v.setWidth 32)
  | n + 2, v =>
    (List.range (n + 2)).foldl
      (fun t i => { t with regs := t.regs.set (r + i) ((v >>> (32 * i)).setWidth 32) }) th

def Thread.put64 (th : Thread) (r : Nat) (v : DWord) : Thread := th.putN r 2 (v.setWidth 128)

/-! ### Translation (R78, R380) -/

inductive Acc where
  | r | w | x
  deriving DecidableEq, Repr

def Acc.sub : Acc → Nat
  | .r => 1 | .w => 2 | .x => 3

inductive Tr where
  | ok (pa : Nat)
  | miss
  | perm (sub : Nat)
  | world
  | unres
  deriving DecidableEq, Repr

def Map1.allows (m : Map1) : Acc → Bool
  | .r => m.r | .w => m.w | .x => m.x
def Map2.allows (m : Map2) : Acc → Bool
  | .r => m.r | .w => m.w | .x => m.x

def State.ctxWorld (s : State) (c : Nat) : Nat := ((s.ctx? c).map (·.desc.world)).getD 0

/-- The roots of a context's translation tables (R368). -/
def State.root1 (s : State) (c : Nat) : Nat := ((s.ctx? c).map (·.desc.s1root.toNat)).getD 0
def State.root2 (s : State) (c : Nat) : Nat := ((s.ctx? c).map (·.desc.s2root.toNat)).getD 0

/-- The ports take accesses of a world: it has keys there (R381, R385); world 0 always has. -/
def State.portOpen (s : State) (world : Nat) : Bool := world == 0 || s.trust.slots.any (·.slot == world)

/-- A packet enciphered for a world advances the counter of its flow; a counter at its end retires the slot (R382).
DESIGN CHOICE, log 47. -/
def State.countFlow (s : State) (world flow : Nat) : State :=
  if world == 0 then s
  else
    match s.trust.slots.find? (·.slot == world) with
    | none => s
    | some k =>
      let n := ((k.ctrs.find? (·.1 == flow)).map (·.2)).getD 0
      let k' := { k with ctrs := (flow, n + 1) :: k.ctrs.filter (·.1 != flow) }
      let s : State := { s with trust := { s.trust with slots := s.trust.slots.map fun x => if x.slot == world then k' else x } }
      if n + 1 < 2 ^ 64 then s else { s with agenda := s.agenda ++ [.keyRetire (.request world)] }

/-- The counter with which the next packet of a flow is sent. -/
def State.flowCtr (s : State) (world flow : Nat) : Nat :=
  (((s.trust.slots.find? (·.slot == world)).bind fun k => k.ctrs.find? (·.1 == flow)).map (·.2)).getD 0

/-- Ports of the package, as R382 numbers them: a core's cluster, a slice, the base die. The front end and the agents outside
send from the first of the base die's. DESIGN CHOICE, log 47. -/
def corePort (core : Nat) : Nat := if core < 128 then core / 4 else 96
def slicePort (slice : Nat) : Nat := 32 + slice

/-- A transfer on the package, and its answer (R382). -/
def State.countPkg (s : State) (world src dst : Nat) : State :=
  (s.countFlow world (src * 128 + dst)).countFlow world (dst * 128 + src)

/-- Both stages for one byte; a retired unit of memory is a miss (R374, R375), and an access of a world whose keys are gone
is refused (R385). DESIGN CHOICE, log 6. -/
def State.walk (s : State) (c va : Nat) (acc : Acc) : Tr :=
  if 2 ^ 56 ≤ va then .unres
  else
    match s.map1.find? fun m => m.root == s.root1 c && decide (m.va ≤ va) && decide (va < m.va + m.size) with
    | none => .miss
    | some m =>
      if !m.user then .perm (if m.silt then 5 else 4)
      else if !m.allows acc then .perm acc.sub
      else
        let ipa := m.ipa + (va - m.va)
        match s.map2.find? fun m => m.root == s.root2 c && decide (m.ipa ≤ ipa) && decide (ipa < m.ipa + m.size) with
        | none => .miss
        | some m2 =>
          if !m2.allows acc then .perm acc.sub
          else if m2.world != s.ctxWorld c || !s.portOpen m2.world then .world
          else if s.fw.retired.contains ((m2.pa + (ipa - m2.ipa)) / 65536) then .miss
          else .ok (m2.pa + (ipa - m2.ipa))

/-- What a lane access meets: physical addresses of its bytes, a miss, or a trap. -/
inductive Reach where
  | ok (pas : List Nat)
  | miss (va : DWord)
  | trap (t : Trap)
  deriving DecidableEq, Repr

/-- Translates the `n` bytes from `va`, the first failing byte deciding. -/
def State.reach (s : State) (c : Nat) (va : DWord) (acc : Acc) : Nat → Reach
  | 0 => .ok []
  | n + 1 =>
    match s.walk c va.toNat acc with
    | .ok pa =>
      match s.reach c (va + 1) acc n with
      | .ok pas => .ok (pa :: pas)
      | r => r
    | .miss => .miss va
    | .perm sub => .trap { cause := .permission, sub := sub, addr := va }
    | .world => .trap { cause := .permission, sub := acc.sub, addr := va }
    | .unres => .trap { cause := .unresolved, sub := 1, addr := va }

/-! ### Lines -/

def lineOf (pa : Nat) : Nat := pa / 128
def linesOf (pas : List Nat) : List Nat := (pas.map lineOf).eraseDups

def State.lineSt (s : State) (l : Nat) : LineSt := (s.lines.find? (·.line == l)).getD { line := l }
def State.setLine (s : State) (x : LineSt) : State :=
  { s with lines := x :: s.lines.filter (·.line != x.line) }

/-- Leases on a line that have not ended. -/
def State.liveLeases (s : State) (l : Nat) : List Lease :=
  s.leases.filter fun x => x.line == l && decide (s.dt < x.till)

def State.leasesOver (s : State) (ls : List Nat) : Bool := ls.all fun l => (s.liveLeases l).isEmpty

/-- The first poisoned line among those of an access that reads (R373). -/
def State.poisoned (s : State) (pas : List Nat) : Option Nat := (linesOf pas).find? fun l => (s.lineSt l).poison

/-- A context's read meets a poisoned line: its consumption comes next, once (R373); the read is made again after it. -/
def State.consume (s : State) (l : Nat) (c : Option Nat) : State :=
  if s.agenda.contains (.poisonConsume { line := l, by_ := c }) then s
  else { s with agenda := .poisonConsume { line := l, by_ := c } :: s.agenda }

/-- Device memory: 1,536 GB of HBM, of 10^9 bytes each (R4, R16). -/
def hbmBytes : Nat := 1536 * 10 ^ 9

/-- A physical address beyond device memory is one of host memory (R396, R397). DESIGN CHOICE, log 67. -/
def isHost (pa : Nat) : Bool := decide (hbmBytes ≤ pa)

/-- The lines that a way of an L2 slice can hold: 16 ways share 6 MiB (R14). -/
def wayLines : Nat := 3072

/-- The home slice of a line (R79). -/
def sliceOf (l : Nat) : Nat := Config.homeSlice l % 64

/-- The structure number of a way (R378). -/
def wayId (slice way : Nat) : Nat := 2 ^ 24 + slice * 16 + way

/-- The way that a fill of a line uses: one of its slice's that is not quarantined (R14, R376). -/
def State.pickWay (s : State) (l n : Nat) : Nat :=
  let ways := (List.range 16).filter fun w => !s.fw.quars.contains (wayId (sliceOf l) w)
  ways.getD (Config.fillWay l n % ways.length) 0

/-- Lines that stand in a way of a slice. -/
def State.inWay (s : State) (slice way : Nat) : List LineSt :=
  s.lines.filter fun x => x.inL2 && x.way == way && sliceOf x.line == slice

/-- A line leaves L2; a dirty one is written back. -/
def State.outOfL2 (s : State) (l : Nat) : State :=
  { s with lines := s.lines.map fun y => if y.line == l then { y with inL2 := false, dirty := false } else y }

/-- A line is filled into L2: its lease length starts at 128 ns, and it is tagged with the context that caused the fill,
which has moved its bytes (R14, R84, R404). A full way gives up the line that was filled or written there longest ago.
DESIGN CHOICE, log 49. -/
def State.fillL2 (s : State) (c : Option Nat) (l : Nat) : State :=
  let x := s.lineSt l
  if x.inL2 || isHost (128 * l) then s
  else
    let way := s.pickWay l x.fills
    let there := s.inWay (sliceOf l) way
    let s := if wayLines ≤ there.length then s.outOfL2 ((there.getLast?.map (·.line)).getD l) else s
    let s := match c with
      | some c => s.updCtx c fun y => { y with hbmB := y.hbmB + 128 }
      | none => s
    s.setLine { x with inL2 := true, way := way, fills := x.fills + 1, lease := 128
                       owner := c, world := (c.map s.ctxWorld).getD x.world }

def State.fillAll (s : State) (c : Option Nat) : List Nat → State
  | [] => s
  | l :: ls => State.fillAll (s.fillL2 c l) c ls

/-! ### Outstanding accesses -/

/-- Registers that an access will write: first and count. -/
def MemKind.dst : MemKind → Option (Nat × Nat)
  | .fixed d w _ | .load d w => some (d.toNat, w.regs)
  | .lr d wide => some (d.toNat, if wide then 2 else 1)
  | .awget d => some (d.toNat, 4)
  | .atom _ wide d _ _ => some (d.toNat, if wide then 2 else 1)
  | .sc d wide _ => some (d.toNat, if wide then 2 else 1)
  | .evsig _ d _ _ => some (d.toNat, 1)
  | _ => none

/-- The counter that an access raises (R32). -/
def MemKind.ctr : MemKind → CtrKind
  | .fixed .. | .load .. | .lr .. | .awget _ => .l
  | _ => .s

def MemKind.writes : MemKind → Bool
  | .fixed .. | .load .. | .lr .. | .awget _ | .evsig .. => false
  | _ => true

/-- A write of an agent other than a thread, which goes straight to the home slice (R24, R91). -/
def MemKind.isEngine : MemKind → Bool
  | .engine .. | .earrive .. | .far .. | .farAdd .. | .farAtom .. | .farArrive .. | .outside .. | .outAtom .. | .commit ..
  | .front .. | .frontAdd .. => true
  | _ => false

def MemKind.isLr : MemKind → Bool
  | .lr .. => true
  | _ => false
def MemKind.isSc : MemKind → Bool
  | .sc .. => true
  | _ => false

/-- A store whose bytes its own core's L1 serves before it is performed (R86). -/
def MemKind.bytes? : MemKind → Option (List Byte)
  | .store bs => some bs
  | .stb v _ => some (leBytes 4 v.toNat)
  | .elem bs _ _ => some bs
  | _ => none

def overlaps (r n r' n' : Nat) : Bool := decide (r < r' + n') && decide (r' < r + n)

/-- R33: an outstanding operation has yet to write one of the registers. -/
def State.pending (s : State) (u t r n : Nat) : Bool :=
  (s.ops.any fun o => o.unit == u && o.tid == t &&
    match o.kind.dst with
    | some (r', n') => overlaps r n r' n'
    | none => false) ||
  (s.eng.any fun e => e.unit == u && e.tids.any fun x => x.1 == t &&
    ((e.wd != 0 && overlaps r n x.2.toNat e.wd) ||
     match e.wc with
     | some (c, m) => overlaps r n c.toNat m
     | none => false))

/-! ### Traps (R191 to R194) -/

def Cause.code : Cause → Nat
  | .illegalInstr => 0x01 | .illegalClause => 0x02 | .privateLimit => 0x03 | .slice => 0x04 | .streamEnd => 0x05
  | .streamDead => 0x06 | .formatDivergence => 0x07 | .blockIncomplete => 0x08 | .gangExited => 0x09
  | .bound => 0x0A | .permission => 0x0B | .unresolved => 0x0C | .spaceRange => 0x0D | .software => 0x10
  | .breakpoint => 0x11 | .handlerTime => 0x12 | .guard => 0x13

/-- The bit of hmask for a resumable cause (R195, R368). -/
def Cause.maskBit : Cause → Option Nat
  | .streamEnd => some 0 | .streamDead => some 1 | .software => some 2 | .breakpoint => some 3
  | _ => none

/-- Whether a trap ends its unit: the user-fatal class, and a resumable cause without a handler (R193). -/
def State.isFatal (s : State) (c : Nat) (cause : Cause) : Bool :=
  match cause.maskBit with
  | none => true
  | some i => !(((s.ctx? c).map fun (x : Ctx) => x.desc.hmask).getD 0).getLsbD i

/-- The address of a position: the header, or the word (R196). -/
def Pos.addr (p : Pos) : DWord := (p.hdr + BitVec.ofNat 56 (8 * p.widx)).setWidth 64

/-- The record of a trap at a position (R194, R196). DEDUCED, log 19. -/
def trapRec (s : State) (c : Nat) (p : Pos) (t : Trap) : TrapRec :=
  { fatal := s.isFatal c t.cause, repk := p.rep, widx := p.widx, trap := t, pc := p.addr,
    header := p.hdr.setWidth 64, dt := s.dt }

/-- A thread in the state TRAPPED with its record (R191). -/
def Thread.trapped (th : Thread) (p : Pos) (r : TrapRec) : Thread := { th with pos := p, st := .trapped r, wpc := none }

/-- A thread stops when its unit ends, at once if it stands at a clause boundary or waits, else at the end of its clause
(R116). -/
def Thread.stop (th : Thread) : Thread :=
  match th.st with
  | .inPath | .trapped _ | .exited => th
  | .ready | .missing _ => if th.pos.widx == 0 then { th with st := .exited, resv := none } else th
  | _ => { th with st := .exited, resv := none }

/-- The unit enters DRAINING: its threads stop as R116 states. -/
def UnitSt.drain (u : UnitSt) : UnitSt :=
  { u with st := .draining, threads := u.threads.map Thread.stop, latch := none, preempt := false }

/-- Launch fault codes of R332 that a trap leads to. -/
def Launch.setFault (l : Launch) (code : Nat) (r : TrapRec) : Launch :=
  if l.code == 0 then { l with code := code, fault := some r } else l

/-- The launch fault that a trap of a prologue becomes (R332, R334). -/
def prologueFault (r : TrapRec) : Nat × TrapRec :=
  let pmem := r.trap.cause == .permission || r.trap.cause == .unresolved ||
    (r.trap.cause == .spaceRange && r.trap.sub == 2)
  let pm := pmem && r.widx != 0 && !(r.trap.cause == .permission && r.trap.sub == 3)
  let addr := if pm then r.trap.addr else if r.trap.cause == .illegalClause && r.trap.sub == 7 then r.trap.addr else r.pc
  (if pm then 5 else 3,
   { fatal := true, repk := 0, widx := 0, trap := { cause := r.trap.cause, addr := addr }, pc := 0, header := 0, dt := r.dt })

/-- The slot in which a thread issues (R101). -/
def UnitSt.slotOf (u : UnitSt) (t : Nat) : Nat :=
  ((u.bundles.find? fun b => b.slots.contains (some t)).bind fun b => b.slots.findIdx? (· == some t)).getD 0

/-- A unit's record goes into its launch's fault record; a surrogate unit fails its verdict and does not fault the launch
(R194, R352, R354). In a prologue it is a launch fault (R334). -/
def State.recordFault (s : State) (u : UnitSt) (r : TrapRec) : State :=
  match u.role with
  | .surrogate => s
  | .prologue => s.updLaunch u.launch fun l => l.setFault (prologueFault r).1 (prologueFault r).2
  | _ => s.updLaunch u.launch fun l => l.setFault 1 r

/-- Ends a unit by a user-fatal trap of the thread in a slot: the record is that of the unit's first trap, by DT and then by
slot (R194); of two at one DT in equal slots of different bundles, the one that is executed first. DESIGN CHOICE, log 69. -/
def State.endUnit (s : State) (u : UnitSt) (r : TrapRec) (slot : Nat := 0) : State :=
  if u.faulted then
    match u.first with
    | some (old, k) =>
      if r.dt == old.dt && decide (slot < k) then
        (s.setUnit { u with first := some (r, slot) }).updLaunch u.launch fun l =>
          if l.fault == some old then { l with fault := some r } else l
      else s
    | none => s
  else (s.setUnit ({ u with faulted := true, first := some (r, slot) }.drain)).recordFault u r

/-- The trapped thread of a list whose trap ends the unit: the first by DT and then by slot. -/
def firstFatal (u : UnitSt) : List Nat → Option (TrapRec × Nat)
  | [] => none
  | t :: ts =>
    match (u.threads.getD t { regs := [] }).st with
    | .trapped r =>
      if r.fatal then
        match firstFatal u ts with
        | some (r', k) => if r'.dt < r.dt || (r'.dt == r.dt && decide (k < u.slotOf t)) then some (r', k) else some (r, u.slotOf t)
        | none => some (r, u.slotOf t)
      else firstFatal u ts
    | _ => firstFatal u ts

/-- After threads of the unit have trapped: a fatal record ends it. -/
def State.settleTraps (s : State) (uid : Nat) (tids : List Nat) : State :=
  match s.unit? uid with
  | none => s
  | some u =>
    match firstFatal u tids with
    | some (r, k) => s.endUnit u r k
    | none => s

/-! ### The issuing path -/

/-- The path that issues, with its unit and bundle. -/
structure View where
  pr : PathRef
  u  : UnitSt
  b  : Bundle
  p  : Path
  deriving DecidableEq, Repr

def State.view? (s : State) : Option View :=
  match s.cur with
  | none => none
  | some pr =>
    match s.unit? pr.unit with
    | none => none
    | some u =>
      match u.bundle? pr.bundle with
      | none => none
      | some b =>
        match b.path pr.slot with
        | none => none
        | some p => some { pr := pr, u := u, b := b, p := p }

/-- Where a trap or a miss of the word in turn leaves a thread: at the REP word inside a REP (R50). -/
def Path.pos (p : Path) : Pos :=
  match p.rep with
  | some r => { hdr := p.hdr, widx := p.widx - 1, rep := r.k, cnt := p.cnt, cls := p.cls, hint := p.hint }
  | none =>
    if p.widx == 0 then { hdr := p.hdr }
    else { hdr := p.hdr, widx := p.widx, rep := p.krep, cnt := p.cnt, cls := p.cls, hint := p.hint }

def Path.nextHeader (p : Path) : DWord := (p.hdr + BitVec.ofNat 56 (8 * (p.cnt + 1))).setWidth 64

/-- The path after the word in turn: the next repetition, the next word, or none when the clause ends. -/
def Path.advance (p : Path) : Option Path :=
  match p.rep with
  | some r =>
    if r.k + 1 < r.n then some { p with rep := some { r with k := r.k + 1 } }
    else if p.widx < p.cnt then some { p with rep := none, widx := p.widx + 1 } else none
  | none => if p.widx < p.cnt then some { p with widx := p.widx + 1, krep := 0 } else none

def UnitSt.thread (u : UnitSt) (t : Nat) : Thread := u.threads.getD t { regs := [] }

/-- An access to be posted. -/
structure Post where
  sp    : Space
  addrs : List Nat
  va    : DWord := 0
  kind  : MemKind
  ord   : MOrd := .plain
  scope : Scope := .unit
  deriving DecidableEq, Repr

/-- What an instruction does to one thread of the path. `next` is the header it transfers to, if it does. -/
inductive TRes where
  | ok (th : Thread) (next : Option DWord) (posts : List Post)
  | trap (t : Trap)
  | miss (va : DWord) (k : Option CtrKind)
  | stall
  deriving DecidableEq, Repr

/-- An access that misses its translation has not been executed (R199, R334). -/
def TRes.missed : TRes → Bool
  | .miss .. => true
  | _ => false

/-- A thread at a transfer's target: ready there, or trapped at a target that is no header address (R28, R157). -/
def Thread.arriveAt (th : Thread) (s : State) (c : Nat) (target : DWord) : Thread :=
  if decide (target.toNat < 2 ^ 56) && target.toNat % 8 == 0 then
    { th with pos := { hdr := target.setWidth 56 }, st := if th.st == .inPath then .ready else th.st }
  else
    let p : Pos := { hdr := target.setWidth 56 }
    th.trapped p { trapRec s c p { cause := .illegalClause, sub := 7, addr := target } with pc := target, header := target }

/-- Guard lines that a surrogate unit's write would add (R352). -/
def newGuardLines (u : UnitSt) (ps : List Post) : List Nat :=
  if u.role == .surrogate then
    (linesOf ((ps.filter fun p => p.sp == .global && p.kind.writes).foldl (fun as p => as ++ p.addrs) [])).filter
      fun l => !u.glines.contains l
  else []

/-- Lengths of the pieces of an access of `n` bytes at an address: one when it is single-copy atomic; the two aligned
halves of 16 bytes; else single bytes (R88, R170). -/
def pieceLens (addr n : Nat) : List Nat :=
  if n ≤ 8 && addr % n == 0 then [n] else if n == 16 && addr % 8 == 0 then [8, 8] else List.replicate n 1

/-- What one piece of an access does. -/
def MemKind.piece (k : MemKind) (off n : Nat) : MemKind :=
  match k with
  | .store bs => .store ((bs.drop off).take n)
  | _ => k

/-- Plain loads and stores are divided into pieces; RMWs and arrival words are one. -/
def Post.lens (p : Post) : List Nat :=
  match p.kind with
  | .load .. | .store _ => pieceLens (if p.sp == .global then p.va.toNat else p.addrs.headD 0) p.addrs.length
  | _ => [p.addrs.length]

/-- The queue register that a result goes to, when d names one at issue (R43). -/
def Post.toQueue (th : Thread) (p : Post) : Bool :=
  match p.kind.dst with
  | some (r, 1) => (th.queue? r).isSome
  | _ => false

/-- Elements that a thread has enqueued so far, by stream (R187). -/
def Thread.snap (th : Thread) : List Nat := th.streams.map (·.next)

/-- The accesses of one post, numbered from `id`. -/
def piecesOf (u : UnitSt) (t : Nat) (p : Post) (at_ : Pos) (grp : Nat) : Nat → Nat → List Nat → List MemOp
  | _, _, [] => []
  | id, off, n :: ns =>
    { id := id, unit := u.uid, tid := t, core := u.core, sp := p.sp, addrs := (p.addrs.drop off).take n
      va := p.va + BitVec.ofNat 64 off, kind := p.kind.piece off n, ord := p.ord, scope := p.scope
      snap := (u.thread t).snap, grp := grp, off := off, toQ := p.toQueue (u.thread t), pos := at_ } ::
    piecesOf u t p at_ grp (id + 1) (off + n) ns

/-- Posts accesses that a thread makes at a word: each piece takes a number. -/
def State.post (s : State) (u : UnitSt) (t : Nat) (at_ : Pos) : List Post → State
  | [] => s
  | p :: ps =>
    State.post { s with nextId := s.nextId + p.lens.length, ops := s.ops ++ piecesOf u t p at_ s.nextId s.nextId 0 p.lens } u t at_ ps

/-- An access that waited at a translation miss is not made after all: the counter it raised falls (R199). -/
def Thread.dropReplay (th : Thread) : Thread :=
  match th.replay with
  | some k => { th.lower k with replay := none }
  | none => th

/-- One thread's part of an issue. -/
def applyRes (s : State) (v : View) (last : Bool) (t : Nat) (r : TRes) : State :=
  match s.unit? v.u.uid with
  | none => s
  | some u =>
    let th := u.thread t
    match r with
    | .trap tr => s.setUnit (u.setThread t (th.dropReplay.trapped v.p.pos (trapRec s u.ctx v.p.pos tr)))
    | .miss va k =>
      let th := match th.replay, k with
        | none, some k => { th.raise k with replay := some k }
        | _, _ => th
      s.setUnit (u.setThread t { th with pos := v.p.pos, st := .missing va })
    | .stall => s
    | .ok th' next posts =>
      let gl := newGuardLines u posts
      if !gl.isEmpty && decide (8192 < u.glines.length + gl.length) then
        let va := (posts.map (·.va)).headD 0
        s.setUnit (u.setThread t (th.dropReplay.trapped v.p.pos (trapRec s u.ctx v.p.pos
          { cause := .guard, sub := 1, info := BitVec.ofNat 32 u.glines.length, addr := va })))
      else
        let th1 := posts.foldl (fun x p => if x.replay == some p.kind.ctr then { x with replay := none } else x.raise p.kind.ctr) th'
        let th2 := if last then th1.arriveAt s u.ctx (next.getD v.p.nextHeader) else th1
        let th3 := if last && u.st == .draining then th2.stop else th2
        (s.setUnit ({ u with glines := u.glines ++ gl }.setThread t th3)).post (u.setThread t th3) t v.p.pos posts

def applyAll (s : State) (v : View) (last : Bool) : List (Nat × TRes) → State
  | [] => s
  | (t, r) :: rs => applyAll (applyRes s v last t r) v last rs

/-- Whether a thread still belongs to the open path. -/
def UnitSt.inPath (u : UnitSt) (t : Nat) : Bool := (u.thread t).st == .inPath

/-- The path slot after an issue: the threads that are still in the path, at the next word; empty when the clause has
ended or no thread is left (R103). The clause's end passes on its yield hint (R31). -/
def State.closePath (s : State) (v : View) (next : Option Path) : State :=
  match s.unit? v.u.uid with
  | none => s
  | some u =>
    match u.bundle? v.b.bid with
    | none => s
    | some b =>
      let p' := next.bind fun p =>
        let ts := p.tids.filter u.inPath
        if ts.isEmpty then none else some { p with tids := ts }
      s.setUnit (u.setBundle { b.setPath v.pr.slot p' with hint := b.hint || (next.isNone && v.p.hint) })

/-- Ends an issue: effects of every thread in slot order, then the path's position, then the traps taken. -/
def State.finish (s : State) (v : View) (rs : List (Nat × TRes)) : State :=
  let next := v.p.advance
  let s := applyAll s v next.isNone rs
  let s := s.closePath v next
  s.settleTraps v.u.uid v.p.tids

/-- How an instruction may be issued: lane class; allowed in a prologue, and counted as a load there (R334). -/
structure IKind where
  lane : Bool := true
  pro  : Bool := false
  load : Bool := false
  deriving DecidableEq, Repr

/-- Traps every thread of the path alike (R18). -/
def State.trapAll (s : State) (v : View) (t : Trap) : State := s.finish v (v.p.tids.map fun i => (i, .trap t))

/-- The fetched word's upper half, as the info word of ILLEGAL_INSTR (R193). -/
def State.wordAt (s : State) (c : Nat) (p : Pos) : DWord :=
  match s.reach c p.addr .x 8 with
  | .ok pas => BitVec.ofNat 64 (s.mem.readN pas)
  | _ => 0

def State.illegal (s : State) (v : View) (sub : Nat) : Trap :=
  let at_ : Pos := { hdr := v.p.hdr, widx := v.p.widx }
  { cause := .illegalInstr, sub := sub, info := (s.wordAt v.u.ctx at_ >>> 32).setWidth 32, addr := v.p.pos.addr }

/-- The prologue's limits (R334): none when the instruction may execute. -/
def State.prologueGate (s : State) (v : View) (k : IKind) : Option (Except Unit State) :=
  if v.u.role != .prologue then none
  else if !k.pro then some (.error ())
  else
    match s.launch? v.u.launch with
    | none => none
    | some l =>
      if decide (1024 ≤ l.pinsn) || (k.load && decide (128 ≤ l.ploads)) then
        let ended (th : Thread) : Thread := { th with st := .exited }
        some (.ok ((s.setUnit { v.u with faulted := true, threads := v.u.threads.map ended, bundles := [] }.drain).updLaunch l.lid fun l =>
          l.setFault 4 { fatal := true, repk := 0, widx := 0, trap := { cause := .illegalInstr }, pc := 0, header := 0, dt := s.dt }))
      else none

def State.prologueCount (s : State) (v : View) (k : IKind) : State :=
  if v.u.role == .prologue then
    s.updLaunch v.u.launch fun l => { l with pinsn := l.pinsn + 1, ploads := l.ploads + (if k.load then 1 else 0) }
  else s

/-- One thread's operands for an instruction. -/
def readUse (us : List RegUse) (u : UnitSt) (t : Nat) : Nat × Fetched := (t, (u.thread t).fetch us)

def fetchedOk : Nat × Fetched → Option (Nat × Thread × Opnds)
  | (t, .ok th o) => some (t, th, o)
  | _ => none

/-- The threads that take part in an instruction, each after its reads and with its operands. -/
abbrev Parts := List (Nat × Thread × Opnds)

/-- What one thread's register check and reads lead to: a reserved field traps before the operands are read (R46). -/
def resOf (ill : Nat → Trap) (bad : Option Nat) (body : Thread → Opnds → TRes) (f : Fetched) : TRes :=
  match bad with
  | some sub => .trap (ill sub)
  | none =>
    match f with
    | .trap t => .trap t
    | .ok th o => body th o
    | .stall => .stall

/-- An instruction that every thread of the path executes (R123): a stall of a thread that does not trap at its register
check leaves the state as it is (R33); otherwise each
thread reads its operands, and only then has its effect. `body` sees the state, the path, and all threads that take
part with their operands; `eff` is what the instruction does beside the threads. A thread that traps at its own register
check or operand read takes no part, also in what the path's threads compute together. DESIGN CHOICE, log 65. -/
def issueWith (k : IKind) (us : List RegUse) (body : State → View → Parts → Nat → Thread → Opnds → TRes)
    (eff : View → Parts → State → State) (s : State) : Out :=
  match s.view? with
  | none => .next s
  | some v =>
    match s.prologueGate v k with
    | some (.error _) => .next (s.trapAll v (s.illegal v 5))
    | some (.ok s') => .next s'
    | none =>
      let good (t : Nat) : Bool := ((v.u.thread t).useBad v.u.nregs k.lane us).isNone
      if v.p.tids.any fun t => good t && us.any fun x => s.pending v.u.uid t x.reg.toNat x.n then .next s
      else
        let fs := v.p.tids.map (readUse us v.u)
        if fs.any fun f => f.2 == .stall && good f.1 then .next s
        else
          let parts := (fs.filterMap fetchedOk).filter fun x => ((v.u.thread x.1).useBad v.u.nregs k.lane us).isNone
          let rs := fs.map fun f => (f.1, resOf (s.illegal v) ((v.u.thread f.1).useBad v.u.nregs k.lane us) (body s v parts f.1) f.2)
          if rs.any (fun r => r.2 == .stall) then .next s
          else .next ((eff v parts (if rs.any (fun r => r.2.missed) then s else s.prologueCount v k)).finish v rs)

/-- An instruction with effects on its threads alone, and accesses that they post. -/
def issue (k : IKind) (us : List RegUse) (body : State → View → Parts → Nat → Thread → Opnds → TRes) (s : State) : Out :=
  issueWith k us body (fun _ _ s => s) s

/-- An instruction in which each thread computes with its own registers alone. -/
def lane (us : List RegUse) (f : Opnds → Thread → Thread) (s : State) : Out :=
  issue {} us (fun _ _ _ _ th o => .ok (f o th) none []) s

/-- As `lane`, for the opcodes that a prologue may use (R334). -/
def laneP (us : List RegUse) (f : Opnds → Thread → Thread) (s : State) : Out :=
  issue { pro := true } us (fun _ _ _ _ th o => .ok (f o th) none []) s

/-! ### Engine operations (R18 to R20) -/

/-- What the checks at issue of an engine instruction give. -/
inductive EngRes where
  | accept (e : EngOp) (f : State → State)
  /-- An operation that completes at once (R203). -/
  | done (f : State → State)
  | trap (t : Trap)
  | stall

/-- R18: the elected lane is the path's thread in the lowest slot; the path lists its threads in slot order. -/
def Path.elected (p : Path) : Nat := p.tids.headD 0

/-- Raises a counter in every thread of a list. -/
def UnitSt.raiseAll (u : UnitSt) (ts : List Nat) (k : CtrKind) : UnitSt :=
  { u with threads := u.threads.mapIdx fun i th => if ts.contains i then th.raise k else th }

/-- An engine operation enters its engine: numbered, and its counter raised in every thread of the path. -/
def State.accept (s : State) (e : EngOp) : State :=
  { s.updUnit e.unit fun u => u.raiseAll (e.tids.map (·.1)) e.ctr with
    nextId := s.nextId + 1, eng := s.eng ++ [{ e with id := s.nextId }] }

/-- The threads of the path go on to the next word, with no effect of their own. -/
def State.passAll (s : State) (v : View) : State :=
  match s.unit? v.u.uid with
  | none => s
  | some u => s.finish v (v.p.tids.map fun t => (t, .ok (u.thread t) none []))

/-- An instruction that the elected lane issues on behalf of the path. `d` is the register that every thread has for
a result and `wd` how many registers its completion writes. DEDUCED, log 19. An engine takes any number of operations: only
counters and the slots of RATOMs make an issue stall. DESIGN CHOICE, log 48. -/
def issueEng (i : Instr) (ctr : CtrKind) (d : VReg) (wd : Nat) (us : List RegUse)
    (body : State → View → Opnds → EngOp → EngRes) (s : State) : Out :=
  match s.view? with
  | none => .next s
  | some v =>
    if v.u.role == .prologue then .next (s.trapAll v (s.illegal v 5))
    else
      match (v.p.tids.filterMap fun t => (v.u.thread t).useBad v.u.nregs false us).head? with
      | some sub => .next (s.trapAll v (s.illegal v sub))
      | none =>
        if v.p.tids.any (fun t => us.any fun x => s.pending v.u.uid t x.reg.toNat x.n) then .next s
        else
          let th := v.u.thread v.p.elected
          match th.fetch us with
          | .ok _ o =>
            let e : EngOp := { id := 0, unit := v.u.uid, ctx := v.u.ctx, core := v.u.core,
                               tids := v.p.tids.map fun t => (t, d), ins := i, o := o, g := th.rng, rmode := th.rmode,
                               pos := { hdr := v.p.hdr, widx := v.p.widx }, ctr := ctr, wd := wd, mir := v.u.mirror }
            match body s v o e with
            | .trap t => .next (s.trapAll v t)
            | .stall => .next s
            | .done f => if v.p.tids.any fun t => (v.u.thread t).full ctr then .next s else .next ((f s).passAll v)
            | .accept e f =>
              if v.p.tids.any fun t => (v.u.thread t).full ctr then .next s
              else .next (((f s).accept e).passAll v)
          | _ => .next s

/-- The elected lane's G steps once when an operation selects SR and issues (R65). -/
def State.stepG (v : View) (rnd : Rnd) (s : State) : State :=
  if rnd == .sr then s.updUnit v.u.uid fun u => u.updThread v.p.elected fun th => { th with rng := lfsr th.rng } else s

/-- An operation completes: its result in d of every thread, its counter lowered (R18), unless it fell before (R298). -/
def UnitSt.complete (u : UnitSt) (e : EngOp) (v : BitVec 128) : UnitSt :=
  { u with threads := u.threads.mapIdx fun i th =>
      match e.tids.find? (·.1 == i) with
      | some (_, d) =>
        let th := if e.wd == 0 then th else th.setN d.toNat e.wd v
        if e.fell then th else th.lower e.ctr
      | none => th }

def State.complete (s : State) (e : EngOp) (v : BitVec 128) : State :=
  { s.updUnit e.unit fun u => u.complete e v with eng := s.eng.filter (·.id != e.id) }

def State.updEng (s : State) (id : Nat) (f : EngOp → EngOp) : State :=
  { s with eng := s.eng.map fun e => if e.id == id then f e else e }

/-! ### Ordering of accesses (R84 to R87, R171) -/

/-- Store-stream elements that a thread had enqueued when its streams stood at `snap`, and that are not yet written
(R187). -/
def Thread.storeQueued (th : Thread) (snap : List Nat) : Bool :=
  (List.range 8).any fun k =>
    let q := th.stream k
    q.pat.dir && !q.queue.isEmpty && decide (q.done < min (snap.getD k 0) q.next)

/-- Fabric operations of a thread that have not landed (R87 at sys). -/
def State.fabricOut (s : State) (u t : Nat) : Bool :=
  s.eng.any fun e => e.unit == u && e.ctr == .f && (e.tids.any (·.1 == t))

/-- The core of a unit; the front end is no core. -/
def State.coreOf (s : State) (u : Nat) : Nat := ((s.unit? u).map (·.core)).getD 128

/-- A surrogate unit's writes only enter its guard lines (R95, R352). -/
def State.guarded (s : State) (u : Nat) : Bool := ((s.unit? u).map fun (x : UnitSt) => x.role == .surrogate).getD false

def shareByte (a b : List Nat) : Bool := a.any fun x => b.contains x
def shareLine (a b : List Nat) : Bool := (linesOf a).any fun l => (linesOf b).contains l

/-- Whether an access comes before another of the same thread in its program order. A stream element stands where it was
enqueued (R187). -/
def MemOp.precedes (p o : MemOp) : Bool :=
  match p.kind, o.kind with
  | .elem _ k m, .elem _ k' n => k == k' && decide (m < n)
  | .elem _ k m, _ => decide (m < o.snap.getD k 0)
  | _, .elem _ k n => decide (p.snap.getD k 0 ≤ n)
  | _, _ => decide (p.id < o.id)

/-- The same thread's accesses before one. -/
def MemOp.before (o p : MemOp) : Bool := p.unit == o.unit && p.tid == o.tid && p.grp != o.grp && p.precedes o

/-- An earlier access of the same thread that must be performed first: an acquire; one to the same bytes that the core
cannot serve from its L1 (R90, R171); a write of the same line that has not left before it (R171); a `.seq` store before
a load (R87). LR and SC act on the thread's one reservation in program order (R175). -/
def State.heldBack (s : State) (o : MemOp) : Bool :=
  s.ops.any fun p => o.before p &&
    ((p.ord.isAcq && p.kind.bytes?.isNone) ||
     (p.sp == o.sp && !p.done && shareByte p.addrs o.addrs &&
       !(p.sp == .global && p.ent.isSome && !p.addrs.any isHost && (o.kind.writes || (p.kind.bytes?.isSome && p.core == o.core && !(o.ord.isAcq && o.scope.beyondCore))))) ||
     (p.sp == .global && o.sp == .global && p.kind.writes && o.kind.writes && p.ent.isNone && shareLine p.addrs o.addrs) ||
     (p.ord == .seq && p.kind.ctr == .s && o.kind.ctr == .l) || ((p.kind.isLr || p.kind.isSc) && (o.kind.isLr || o.kind.isSc)))

/-- A store to host memory, which returns the host's acknowledgement (R87, R397). -/
def MemOp.toHost (o : MemOp) : Bool := o.sp == .global && o.kind.writes && o.addrs.any isHost

/-- Some accesses, by number, are still to be performed. -/
def State.unperformed (s : State) (ids : List Nat) : Bool := s.ops.any fun o => ids.contains o.id && !o.done
def State.stillOut (s : State) (ids : List Nat) : List Nat := ids.eraseDups.filter fun i => s.unperformed [i]

def State.thread (s : State) (u t : Nat) : Thread := ((s.unit? u).map (·.thread t)).getD { regs := [] }

/-- Whether the waits of R87 of a release at a scope are over for a thread, for the accesses before another and the elements
enqueued before it: inside the core, that they have entered the core's L1; beyond it, that GWCTs have returned and DT is
past them, for sys also the host's acknowledgements, and that other threads' stores which the thread has read in the
L1, or that happen before, have been performed (R90). -/
def State.releasedBefore (s : State) (u t : Nat) (scope : Scope) (snap : List Nat) (before : MemOp → Bool) : Bool :=
  let mine := s.ops.filter fun o => o.unit == u && o.tid == t && before o
  let th := s.thread u t
  !th.storeQueued snap &&
  if scope.beyondCore then
    (mine.all fun o => scope != .sys && o.toHost) && decide (th.gwct.toNat < s.dt) && (scope != .sys || !s.fabricOut u t) &&
    !s.unperformed th.seen
  else mine.all fun o => o.kind.bytes?.isSome && o.sp == .global && (o.ent.isSome || (!o.ord.isRel && !s.heldBack o))

/-- The waits of a release by a thread's next access. -/
def State.released (s : State) (u t : Nat) (scope : Scope) (id : Nat) : Bool :=
  s.releasedBefore u t scope (s.thread u t).snap fun o => decide (o.id < id)

/-- The waits of a release that is itself an outstanding access. -/
def State.releasedOp (s : State) (o : MemOp) : Bool :=
  !o.ord.isRel || s.releasedBefore o.unit o.tid o.scope o.snap o.before

/-- A byte of the unit's guard lines, which it sees in place of memory while it runs a surrogate kernel (R95, R352). -/
def UnitSt.guardByte (u : UnitSt) (a : Nat) : Option Byte :=
  if u.role == .surrogate then (u.guard.find? fun g => g.1 == a).map (·.2) else none

/-- A byte at the home slice, as unit `u` sees it. -/
def State.sliceByte (s : State) (u a : Nat) : Byte :=
  match (s.unit? u).bind fun x => x.guardByte a with
  | some b => b
  | none => s.mem.read a

/-- Whether the L1 of its core shows a store to unit `u`: it has entered and is not performed, and it is no other unit's
surrogate write (R86); host memory bypasses L1 (R397). -/
def State.shows (s : State) (u : Nat) (p : MemOp) : Bool :=
  p.sp == .global && p.core == s.coreOf u && (p.unit == u || !s.guarded p.unit) && p.ent.isSome && !p.done && !p.addrs.any isHost

/-- A surrogate unit has a byte of its own at an address, in a guard line or on its way to one: it sees no other unit's stores
there (R354, R362). -/
def State.guardHolds (s : State) (u a : Nat) : Bool :=
  s.guarded u && (((s.unit? u).bind fun x => x.guardByte a).isSome ||
    s.ops.any fun p => p.unit == u && p.kind.bytes?.isSome && p.addrs.contains a && s.shows u p)

/-- The latest-entered store that the L1 shows at a byte. -/
def lastStore (s : State) (u a : Nat) (acc : Option MemOp) (p : MemOp) : Option MemOp :=
  if p.kind.bytes?.isSome && s.shows u p && p.addrs.contains a && (p.unit == u || !s.guardHolds u a) &&
      (acc.all fun q => decide (q.ent.getD 0 < p.ent.getD 0)) then some p else acc

def MemOp.byteAt (p : MemOp) (a : Nat) : Byte := ((p.kind.bytes?.getD []).getD (p.addrs.idxOf a) 0)

/-- A byte that a load of a unit sees: its core's latest store in the L1, or else the byte at the home slice with the
unit's guard lines (R86, R352). The front end reads at home slices (R334). -/
def State.loadByte (s : State) (u a : Nat) : Byte :=
  if s.coreOf u == 128 then s.sliceByte u a
  else
    match s.ops.foldl (lastStore s u a) none with
    | some p => p.byteAt a
    | none => s.sliceByte u a

/-- The store in the L1 from which a load takes its value, the last one that it shows to unit `u`. -/
def State.loadSrc (s : State) (u : Nat) (pas : List Nat) : Option Nat :=
  if s.coreOf u == 128 then none
  else (pas.foldl (fun acc a => s.ops.foldl (lastStore s u a) acc) none).map (·.id)

def State.loadN (s : State) (u : Nat) (pas : List Nat) : Nat :=
  pas.foldr (fun a acc => (s.loadByte u a).toNat + 256 * acc) 0

/-! ### What happens before, inside a core (R89, R90) -/

/-- Global stores of a thread before an access that are still to be performed. -/
def State.ownStores (s : State) (u t : Nat) (before : MemOp → Bool) : List Nat :=
  (s.ops.filter fun p => p.unit == u && p.tid == t && p.sp == .global && p.kind.bytes?.isSome && !p.done && before p).map (·.id)

/-- Everything that happens before a thread's next access and is still to be performed. -/
def State.known (s : State) (u t : Nat) : List Nat := (s.thread u t).seen ++ s.ownStores u t fun _ => true

/-- What a reader that synchronises with a write takes over, and whether within the unit alone: at a release all that
happens before it, after a release FENCE what that covers. -/
def State.depsOf (s : State) (o : MemOp) : List Nat × Bool :=
  let th := s.thread o.unit o.tid
  if o.ord.isRel then (s.stillOut (th.seen ++ s.ownStores o.unit o.tid o.before), o.scope == .unit) else (s.stillOut th.told, th.toldIn)

/-- Trails at bytes that an agent of a core may read. -/
def State.trailsAt (s : State) (sp : Space) (u : Nat) (as : List Nat) : List Trail :=
  s.trail.filter fun x => x.sp == sp && x.core == s.coreOf u && (x.unit == u || (sp == .global && !x.near)) && shareByte x.addrs as

/-- A write has been performed: what happens before it goes on with its bytes, along a chain of RMWs too (R89). -/
def State.leaveTrail (s : State) (o : MemOp) (chain : Bool) (deps : List Nat) (near : Bool) : State :=
  let old := if chain then (s.trailsAt o.sp o.unit o.addrs).foldl (fun ds x => x.deps ++ ds) [] else []
  let ds := s.stillOut (deps ++ old)
  let rest := (s.trail.filter fun x => !(x.sp == o.sp && (o.sp == .global || x.unit == o.unit) && x.addrs.all o.addrs.contains)).filter
    fun x => s.unperformed x.deps
  { s with trail := if ds.isEmpty then rest
                    else { sp := o.sp, unit := o.unit, core := o.core, addrs := o.addrs, near := near, deps := ds } :: rest }

/-- A thread takes over stores: at once, or behind its next acquire FENCE. -/
def State.hear (s : State) (u t : Nat) (now : Bool) (ids : List Nat) : State :=
  let ids := s.stillOut ids
  if ids.isEmpty then s
  else
    s.updUnit u fun x => x.updThread t fun th =>
      if now then { th with seen := s.stillOut (ids ++ th.seen) } else { th with heard := s.stillOut (ids ++ th.heard) }

/-- A read of a thread has taken its bytes: it follows the stores in the L1 that it read, and takes over what happens before
the writes that it read from. -/
def State.follow (s : State) (o : MemOp) : State :=
  let srcs := if o.sp == .global && o.kind.ctr == .l then (o.addrs.filterMap fun a => s.ops.foldl (lastStore s o.unit a) none).eraseDups else []
  let others := srcs.filter fun p => !(p.unit == o.unit && p.tid == o.tid)
  let sync (p : MemOp) : Bool := p.unit == o.unit || (!p.depsIn && !(o.ord.isAcq && o.scope == .unit))
  let deps := (srcs.filter sync).foldl (fun ds p => p.deps ++ ds) ((s.trailsAt o.sp o.unit o.addrs).foldl (fun ds x => x.deps ++ ds) [])
  (s.hear o.unit o.tid true (others.map (·.id))).hear o.unit o.tid o.ord.isAcq deps

/-! ### Stream elements (R184, R187) -/

/-- The scratchpad pages of an access are in the core's page frames (R99, R205). -/
def UnitSt.paged (u : UnitSt) (as : List Nat) : Bool := as.all fun a => u.frames.contains (a / 16384)

/-- Pages of a unit's window are touched on its core (R372). -/
def State.touchPages (s : State) (uid : Nat) (as : List Nat) : State :=
  let ps := (as.map fun a => (uid, a / 16384)).eraseDups
  if ps.isEmpty then s else s.updCore (s.coreOf uid) fun c => { c with lru := ps ++ c.lru.filter fun p => !ps.contains p }

/-- The loop indexes of element n, the innermost first. -/
def loopIdx : List Nat → Nat → List Nat
  | [], _ => []
  | c :: cs, n => n % c :: loopIdx cs (n / c)

def Pattern.off (p : Pattern) (n : Nat) : Int :=
  ((loopIdx p.c n).zip p.s).foldl (fun acc x => acc + x.1 * x.2) 0

/-- Where bytes of a stream lie, or what stops it: a cause of R185 with the address, or a missing translation. -/
inductive Place where
  | scr (as : List Nat)
  | glob (pas : List Nat)
  | dead (cause : Nat) (addr : DWord)
  | miss
  deriving DecidableEq, Repr

/-- Checks one address: range, alignment, translation. -/
def State.place (s : State) (u : UnitSt) (scr : Bool) (a : Int) (n : Nat) (acc : Acc) : Place :=
  let va := BitVec.ofInt 64 a
  if scr then
    if a < 0 ∨ (u.nscr : Int) < a + n then .dead 3 va
    else if a.toNat % n != 0 then .dead 4 va
    else .scr (span a.toNat n)
  else if va.toNat % n != 0 then .dead 4 va
  else
    match s.reach u.ctx va acc n with
    | .ok pas => .glob pas
    | .miss _ => .miss
    | .trap t => .dead (if t.cause == .unresolved then 2 else 1) t.addr

/-- Bytes that the stream unit reads, through L1; none while a scratchpad page is missing. -/
def State.placeRead (s : State) (u : UnitSt) : Place → Option Nat
  | .scr as => if u.paged as then some (u.scr.readN as) else none
  | .glob pas => some (s.loadN u.uid pas)
  | _ => none

/-- The data address of the element in turn. -/
inductive EAddr where
  | at_ (a : Int)
  | dead (cause : Nat) (addr : DWord)
  | wait
  deriving DecidableEq, Repr

def State.elemAddr (s : State) (u : UnitSt) (p : Pattern) (n : Nat) : EAddr :=
  if !p.ind then .at_ (p.base.toNat + p.off n)
  else
    let w := if p.iw == 0 then 2 else if p.iw == 1 then 4 else 8
    match s.place u p.ispace (p.ibase.toNat + p.off n) w .r with
    | .dead c a => .dead c a
    | .miss => .wait
    | pl =>
      match s.placeRead u pl with
      | none => .wait
      | some x => .at_ (p.base.toNat + (if p.iw == 2 then (BitVec.ofNat 64 x).toInt else x) * 2 ^ p.iscale)

/-- Where an element that is still in a store stream's queue will be written. -/
def State.queuedAt (s : State) (u : UnitSt) (q : Stream) (n : Nat) : Place :=
  match s.elemAddr u q.pat n with
  | .at_ a => s.place u q.pat.space a q.pat.bytes .w
  | .dead c a => .dead c a
  | .wait => .miss

/-- An element that the thread enqueued before an access, and that is still in its queue, goes to the same bytes (R90,
R187). -/
def State.queuedBefore (s : State) (o : MemOp) : Bool :=
  match o.kind, s.unit? o.unit with
  | .elem .., _ | _, none => false
  | _, some u =>
    (List.range 8).any fun k =>
      let q := (u.thread o.tid).stream k
      q.pat.dir && !q.queue.isEmpty &&
      (List.range (min (o.snap.getD k 0) q.next - q.done)).any fun i =>
        match s.queuedAt u q (q.done + i), o.sp with
        | .scr as, .scratch => shareByte as o.addrs
        | .glob as, .global => shareByte as o.addrs
        | _, _ => false

/-- Whether an access that writes may leave its thread: into the core's L1, or towards its home slice (R86, R87). -/
def State.mayEnter (s : State) (o : MemOp) : Bool := !s.heldBack o && !s.queuedBefore o && s.releasedOp o

/-- The lowest-numbered write that may enter and has not. -/
def State.nextEntry (s : State) : Option MemOp :=
  s.ops.find? fun o => o.sp == .global && o.kind.writes && o.ent.isNone && s.mayEnter o

/-- Writes enter in the order of their numbers, each as soon as it may (R86, R90). -/
def State.enterOps (s : State) : Nat → State
  | 0 => s
  | n + 1 =>
    match s.nextEntry with
    | none => s
    | some o =>
      let d := s.depsOf o
      let enter (p : MemOp) : MemOp := if p.id == o.id then { p with ent := some s.nextId, deps := d.1, depsIn := d.2 } else p
      State.enterOps { s with nextId := s.nextId + 1, ops := s.ops.map enter } n

def State.entered (s : State) : State := s.enterOps s.ops.length

/-- Stores in the L1 of the core of unit `u`, to these lines, whose GWCT has not passed (R86). -/
def State.coreStores (s : State) (u : Nat) (ls : List Nat) : Bool :=
  s.ops.any fun p => p.kind.writes && !p.kind.isEngine && ((linesOf p.addrs).any fun l => ls.contains l) && s.shows u p

/-- Writes that wait at the home slice of a line for their GWCT. -/
def State.waitingOn (s : State) (l : Nat) : List MemOp :=
  s.ops.filter fun p => p.arrived && !p.done && p.sp == .global && (linesOf p.addrs).contains l

/-! ### Leases and the L1 data cache (R13, R84) -/

/-- The L1 that serves a core: its own, or the fused one of its cluster (R13). -/
def State.l1Of (s : State) (core : Nat) : Nat := if s.fused.contains (core / 4) then core / 4 * 4 else core

/-- Banks of a core, among `n` from bank `b`, that are in use (R377, R378). -/
def State.banksOf (s : State) (core b n : Nat) : List Nat :=
  (List.range n).filter fun i => !s.fw.quars.contains (2 * 2 ^ 24 + core * 32 + b + i)

/-- Lines of 128 bytes that an L1 holds: 128 in each of its 16 banks that is in use (R13, R377); fused, those of its cluster. -/
def State.l1Lines (s : State) (core : Nat) : Nat :=
  if s.fused.contains (core / 4) then (List.range 4).foldl (fun n i => n + 128 * (s.banksOf (core / 4 * 4 + i) 16 16).length) 0
  else 128 * (s.banksOf core 16 16).length

def sectorsOf (l : Nat) (pas : List Nat) : List Nat := ((pas.filter fun a => lineOf a == l).map fun a => a % 128 / 32).eraseDups

/-- The L1 holds a copy of these sectors of a line. -/
def State.l1Has (s : State) (k l : Nat) (secs : List Nat) : Bool :=
  (s.core k).l1.any fun x => x.line == l && secs.all fun i => x.sectors.contains i

/-- A line comes into an L1, or is used there; a full L1 gives up the line used longest ago. DESIGN CHOICE, log 49. -/
def State.touchL1 (s : State) (core l : Nat) (secs : List Nat) : State :=
  let n := s.l1Lines core
  s.updCore (s.l1Of core) fun c =>
    let old := ((c.l1.find? (·.line == l)).map (·.sectors)).getD []
    { c with l1 := ({ line := l, sectors := (old ++ secs).eraseDups } :: c.l1.filter (·.line != l)).take n }

/-- Leases on a line that have ended: each with no store waiting doubles the line's lease length, and the copy goes (R84). -/
def State.expireLine (s : State) (l : Nat) : State :=
  let ended := s.leases.filter fun x => x.line == l && decide (x.till ≤ s.dt)
  let grow := ended.foldl (fun n x => if x.waited then n else min 2048 (2 * n)) (s.lineSt l).lease
  let s : State := if ended.isEmpty || grow == (s.lineSt l).lease then s else s.setLine { s.lineSt l with lease := grow }
  { s with leases := s.leases.filter fun x => !(x.line == l && decide (x.till ≤ s.dt)) }

/-- An L1 read: a copy under a lease serves it; a miss fetches the line with a lease, which a store that waits there
caps at its GWCT (R84, R85). -/
def State.fetchLine (s : State) (c core : Nat) (pas : List Nat) (l : Nat) : State :=
  if core == 128 || isHost (128 * l) then
    (s.countPkg (s.ctxWorld c) (corePort core) (slicePort (sliceOf l))).fillL2 (some c) l
  else
    let k := s.l1Of core
    let secs := sectorsOf l pas
    if (s.liveLeases l).any (·.core == k) && s.l1Has k l secs then s.touchL1 core l secs
    else
      let s := ((s.countPkg (s.ctxWorld c) (corePort core) (slicePort (sliceOf l))).expireLine l).fillL2 (some c) l
      let cap := ((s.waitingOn l).map (·.gwct)).foldl min (s.dt + (s.lineSt l).lease)
      let s := s.touchL1 core l secs
      if cap ≤ s.dt then s
      else { s with leases := { core := k, line := l, till := cap, waited := !(s.waitingOn l).isEmpty } :: s.leases }

def State.fetchLines (s : State) (c core : Nat) (pas : List Nat) : List Nat → State
  | [] => s
  | l :: ls => State.fetchLines (s.fetchLine c core pas l) c core pas ls

/-- Whether a write that arrives now is co-after the one from which the LR took its value: not that one itself, nor one
that arrives before it (R175). `w` is the number of the access that writes. -/
def State.coAfter (s : State) (r : Resv) (w : Option Nat) : Bool :=
  match r.src with
  | none => true
  | some x => w != some x && !(s.ops.any fun p => p.id == x && !p.arrived)

/-- R175: a write by another agent than thread `t` of unit `u` that arrives at a line clears the reservations on it. -/
def State.clearResv (s : State) (u t : Nat) (ls : List Nat) (w : Option Nat := none) : State :=
  { s with units := s.units.map fun x =>
      { x with threads := x.threads.mapIdx fun i th =>
          match th.resv with
          | some r => if ls.contains r.line && !(x.uid == u && i == t) && s.coAfter r w then { th with resv := none } else th
          | none => th } }

/-- A store finds live leases on its line: they have a store waiting, and the line's lease length halves (R84). -/
def State.halveLease (s : State) (l : Nat) : State :=
  let s := s.expireLine l
  if (s.liveLeases l).isEmpty then s
  else
    let x := s.lineSt l
    { s.setLine { x with lease := max 16 (x.lease / 2) } with
      leases := s.leases.map fun y => if y.line == l then { y with waited := true } else y }

def State.halveLeases (s : State) : List Nat → State
  | [] => s
  | l :: ls => State.halveLeases (s.halveLease l) ls

/-- Every write sets a line's owner to the writer's context; one that covers the whole line clears its poison (R374,
R386). -/
def State.tagLines (s : State) (c : Nat) (pas : List Nat) : List Nat → State
  | [] => s
  | l :: ls =>
    let x := s.lineSt l
    let whole := (span (128 * l) 128).all fun a => pas.contains a
    State.tagLines (if isHost (128 * l) then s
      else s.setLine { x with owner := some c, world := s.ctxWorld c, dirty := true, poison := x.poison && !whole }) c pas ls

/-- A write of an agent of a world that acts for no context: the line's tag names the world (R381); one that covers a line
whole clears its poison (R386). -/
def State.worldTags (s : State) (world : Nat) (pas : List Nat) : List Nat → State
  | [] => s
  | l :: ls =>
    let x := s.lineSt l
    let whole := (span (128 * l) 128).all fun a => pas.contains a
    State.worldTags (s.setLine { x with world := world, dirty := true, poison := x.poison && !whole }) world pas ls

/-- The number under which events name the management ring in place of a context's queue (R366). -/
def mgmt : Nat := 1024

/-- Writes that reach a doorbell word, or the chead of a queue descriptor, are taken by the front end next (R323, R325):
the value that the word then holds. -/
def State.ringBells (s : State) (pas : List Nat) : State :=
  let hit (at_ n : Nat) : Bool := pas.any fun a => decide (at_ ≤ a) && decide (a < at_ + n)
  let chead (c : Ctx) (q : Queue) : Nat := c.desc.qtab.toNat + 64 * q.q + 0x28
  let bells (c : Nat) (chead : Queue → Nat) (qs : List Queue) : List Instr :=
    ((qs.filter fun q => q.en && hit q.bell.toNat 8).map fun q =>
      .doorbellWrite c q.q (BitVec.ofNat 64 (s.mem.at_ q.bell.toNat 8))) ++
    (qs.filter fun q => q.en && hit (chead q) 4).map fun q =>
      .cheadWrite c q.q (BitVec.ofNat 32 (s.mem.at_ (chead q) 4))
  { s with agenda := s.ctxs.foldl (fun is c => is ++ bells c.ctx (chead c) c.queues) s.agenda ++
                     bells mgmt (fun _ => s.fw.mdesc + 0x28) [s.fw.mq] }

/-- Global bytes as a unit's write performs them: into its guard lines when it runs a surrogate kernel (R352). -/
def State.writeGlobal (s : State) (u : Nat) (pas : List Nat) (bs : List Byte) : State :=
  match s.unit? u with
  | some x =>
    if x.role == .surrogate then
      s.setUnit { x with guard := (pas.zip bs).foldl (fun g c => (g.filter (·.1 != c.1)) ++ [c]) x.guard }
    else ({ s with mem := s.mem.writes pas bs }.tagLines x.ctx pas (linesOf pas)).ringBells pas
  | none => (({ s with mem := s.mem.writes pas bs }).worldTags 0 pas (linesOf pas)).ringBells pas

/-- Little-endian number of the bytes that an RMW of a unit reads at the home slice. -/
def State.sliceN (s : State) (u : Nat) (pas : List Nat) : Nat :=
  pas.foldr (fun a acc => (s.sliceByte u a).toNat + 256 * acc) 0

/-! ### Arrival words (R180, R181) -/

/-- `arrive(n)` on the 16 bytes of an arrival word as one number. -/
def arrive (w n : Nat) : Nat :=
  let target := w % 2 ^ 32
  let count := w / 2 ^ 32 % 2 ^ 32
  let gen := w / 2 ^ 64 % 2 ^ 32
  let hi := w / 2 ^ 96
  if target == 0 then
    if 2 ^ 32 - 1 < count + n then
      (if hi % 2 == 0 then hi + 1 else hi) * 2 ^ 96 + gen * 2 ^ 64 + (2 ^ 32 - 1) * 2 ^ 32 + target
    else hi * 2 ^ 96 + gen * 2 ^ 64 + (count + n) * 2 ^ 32 + target
  else
    hi * 2 ^ 96 + (gen + (count + n) / target) % 2 ^ 32 * 2 ^ 64 + (count + n) % target * 2 ^ 32 + target

/-- The generation that a waiting thread sees, or none while its word cannot be reached. -/
def State.genOf (s : State) (u : UnitSt) (sp : Space) (va : DWord) : Option Word :=
  match sp with
  | .scratch => some (BitVec.ofNat 32 (u.scr.at_ (va.toNat + 8) 4))
  | .global =>
    match s.reach u.ctx (va + 8) .r 4 with
    | .ok pas => some (BitVec.ofNat 32 (s.sliceN u.uid pas))
    | _ => none

/-- What an observation of an arrival word takes over: what happens before the writes of its bytes (R89, R94). -/
def State.awaitDeps (s : State) (u : UnitSt) (sp : Space) (va : DWord) : List Nat :=
  let as := match sp with
    | .scratch => span va.toNat 16
    | .global => (match s.reach u.ctx va .r 16 with | .ok pas => pas | _ => [])
  s.stillOut ((s.trailsAt sp u.uid as).foldl (fun ds x => x.deps ++ ds) [])

/-- An AWAIT has seen a new generation, at sys scope or below (R319). -/
def Thread.endAwait (d : VReg) (g : Word) (deps : List Nat) (sys : Bool) (th : Thread) : Thread :=
  { th.put d.toNat g with st := if th.st == .inPath then .inPath else .ready, seen := deps ++ th.seen, stale := !sys }

/-- What other nodes have written has been observed: no reader takes what stood there before (R319). -/
def State.observed (s : State) : State := { s with fab := { s.fab with past := [] } }

/-- Another node's packet writes these bytes of a context: until the write is observed, what they hold is kept beside it. -/
def State.keepPast (s : State) (c : Nat) (pas : List Nat) : State :=
  { s with fab := { s.fab with past := (pas.map fun a => (c, a, s.mem.read a)) ++ s.fab.past.filter fun x => !pas.contains x.2.1 } }

/-- Bytes that have been written again or read as they are now. -/
def State.dropPast (s : State) (pas : List Nat) : State :=
  { s with fab := { s.fab with past := s.fab.past.filter fun x => !pas.contains x.2.1 } }

/-- Wakes one thread at AWAIT whose word has moved on (R182). -/
def wakeAwait (s : State) (u : UnitSt) (here : Space → DWord → Bool) (th : Thread) : Thread :=
  match th.st with
  | .waiting (.await sp va d gen sys) =>
    if here sp va then
      match s.genOf u sp va with
      | some g => if g != gen then th.endAwait d g (s.awaitDeps u sp va) sys else th
      | none => th
    else th
  | _ => th

/-- A thread that waits at an AWAIT at sys scope. -/
def Thread.awaitsSys (th : Thread) : Bool :=
  match th.st with
  | .waiting (.await _ _ _ _ sys) => sys
  | _ => false

/-- AWAITs that wait at some words are checked again (R182); one at sys scope that goes on has observed what other nodes have
written (R319). -/
def State.wakeAt (s : State) (here : UnitSt → Space → DWord → Bool) : State :=
  let woken := s.units.any fun u => u.st == .resident &&
    u.threads.any fun th => th.awaitsSys && (wakeAwait s u (here u) th).st == .ready
  { s with
    units := s.units.map fun u => if u.st == .resident then { u with threads := u.threads.map (wakeAwait s u (here u)) } else u
    fab := if woken then { s.fab with past := [] } else s.fab }

/-- A restored unit's AWAITs are checked again (R182). -/
def State.wakeUnit (s : State) (uid : Nat) : State := s.wakeAt fun u _ _ => u.uid == uid

/-- An arrival at a global word has been applied: AWAITs at that word are checked (R182). -/
def State.wakeGlobal (s : State) (pas : List Nat) : State :=
  s.wakeAt fun u sp va => sp == .global &&
    (match s.reach u.ctx va .r 1 with
     | .ok qs => qs.head? == pas.head?
     | _ => false)

/-- One arrival of `n` bytes at a word of a unit's window. -/
def State.arriveScr (s : State) (u : Nat) (a n : Nat) : State :=
  (s.updUnit u fun x => { x with scr := x.scr.writes (span a 16) (leBytes 16 (arrive (x.scr.at_ a 16) n)) }).wakeAt
    fun x sp va => x.uid == u && sp == .scratch && va.toNat == a

/-- One arrival at a global word, performed for unit `u` at the home slice. -/
def State.arriveGlobal (s : State) (u : Nat) (pas : List Nat) (n : Nat) : State :=
  (s.writeGlobal u pas (leBytes 16 (arrive (s.sliceN u pas) n))).wakeGlobal pas

/-! ### Engine writes of the window (R91, R93) -/

/-- The window as engines see it: with what completed operations have written (R249). -/
def UnitSt.engScr (u : UnitSt) : Memory := u.late.foldl Memory.writeCells u.scr

/-- Cells of a window write that stay behind when another write of some bytes becomes visible before it. -/
def lateBut (cells : List Host.Cell) (m : Memory) : Memory := m.filter fun c => !cells.any fun d => d.1 == c.1

/-- One engine write of the window becomes visible to the lanes, and no other. -/
def UnitSt.landCells (u : UnitSt) (cells : List Host.Cell) : UnitSt :=
  { u with scr := u.scr.writeCells cells, late := (u.late.map (lateBut cells)).filter fun m => !m.isEmpty }

/-- All engine writes of the window become visible to the lanes. -/
def UnitSt.land (u : UnitSt) : UnitSt := { u with scr := u.engScr, late := [] }

/-- The oldest one does. -/
def UnitSt.landOne (u : UnitSt) : UnitSt :=
  match u.late with
  | [] => u
  | m :: ms => { u with scr := u.scr.writeCells m, late := ms }

/-- Window bytes that an engine operation writes; those that an arrival of its counts are performed before it (R94). -/
def State.engineScr (s : State) (uid : Nat) (cells : List Host.Cell) (arrives : Bool) : State :=
  s.updUnit uid fun u => if arrives then u.landCells cells else { u with late := u.late ++ [cells] }

/-! ### New values -/

/-- The new value of an RMW (R174), on `w`-bit patterns. -/
def atomNew (op : AtomOp) (w : Nat) (old x y : Nat) : Nat :=
  match op with
  | .add => (old + x) % 2 ^ w
  | .fadd => fp32.round .rne false (Val.add .rne (fp32.dec old) (fp32.dec x))
  | .min => if toSigned w x < toSigned w old then x else old
  | .max => if toSigned w old < toSigned w x then x else old
  | .minu => min old x
  | .maxu => max old x
  | .and => old &&& x
  | .or => old ||| x
  | .xor => old ^^^ x
  | .xchg => x
  | .cas => if old == x then y else old

/-- The sum of one element of a RADD (R300): f32, bf16x2 or i32; the payload is the right operand. -/
def raddElem (etype old x : Nat) : Nat :=
  let half (i : Nat) : Nat :=
    bf16.round .rne false (Val.add .rne (bf16.dec (old / 2 ^ i % 65536)) (bf16.dec (x / 2 ^ i % 65536)))
  match etype with
  | 0 => fp32.round .rne false (Val.add .rne (fp32.dec old) (fp32.dec x))
  | 1 => half 0 + 65536 * half 16
  | _ => (old + x) % 2 ^ 32

/-- The bytes of a run of elements after a RADD. -/
def raddBytes (etype : Nat) (old data : List Byte) : List Byte :=
  ((List.range (data.length / 4)).map fun j =>
    leBytes 4 (raddElem etype (ofLe ((old.drop (4 * j)).take 4)) (ofLe ((data.drop (4 * j)).take 4)))).foldr (· ++ ·) []

/-- What an access writes over old bytes, as one number, and the value that it returns. -/
def MemKind.effect (k : MemKind) (old : Nat) : List Byte × BitVec 128 :=
  match k with
  | .store bs | .elem bs _ _ | .engine bs _ | .far _ bs | .outside _ _ bs | .commit _ bs | .front _ bs => (bs, 0)
  | .stb v _ => (leBytes 4 v.toNat, 0)
  | .atom op wide _ x y | .farAtom _ op wide x y | .outAtom _ _ op wide x y =>
    let n := if wide then 8 else 4
    (leBytes n (atomNew op (8 * n) old x.toNat y.toNat), BitVec.ofNat 128 old)
  | .sc _ wide v => (leBytes (if wide then 8 else 4) v.toNat, 0)
  | .awinit t => (leBytes 4 t.toNat ++ leBytes 4 0 ++ leBytes 4 (old / 2 ^ 64) ++ leBytes 4 0, 0)
  | .awadd n => (leBytes 16 (arrive old n.toNat), 0)
  | .earrive n _ | .farArrive _ n => (leBytes 16 (arrive old n), 0)
  | .farAdd _ e bs => (raddBytes e (leBytes bs.length old) bs, 0)
  | .frontAdd _ n => (leBytes 8 (min (old + n) (2 ^ 64 - 1)), 0)
  | _ => ([], 0)

/-- An arrival, after which AWAITs at the word are checked (R181, R182). -/
def MemKind.isArrival : MemKind → Bool
  | .awadd _ | .earrive .. | .farArrive .. => true
  | _ => false

/-- An access reads what it writes to, at the slice. -/
def MemKind.rmw : MemKind → Bool
  | .atom .. | .awadd _ | .awinit _ => true
  | _ => false

/-- Nothing waits for the return of the access: it ends when it is performed. -/
def MemKind.unreturned : MemKind → Bool
  | .engine .. | .earrive .. | .outside .. | .outAtom .. | .commit .. | .front .. | .frontAdd .. => true
  | _ => false

/-! ### The front end as an agent (R24, R85) -/

def MemKind.isFront : MemKind → Bool
  | .front .. | .frontAdd .. => true
  | _ => false

/-- Memory as some accesses leave it, one after another. -/
def Memory.after (m : Memory) (os : List MemOp) : Memory :=
  os.foldl (fun m o => m.writes o.addrs (o.kind.effect (m.readN o.addrs)).1) m

/-- Memory as the front end and the firmware read it: with their own writes that are on their way (R90). -/
def State.frontMem (s : State) : Memory := s.mem.after (s.ops.filter fun o => o.kind.isFront)

/-- A write or RMW of the front end or the firmware for a context sets out for its home slice (R85). -/
def State.postFront (s : State) (pas : List Nat) (k : MemKind) : State :=
  { s with nextId := s.nextId + 2
           ops := s.ops ++ [{ id := s.nextId, unit := s.nextId, tid := 1024, sp := .global, addrs := pas, kind := k
                              grp := s.nextId, ent := some (s.nextId + 1) }] }

end Sys2Proof.Machine
end

