-- ==== Sys2Proof/Machine/Operands.lean ====
section
/-! DEFINITION. Operand forms: typed register groups (R42, R123), packed elements (R54), immediates (R35), and float
operands under their modifiers and the flush-mode word (R60, R136). -/

namespace Sys2Proof

/-- Registers of an operand of a type (R123). -/
def Ty.regs (t : Ty) : Nat := if t.wide then 2 else 1

/-- Elements of an operand of a type (R54). -/
def Ty.lanes (t : Ty) : Nat :=
  match t with
  | .i16x2 | .n16x2 | .bf16x2 | .f16x2 => 2
  | .i8x4 | .n8x4 => 4
  | _ => 1

def Ty.isSigned (t : Ty) : Bool :=
  match t with
  | .i32 | .i64 | .i16x2 | .i8x4 | .i8 => true
  | _ => false

def CvtTy.width : CvtTy → Nat
  | .i8 | .n8 => 8 | .i16 | .n16 => 16 | .i32 | .n32 => 32 | .i64 | .n64 => 64
def CvtTy.isSigned : CvtTy → Bool
  | .i8 | .i16 | .i32 | .i64 => true
  | _ => false
def CvtTy.regs (t : CvtTy) : Nat := if t.width == 64 then 2 else 1

end Sys2Proof

namespace Sys2Proof.Machine

/-! ### Typed register fields -/

def tsrc (f : Fld) (t : Ty) (r : VReg) : RegUse := src f r t.regs
def tdst (t : Ty) (r : VReg) : RegUse := dst r t.regs

def Thread.putT (th : Thread) (t : Ty) (r : VReg) (v : BitVec 128) : Thread := th.putN r.toNat t.regs v

/-! ### Integers and their elements -/

/-- x mod 2^w (R55). -/
def wrap (w : Nat) (x : Int) : Nat := (x % 2 ^ w).toNat
def loOf (sg : Bool) (w : Nat) : Int := if sg then -(2 ^ (w - 1)) else 0
def hiOf (sg : Bool) (w : Nat) : Int := if sg then 2 ^ (w - 1) - 1 else 2 ^ w - 1
def clampTo (sg : Bool) (w : Nat) (x : Int) : Int := max (loOf sg w) (min (hiOf sg w) x)
def readInt (sg : Bool) (w x : Nat) : Int := if sg then toSigned w x else low w x

/-- Element j of a value (R54). -/
def elemN (w : Nat) (v : BitVec 128) (j : Nat) : Nat := v.toNat / 2 ^ (w * j) % 2 ^ w
/-- Element j read under T's signedness. -/
def elemI (t : Ty) (v : BitVec 128) (j : Nat) : Int := readInt t.isSigned t.width (elemN t.width v j)

/-- A value from its elements, the lowest first. -/
def pack (w : Nat) : List Nat → Nat
  | [] => 0
  | x :: xs => x % 2 ^ w + 2 ^ w * pack w xs

/-- A value of type T, element by element. -/
def mapT (t : Ty) (f : Nat → Nat) : BitVec 128 := BitVec.ofNat 128 (pack t.width ((List.range t.lanes).map f))

/-- R127: the exact results of each element, wrapped or clamped. -/
def intT (t : Ty) (sat : Bool) (f : Nat → Int) : BitVec 128 :=
  mapT t fun j => wrap t.width (if sat then clampTo t.isSigned t.width (f j) else f j)

/-- An immediate of an operation of type T (R35). -/
def immT (t : Ty) (imm : BitVec 34) : BitVec 128 :=
  if t.wide then (imm.signExtend 64).setWidth 128 else (imm.setWidth 32).setWidth 128

/-! ### Floats and their elements -/

def fmtOf (t : Ty) : Fmt :=
  match t with
  | .f32 => fp32 | .bf16x2 => bf16 | .f16x2 => fp16 | .f64 => fp64 | .e4m3 => fE4m3 | .e5m2 => fE5m2
  | _ => fp32

/-- The formats that the flush-mode word governs (R60). -/
def flushes (t : Ty) : Bool :=
  match t with
  | .f32 | .bf16x2 | .f16x2 => true
  | _ => false

def Thread.fi (th : Thread) : Bool := th.fmode.getLsbD 0
def Thread.fo (th : Thread) : Bool := th.fmode.getLsbD 1

/-- An operand: flushed under fi, then its absolute value, then negated (R136). -/
def operand (t : Ty) (fi : Bool) (ab ng : Bool) (x : Nat) : Val :=
  let v := (fmtOf t).dec ((fmtOf t).flush (fi && flushes t) x)
  let v := if ab then v.abs else v
  if ng then v.neg else v

/-- A result: rounded, then flushed under fo (R60, R61). -/
def result (t : Ty) (fo : Bool) (rm : RM) (sat : Bool) (v : Val) : Nat :=
  (fmtOf t).flush (fo && flushes t) ((fmtOf t).round rm sat v)

end Sys2Proof.Machine
end

