-- ==== Sys2Proof/Machine/Flags.lean ====
section
/-! DEFINITION. The device keeps no arithmetic flags (R55, R58); what stands in their place is the condition codes of
R134, the branch conditions of R37 and the class mask of R143. -/

namespace Sys2Proof.Machine

/-- An integer condition on two w-bit patterns (R134): `sg` is T's signedness. -/
def intCond (c : Cond) (sg : Bool) (w a b : Nat) : Bool :=
  match c with
  | .eq => low w a == low w b
  | .ne => low w a != low w b
  | .lt => decide (readInt sg w a < readInt sg w b)
  | .le => decide (readInt sg w a ≤ readInt sg w b)
  | .gt => decide (readInt sg w b < readInt sg w a)
  | .ge => decide (readInt sg w b ≤ readInt sg w a)
  | .ltu => decide (low w a < low w b)
  | .leu => decide (low w a ≤ low w b)
  | .gtu => decide (low w b < low w a)
  | .geu => decide (low w b ≤ low w a)
  | .uno | .ord => false

/-- A float condition (R134). -/
def floatCond (c : Cond) (a b : Val) : Bool :=
  let uno := a.isNan || b.isNan
  match c with
  | .eq => a.eq b
  | .ne => uno || !a.eq b
  | .lt => a.lt b
  | .le => a.lt b || a.eq b
  | .gt => b.lt a
  | .ge => b.lt a || a.eq b
  | .uno => uno
  | .ord => !uno
  | .ltu | .leu | .gtu | .geu => false

/-- R134: 1 or 0 for a scalar type, all ones or zero in each element of a packed one. -/
def condT (t : Ty) (f : Nat → Bool) : BitVec 128 :=
  if t.lanes == 1 then (if f 0 then 1 else 0) else mapT t fun j => if f j then 2 ^ t.width - 1 else 0

/-- R37. -/
def brTaken (c : BrCond) (v : Word) : Bool :=
  match c with
  | .z => v == 0
  | .nz => v != 0
  | .b0c => !v.getLsbD 0
  | .b0s => v.getLsbD 0
  | .neg => v.getLsbD 31
  | .nneg => !v.getLsbD 31

/-- The class mask of a code (R143). -/
def classMask (f : Fmt) (x : Nat) : Nat :=
  let mag := x % 2 ^ f.signPos
  match f.dec x with
  | .nan => 256
  | .inf s => if s then 1 else 128
  | .fin s m _ =>
    if m == 0 then (if s then 8 else 16)
    else if mag < 2 ^ f.man then (if s then 4 else 32)
    else (if s then 2 else 64)

end Sys2Proof.Machine
end

