-- ==== Sys2Proof/Machine/Mx.lean ====
section
/-! DEFINITION. Block-scaled data: element types (R56, R146), the renormalisation rule (R71), MX records (R66, R67). -/

namespace Sys2Proof.Machine

/-- An element type's format; INT8 has none. -/
def bfmt? : BTy → Option Fmt
  | .e4m3 => some fE4m3 | .e5m2 => some fE5m2 | .e3m2 => some fE3m2 | .e2m3 => some fE2m3 | .e2m1 => some fE2m1
  | .int8 => none

/-- The exponent of the largest binade (R66). -/
def emaxOf : BTy → Int
  | .e4m3 => 8 | .e5m2 => 15 | .e3m2 => 4 | .e2m3 => 2 | .e2m1 => 2 | .int8 => 0

/-- Bits of an element (R66). -/
def bitsOf : BTy → Nat
  | .e4m3 | .e5m2 | .int8 => 8 | .e3m2 | .e2m3 => 6 | .e2m1 => 4

/-- The value of an element code. -/
def elemVal (t : BTy) (x : Nat) : Val :=
  match bfmt? t with
  | some f => f.dec (x % 2 ^ bitsOf t)
  | none => Val.scale (Val.ofInt (toSigned 8 x)) (-6)

/-- An element converted under a rounding, saturating at ±max (R61, R71). -/
def elemOf (t : BTy) (rm : RM) (v : Val) : Nat :=
  match bfmt? t with
  | some f => f.round rm true v
  | none =>
    match v with
    | .fin s m e =>
      let x := min 127 (quantise rm s m e (-6))
      wrap 8 (if s then -(x : Int) else x)
    | _ => 0

/-- E8M0 (R57). -/
def scaled (scale : Nat) (v : Val) : Val := if scale == 255 then .nan else v.scale ((scale : Int) - 127)

/-- The larger of two magnitudes, as an exact value. -/
def maxMag (a b : Val) : Val := if a.abs.lt b.abs then b.abs else a.abs

/-- The zero of the type with the sign of x. -/
def zeroElem (t : BTy) (v : Val) : Nat :=
  match bfmt? t with
  | some f => f.signed v.isNeg 0
  | none => 0

/-- The renormalisation rule (R71): the scale, and each element under its own rounding. -/
def renormalise (t : BTy) (xs : List (Val × RM)) : Nat × List Nat :=
  if xs.any fun x => x.1.isNan || x.1.isInf then (255, xs.map fun _ => 0)
  else
    let amax := xs.foldl (fun a x => maxMag a x.1) (.fin false 0 0)
    if amax.isZero then (0, xs.map fun x => zeroElem t x.1)
    else
      let c := amax.log2Floor - emaxOf t + 127
      let c := min (max c 0) 254
      (c.toNat, xs.map fun x => elemOf t x.2 (x.1.scale (127 - c)))

/-- Each element's rounding when G steps once per element (R65). -/
def stepped (rm : RM) : Nat → List RM
  | 0 => []
  | n + 1 =>
    match rm with
    | .sr g => .sr g :: stepped (.sr (lfsr g)) n
    | r => r :: stepped r n

/-! ### MX records (R66, R67, R212) -/

def mxElem : MxTy → BTy
  | .mxf4 => .e2m1 | .mxf6a => .e2m3 | .mxf6b => .e3m2 | .mxf8a => .e4m3 | .mxf8b => .e5m2 | .mxi8 => .int8

/-- Bytes of a record. -/
def mxSize (t : MxTy) : Nat := 1 + 4 * bitsOf (mxElem t)

/-- The 32 values of a record given as a number of its bytes. -/
def mxRead (t : MxTy) (w : Nat) : List Val :=
  (List.range 32).map fun i =>
    scaled (w % 256) (elemVal (mxElem t) (w / 2 ^ (8 + bitsOf (mxElem t) * i) % 2 ^ bitsOf (mxElem t)))

/-- The number of a record's bytes from its scale and element codes. -/
def mxWord (t : MxTy) (r : Nat × List Nat) : Nat := r.1 + 256 * pack (bitsOf (mxElem t)) r.2

end Sys2Proof.Machine
end

