-- ==== Sys2Proof/Machine/Block.lean ====
section
/-! DEFINITION. The block-scaled instructions (R144 to R151): the 32 threads of one home bundle, its sidecars, and the
renormalisation of every result block. -/

namespace Sys2Proof.Machine

/-- Blocks of a scaled register under a type (R146). -/
def nbOf : BTy → Nat
  | .e2m1 => 8 | _ => 4

/-- Element code l of block s in a register of lane l (R70). -/
def blockElem (t : BTy) (v : Word) (s : Nat) : Nat :=
  match t with
  | .e2m1 => v.toNat / 2 ^ (4 * s) % 16
  | .e3m2 | .e2m3 => v.toNat / 2 ^ (8 * s) % 64
  | _ => v.toNat / 2 ^ (8 * s) % 256

def sideByte (z : DWord) (s : Nat) : Nat := z.toNat / 2 ^ (8 * s) % 256

/-- Sidecar Z(hb)[n]. -/
def UnitSt.side (u : UnitSt) (hb n : Nat) : DWord := (u.zs.getD hb []).getD n 0
def UnitSt.setSide (u : UnitSt) (hb n : Nat) (z : DWord) : UnitSt :=
  { u with zs := u.zs.modify hb fun zs => zs.set n z }

/-- R144: the path is exactly one home bundle, home lane l in slot l. -/
def View.wholeBundle (v : View) : Option Nat :=
  let hb := hbOf (v.p.elected)
  if v.p.tids == (List.range 32).map (32 * hb + ·) && v.b.slots == v.p.tids.map some then some hb else none

/-- The slot mask of a path (R193). -/
def View.mask (v : View) : Word := v.p.tids.foldl (fun m t => m ||| (1 <<< v.b.slotOf t)) 0

def View.incomplete (v : View) : Trap := { cause := .blockIncomplete, info := v.mask }

/-- The 32 registers n of the home bundle, in lane order. -/
def bundleRegs (ps : Parts) (n : Nat) : List Word := ps.map fun x => x.2.1.reg n

/-- What stands for a lane that traps at its own operands: the spec gives its elements no value. Free values.
DESIGN CHOICE, log 65. -/
def State.standIn (s : State) (u : UnitSt) (t : Nat) : Nat × Thread × Opnds :=
  let at_ := s.fresh + (u.nregs + 1) * laneOf t
  (t, { u.thread t with regs := (List.range u.nregs).map fun n => (Config.freeValue (at_ + n)).setWidth 32 },
    { a := (Config.freeValue (at_ + u.nregs)).setWidth 128 })

/-- All 32 lanes of the home bundle, in order. -/
def State.lanes (s : State) (v : View) (ps : Parts) : Parts :=
  v.p.tids.map fun t => (ps.find? (·.1 == t)).getD (s.standIn v.u t)

/-- A block-scaled instruction: traps every thread of a path that is not one complete home bundle; otherwise writes
registers by lane, and sidecars once unless every lane traps at its operands (R191). -/
def blockIssue (us : List RegUse) (regs : View → Nat → Parts → Nat → Thread → Thread)
    (side : View → Nat → Parts → UnitSt → UnitSt) (s : State) : Out :=
  issueWith {} us
    (fun s v ps t th _ =>
      match v.wholeBundle with
      | none => .trap v.incomplete
      | some hb => .ok (regs v hb (s.lanes v ps) t th) none [])
    (fun v ps s =>
      match v.wholeBundle with
      | none => s
      | some hb =>
        if ps.isEmpty then s
        else
          let s' := s.updUnit v.u.uid (side v hb (s.lanes v ps))
          if ps.length == 32 then s' else { s' with fresh := s'.fresh + 32 * (v.u.nregs + 1) }) s

/-- Rounding of lane l for its block s: DYN is the rm of home lane 0, SR the lane's own G after s elements (R146). -/
def laneRM (ps : Parts) (rnd : Rnd) (th : Thread) (s : Nat) : RM :=
  match rnd with
  | .sr => .sr (lfsrSteps s th.rng)
  | r => resolve ((ps.headD (0, { regs := [] }, {})).2.1.rmode) 0 r

/-- One result block: the scale and the 32 elements. -/
def resultBlock (t : BTy) (rnd : Rnd) (ps : Parts) (s : Nat) (f : Nat → Val) : Nat × List Nat :=
  renormalise t (ps.mapIdx fun l x => (f l, laneRM ps rnd x.2.1 s))

/-- All result blocks of an instruction: `f s l` is the exact value of block s, lane l. -/
def resultBlocks (t : BTy) (rnd : Rnd) (ps : Parts) (n : Nat) (f : Nat → Nat → Val) : List (Nat × List Nat) :=
  (List.range n).map fun s => resultBlock t rnd ps s (f s)

/-- A lane's register from its elements of the blocks. -/
def laneWord (t : BTy) (l : Nat) (bs : List (Nat × List Nat)) : Word :=
  BitVec.ofNat 32 (pack (if t == .e2m1 then 4 else 8) (bs.map fun b => b.2.getD l 0))

/-- A sidecar from the scales of its blocks: bytes 4 to 7 are 0x7F for four blocks (R70). -/
def sideWord (bs : List (Nat × List Nat)) : DWord :=
  BitVec.ofNat 64 (pack 8 (bs.map (·.1) ++ List.replicate (8 - bs.length) 0x7F))

/-- G after the elements of `n` blocks (R65). -/
def stepLane (rnd : Rnd) (n : Nat) (th : Thread) : Thread :=
  if rnd == .sr then { th with rng := lfsrSteps n th.rng } else th

/-- Element l of block s of scaled register n (R147). -/
def blockVal (u : UnitSt) (hb : Nat) (ps : Parts) (t : BTy) (n s l : Nat) : Val :=
  scaled (sideByte (u.side hb n) s) (elemVal t (blockElem t ((bundleRegs ps n).getD l 0) s))

def negIf (b : Bool) (v : Val) : Val := if b then v.neg else v

/-- The result blocks of an element-wise block instruction (R147). -/
def wiseBlocks (m : BMods) (a b c : VReg) (op : RM → Val → Val → Val → Val) (v : View) (hb : Nat) (ps : Parts) :
    List (Nat × List Nat) :=
  let rm := laneRM ps (if m.rnd == .sr then .rne else m.rnd) { regs := [] } 0
  resultBlocks m.ty m.rnd ps (nbOf m.ty) fun s l =>
    op rm (negIf m.nega (blockVal v.u hb ps m.ty a.toNat s l)) (negIf m.negb (blockVal v.u hb ps m.ty b.toNat s l))
      (negIf m.negc (blockVal v.u hb ps m.ty c.toNat s l))

def blockWise (m : BMods) (d a b c : VReg) (us : List RegUse) (op : RM → Val → Val → Val → Val) (s : State) : Out :=
  blockIssue us
    (fun v hb ps t th => (stepLane m.rnd (nbOf m.ty) th).put d.toNat (laneWord m.ty (laneOf t) (wiseBlocks m a b c op v hb ps)))
    (fun v hb ps u => u.setSide hb d.toNat (sideWord (wiseBlocks m a b c op v hb ps))) s

def execBadd (d a b : VReg) (m : BMods) (s : State) : Out :=
  blockWise m d a b 0 [dst d, src .a a, src .b b] (fun rm x y _ => Val.add rm x y) s

def execBmul (d a b : VReg) (m : BMods) (s : State) : Out :=
  blockWise m d a b 0 [dst d, src .a a, src .b b] (fun _ x y _ => Val.mul x y) s

def execBfma (d a b c : VReg) (m : BMods) (s : State) : Out :=
  blockWise m d a b c [dst d, src .a a, src .b b, src .c c] (fun rm x y z => Val.add rm (Val.mul x y) z) s

/-- BMAX: −0 below +0, NaN if either is NaN. -/
def execBmax (d a b : VReg) (m : BMods) (s : State) : Out :=
  blockWise m d a b 0 [dst d, src .a a, src .b b]
    (fun _ x y _ => if x.isNan || y.isNan then .nan else Val.max2 x y) s

def execBnorm (d a : VReg) (m : BMods) (s : State) : Out :=
  blockWise m d a 0 0 [dst d, src .a a] (fun _ x _ _ => x) s

/-- BSET: the sidecar takes home lane 0's pair (R148). Its field z_d names a sidecar and is no register that R39 and R41 check;
BGET's z_a likewise. DESIGN CHOICE, log 59. -/
def execBset (d a : VReg) (s : State) : Out :=
  blockIssue [src .a a 2] (fun _ _ _ _ th => th)
    (fun _ hb ps u => u.setSide hb d.toNat ((ps.headD (0, { regs := [] }, {})).2.2.a.setWidth 64)) s

/-- BGET: the sidecar into the pair d of every thread (R148). -/
def execBget (d a : VReg) (s : State) : Out :=
  blockIssue [dst d 2] (fun v hb _ _ th => th.put64 d.toNat (v.u.side hb a.toNat)) (fun _ _ _ u => u) s

def bqntBlocks (m : BMods) (a : VReg) (ps : Parts) : List (Nat × List Nat) :=
  resultBlocks m.ty m.rnd ps (nbOf m.ty) fun s l =>
    negIf m.nega (fp32.dec ((bundleRegs ps (a.toNat + s)).getD l 0).toNat)

/-- BQNT: FP32 registers into a scaled register (R149). -/
def execBqnt (d a : VReg) (m : BMods) (s : State) : Out :=
  blockIssue [dst d, src .a a (nbOf m.ty)]
    (fun _ _ ps t th => (stepLane m.rnd (nbOf m.ty) th).put d.toNat (laneWord m.ty (laneOf t) (bqntBlocks m a ps)))
    (fun _ hb ps u => u.setSide hb d.toNat (sideWord (bqntBlocks m a ps))) s

/-- BDEQ: a scaled register into FP32 registers (R149). -/
def execBdeq (d a : VReg) (m : BMods) (s : State) : Out :=
  blockIssue [dst d (nbOf m.ty), src .a a]
    (fun v hb ps t th =>
      (List.range (nbOf m.ty)).foldl (fun th s =>
        th.put (d.toNat + s) (BitVec.ofNat 32 (fp32.round (laneRM ps m.rnd th 0) false
          (negIf m.nega (blockVal v.u hb ps m.ty a.toNat s (laneOf t)))))) th)
    (fun _ _ _ u => u) s

/-- Blocks of BCVT: of the type with the fewer registers per block, R150's pairing. -/
def bcvtBlocks (m : BMods) (dty : BTy) (a : VReg) (v : View) (hb : Nat) (ps : Parts) : List (Nat × List Nat) :=
  resultBlocks dty m.rnd ps (max (nbOf m.ty) (nbOf dty)) fun s l =>
    negIf m.nega (if nbOf m.ty == 4 && 4 ≤ s then blockVal v.u hb ps m.ty (a.toNat + 1) (s - 4) l
      else blockVal v.u hb ps m.ty a.toNat s l)

/-- BCVT (R150): from E2M1 to four blocks it writes d and d + 1; the other way it reads a and a + 1. -/
def execBcvt (d a : VReg) (dty : BTy) (m : BMods) (s : State) : Out :=
  let two := nbOf m.ty == 8 && nbOf dty == 4
  blockIssue [dst d (if two then 2 else 1), src .a a (if nbOf m.ty == 4 && nbOf dty == 8 then 2 else 1)]
    (fun v hb ps t th =>
      let bs := bcvtBlocks m dty a v hb ps
      let th := stepLane m.rnd bs.length th
      if two then (th.put d.toNat (laneWord dty (laneOf t) (bs.take 4))).put (d.toNat + 1) (laneWord dty (laneOf t) (bs.drop 4))
      else th.put d.toNat (laneWord dty (laneOf t) bs))
    (fun v hb ps u =>
      let bs := bcvtBlocks m dty a v hb ps
      if two then (u.setSide hb d.toNat (sideWord (bs.take 4))).setSide hb (d.toNat + 1) (sideWord (bs.drop 4))
      else u.setSide hb d.toNat (sideWord bs)) s

end Sys2Proof.Machine
end

