-- ==== Sys2Proof/Machine/Settle.lean ====
section
/-! DEFINITION. What follows at once from arrivals and exits: joins (R159), unit barriers (R179), the last exit (R115),
and time limits of waits (R159, R161). -/

namespace Sys2Proof.Machine

/-- Does `f` to the next state of an outcome. -/
def thenDo (f : State → State) : Out → Out
  | .next s => .next (f s)
  | r => r

def Thread.alive (th : Thread) : Bool := th.st != .exited

/-- Non-exited threads of a unit, by index. -/
def UnitSt.living (u : UnitSt) : List Nat := (List.range u.threads.length).filter fun t => (u.thread t).alive

/-- A thread waits at the JOIN whose next header is `x`; a JOIN is last in its clause, so that header names it. -/
def Thread.atJoin (x : Pc) (th : Thread) : Bool :=
  match th.st with
  | .waiting (.join _ _) => th.pos.hdr == x
  | _ => false

/-- The join of a home bundle is complete: every non-exited thread waits at one JOIN. -/
def UnitSt.joinDone (u : UnitSt) (hb : Nat) : Bool :=
  let ts := u.living.filter fun t => hbOf t == hb
  match ts with
  | [] => false
  | t :: _ => ts.all fun i => (u.thread i).atJoin (u.thread t).pos.hdr

/-- A thread leaves its JOIN with a result. -/
def Thread.leaveJoin (v : Word) (th : Thread) : Thread :=
  match th.st with
  | .waiting (.join d _) => { th.put d.toNat v with st := .ready }
  | _ => th

def UnitSt.settleJoins (u : UnitSt) : UnitSt :=
  { u with threads := u.threads.mapIdx fun t th => if u.joinDone (hbOf t) then th.leaveJoin 1 else th }

/-- A `.sync` thread leaves its barrier, after all that happens before the arrivals of the phase. -/
def Thread.leaveBar (id : Nat) (deps : List Nat) (th : Thread) : Thread :=
  match th.st with
  | .waiting (.bar i) => if i == id then { th with st := .ready, seen := deps ++ th.seen } else th
  | _ => th

/-- The state TRAPPED (R191). -/
def Thread.isTrapped (th : Thread) : Bool :=
  match th.st with
  | .trapped _ => true
  | _ => false

/-- A barrier's phase is complete (R179). A TRAPPED thread is required but has not arrived at a phase of count 0, whatever
BAR.arrive it made before (R192). DEDUCED, log 56. -/
def UnitSt.barDone (u : UnitSt) (b : Bar) : Bool :=
  !b.arrived.isEmpty &&
  if b.need == 0 then u.living.all fun t => b.arrived.contains t && !(u.thread t).isTrapped else decide (b.need ≤ b.arrived.length)

def UnitSt.settleBar (u : UnitSt) (id : Nat) : UnitSt :=
  if u.barDone (u.bars.getD id {}) then
    { u with bars := u.bars.set id {}, threads := u.threads.map (Thread.leaveBar id (u.bars.getD id {}).deps) }
  else u

def UnitSt.settleBars (u : UnitSt) : UnitSt := (List.range 16).foldl UnitSt.settleBar u

/-- The last exit ends the unit's residency (R115); for a prologue the launch engine does (R334). -/
def UnitSt.settleDrain (u : UnitSt) : UnitSt :=
  if u.st == .resident && u.living.isEmpty then u.drain else u

def UnitSt.settle (u : UnitSt) : UnitSt :=
  if u.st == .resident then (u.settleJoins.settleBars).settleDrain else u

def State.settleUnit (u : Nat) (s : State) : State := s.updUnit u UnitSt.settle

/-- Settles the unit of the issuing path after its instruction. -/
def settled (s : State) (r : Out) : Out :=
  match s.cur with
  | none => r
  | some pr => thenDo (State.settleUnit pr.unit) r

/-! ### Time limits -/

/-- JOIN's timeout, in the kclk after the one in which it falls (R159), and SLEEP's end in ns of DT (R161). -/
def Thread.timeJoin (now : Nat) (th : Thread) : Thread :=
  match th.st with
  | .waiting (.join _ dl) => if decide (dl < now) then th.leaveJoin 0 else th
  | _ => th

def Thread.wake (dt : Nat) (th : Thread) : Thread :=
  match th.st with
  | .waiting (.sleep dl) => if decide (dl ≤ dt) then { th with st := .ready } else th
  | _ => th

end Sys2Proof.Machine
end

