-- ==== Sys2Proof/Machine/Control.lean ====
section
/-! DEFINITION. Control transfer, waiting, ending and trapping (R157 to R162), and WAIT (R177). -/

namespace Sys2Proof.Machine

/-! ### Private words and frame records (R112, R113) -/

/-- A private word; an unlisted one is zero (R81). -/
def Thread.pw (th : Thread) (i : Word) : Word := ((th.priv.find? (·.1 == i.toNat)).map (·.2)).getD 0
def Thread.setPw (th : Thread) (i v : Word) : Thread :=
  { th with priv := (i.toNat, v) :: th.priv.filter (·.1 != i.toNat) }

/-- The first of the `n` words from `i` that lies at or above the private limit; indices wrap at 2^32. -/
def privBad (p : Nat) (i : Word) : Nat → Option Word
  | 0 => none
  | n + 1 => if decide (p ≤ i.toNat) then some i else privBad p (i + 1) n

def privTrap (p : Nat) (i : Word) : Trap :=
  { cause := .privateLimit, info := BitVec.ofNat 32 p, addr := i.setWidth 64 }

/-- Pushes a frame record (R158). -/
def Thread.push (th : Thread) (ret : DWord) (mark : Word) : Thread :=
  let sp := th.sp
  let th := ((((th.setPw sp (ret.setWidth 32)).setPw (sp + 1) ((ret >>> 32).setWidth 24 |>.setWidth 32)).setPw (sp + 2)
    (th.fp - (sp + 4))).setPw (sp + 3) mark)
  { th with sp := sp + 4, fp := sp + 4 }

/-- The return PC of the record whose base data starts at `f`. -/
def Thread.retPc (th : Thread) (f : Word) : DWord :=
  ((th.pw (f - 3)).setWidth 24 ++ th.pw (f - 4)).setWidth 64

/-- Header + 8 × off40 (R37). -/
def branchTarget (p : Path) (off : BitVec 40) : DWord := p.hdr.setWidth 64 + 8 * off.signExtend 64

/-- BR (R37). -/
def execBr (c : BrCond) (a : VReg) (off : BitVec 40) (s : State) : Out :=
  issue { pro := true } [src .a a]
    (fun _ v _ _ th o => .ok th (if brTaken c (o.a.setWidth 32) then some (branchTarget v.p off) else none) []) s

def execBra (off : BitVec 40) (s : State) : Out :=
  issue { pro := true } [] (fun _ v _ _ th _ => .ok th (some (branchTarget v.p off)) []) s

def execJmpr (a : VReg) (s : State) : Out :=
  issue {} [src .a a 2] (fun _ _ _ _ th o => .ok th (some (o.a.setWidth 64)) []) s

/-- A push, then the transfer; a fault of the push has no effect (R157, R158). -/
def callTo (v : View) (th : Thread) (target : DWord) : TRes :=
  match privBad v.u.npriv th.sp 4 with
  | some i => .trap (privTrap v.u.npriv i)
  | none => .ok (th.push v.p.nextHeader 0) (some target) []

def execCall (off : BitVec 40) (s : State) : Out :=
  issue {} [] (fun _ v _ _ th _ => callTo v th (branchTarget v.p off)) s

def execCallr (a : VReg) (s : State) : Out :=
  issue {} [src .a a 2] (fun _ v _ _ th o => callTo v th (o.a.setWidth 64)) s

/-- RET (R158). -/
def execRet (s : State) : Out :=
  issue {} []
    (fun _ v _ _ th _ =>
      let f := th.fp
      match privBad v.u.npriv (f - 4) 4 with
      | some i => .trap (privTrap v.u.npriv i)
      | none => .ok { th with sp := f - 4, fp := f + th.pw (f - 2) } (some (th.retPc f)) []) s

/-- JOIN: arrival, with the timeout from the thread's own arrival (R159). -/
def execJoin (d : VReg) (t : BitVec 34) (s : State) : Out :=
  settled s (issue {} [dst d]
    (fun s _ _ _ th _ => .ok { th with st := .waiting (.join d (s.kclk + t.toNat)) } none []) s)

/-- A JOIN's timeout passes before completion; arrivals of the kclk in which it falls come first (R159), also for t = 0.
DESIGN CHOICE, log 55. -/
def execJoinTimeout (unit tid : Nat) (s : State) : Out :=
  .next (s.updUnit unit fun u => if u.st == .resident then u.updThread tid (Thread.timeJoin s.kclk) else u)

/-- What an exit does to a thread: reservation cleared, load streams discarded (R160). -/
def Thread.exit (th : Thread) : Thread :=
  { th with st := .exited, resv := none
            streams := th.streams.map fun q => if q.pat.dir then q else {} }

def execExit (s : State) : Out :=
  settled s (issue {} [] (fun _ _ _ _ th _ => .ok th.exit none []) s)

/-- The quadrant of the issuing bundle is to pick another one next (R161). -/
def State.markYield (v : View) (s : State) : State :=
  s.updUnit v.u.uid fun u => u.setBundle { (u.bundle? v.b.bid).getD v.b with yld := true }

/-- YIELD ends its clause (R161). -/
def execYield (s : State) : Out :=
  issueWith {} [] (fun _ _ _ _ th _ => .ok th none []) (fun v _ s => s.markYield v) s

def execSleep (n : BitVec 34) (s : State) : Out :=
  issue {} [] (fun s _ _ _ th _ => .ok { th with st := .waiting (.sleep (s.dt + n.toNat)) } none []) s

def execSleepWake (unit tid : Nat) (s : State) : Out :=
  .next (s.updUnit unit fun u => if u.st == .resident then u.updThread tid (Thread.wake s.dt) else u)

def execTrap (code : BitVec 16) (s : State) : Out :=
  issue {} [] (fun _ _ _ _ _ _ => .trap { cause := .software, info := code.setWidth 32 }) s

def State.debugOn (s : State) (c : Nat) : Bool := ((s.ctx? c).map fun (x : Ctx) => x.desc.dbg).getD false

/-- BRK traps when the context's debug enable is set, and otherwise does nothing (R162). -/
def execBrk (code : BitVec 16) (s : State) : Out :=
  issue {} []
    (fun s v _ _ th _ =>
      if s.debugOn v.u.ctx then .trap { cause := .breakpoint, info := code.setWidth 32 } else .ok th none []) s

/-! ### WAIT (R177, R222) -/

/-- Counters at or below their limits; 63 means no wait. -/
def withinLimits (l s c t f : BitVec 6) (k : Ctrs) : Bool :=
  let ok (lim n : BitVec 6) := lim == 63 || decide (n.toNat ≤ lim.toNat)
  ok l k.l && ok s k.s && ok c k.c && ok t k.t && ok f k.f

/-- The bound trap that a thread owed several takes: the earliest-accepted operation's (R222). -/
def Thread.firstOwed (th : Thread) : Option Owed :=
  match th.owed with
  | [] => none
  | o :: os => some (os.foldl (fun m x => if x.op < m.op then x else m) o)

/-- A WAIT that has held its path completes: an owed bound trap is delivered at it; a TST's names the TST word (R177, R222,
R284). -/
def Thread.endWait (s : State) (c : Nat) (word : Pos) (th : Thread) : Thread :=
  match th.firstOwed with
  | some o => { th.trapped word (trapRec s c (o.pos.getD word) o.trap) with owed := [] }
  | none => { th with st := .ready }

/-- WAIT: its threads go on together once every counter of each is within its limit (R177). A thread that is owed a bound
trap takes it when its WAIT is next settled (R222). -/
def execWait (l sl c t f : BitVec 6) (s : State) : Out :=
  issue {} []
    (fun _ v ps _ th _ =>
      if (ps.all fun x => withinLimits l sl c t f x.2.1.ctrs) && th.owed.isEmpty then .ok th none []
      else .ok { th with st := .waiting (.limits l sl c t f v.p.tids v.p.pos) } none []) s

/-- Whether a WAIT that holds a group of threads is met. -/
def UnitSt.waitMet (u : UnitSt) (l sl c t f : BitVec 6) (grp : List Nat) : Bool :=
  grp.all fun i => !(u.thread i).alive || withinLimits l sl c t f (u.thread i).ctrs

def Thread.settleWait (s : State) (u : UnitSt) (th : Thread) : Thread :=
  match th.st with
  | .waiting (.limits l sl c t f grp word) => if u.waitMet l sl c t f grp then th.endWait s u.ctx word else th
  | _ => th

/-- Completes the WAITs of resident units whose limits are met. -/
def State.settleWaits (s : State) : State :=
  let s' : State := { s with units := s.units.map fun (u : UnitSt) =>
                if u.st == .resident then { u with threads := u.threads.map (Thread.settleWait s u) } else u }
  s'.units.foldl (fun (acc : State) (u : UnitSt) => acc.settleTraps u.uid (List.range u.threads.length)) s'

end Sys2Proof.Machine
end

