-- ==== Sys2Proof/Machine/LaunchOps.lean ====
section
/-! DEFINITION. The launch engine's shared operations: records and command words (R325 to R331, R407), named events
(R346), the start, iterations and completion of launches (R333, R336 to R339), graphs (R341, R342), phases and jobs
(R343), cancels (R344), and tilth programs (R357, R358). -/

namespace Sys2Proof.Machine

/-! ### Words of records -/

/-- Word i of a record held as 32-bit words. -/
def wd (ws : List Word) (i : Nat) : Nat := (ws.getD i 0).toNat
/-- Bits lo + n − 1 : lo. -/
def bits (x lo n : Nat) : Nat := x / 2 ^ lo % 2 ^ n
def flag (x i : Nat) : Bool := bits x i 1 == 1
/-- A 64-bit field at words i and i + 1. -/
def wd64 (ws : List Word) (i : Nat) : Nat := wd ws i + 2 ^ 32 * wd ws (i + 1)

/-- Little-endian words of a list of bytes. -/
def wordsOf : List Byte → List Word
  | a :: b :: c :: d :: r => (d ++ c ++ b ++ a) :: wordsOf r
  | _ => []

def bytesOf (ws : List Word) : List Byte := ws.foldr (fun w bs => leBytes 4 w.toNat ++ bs) []

/-- Memory at physical addresses as the front end reads it, as words. -/
def State.physWords (s : State) (pa n : Nat) : List Word := wordsOf ((span pa (4 * n)).map s.frontMem.read)

/-- Bytes that a core writes to memory that no program reaches: private words, spill records, scratchpad pages and saved
state. DEDUCED, log 30. -/
def State.putPhys (s : State) (pa : Nat) (bs : List Byte) : State := { s with mem := s.mem.writes (span pa bs.length) bs }

/-- Bytes that the front end or the firmware writes for a context at a device physical address: they are performed under R85.
DEDUCED, log 30. -/
def State.putFront (s : State) (c pa : Nat) (bs : List Byte) : State := s.postFront (span pa bs.length) (.front c bs)

/-- The front end's read of `n` bytes of a context's memory (R78). -/
inductive Read where
  | ok (bs : List Byte)
  | miss
  | fault
  | poison (line : Nat)
  deriving DecidableEq, Repr

def State.readVa (s : State) (c : Nat) (va n : Nat) : Read :=
  match s.reach c (BitVec.ofNat 64 va) .r n with
  | .ok pas =>
    match s.poisoned pas with
    | some l => .poison l
    | none => .ok (pas.map s.frontMem.read)
  | .miss _ => .miss
  | .trap _ => .fault

/-! ### Commands (R326 to R329) -/

namespace CW
def type (ws : List Word) : Nat := bits (wd ws 0) 0 8
def ord (ws : List Word) : Bool := flag (wd ws 0) 8
def crec (ws : List Word) : Bool := flag (wd ws 0) 9
def evs (ws : List Word) : Bool := flag (wd ws 0) 10
def cores (ws : List Word) : Bool := flag (wd ws 0) 11
def jend (ws : List Word) : Bool := flag (wd ws 0) 13
def pend (ws : List Word) : Bool := flag (wd ws 0) 12 || jend ws
def rscope (ws : List Word) : Nat := bits (wd ws 0) 16 3
def cseq (ws : List Word) : Word := ws.getD 1 0
def job (ws : List Word) : Nat := bits (wd ws 2) 0 16
def phase (ws : List Word) : Nat := bits (wd ws 2) 16 16
def ev (ws : List Word) : Nat := bits (wd ws 3) 0 16
def blk (ws : List Word) : Nat := bits (wd ws 10) 0 12
end CW

/-- The header checks of R326; job 0 forms no job (R343). -/
def headerOk (ws : List Word) : Bool :=
  bits (wd ws 0) 14 2 == 0 && (CW.rscope ws == 3 || CW.rscope ws == 4) && bits (wd ws 0) 19 13 == 0 &&
  bits (CW.job ws) 12 4 == 0 && (CW.job ws != 0 || CW.phase ws == 0) && bits (wd ws 3) 16 16 == 0

/-- The LAUNCH and GUARDED LAUNCH body (R328, R329). -/
def launchOk (ws : List Word) : Bool :=
  let spill := bits (wd ws 13) 16 11
  wd64 ws 4 % 64 == 0 && wd64 ws 8 % 64 == 0 && bits (wd ws 10) 12 20 == 0 && wd ws 11 == 0 &&
  bits (wd ws 13) 27 5 == 0 && (spill == 0 || (decide (16 ≤ spill) && decide (spill ≤ 1024))) &&
  (CW.type ws == 2 || wd ws 15 == 0)

def zeroFrom (ws : List Word) (i : Nat) : Bool := (ws.drop i).all (· == 0)

/-- The body of each type; a word that the body does not name is reserved. DEDUCED, log 31. -/
def bodyOk (ws : List Word) : Bool :=
  match CW.type ws with
  | 1 | 2 => launchOk ws
  | 3 => wd64 ws 4 % 128 == 0 && bits (wd ws 6) 16 16 == 0 && zeroFrom ws 7
  | 4 | 5 => bits (wd ws 6) 10 6 == 0 && zeroFrom ws 7
  | 6 =>
    bits (wd ws 4) 4 28 == 0 && decide (bits (wd ws 4) 0 3 ≤ 3) &&
    (if bits (wd ws 4) 0 3 ≤ 1 then bits (wd ws 5) 8 24 == 0 else true) &&
    zeroFrom ws 8
  | 7 => zeroFrom ws 4
  | _ => true

/-- TYPE or FIELD (R327). -/
def cmdBad (ws : List Word) : Option Nat :=
  if CW.type ws == 0 || decide (7 < CW.type ws) then some 1
  else if headerOk ws && bodyOk ws then none else some 2

/-! ### Queues and completion records (R322, R325) -/

def Ctx.queue? (c : Ctx) (q : Nat) : Option Queue := c.queues.find? (·.q == q)

/-- A queue of a context, or the management ring (R366). -/
def State.queue? (s : State) (c q : Nat) : Option Queue :=
  if c == mgmt then (if q == 0 then some s.fw.mq else none) else (s.ctx? c).bind fun x => x.queue? q

/-- Where a queue's descriptor lies: in the context's queue table (R322); for the management ring, where configuration
records place it. DESIGN CHOICE, log 61. -/
def State.queueAt (s : State) (c q : Nat) : Nat :=
  if c == mgmt then s.fw.mdesc else (((s.ctx? c).map fun (x : Ctx) => x.desc.qtab).getD 0).toNat + 64 * q

/-- The fields of a queue descriptor that the device keeps up to date. -/
def State.syncQueue (s : State) (c : Nat) (q : Queue) : State :=
  let base := s.queueAt c q.q
  (s.putFront c (base + 0x1C) (bytesOf [BitVec.ofNat 32 q.st, q.head, q.ctail])).putFront c (base + 0x2C) (bytesOf [q.rseq])

def State.setQueue (s : State) (c : Nat) (q : Queue) : State :=
  (if c == mgmt then { s with fw := { s.fw with mq := q } }
   else s.updCtx c fun x => { x with queues := x.queues.map fun y => if y.q == q.q then q else y }).syncQueue c q

/-- The fields of a context descriptor that the device keeps up to date: live, frz and energy (R368). -/
def State.syncCtx (s : State) (c : Nat) : State :=
  match s.ctx? c with
  | none => s
  | some x =>
    if s.fw.ctxTab == 0 then s
    else
      let at_ := s.fw.ctxTab + 128 * c
      let low := (s.frontMem.read at_).toNat / 4 * 4 + (if x.frz then 2 else 0) + if x.live then 1 else 0
      (s.putFront c at_ (leBytes 1 low)).putFront c (at_ + 0x68) (leBytes 8 x.energy)

/-- The state of a queue that is not in error: frozen with its context; active while commands are still to be read; else
idle (R322). -/
def Queue.settled (q : Queue) (frz : Bool) : Queue :=
  { q with st := if q.st == 3 then 3 else if frz then 2 else if q.head == q.upto then 0 else 1 }

/-- The queues of a context are frozen, or freed (R322, R366, R374). -/
def State.freeze (s : State) (c : Nat) (frz : Bool) : State :=
  let qs := ((s.ctx? c).map fun (x : Ctx) => x.queues).getD []
  qs.foldl (fun s q => s.setQueue c (q.settled frz)) ((s.updCtx c fun x => { x with frz := frz }).syncCtx c)

def Queue.entries (q : Queue) : Nat := 2 ^ (q.log + 4)
def Queue.centries (q : Queue) : Nat := 2 ^ (q.clog + 4)
def Queue.room (q : Queue) : Bool := decide ((q.ctail - q.chead).toNat < q.centries)

/-- Writes the records held back for a queue while there is room, in order (R325). -/
def flushHeld (s : State) (c : Nat) (q : Queue) : List (List Word) → State
  | [] => s.setQueue c { q with held := [] }
  | r :: rs =>
    if q.room then
      let s := s.putFront c (q.cring.toNat + 32 * (q.ctail.toNat % q.centries)) (bytesOf (r.set 2 q.rseq))
      flushHeld s c { q with ctail := q.ctail + 1, rseq := q.rseq + 1 } rs
    else s.setQueue c { q with held := r :: rs }

def words64 (v : Nat) : List Word := [BitVec.ofNat 32 v, BitVec.ofNat 32 (v / 2 ^ 32)]

/-- A completion record; word 2 takes rseq when it is written. -/
def recordWords (type status code : Nat) (cseq : Word) (result dt aux : Nat) : List Word :=
  [BitVec.ofNat 32 (code * 2 ^ 16 + status * 2 ^ 8 + type), cseq, 0, BitVec.ofNat 32 result] ++ words64 dt ++ words64 aux

def State.putRecord (s : State) (c q : Nat) (r : List Word) : State :=
  match s.queue? c q with
  | some x => flushHeld s c x (x.held ++ [r])
  | none => s

/-! ### Named events (R346) -/

/-- The word of an event in its context's backing area. -/
def Ctx.eventWord (c : Ctx) (e : Nat) : Nat := c.desc.evb.toNat + 8 * e

/-- A value stands in the event's entry, or else in its backing word. -/
def State.eventOf (s : State) (x : Ctx) (e : Nat) : Nat :=
  match x.events.find? (·.1 == e) with
  | some y => y.2.toNat
  | none => s.frontMem.at_ (x.eventWord e) 8
def State.event (s : State) (c e : Nat) : Nat := ((s.ctx? c).map (s.eventOf · e)).getD 0

/-- A thread waits for an event of its context on the entry's list. -/
def Thread.listed (e : Nat) (th : Thread) : Bool :=
  match th.st with
  | .waiting (.event _ e' _ _ _ ovf) => e' == e && !ovf
  | _ => false

/-- Waiters on the list of an event's entry: threads at EVWAIT, and EVENT WAIT commands. -/
def State.waiters (s : State) (c e : Nat) : Nat :=
  (s.units.filter fun (u : UnitSt) => u.ctx == c && u.st == .resident).foldl (fun n u => n + (u.threads.filter (Thread.listed e)).length) 0 +
  (s.cmds.filter fun (x : Cmd) => CW.type x.words == 5 && x.st == .started && bits (wd x.words 6) 0 10 == c &&
    bits (wd x.words 6) 16 16 == e).length

/-- Live entries of the device (R22, R347): at most 16,384. -/
def State.entries (s : State) : Nat := s.ctxs.foldl (fun n x => n + x.events.length) 0
def eventEntries : Nat := 16384

/-- An entry without waiters, which may go back to its backing word. -/
def State.spareEntry (s : State) : Option (Ctx × Nat) :=
  s.ctxs.findSome? fun x => (x.events.find? fun y => s.waiters x.ctx y.1 == 0).map fun y => (x, y.1)

def State.dropEntry (s : State) (x : Ctx) (e : Nat) : State :=
  (s.putFront x.ctx (x.eventWord e) (leBytes 8 (s.eventOf x e))).updCtx x.ctx fun x => { x with events := x.events.filter (·.1 != e) }

def State.addEntry (s : State) (c e : Nat) : State :=
  let v : DWord := BitVec.ofNat 64 (s.event c e)
  s.updCtx c fun x => { x with events := (e, v) :: x.events }

/-- The event has an entry, or can get one. -/
def State.hasEntry (s : State) (c e : Nat) : Bool := ((s.ctx? c).map fun (x : Ctx) => x.events.any (·.1 == e)).getD false
def State.canEnter (s : State) (c e : Nat) : Bool :=
  s.hasEntry c e || decide (s.entries < eventEntries) || s.spareEntry.isSome

/-- The event is fetched into an entry, another one going back when the table is full; it stays in its backing word when
every entry has waiters (R347). -/
def State.fetchEvent (s : State) (c e : Nat) : State :=
  if s.hasEntry c e then s
  else if s.entries < eventEntries then s.addEntry c e
  else
    match s.spareEntry with
    | some (x, y) => (s.dropEntry x y).addEntry c e
    | none => s

/-- An event whose value becomes `v` by an addition: in its entry, or by one RMW of its backing word (R346, R347). -/
def State.setEvent (s : State) (c e v inc : Nat) : State :=
  if s.hasEntry c e then
    s.updCtx c fun x => { x with events := (e, BitVec.ofNat 64 v) :: x.events.filter (·.1 != e) }
  else
    match s.ctx? c with
    | some x => s.postFront (span (x.eventWord e) 8) (.frontAdd c inc)
    | none => s

/-- A waiter on the entry's list whose target is met (R347, R350). -/
def Thread.wakeEvent (value e : Nat) (th : Thread) : Thread :=
  match th.st with
  | .waiting (.event _ e' target d _ false) =>
    if e' == e && decide (target.toNat ≤ value) then { th.put d.toNat 0 with st := .ready } else th
  | _ => th

/-- A waiter on the overflow list wakes later: when the global scheduler core next looks at its event's value (R347). -/
def Thread.wakeOver (s : State) (c : Nat) (th : Thread) : Thread :=
  match th.st with
  | .waiting (.event _ e target d _ true) =>
    if target.toNat ≤ s.event c e then { th.put d.toNat 0 with st := .ready } else th
  | _ => th

/-- An addition, saturating, which wakes every waiter on the entry's list whose target is met (R346, R347). -/
def State.addEvent (s : State) (c e inc : Nat) : State :=
  let v := min (s.event c e + inc) (2 ^ 64 - 1)
  let s := (s.fetchEvent c e).setEvent c e v inc
  { s with units := s.units.map fun (u : UnitSt) =>
      if u.ctx == c && u.st == .resident then { u with threads := u.threads.map (Thread.wakeEvent v e) } else u }

/-! ### The launch status block (R331) -/

def LSt.code : LSt → Nat
  | .queued => 0 | .prologue => 1 | .running => 2 | .complete => 3 | .cancelled => 4 | .faulted => 5

/-- The trap record as words; the front end's own records have cause 0 (R332). -/
def TrapRec.words (r : TrapRec) (cause : Nat) : List Word :=
  [BitVec.ofNat 32 ((if r.fatal then 2 ^ 24 else 0) + r.repk % 16 * 2 ^ 20 + r.widx % 16 * 2 ^ 16 + r.trap.sub * 2 ^ 8 + cause),
   r.trap.info] ++
    words64 r.pc.toNat ++ words64 r.header.toNat ++ words64 r.trap.addr.toNat ++ words64 r.dt ++ List.replicate 6 0

def BoundE.words (b : BoundE) : List Word :=
  [b.lo, b.hi, BitVec.ofNat 32 (b.action + (if b.arv then 4 else 0)), BitVec.ofNat 32 b.count, BitVec.ofNat 32 b.aw, 0, 0, 0]

/-- The 64 entries of a bound table. -/
def Launch.boundWords (l : Launch) : List Word :=
  (List.range 64).foldr (fun k ws => (((l.bounds.find? (·.slot == k)).map BoundE.words).getD (List.replicate 8 0)) ++ ws) []

def Launch.blockWords (l : Launch) : List Word :=
  [BitVec.ofNat 32 (l.iter * 2 ^ 16 + l.code * 2 ^ 8 + l.st.code), l.cseq] ++ words64 l.units ++ words64 l.retired ++
  [BitVec.ofNat 32 l.gcommit, BitVec.ofNat 32 l.gfail, BitVec.ofNat 32 l.exact, 0] ++ words64 l.dtstart ++
  words64 l.dtend ++ words64 l.energy

def Launch.blk (l : Launch) : Nat := l.lid % 4096

/-- Writes the block as the launch stands, at its place in the launch status area. -/
def State.writeBlock (s : State) (lid : Nat) : State :=
  match s.launch? lid with
  | none => s
  | some l =>
    let base := (((s.ctx? l.ctx).map fun (x : Ctx) => x.desc.lsa).getD 0).toNat + 4096 * l.blk
    let s := s.putFront l.ctx base (bytesOf l.blockWords)
    let s := s.putFront l.ctx (base + 0x100) (bytesOf ((l.fault.map fun r => r.words (if l.code == 1 then r.trap.cause.code else 0)).getD (List.replicate 16 0)))
    s.putFront l.ctx (base + 0x800) (bytesOf l.boundWords)

/-! ### The silt pool (R108) -/

/-- Bytes of a spill record. -/
def siltRec (n : Nat) : Nat := 64 + 4 * n

/-- Bytes that a unit of either of the launch's kernels may need in the pool. -/
def Launch.siltUnit (l : Launch) : Nat := max (l.desc.thr * siltRec l.desc.regs) (if l.guarded then l.xdesc.thr * siltRec l.xdesc.regs else 0)

/-- Bytes of a launch's pool, in whole pages of 4 KiB. -/
def Launch.siltBytes (l : Launch) : Nat := (l.poolN * l.siltUnit + 4095) / 4096 * 4096

/-- Where the pool is mapped. -/
def siltVa (pa : Nat) : Nat := 2 ^ 55 + pa

/-- The pool of a launch is given back. -/
def State.dropPool (s : State) (lid : Nat) : State :=
  match s.launch? lid with
  | none => s
  | some l =>
    if l.poolN == 0 then s
    else
      { s.updLaunch lid fun l => { l with pool := 0, poolN := 0 } with
        map1 := s.map1.filter fun m => !(m.silt && m.va == siltVa l.pool)
        map2 := s.map2.filter fun m => m.ipa != siltVa l.pool }

/-! ### Completion of commands (R324, R325, R339) -/

def State.cmd? (s : State) (cid : Nat) : Option Cmd := s.cmds.find? (·.cid == cid)
def State.updCmd (s : State) (cid : Nat) (f : Cmd → Cmd) : State :=
  { s with cmds := s.cmds.map fun x => if x.cid == cid then f x else x }

/-- Steps 3 to 5 of R339 for a command: event, record, counters. -/
def State.completeCmd (s : State) (cid status code result aux : Nat) : State :=
  match s.cmd? cid with
  | none => s
  | some c =>
    if c.st == .done then s
    else
      let s := if CW.evs c.words && status != 3 then s.addEvent c.ctx (CW.ev c.words) 1 else s
      let s := if CW.crec c.words || decide (2 ≤ status) || CW.type c.words == 7 then
          s.putRecord c.ctx c.q (recordWords (CW.type c.words) status code (CW.cseq c.words) result s.dt aux)
        else s
      s.updCmd cid fun c => { c with st := .done, status := status, code := code, result := result, aux := aux }

/-- How a launch completes: CANCELLED before FAULTED (R339). DEDUCED, log 32. -/
def Launch.status (l : Launch) : Nat := if l.cancel then 1 else if l.code != 0 then 2 else 0

def statusOf (st : Nat) : LSt := if st == 1 then .cancelled else if st == 2 then .faulted else .complete

/-- A node of a graph completes: its successors' counters fall, and a faulted node marks them (R341, R342). -/
def State.nodeDone (s : State) (cid i status code : Nat) : State :=
  s.updCmd cid fun c =>
    let succ := ((c.nodes.find? (·.idx == i)).map (·.succ)).getD []
    { c with nodes := c.nodes.map fun n =>
        if n.idx == i then { n with st := .done, status := status, code := code }
        else if succ.contains n.idx then { n with ctr := n.ctr - 1, mark := n.mark || status == 2 } else n }

/-- Removes a launch's prologue thread and what it has outstanding. -/
def State.endPrologue (s : State) (lid : Nat) : State :=
  let us := (s.units.filter fun (u : UnitSt) => u.launch == lid && u.role == .prologue).map (·.uid)
  { s with units := s.units.filter fun (u : UnitSt) => !us.contains u.uid
           ops := s.ops.filter fun o => !us.contains o.unit }

/-- A launch completes: the steps of R339 in order. -/
def State.completeLaunch (s : State) (lid : Nat) : State :=
  match s.launch? lid with
  | none => s
  | some l =>
    let s := (s.endPrologue lid).dropPool lid
    let st := l.status
    let s := (s.updLaunch lid fun l => { l with st := statusOf st, dtend := s.dt }).writeBlock lid
    match l.node with
    | none => s.completeCmd l.cmd st l.code l.blk l.energy
    | some i =>
      let ws := ((s.cmd? l.cmd).bind fun c => (c.nodes.find? (·.idx == i)).map (·.words)).getD []
      let s := s.updCmd l.cmd fun c => { c with energy := c.energy + l.energy }
      let s := if CW.evs ws then s.addEvent l.ctx (CW.ev ws) 1 else s
      s.nodeDone l.cmd i st l.code

/-- A launch fault with the front end's own record (R332). -/
def State.faultLaunch (s : State) (lid code : Nat) (addr : Nat) : State :=
  (s.updLaunch lid fun l => l.setFault code
    { fatal := true, repk := 0, widx := 0, trap := { cause := .illegalInstr, addr := BitVec.ofNat 64 addr }
      pc := 0, header := 0, dt := s.dt }).completeLaunch lid

/-! ### Descriptors and the start of a launch (R330, R333) -/

/-- A kernel descriptor, none when a field is out of range or a reserved bit is set; the words that its table does not list
count as reserved (DESIGN CHOICE, log 60). -/
def descOf (ws : List Word) : Option Desc :=
  let thr := bits (wd ws 4) 0 16
  let regs := bits (wd ws 4) 16 16
  let f := wd ws 6
  let scr := bits f 0 16
  let grd := flag f 18
  if wd ws 0 == 1 && wd ws 1 == 0 && wd ws 7 == 0 && bits f 19 13 == 0 && zeroFrom ws 13 && decide (32 ≤ thr) &&
      decide (thr ≤ 1024) && thr % 32 == 0 && decide (8 ≤ regs) && decide (regs ≤ 512) && regs % 8 == 0 &&
      decide (wd ws 5 ≤ 65535) && decide (scr ≤ 4096) && scr % 16 == 0 && (grd || (wd64 ws 10 == 0 && wd ws 12 == 0)) then
    some { entry := BitVec.ofNat 64 (wd64 ws 2), thr := thr, regs := regs, priv := wd ws 5, scr := scr
           fl1 := flag f 16, tile := flag f 17, grd := grd, bimg := BitVec.ofNat 64 (wd64 ws 8)
           exact := BitVec.ofNat 64 (wd64 ws 10), tol := ws.getD 12 0 }
  else none

/-- The launch's values of an iteration, from its command (R328, R329, R336). -/
def Launch.reload (l : Launch) : Launch :=
  let ws := l.body
  let spill := bits (wd ws 13) 16 11
  { l with kdesc := BitVec.ofNat 64 (wd64 ws 4), pro := BitVec.ofNat 64 (wd64 ws 6), cbase := BitVec.ofNat 64 (wd64 ws 8)
           dimx := bits (wd ws 12) 0 16, dimy := bits (wd ws 12) 16 16, dimz := bits (wd ws 13) 0 16
           spill := if spill == 0 then 64 else spill, seed := ws.getD 14 0, tol := ws.getD 15 0
           blims := [], bacts := [], rept := false, pinsn := 0, ploads := 0 }

/-- A launch in QUEUED that has claimed its block (R333, step 1). -/
def newLaunch (ctx cmd : Nat) (node : Option Nat) (ws : List Word) : Launch :=
  Launch.reload { lid := ctx * 4096 + CW.blk ws, ctx := ctx, cmd := cmd, node := node, cseq := CW.cseq ws
                  rscope := CW.rscope ws, job := CW.job ws, guarded := CW.type ws == 2, cores := CW.cores ws, body := ws }

def LSt.isOver : LSt → Bool
  | .complete | .cancelled | .faulted => true
  | _ => false

/-- The block is claimed by a launch that has not completed. -/
def State.blockBusy (s : State) (lid : Nat) : Bool :=
  match s.launch? lid with
  | some l => !l.st.isOver
  | none => false

/-- A launch claims its block; the reserved offsets read zero (R331). -/
def State.claimBlock (s : State) (l : Launch) : State :=
  let base := (((s.ctx? l.ctx).map fun (x : Ctx) => x.desc.lsa).getD 0).toNat + 4096 * l.blk
  let s := (s.putFront l.ctx (base + 0x40) (List.replicate 0xC0 0)).putFront l.ctx (base + 0x140) (List.replicate 0x6C0 0)
  ({ s with launches := (s.launches.filter fun (x : Launch) => x.lid != l.lid) ++ [l] }).writeBlock l.lid

/-- A bound table from its image, the counts kept (R220, R333, R336). Reserved bits of an entry are ignored, since no status
is given for them (DESIGN CHOICE, log 60). -/
def boundsOf (img : List Word) (old : List BoundE) : List BoundE :=
  (List.range 63).map fun i =>
    let k := i + 1
    let w (j : Nat) := img.getD (8 * k + j) 0
    { slot := k, lo := w 0, hi := w 1, arv := flag (w 2).toNat 2, action := bits (w 2).toNat 0 2
      aw := bits (w 4).toNat 0 22, count := ((old.find? (·.slot == k)).map (·.count)).getD 0 }

/-- The LSET values laid over a bound table (R335). -/
def Launch.applySets (l : Launch) (b : BoundE) : BoundE :=
  let b := match l.blims.find? (·.1 == b.slot) with
    | some (_, lo, hi) => { b with lo := lo, hi := hi }
    | none => b
  match l.bacts.find? (·.1 == b.slot) with
  | some (_, x, y) => { b with arv := flag x.toNat 2, action := bits x.toNat 0 2, aw := bits y.toNat 0 22 }
  | none => b

/-- Home bundles of a unit of a kernel. -/
def Desc.hbs (d : Desc) : Nat := d.thr / 32

/-- Cores of the compute dies that a context may use (R368); a die holds 16 cores (R12). -/
def Ctx.coresOf (c : Ctx) : List Nat := (List.range 128).filter fun k => c.desc.part.getLsbD (k / 16)

/-- Units of a kernel that an empty core can hold (R100, R251). -/
def Desc.perCore (d : Desc) : Nat :=
  let n := min 128 (16384 / d.regs) / d.hbs
  if d.tile then min n 1 else n

/-- A core and its tile engine are in service (R268, R377). -/
def State.inService (s : State) (core : Nat) (tile : Bool) : Bool :=
  !s.fw.quars.contains (3 * 2 ^ 24 + core) && !(tile && s.fw.quars.contains (4 * 2 ^ 24 + core))

/-- Units of a kernel that a context's cores in service can hold at once (R100, R251, R338). -/
def State.capacity (s : State) (ctx : Nat) (d : Desc) : Nat :=
  ((s.ctx? ctx).map fun (c : Ctx) => (c.coresOf.filter fun k => s.inService k d.tile).length * d.perCore).getD 0

/-! ### Reserving the silt pool (R108, R333) -/

/-- Device memory in use: what some table maps or a virtual machine has, and retired units. -/
def State.usedMem (s : State) : List (Nat × Nat) :=
  s.map2.map (fun m => (m.pa, m.size)) ++ s.vmap.map (fun m => (m.pa, m.size)) ++ s.fw.retired.map fun u => (65536 * u, 65536)

/-- The highest end of `n` free bytes of device memory that start and end at pages of 4 KiB. -/
def State.poolTop (s : State) (n : Nat) : Nat :=
  let used := s.usedMem
  let free (t : Nat) : Bool := decide (n ≤ t) && used.all fun x => decide (t ≤ x.1) || decide (x.1 + x.2 + n ≤ t)
  (hbmBytes :: used.map fun x => x.1 / 4096 * 4096).foldl (fun m t => if decide (t ≤ hbmBytes) && free t then max m t else m) 0

/-- The front end reserves the pool of a launch and maps it without user access: for every thread of every unit that can be
resident at once (R108, R333). DESIGN CHOICE, log 62. -/
def State.takePool (s : State) (lid : Nat) : State :=
  let s := s.dropPool lid
  match s.launch? lid with
  | none => s
  | some l =>
    let n := min l.units (max (s.capacity l.ctx l.desc) (if l.guarded then s.capacity l.ctx l.xdesc else 0))
    let l : Launch := { l with poolN := n }
    if n == 0 then s
    else
      let k := l.siltBytes
      let pa := s.poolTop k - k
      let m1 : Map1 := { root := s.root1 l.ctx, va := siltVa pa, size := k, ipa := siltVa pa, r := true, w := true, x := false, user := false, silt := true }
      let m2 : Map2 := { root := s.root2 l.ctx, ipa := siltVa pa, size := k, pa := pa, r := true, w := true, x := false, world := s.ctxWorld l.ctx }
      { s.updLaunch lid fun _ => { l with pool := pa } with map1 := m1 :: s.map1, map2 := m2 :: s.map2 }

/-- What the reading of a launch's descriptors finds at LEND (R329, R330, R333). -/
inductive Descs where
  | ok (d x : Desc) (img : List Word)
  | bad
  | wait
  | poison (line : Nat)
  deriving DecidableEq, Repr

def State.descAt (s : State) (c : Nat) (va : DWord) : Read × Option Desc :=
  let r := s.readVa c va.toNat 64
  match r with
  | .ok bs => (r, descOf (wordsOf bs))
  | _ => (r, none)

/-- The descriptors that a launch needs at LEND, as memory holds them. DEDUCED, log 32. -/
def State.launchDescs (s : State) (l : Launch) : Descs :=
  match s.descAt l.ctx l.kdesc with
  | (.miss, _) => .wait
  | (.poison l, _) => .poison l
  | (_, none) => .bad
  | (_, some d) =>
    if d.grd != l.guarded then .bad
    else
      let x := if d.grd then s.descAt l.ctx d.exact else (.ok [], some {})
      match x with
      | (.miss, _) => .wait
      | (.poison l, _) => .poison l
      | (_, none) => .bad
      | (_, some x) =>
        if d.grd && (x.grd || x.thr != d.thr) then .bad
        else if d.bimg == 0 then .ok d x []
        else
          match s.readVa l.ctx d.bimg.toNat 2048 with
          | .ok bs => .ok d x (wordsOf bs)
          | .miss => .wait
          | .poison l => .poison l
          | .fault => .bad

/-- An iteration is over (R336, R337, R339): the next prologue is due, or the launch completes. -/
def State.endIteration (s : State) (lid : Nat) : State :=
  match s.launch? lid with
  | none => s
  | some l =>
    if l.rept && !l.cancel && l.code == 0 then
      (s.updLaunch lid fun l => { l.reload with st := .queued, iter := l.iter + 1, units := 0, placed := 0, retired := 0 }).writeBlock lid
    else s.completeLaunch lid

/-- LEND or LREPEAT: steps 4 and 5 of R333. None while a translation is missing. -/
def State.lend (s : State) (lid : Nat) (rept : Bool) : Option State :=
  match s.launch? lid with
  | none => some s
  | some l =>
    match s.launchDescs l with
    | .wait => none
    | .poison x => some (s.consume x (some l.ctx))
    | .bad => some (s.faultLaunch lid 7 0)
    | .ok d x img =>
      let n := l.dimx * l.dimy * l.dimz
      let s := (s.endPrologue lid).updLaunch lid fun l =>
        { l with desc := d, xdesc := x, rept := rept, tol := if l.tol == 0xFFFFFFFF then d.tol else l.tol
                 bounds := (boundsOf img l.bounds).map l.applySets }
      if 2 ^ 32 < n then some (s.faultLaunch lid 8 0)
      else if l.cores && decide (s.capacity l.ctx d < n) then some (s.faultLaunch lid 9 0)
      else
        let s := ((s.updLaunch lid fun l => { l with st := .running, units := n, placed := 0, retired := 0 }).takePool lid).writeBlock lid
        some (if n == 0 then s.endIteration lid else s)

/-- The prologue's thread (R334): 64 registers, v0 the iteration, v1 cseq; its G is 1, since it has no unit index for R64
(DESIGN CHOICE, log 52). -/
def prologueUnit (uid : Nat) (l : Launch) : UnitSt :=
  let th : Thread := { regs := BitVec.ofNat 32 l.iter :: l.cseq :: List.replicate 62 0
                       pos := { hdr := l.pro.setWidth 56 } }
  { uid := uid, ctx := l.ctx, launch := l.lid, role := .prologue, core := 128, nregs := 64, threads := [th]
    bundles := [{ bid := uid, quad := 0, slots := some 0 :: List.replicate 31 none }] }

/-- An iteration of a launch begins: steps 2 and 3 of R333. None while a translation is missing. -/
def State.beginLaunch (s : State) (lid : Nat) : Option State :=
  match s.launch? lid with
  | none => some s
  | some l =>
    let consts : Read := if l.cbase == 0 then .ok [] else s.readVa l.ctx l.cbase.toNat 4096
    match consts with
    | .miss => none
    | .poison x => some (s.consume x (some l.ctx))
    | .fault =>
      let start (l : Launch) : Launch := if l.iter == 0 then { l with dtstart := s.dt } else l
      some ((s.updLaunch lid start).faultLaunch lid 5 l.cbase.toNat)
    | .ok bs =>
      let s' := (s.updLaunch lid fun l =>
        { l with consts := Memory.writes [] (span 0 bs.length) bs, st := .prologue, pstart := s.dt
                 dtstart := if l.iter == 0 then s.dt else l.dtstart
                 bounds := if l.iter == 0 then [] else l.bounds }).writeBlock lid
      if l.pro == 0 then s'.lend lid false
      else
        let u := prologueUnit s.nextId l
        let bad := !(decide (l.pro.toNat < 2 ^ 56) && l.pro.toNat % 8 == 0)
        if bad then some (s'.faultLaunch lid 3 l.pro.toNat)
        else some { s' with nextId := s.nextId + 1, units := s'.units ++ [u] }

/-! ### Graphs (R340 to R342) -/

/-- Header bits that a node's command uses: type, rscope, evs. -/
def nodeHeaderOk (ws : List Word) : Bool :=
  let w := wd ws 0
  (CW.type ws == 1 || CW.type ws == 2) && (CW.rscope ws == 3 || CW.rscope ws == 4) && bits w 8 2 == 0 &&
  bits w 11 5 == 0 && bits w 19 13 == 0 && wd ws 1 == 0 && wd ws 2 == 0 && bits (wd ws 3) 16 16 == 0 && launchOk ws

/-- A node from its 128 bytes, none when its entry makes the GRAPH rejected. -/
def nodeOf (count i : Nat) (bs : List Byte) : Option Node :=
  let ws := wordsOf (bs.take 64)
  let n := (bs.getD 64 0).toNat
  let half (k : Nat) := (bs.getD (66 + 2 * k) 0).toNat + 256 * (bs.getD (67 + 2 * k) 0).toNat
  let succ := (List.range n).map half
  if nodeHeaderOk ws && decide (n ≤ 31) && (bs.getD 65 0) == 0 && succ.all (fun x => decide (x < count)) &&
      succ.eraseDups.length == n && ((List.range (31 - n)).all fun k => half (n + k) == 0) then
    some { idx := i, words := ws, succ := succ, ctr := 0 }
  else none

def nodesOf (count : Nat) : Nat → List Byte → Option (List Node)
  | 0, _ => some []
  | n + 1, bs =>
    match nodeOf count (count - (n + 1)) (bs.take 128), nodesOf count n (bs.drop 128) with
    | some x, some xs => some (x :: xs)
    | _, _ => none

/-- Counters set to the number of predecessors. -/
def withCounters (ns : List Node) : List Node :=
  ns.map fun n => { n with ctr := (ns.filter fun m => m.succ.contains n.idx).length }

/-- Whether the nodes can all be taken in some order: repeatedly dropping those without predecessors among the rest. -/
def acyclic : Nat → List Node → Bool
  | 0, ns => ns.isEmpty
  | k + 1, ns =>
    let rest := ns.filter fun n => ns.any fun m => m.succ.contains n.idx
    rest.isEmpty || (decide (rest.length < ns.length) && acyclic k rest)

/-- Predecessor counters in use (R340). -/
def State.counters (s : State) : Nat :=
  s.cmds.foldl (fun n c => if c.st == .started && CW.type c.words == 3 then n + c.nodes.length else n) 0

/-- A node that no launch stands for completes: its event and its successors (R339, R341). -/
def State.endNode (s : State) (c : Cmd) (n : Node) (status code : Nat) : State :=
  let s := if CW.evs n.words then s.addEvent c.ctx (CW.ev n.words) 1 else s
  s.nodeDone c.cid n.idx status code

/-- The launch of a node belongs to the job of its GRAPH (R343, R360). -/
def nodeLaunch (c : Cmd) (n : Node) : Launch := { newLaunch c.ctx c.cid (some n.idx) n.words with job := CW.job c.words }

/-- A ready node (R341, R342): it completes CANCELLED or FAULTED, or claims its block and waits to begin. -/
def State.readyNode (s : State) (c : Cmd) (n : Node) : State :=
  let lid := c.ctx * 4096 + CW.blk n.words
  if c.cancel then s.endNode c n 1 0
  else if n.mark then
    if s.blockBusy lid then s.endNode c n 2 11
    else (s.claimBlock (nodeLaunch c n)).faultLaunch lid 11 0
  else if s.blockBusy lid then s.endNode c n 2 12
  else (s.updCmd c.cid fun c => { c with nodes := c.nodes.map fun m => if m.idx == n.idx then { m with st := .started } else m }).claimBlock
    (nodeLaunch c n)

/-! ### Jobs and phases (R343) -/

def Ctx.job? (c : Ctx) (j : Nat) : Option Job := c.jobs.find? (·.job == j)
def Ctx.jobOf (c : Ctx) (j : Nat) : Job := (c.job? j).getD { job := j }
def State.job (s : State) (c j : Nat) : Job := ((s.ctx? c).map (Ctx.jobOf · j)).getD { job := j }
def State.setJob (s : State) (c : Nat) (j : Job) : State :=
  s.updCtx c fun x => { x with jobs := j :: x.jobs.filter (·.job != j.job) }

/-- The read commands of a phase, the rejected ones left out. -/
def State.phaseCmds (s : State) (c : Nat) (j : Job) (p : Nat) : List Cmd :=
  s.cmds.filter fun (x : Cmd) => x.ctx == c && CW.job x.words == j.job && CW.phase x.words == p && x.round == j.round && x.status != 3

/-- A phase is complete when it is closed and all its read commands have completed. -/
def State.phaseOver (s : State) (c : Nat) (j : Job) : Bool :=
  let cs := s.phaseCmds c j j.phase
  cs.any (fun x => CW.pend x.words) && cs.all (·.st == .done)

/-- Commands of a job that have been read and not completed join its next round (R343). -/
def Cmd.nextRound (c : Nat) (j : Job) (x : Cmd) : Cmd :=
  if x.ctx == c && CW.job x.words == j.job && x.round == j.round && x.st != .done then { x with round := j.round + 1 } else x

/-- The next phase, or the next round after the jend phase; a faulted phase cancels the later ones. -/
def State.nextPhase (s : State) (c : Nat) (j : Job) : State :=
  let cs := s.phaseCmds c j j.phase
  if cs.any (fun x => CW.jend x.words) then
    State.setJob { s with cmds := s.cmds.map (Cmd.nextRound c j) } c
      { j with round := j.round + 1, phase := 0, cancel := false, cancelled := [] }
  else s.setJob c { j with phase := j.phase + 1, cancel := j.cancel || cs.any (·.status == 2)
                           cancelled := j.cancelled.filter (· != j.phase) }

def Job.cancels (j : Job) (p : Nat) : Bool := j.cancel || j.cancelled.contains p

/-! ### Cancel (R344) -/

/-- Live units of a launch. -/
def State.unitsOf (s : State) (lid : Nat) : List UnitSt := s.units.filter fun u => u.launch == lid

/-- A cancel reaches a unit: a surrogate that has not reached its verdict fails it, and with kill the unit ends (R344, R354,
R355). -/
def UnitSt.cancel (kill : Bool) (u : UnitSt) : UnitSt :=
  let u : UnitSt := if (u.role == .surrogate && u.verdict.isNone) || kill then { u with cancelled := true } else u
  if kill && (u.st == .resident || u.st == .saved) then u.drain else u

/-- Cancels a launch that has not completed. -/
def State.cancelLaunch (s : State) (lid : Nat) (kill : Bool) : State :=
  match s.launch? lid with
  | none => s
  | some l =>
    if l.st.isOver then s
    else
      let s := s.updLaunch lid fun l => { l with cancel := true, kill := l.kill || kill, redo := [] }
      let s := if l.st == .running then s else s.endPrologue lid
      let s : State := { s with units := s.units.map fun u => if u.launch == lid then u.cancel kill else u }
      if (s.unitsOf lid).isEmpty then s.completeLaunch lid else s

/-- Cancels a command, or one node of a GRAPH. -/
def State.cancelCmd (s : State) (cid : Nat) (kill : Bool) : State :=
  match s.cmd? cid with
  | none => s
  | some c =>
    if c.st == .done then s
    else
      let lids := (s.launches.filter fun (l : Launch) => l.cmd == cid && !l.st.isOver).map (·.lid)
      match CW.type c.words with
      | 1 | 2 => lids.foldl (fun s l => s.cancelLaunch l kill) s
      | 3 =>
        let s := s.updCmd cid fun c => { c with cancel := true }
        if c.st == .ready then (c.nodes.foldl (fun s n => s.endNode c n 1 0) s).completeCmd cid 1 0 0 0 else lids.foldl (fun s l => s.cancelLaunch l kill) s
      | _ => s.completeCmd cid 1 0 0 0

def State.cancelNode (s : State) (cid i : Nat) (kill : Bool) : State :=
  let lids := (s.launches.filter fun (l : Launch) => l.cmd == cid && l.node == some i && !l.st.isOver).map (·.lid)
  if lids.isEmpty then
    match (s.cmd? cid).bind fun c => (c.nodes.find? (·.idx == i)).map fun n => (c, n) with
    | some (c, n) => if n.st == .done then s else s.endNode c n 1 0
    | none => s
  else lids.foldl (fun s l => s.cancelLaunch l kill) s

/-- Whether a target of a CANCEL is still incomplete. -/
def State.wanting (s : State) (w : Nat × Option Nat) : Bool :=
  match s.cmd? w.1 with
  | none => false
  | some c =>
    match w.2 with
    | none => c.st != .done
    | some i => c.st != .done && ((c.nodes.find? (·.idx == i)).map (·.st != .done)).getD false

/-- The incomplete targets of a CANCEL, and its result: 1 when something is cancelled, 0 when the target had completed,
2 when there is none; job 0 is no job (R343, R344). -/
def State.cancelTargets (s : State) (c : Cmd) : List (Nat × Option Nat) × Nat :=
  let ws := c.words
  let lvl := bits (wd ws 4) 0 3
  if lvl ≤ 1 then
    match (s.cmds.filter fun (x : Cmd) => x.ctx == c.ctx && x.q == bits (wd ws 5) 0 8 && CW.cseq x.words == ws.getD 6 0 && x.cid != c.cid).getLast? with
    | none => ([], 2)
    | some x =>
      let w := (x.cid, if lvl == 1 then some (wd ws 7) else none)
      let isNode := x.nodes.any (·.idx == wd ws 7)
      if lvl == 1 && !isNode then ([], 2) else if s.wanting w then ([w], 1) else ([], 0)
  else
    let j := s.job c.ctx (bits (wd ws 5) 0 16)
    let p := bits (wd ws 5) 16 16
    let all_ := s.cmds.filter fun (x : Cmd) => x.ctx == c.ctx && CW.job x.words == j.job &&
      x.cid != c.cid && x.status != 3 && (lvl == 3 || CW.phase x.words == p)
    let mine := all_.filter (·.round == j.round)
    let todo := mine.filter (·.st != .done)
    if j.job == 0 then ([], 2)
    else if (lvl == 2 && decide (p < j.phase)) || (mine.isEmpty && !all_.isEmpty) then ([], 0)
    else (todo.map fun x => (x.cid, none), if mine.isEmpty then 2 else 1)

/-- A CANCEL starts. -/
def State.startCancel (s : State) (c : Cmd) : State :=
  let lvl := bits (wd c.words 4) 0 3
  let kill := flag (wd c.words 4) 3
  let (ts, res) := s.cancelTargets c
  let s := s.updCmd c.cid fun c => { c with st := .started, wants := ts, result := res }
  let j := s.job c.ctx (bits (wd c.words 5) 0 16)
  let s := if res != 1 then s else if lvl == 2 then s.setJob c.ctx { j with cancelled := bits (wd c.words 5) 16 16 :: j.cancelled }
    else if lvl == 3 then s.setJob c.ctx { j with cancel := true } else s
  ts.foldl (fun s w =>
    match w.2 with
    | none => s.cancelCmd w.1 kill
    | some i => s.cancelNode w.1 i kill) s

/-! ### What can complete or begin by itself -/

/-- A graph's outcome (R341): the code of its lowest faulted node. -/
def graphOutcome (ns : List Node) : Nat × Nat :=
  match ns.find? (·.status == 2) with
  | some n => (2, n.code)
  | none => (if ns.any (·.status == 1) then 1 else 0, 0)

/-- A context that is live: nothing of a killed one goes on (R374). -/
def State.alive (s : State) (c : Nat) : Bool := ((s.ctx? c).map fun (x : Ctx) => x.live).getD false

/-- A ready command's job or phase has been cancelled (R343, R344). -/
def State.cancels (s : State) (c : Cmd) : Bool :=
  let j := s.job c.ctx (CW.job c.words)
  CW.job c.words != 0 && c.round == j.round && j.cancels (CW.phase c.words)

/-- One command's own progress: a cancelled one, an EVENT WAIT met, a CANCEL or a GRAPH whose parts have completed. -/
def State.progress (s : State) (c : Cmd) : Option State :=
  if c.st == .done || !s.alive c.ctx then none
  else if c.st == .ready then (if s.cancels c then some (s.cancelCmd c.cid true) else none)
  else
    match CW.type c.words with
    | 3 =>
      if c.nodes.all (·.st == .done) then
        let (st, code) := graphOutcome c.nodes
        some (s.completeCmd c.cid (if c.cancel && st == 0 then 1 else st) code 0 c.energy)
      else
        match c.nodes.find? fun n => n.st == .ready && n.ctr == 0 with
        | some n => some (s.readyNode c n)
        | none => none
    | 5 =>
      if wd64 c.words 4 ≤ s.event (bits (wd c.words 6) 0 10) (bits (wd c.words 6) 16 16) then
        some (s.completeCmd c.cid 0 0 0 0)
      else none
    | 6 => if c.wants.all (fun w => !s.wanting w) then some (s.completeCmd c.cid 0 0 c.result 0) else none
    | _ => none

/-- A launch whose command or node has started and that waits to begin its prologue, the first or the next one. -/
def State.launchDue (s : State) (l : Launch) : Option State :=
  let started := ((s.cmd? l.cmd).map (·.st == .started)).getD false
  let live := ((s.ctx? l.ctx).map fun (x : Ctx) => x.live && !x.frz).getD false
  if l.st == .queued && !l.cancel && started && live then (s.beginLaunch l.lid).filter (· != s) else none

def State.jobDue (s : State) (c : Ctx) (j : Job) : Option State :=
  if j.job != 0 && s.phaseOver c.ctx j then some (s.nextPhase c.ctx j) else none

/-- The first of the launch engine's own steps that is due. -/
def State.due (s : State) : Option State :=
  match s.cmds.findSome? s.progress with
  | some s' => some s'
  | none =>
    match s.launches.findSome? s.launchDue with
    | some s' => some s'
    | none => s.ctxs.findSome? fun c => c.jobs.findSome? (s.jobDue c)

def settleFuel : Nat → State → State
  | 0, s => s
  | n + 1, s =>
    match s.due with
    | some s' => settleFuel n s'
    | none => s

/-- Takes every step of the launch engine that needs no step of its own. -/
def State.settleLaunches (s : State) : State :=
  let nodes := s.cmds.foldl (fun n c => n + 2 * c.nodes.length) 0
  settleFuel (2 * s.cmds.length + nodes + 3 * s.launches.length + 4096) s

/-! ### Which command starts next (R324, R343, R357) -/

/-- A read command whose predecessors allow it to start. -/
def State.startable (s : State) (c : Cmd) : Bool :=
  let earlier := s.cmds.filter fun (x : Cmd) => x.ctx == c.ctx && x.q == c.q && decide (x.cid < c.cid)
  let live := ((s.ctx? c.ctx).map fun (x : Ctx) => x.live && !x.frz).getD false
  c.st == .ready && live && !s.cancels c && earlier.all (·.st != .ready) &&
  (!CW.ord c.words || earlier.all (·.st == .done)) &&
  !(earlier.any fun x => CW.type x.words == 5 && x.st != .done) &&
  (CW.job c.words == 0 || (c.round == (s.job c.ctx (CW.job c.words)).round && CW.phase c.words == (s.job c.ctx (CW.job c.words)).phase)) &&
  (CW.type c.words != 3 || decide (s.counters + c.nodes.length ≤ 65536))

/-! ### Tilth (R357, R358) -/

/-- A job's allowance in mJ per window, in the context's table in memory; 0 is unlimited, and so is a context whose
descriptor names no table (R360, R368). DESIGN CHOICE, log 7. -/
def State.allowance (s : State) (c j : Nat) : Nat :=
  match s.ctx? c with
  | some x => if x.desc.etab == 0 then 0 else s.frontMem.at_ (x.desc.etab.toNat + 4 * (j % 4096)) 4
  | none => 0

/-- Registers g0 to g7 of a tilth program. -/
abbrev TReg := List Word

structure TView where
  ldv : List Word
  ldq : List (List Word)
  deriving DecidableEq, Repr

/-- One arithmetic operation of format R. -/
def tilthAlu (op : Nat) (a b : Word) : Word :=
  match op with
  | 2 => a | 3 => a + b | 4 => a - b | 5 => a * b | 6 => a &&& b | 7 => a ||| b | 8 => a ^^^ b
  | 9 => a <<< (b.toNat % 32) | 10 => a >>> (b.toNat % 32) | 11 => if a.toNat ≤ b.toNat then a else b
  | 12 => if a.toNat ≤ b.toNat then b else a | 14 => if a.toNat < b.toNat then 1 else 0
  | 15 => if a == b then 1 else 0 | 21 => if b == 0 then 0xFFFFFFFF else a / b
  | _ => 0

/-- Runs a program from operation `pc`; jumps go forward, so the operations left bound the steps. -/
def tilthRun (ops : List (BitVec 16)) (v : TView) : Nat → Nat → TReg → Word
  | 0, _, _ => 0
  | fuel + 1, pc, g =>
    let w := (ops.getD pc 0).toNat
    let op := bits w 11 5
    let x := bits w 8 3
    let i := bits w 0 8
    let ga := bits w 5 3
    let gb := bits w 2 3
    let r (k : Nat) : Word := g.getD k 0
    let go (val : Word) : Word := tilthRun ops v fuel (pc + 1) (g.set x val)
    if op == 0 then go (BitVec.ofNat 32 i)
    else if op == 1 then go ((r x <<< 8) ||| BitVec.ofNat 32 i)
    else if op == 13 then go (r x + BitVec.ofNat 32 i)
    else if op == 16 || op == 17 || op == 18 then
      let jump := op == 18 || ((r x == 0) == (op == 16))
      tilthRun ops v fuel (if jump then pc + 1 + i else pc + 1) g
    else if op == 19 then go (v.ldv.getD (bits w 0 5) 0)
    else if op == 20 then go ((v.ldq.getD (r ga).toNat []).getD (bits w 0 5) 0)
    else if op == 22 then r x
    else if op == 23 then BitVec.ofNat 32 i
    else go (tilthAlu op (r ga) (r gb))

/-- Result of a context's program for an event, if it has one. -/
def Policy.result (p : Policy) (event : Nat) (v : TView) : Option Nat :=
  if flag p.mask event then some (tilthRun p.ops v 257 (p.ents.getD event 0) (List.replicate 8 0)).toNat else none

def sat32 (n : Nat) : Word := BitVec.ofNat 32 (min n (2 ^ 32 - 1))

/-- The view fields of a command, or the context-wide ones alone (R358). -/
def State.view (s : State) (ctx : Nat) (c : Option Cmd) (event cands : Nat) : List Word :=
  let x := s.ctx? ctx
  let ws := (c.map (·.words)).getD []
  let q := c.bind fun c => s.queue? ctx c.q
  let j := s.job ctx (CW.job ws)
  let isL := CW.type ws == 1 || CW.type ws == 2
  let n := if isL then bits (wd ws 12) 0 16 * bits (wd ws 12) 16 16 * bits (wd ws 13) 0 16 else 0
  let unread := (s.cmds.filter fun (y : Cmd) => y.ctx == ctx && some y.q == c.map (·.q) && y.st == .ready).length
  let allow := s.allowance ctx (CW.job ws)
  [sat32 ((q.map (·.prio)).getD 0), sat32 (if c.isSome then unread else 0), sat32 (CW.type ws), sat32 n, sat32 ctx,
   sat32 (s.ctxWorld ctx), sat32 (CW.job ws), sat32 (CW.phase ws), sat32 (if c.isSome then j.energy / 1000 else 0),
   sat32 (if c.isSome then allow else 0), sat32 ((c.map fun c => (s.dt - c.readAt) / 1000).getD 0),
   sat32 (s.units.filter fun (u : UnitSt) => u.ctx == ctx && u.st == .resident && u.role != .prologue).length,
   BitVec.ofNat 32 (s.dt / 1000), sat32 cands, sat32 event, sat32 ((x.map (·.slice10)).getD 0)]

/-- The command that the front end picks in a context: by its policy, else the highest priority, then the earliest
read (R357). -/
def best : List Cmd → Option Cmd
  | [] => none
  | c :: cs =>
    match best cs with
    | some b => if b.prio ≤ c.prio then some c else some b
    | none => some c

/-- The command that a context would start next: by its policy, else by priority (R357). DEDUCED, log 45. -/
def State.pick (s : State) (ctx : Nat) : Option Cmd :=
  let cs := s.cmds.filter fun (c : Cmd) => c.ctx == ctx && s.startable c
  match ((s.ctx? ctx).bind (·.policy)).bind fun p =>
      if cs.length ≤ 1 then none
      else p.result 0 { ldv := s.view ctx none 0 cs.length, ldq := cs.map fun c => s.view ctx (some c) 0 cs.length } with
  | some i => if i < cs.length then cs[i]? else cs.head?
  | none => best cs

/-- The next command to start: among the contexts' picks, the higher priority and then the earlier read (R324). -/
def State.nextCmd (s : State) : Option Cmd :=
  let picks := s.ctxs.filterMap fun x => s.pick x.ctx
  best (picks.mergeSort fun a b => decide (a.cid ≤ b.cid))

end Sys2Proof.Machine
end

