-- ==== Sys2Proof/Machine/Bounds.lean ====
section
/-! DEFINITION. Bound slots (R220, R221): what a value passing through one becomes, and the violation count. -/

namespace Sys2Proof.Machine

def BoundE.loV (b : BoundE) : Val := fp32.dec b.lo.toNat
def BoundE.hiV (b : BoundE) : Val := fp32.dec b.hi.toNat

/-- The slot checks values: an action, no NaN limit, and lo ≤ hi. -/
def BoundE.checks (b : BoundE) : Bool := b.action != 0 && !b.loV.isNan && !b.hiV.isNan && !b.hiV.lt b.loV

def BoundE.violates (b : BoundE) (v : Val) : Bool := b.checks && (v.isNan || v.lt b.loV || b.hiV.lt v)

/-- lo_T and hi_T of a float format, when the format has such values. Of the two zeros, the one with the sign of the limit.
DESIGN CHOICE, log 68. -/
def Fmt.notBelow (f : Fmt) (lo : Val) : Option Nat :=
  let c := f.round .rup false lo
  if (f.dec c).isNan || (f.dec c).lt lo then none else some c
def Fmt.notAbove (f : Fmt) (hi : Val) : Option Nat :=
  let c := f.round .rdn false hi
  if (f.dec c).isNan || hi.lt (f.dec c) then none else some c

/-- The code that a violating value is replaced with. -/
def BoundE.clampF (b : BoundE) (f : Fmt) (v : Val) : Nat :=
  match f.notBelow b.loV, f.notAbove b.hiV with
  | some l, some h =>
    if (f.dec h).lt (f.dec l) then f.round .rne false b.loV else if v.isNan || v.lt b.loV then l else h
  | _, _ => f.round .rne false b.loV

/-- A code of format `f` through a slot: what is written, and whether it violates. -/
def BoundE.passF (b : BoundE) (f : Fmt) (c : Nat) : Nat × Bool :=
  let v := f.dec c
  if b.violates v then (if b.action == 1 then c else b.clampF f v, true) else (c, false)

/-- lo rounded up and hi rounded down to whole numbers of a signed `w`-bit type, when there are any. -/
def intFloor (v : Val) : Option Int :=
  match v with
  | .fin .. => some (Val.toInt .rdn (-(2 ^ 40)) (2 ^ 40) v)
  | .inf neg => some (if neg then -(2 ^ 40) else 2 ^ 40)
  | .nan => none
def intCeil (v : Val) : Option Int := (intFloor v.neg).map fun x => -x

def BoundE.clampI (b : BoundE) (w : Nat) (x : Int) : Int :=
  let l := max ((intCeil b.loV).getD 0) (-(2 ^ (w - 1)))
  let h := min ((intFloor b.hiV).getD 0) (2 ^ (w - 1) - 1)
  if h < l then Val.toInt .rne (-(2 ^ (w - 1))) (2 ^ (w - 1) - 1) b.loV
  else if (Val.ofInt x).lt b.loV then l else h

/-- A signed `w`-bit integer through a slot. -/
def BoundE.passI (b : BoundE) (w : Nat) (x : Int) : Int × Bool :=
  if b.violates (Val.ofInt x) then (if b.action == 1 then x else b.clampI w x, true) else (x, false)

/-- The slot of a unit's launch; slot 0 is none. -/
def State.boundOf (s : State) (u : UnitSt) (k : Nat) : Option BoundE :=
  if k == 0 then none else (s.launch? u.launch).bind fun (l : Launch) => l.bounds.find? (·.slot == k)

/-- Adds to a slot's count with one RMW at its entry, saturating (R221). -/
def State.countBound (s : State) (u : UnitSt) (k n : Nat) : State :=
  match s.boundOf u k, s.ctx? u.ctx with
  | some b, some c =>
    if n == 0 then s
    else
      let v := min (b.count + n) (2 ^ 32 - 1)
      let s := s.updLaunch u.launch fun l =>
        { l with bounds := l.bounds.map fun x => if x.slot == k then { x with count := v } else x }
      s.putFront u.ctx (c.desc.lsa.toNat + 4096 * (u.launch % 4096) + 0x800 + 32 * k + 0xC) (leBytes 4 v)
  | _, _ => s

end Sys2Proof.Machine
end

