-- ==== Sys2Proof/Machine/Home.lean ====
section
/-! DEFINITION. The home slices (R84, R85, R91): a write or RMW arrives there and gets its GWCT; it is performed when that
time comes. Engines, fabric packets, the host and application cores post their writes here (R24, R91). -/

namespace Sys2Proof.Machine

/-! ### Outstanding accesses by number -/

def State.op? (s : State) (id : Nat) : Option MemOp := s.ops.find? (·.id == id)
def State.dropOp (s : State) (id : Nat) : State := { s with ops := s.ops.filter (·.id != id) }
def State.updOp (s : State) (id : Nat) (f : MemOp → MemOp) : State :=
  { s with ops := s.ops.map fun o => if o.id == id then f o else o }

/-- A thread's own GWCT (R85). -/
def State.raiseGwct (s : State) (u t g : Nat) : State :=
  let f (th : Thread) : Thread := { th with gwct := BitVec.ofNat 64 (max th.gwct.toNat g) }
  s.updUnit u fun x => x.updThread t f

/-- GWCTs of engine writes go to the engine gwct of the issuing path (R91). -/
def State.raiseEgwct (s : State) (u : Nat) (ts : List Nat) (g : Nat) : State :=
  let f (i : Nat) (th : Thread) : Thread :=
    if ts.contains i then { th with egwct := BitVec.ofNat 64 (max th.egwct.toNat g) } else th
  s.updUnit u fun x => { x with threads := x.threads.mapIdx f }

/-! ### Performing -/

/-- Bytes written for a context. -/
def State.writeCtx (s : State) (c : Nat) (pas : List Nat) (bs : List Byte) : State :=
  ({ s with mem := s.mem.writes pas bs }.tagLines c pas (linesOf pas)).ringBells pas

/-- Bytes written for a world by an agent that acts for no context. -/
def State.writeHost (s : State) (world : Nat) (pas : List Nat) (bs : List Byte) : State :=
  ({ s with mem := s.mem.writes pas bs }.worldTags world pas (linesOf pas)).ringBells pas

/-- The bytes of an access go to memory, or into the unit's guard lines. -/
def State.writeAs (s : State) (o : MemOp) (bs : List Byte) : State :=
  match o.kind with
  | .far c _ | .farAdd c _ _ | .farAtom c .. | .farArrive c _ | .commit c _ | .front c _ | .frontAdd c _ => s.writeCtx c o.addrs bs
  | .outside _ w _ | .outAtom _ w .. => s.writeHost w o.addrs bs
  | _ => s.writeGlobal o.unit o.addrs bs

/-- The count of a bound slot: at the arrival of the store through it, so that it comes before the GWCT's return (R178). -/
def State.countStb (s : State) (o : MemOp) : State :=
  match o.kind, s.unit? o.unit with
  | .stb _ k, some u => s.countBound u k 1
  | _, _ => s

/-- The context for which an access is made, if any. -/
def State.opCtx (s : State) (o : MemOp) : Option Nat :=
  match o.kind with
  | .far c _ | .farAdd c _ _ | .farAtom c .. | .farArrive c _ | .commit c _ | .front c _ | .frontAdd c _ => some c
  | _ => (s.unit? o.unit).map (·.ctx)

/-- The world for which an access is made (R381). -/
def State.opWorld (s : State) (o : MemOp) : Nat :=
  match o.kind with
  | .outside _ w _ | .outAtom _ w .. => w
  | _ => ((s.opCtx o).map s.ctxWorld).getD 0

/-- The ports refuse an access of a world whose keys are gone (R385); what the front end writes for a killed context has set out
before. -/
def State.refuses (s : State) (o : MemOp) : Bool := !s.portOpen (s.opWorld o) && !o.kind.isFront

/-- What a performed write leaves of the bytes that other nodes have written unobserved (R319): the payload of a packet all; a
write of the host or an application core none, as it may have observed them before; another write all but its own bytes. -/
def State.settlePast (s : State) (o : MemOp) : State :=
  match o.kind with
  | .far .. | .farAdd .. => s
  | .outside .. | .outAtom .. => s.observed
  | _ => s.dropPast o.addrs

/-- An access is performed at its home slice (R85): an RMW takes over what happens before the write that it reads from, and
what happens before it goes on with its bytes (R89). -/
def State.performOp (s : State) (o : MemOp) : State :=
  let e := if s.refuses o then ([], s.free.2.setWidth 128) else o.kind.effect (s.sliceN o.unit o.addrs)
  let s := if o.kind.rmw then s.follow o else s
  let s := (if s.refuses o then s.free.1 else s.writeAs o e.1).leaveTrail o o.kind.rmw o.deps o.depsIn
  let s := s.settlePast o
  let s := if o.kind.isArrival then s.wakeGlobal o.addrs else s
  if o.ret || o.kind.unreturned then s.dropOp o.id else s.updOp o.id fun o => { o with done := true, res := e.2 }

/-- Of the accesses whose GWCT has come, the one that arrived first. -/
def State.firstDue (s : State) : Option MemOp :=
  s.ops.foldl (fun m o =>
    if o.arrived && !o.done && decide (o.gwct ≤ s.dt) && (m.all fun p : MemOp => decide (o.seq < p.seq)) then some o else m) none

/-- Performs what is due, in the order of arrival. -/
def State.performDue (s : State) : Nat → State
  | 0 => s
  | n + 1 =>
    match s.firstDue with
    | none => s
    | some o => (s.performOp o).performDue n

def State.performAll (s : State) : State := s.performDue s.ops.length

/-! ### Arrival -/

/-- The GWCT of a write that arrives now: the end of every lease on its lines, and no earlier than the writes that arrived
before (R85). -/
def State.gwctOf (s : State) (ls : List Nat) : Nat :=
  ls.foldl (fun m l => ((s.waitingOn l).map (·.gwct)).foldl max (((s.liveLeases l).map (·.till)).foldl max m)) s.dt

/-- An access reaches its home slice: reservations of others on its lines end, leases there shorten, and it is performed
at its GWCT (R84, R85, R175). -/
def State.arriveOp (s : State) (o : MemOp) : State :=
  let ls := linesOf o.addrs
  let s := ls.foldl (fun s l => s.countPkg (s.opWorld o) (corePort o.core) (slicePort (sliceOf l))) s
  let s := (((s.clearResv o.unit o.tid ls (some o.id)).countStb o).halveLeases ls).fillAll (s.opCtx o) ls
  let g := s.gwctOf ls
  let o : MemOp := { o with arrived := true, seq := s.nextId, gwct := g }
  let s : State := { s.updOp o.id fun _ => o with nextId := s.nextId + 1 }
  let s := match o.kind with
    | .engine _ ts | .earrive _ ts => s.raiseEgwct o.unit ts g
    | _ => s
  if g ≤ s.dt then s.performOp o else s

/-- A write of an engine, a packet or an outside agent reaches its home slices. Its number is the state's next. -/
def State.postHome (s : State) (unit core : Nat) (pas : List Nat) (k : MemKind) : State :=
  let o : MemOp := { id := s.nextId, unit := unit, tid := 1024, core := core, sp := .global, addrs := pas, kind := k, grp := s.nextId }
  State.arriveOp { s with nextId := s.nextId + 1, ops := s.ops ++ [o] } o

/-! ### Engine writes (R91, R95, R352) -/

/-- The lines that a surrogate's write may use: those it holds, and new ones up to 8,192 in all (R352). -/
def UnitSt.guardAdmit (u : UnitSt) (pas : List Nat) : List Nat :=
  u.glines ++ ((linesOf pas).filter fun l => !u.glines.contains l).take (8192 - u.glines.length)

/-- A surrogate unit's engine write goes into its guard lines, with DT as its GWCT (R362); what lies beyond the limit is
discarded, and the unit marked to fail (R352). -/
def State.guardWrite (s : State) (u : UnitSt) (ts : List Nat) (cells : List (Nat × Byte)) : State :=
  let ls := u.guardAdmit (cells.map (·.1))
  let kept := cells.filter fun c => ls.contains (lineOf c.1)
  let s := s.updUnit u.uid fun u => { u with glines := ls, gfault := u.gfault || kept.length != cells.length }
  (s.writeGlobal u.uid (kept.map (·.1)) (kept.map (·.2))).raiseEgwct u.uid ts s.dt

/-- Global bytes written by an engine operation of some threads. -/
def State.engineWrite (s : State) (uid : Nat) (ts : List Nat) (pas : List Nat) (bs : List Byte) : State :=
  match s.unit? uid with
  | none => s
  | some u =>
    if u.role == .surrogate then s.guardWrite u ts (pas.zip bs)
    else if pas.isEmpty then s else s.postHome uid u.core pas (.engine bs ts)

/-- An arrival of an engine operation at a global word (R85, R181). -/
def State.engineArrive (s : State) (u : UnitSt) (ts : List Nat) (pas : List Nat) (n : Nat) : State :=
  if u.role == .surrogate then
    let whole := (linesOf pas).all fun l => (u.guardAdmit pas).contains l
    if whole then (s.guardWrite u ts (pas.zip (leBytes 16 (arrive (s.sliceN u.uid pas) n)))).wakeGlobal pas
    else s.updUnit u.uid fun u => { u with gfault := true }
  else s.postHome u.uid u.core pas (.earrive n ts)

end Sys2Proof.Machine
end

