-- ==== Sys2Proof/Machine/Messages.lean ====
section
/-! DEFINITION. What firmware says to system software and to itself: reports (R366, R367) and the command links between the
global scheduler core and the leaf controllers (R364, R370). -/

namespace Sys2Proof.Machine

/-- Four cores to a cluster, four clusters to a die (R12). -/
def clusterOf (core : Nat) : Nat := core / 4

/-! ### Reports (R366, R367) -/

/-- The record of a report; word 2 takes pseq when it is written. -/
def Report.words (r : Report) : List Word :=
  [BitVec.ofNat 32 (r.ctx * 2 ^ 16 + r.status * 2 ^ 8 + r.kind), r.qseq, 0, BitVec.ofNat 32 r.detail] ++ words64 r.dt ++ words64 r.addr

/-- A report goes to the report ring in order, or is held back while that is full (R325, R366). -/
def State.putReport (s : State) (r : Report) : State := s.putRecord mgmt 0 r.words

/-- A report of an event of now. -/
def State.report (s : State) (r : Report) : State := s.putReport { r with dt := s.dt }

/-! ### Command links (R364) -/

/-- A message is sent when a permit is left, and held back otherwise. -/
def LinkDir.send (l : LinkDir) (m : Msg) : LinkDir :=
  if l.permits == 0 then { l with held := l.held ++ [m] }
  else
    let n := (l.sent + 1) % 65536
    { l with permits := l.permits - 1, sent := n, queue := l.queue ++ [(n, m)] }

/-- The oldest message has been acted on: its permit returns, and a message held back goes out. -/
def LinkDir.act (l : LinkDir) : LinkDir :=
  match l.queue with
  | [] => l
  | x :: xs =>
    let l := { l with acted := x.1, permits := l.permits + 1, queue := xs }
    match l.held with
    | [] => l
    | m :: ms => LinkDir.send { l with held := ms } m

/-- Messages that are not acted on yet. -/
def LinkDir.waiting (l : LinkDir) : List Msg := l.queue.map (·.2) ++ l.held

def State.updLink (s : State) (leaf : Nat) (up : Bool) (f : LinkDir → LinkDir) : State :=
  let g (l : Link) : Link := if up then { l with up := f l.up } else { l with down := f l.down }
  { s with fw := { s.fw with links := s.fw.links.modify leaf g } }

def State.linkDir (s : State) (leaf : Nat) (up : Bool) : LinkDir :=
  let l := s.fw.links.getD leaf {}
  if up then l.up else l.down

/-- The leaf controller of a core's cluster sends a message to the global scheduler core, and the other way round. -/
def State.tellUp (s : State) (core : Nat) (m : Msg) : State := s.updLink (clusterOf core) true (·.send m)
def State.tellDown (s : State) (leaf : Nat) (m : Msg) : State := s.updLink leaf false (·.send m)

/-- A leaf controller's report (R364). -/
def State.leafReport (s : State) (core : Nat) (r : Report) : State := s.tellUp core (.report { r with dt := s.dt })

/-- A leaf controller is not restarting its firmware (R365). -/
def State.leafUp (s : State) (leaf : Nat) : Bool := !s.fw.restarting.contains leaf

/-! ### Pre-emption (R370) -/

/-- A leaf controller marks its resident units that a test names. -/
def State.requestPreempt (s : State) (f : UnitSt → Bool) : State :=
  { s with units := s.units.map fun u =>
      if u.st == .resident && u.role != .prologue && f u then { u with preempt := true } else u }

/-- Of a unit whose launch must be co-resident, all units are pre-empted (R338, R371). -/
def State.preemptWhole (s : State) (u : UnitSt) : State :=
  let whole := ((s.launch? u.launch).map (·.cores)).getD false
  s.requestPreempt fun x => x.uid == u.uid || (x.launch == u.launch && whole)

/-- One request to the leaf controller of each cluster that holds a resident unit concerned. -/
def State.preemptUnits (s : State) (f : UnitSt → Bool) : State :=
  let us := s.units.filter fun u => u.st == .resident && u.role != .prologue && f u
  let leaves := (us.map fun u => clusterOf u.core).eraseDups
  leaves.foldl (fun s l => s.tellDown l (.preempt ((us.filter fun u => clusterOf u.core == l).map (·.uid)))) s

/-- A request to pre-empt a unit is on its way. -/
def State.preemptSent (s : State) (u : UnitSt) : Bool :=
  (s.linkDir (clusterOf u.core) false).waiting.any fun m =>
    match m with
    | .preempt us => us.contains u.uid
    | _ => false

/-- A unit's trap record is on its way to the global scheduler core. -/
def State.faultSent (s : State) (u : UnitSt) : Bool :=
  s.fw.links.any fun l => l.up.waiting.any fun m =>
    match m with
    | .fault x _ => x == u.uid
    | _ => false

end Sys2Proof.Machine
end

