-- ==== Sys2Proof/Machine/ClaimOps.lean ====
section
/-! DEFINITION. Shared operations of claims and of engine writes (R229 to R250): records, pins, checks, revocation, and
the writing of an engine's bytes. -/

namespace Sys2Proof.Machine

/-! ### Claim table (R235, R237) -/

def Ctx.claim? (c : Ctx) (h : Nat) : Option Claim := c.claims.find? (·.h == h)
def State.claim? (s : State) (c h : Nat) : Option Claim := (s.ctx? c).bind fun x => x.claim? h
def State.updClaim (s : State) (c h : Nat) (f : Claim → Claim) : State :=
  s.updCtx c fun x => { x with claims := x.claims.map fun y => if y.h == h then f y else y }
def State.freeClaim (s : State) (c h : Nat) : State :=
  s.updCtx c fun x => { x with claims := x.claims.filter (·.h != h) }

/-- The next FREE entry in rotation from the one after the last allocated. -/
def nextFreeFrom (used : List Nat) (from_ : Nat) : Nat → Option Nat
  | 0 => none
  | n + 1 => if used.contains (from_ % 4096) then nextFreeFrom used (from_ + 1) n else some (from_ % 4096)

def Ctx.nextFree (c : Ctx) : Option Nat := nextFreeFrom (c.claims.map (·.h)) (c.lastClaim + 1) 4096

/-- Flag bits of record word 0 (R229). -/
def Claim.arv (c : Claim) : Bool := flag c.flags 8
def Claim.aws (c : Claim) : Bool := flag c.flags 9
def Claim.wfl (c : Claim) : Bool := flag c.flags 11
def Claim.cmp (c : Claim) : Bool := flag c.flags 12
def Claim.srd (c : Claim) : Bool := flag c.flags 13
def Claim.ssp (c : Claim) : Bool := flag c.flags 14
def Claim.dsp (c : Claim) : Bool := flag c.flags 15

def Claim.isFabric (c : Claim) : Bool := decide (4 ≤ c.kind)

/-- Which side is local and in the scratchpad window; none for a remote or absent side (R230, R294). -/
def Claim.srcScr (c : Claim) : Option Bool :=
  match c.kind with
  | 0 | 2 => some false
  | 1 | 3 => some true
  | 4 | 6 | 7 | 9 => some c.ssp
  | _ => none

def Claim.dstScr (c : Claim) : Option Bool :=
  match c.kind with
  | 1 | 2 => some false
  | 0 | 3 => some true
  | 5 | 7 => some c.dsp
  | 9 => some false
  | _ => none

/-- Whether the default arrival word is this device's to reach through the issuing context. -/
def Claim.awLocal (c : Claim) : Bool := c.arv && c.kind != 4 && c.kind != 6

def Claim.pins (c : Claim) : Bool := c.st == .held || c.st == .flowing || c.st == .dormant

/-! ### Scratchpad pages (R205, R242): 16 KiB each -/

def pagesOf (a n : Nat) : List Nat :=
  if n == 0 then [] else (List.range ((a + n - 1) / 16384 - a / 16384 + 1)).map (a / 16384 + ·)

def Claim.scrPages (c : Claim) : List Nat :=
  (if c.srcScr == some true then pagesOf c.src.toNat c.len else []) ++
  (if c.dstScr == some true then pagesOf c.dst.toNat c.len else [])

/-- Pinned pages of a unit: its CPIN flags, its claims', and those of its accepted sweeps (R242). -/
def State.pinnedOf (s : State) (u : UnitSt) : List Nat :=
  let cs := (((s.ctx? u.ctx).map (·.claims)).getD []).filter fun c => c.unit == u.uid && c.pins
  let sweeps := (s.eng.filter (·.unit == u.uid)).foldl (fun ps e => ps ++ e.pages) []
  (u.cpins ++ cs.foldl (fun ps (c : Claim) => ps ++ c.scrPages) [] ++ sweeps).eraseDups

def State.pinnedFrames (s : State) (core : Nat) : Nat :=
  (s.units.filter (·.core == core)).foldl (fun n u => n + (s.pinnedOf u).length) 0

/-- Whether pinning more pages of a unit keeps its core's pinned frames within 192 (R231). -/
def State.framesFit (s : State) (u : UnitSt) (ps : List Nat) : Bool :=
  decide (s.pinnedFrames u.core + (ps.eraseDups.filter fun p => !(s.pinnedOf u).contains p).length ≤ 192)

/-- Staging buffers in use at a core (R231, R250): of copy claims, and of restored fabric claims. -/
def State.stagingUsed (s : State) (core : Nat) : Nat :=
  s.ctxs.foldl (fun n x => n + (x.claims.filter fun c =>
    (!c.isFabric || c.pool) && (c.st == .held || c.st == .flowing) && s.coreOf c.unit == core).length) 0

/-! ### The record (R229) -/

/-- The claim that a record describes, or none when it is malformed for any kind. -/
def claimOf (h unit op : Nat) (ws : List Word) : Option Claim :=
  let w := wd ws 0
  let c : Claim := { h := h, unit := unit, op := op, kind := bits w 0 4, node := bits w 16 13, flags := bits w 0 16
                     len := wd ws 1, src := BitVec.ofNat 64 (wd64 ws 2), dst := BitVec.ofNat 64 (wd64 ws 4)
                     aw := BitVec.ofNat 64 (wd64 ws 6)
                     param := BitVec.ofNat 128 (wd64 ws 8 + 2 ^ 64 * wd64 ws 10) }
  let small (x : DWord) : Bool := decide (x.toNat < 2 ^ 22)
  if bits w 29 3 == 0 && bits w 10 1 == 0 && bits w 4 4 == 0 && decide (c.kind < 10) && decide (1 ≤ c.len) &&
      decide (c.len ≤ 2 ^ 30) && (c.srcScr != some true || small c.src) && (c.dstScr != some true || small c.dst) &&
      (!c.arv || !c.aws || small c.aw) && (c.arv || c.aw == 0) &&
      (c.isFabric || (c.node == 0 && c.param == 0 && bits w 11 5 == 0)) then some c
  else none

/-! ### Checks (R231) -/

/-- What a check of a claim finds: passes, waits for a translation, or fails with a status and raddr. -/
inductive Chk where
  | ok
  | wait
  | fail (status : Nat) (addr : DWord)
  deriving DecidableEq, Repr

def Chk.then_ (a : Chk) (b : Unit → Chk) : Chk :=
  match a with
  | .ok => b ()
  | r => r

/-- The lowest address of the page that holds a byte: its mapping, when that is one page of 64 KiB, 2 MiB or 1 GiB, or
else 4 KiB (R78). DESIGN CHOICE, log 6. -/
def State.pageBase (s : State) (c va : Nat) : Nat :=
  match s.map1.find? fun m => m.root == s.root1 c && decide (m.va ≤ va) && decide (va < m.va + m.size) with
  | some m => if (m.size == 65536 || m.size == 2 ^ 21 || m.size == 2 ^ 30) && m.va % m.size == 0 then m.va else va / 4096 * 4096
  | none => va / 4096 * 4096

/-- Walks a global range in ascending address; a refused miss is UNRESOLVED. -/
def State.chkGlobal (s : State) (c : Nat) (acc : Acc) (refused : Bool) (va : DWord) : Nat → Chk
  | 0 => .ok
  | n + 1 =>
    let at_ : DWord := BitVec.ofNat 64 (s.pageBase c va.toNat)
    match s.walk c va.toNat acc with
    | .ok _ => s.chkGlobal c acc refused (va + 1) n
    | .miss => if refused then .fail 7 at_ else .wait
    | .perm _ => .fail 5 at_
    | .world => .fail 6 0
    | .unres => .fail 7 va

/-- One side of a claim (R231). -/
def State.chkSide (s : State) (u : UnitSt) (refused : Bool) (acc : Acc) (scr : Option Bool) (base : DWord) (len : Nat) : Chk :=
  match scr with
  | none => .ok
  | some true => if base.toNat + len ≤ u.nscr then .ok else .fail 8 base
  | some false => s.chkGlobal u.ctx acc refused base len

def State.chkArrival (s : State) (u : UnitSt) (refused : Bool) (c : Claim) : Chk :=
  if !c.awLocal then .ok
  else if c.aw.toNat % 16 != 0 then .fail 9 c.aw
  else s.chkSide u refused .w (some c.aws) c.aw 16

/-- Quota (R231, step 2). -/
def State.chkQuota (s : State) (c : Claim) (ctx : Nat) : Chk :=
  let mine := (((s.ctx? ctx).map (·.claims)).getD []).filter fun x => x.unit == c.unit && decide (x.op < c.op)
  if 64 ≤ mine.length then .fail 2 0 else .ok

/-- The checks of a copy claim, in order. -/
def State.chkCopy (s : State) (u : UnitSt) (refused : Bool) (c : Claim) : Chk :=
  ((((s.chkQuota c u.ctx).then_ fun _ => s.chkSide u refused .r c.srcScr c.src c.len).then_ fun _ =>
    s.chkSide u refused .w c.dstScr c.dst c.len).then_ fun _ =>
    s.chkArrival u refused c).then_ fun _ =>
    if 256 ≤ s.stagingUsed u.core then .fail 4 0
    else if s.framesFit u c.scrPages then .ok else .fail 13 0

/-! ### Engine reads and writes (R91) -/

/-- Bytes of one side of a claim's local range, from an offset. -/
inductive ClaimSide where
  | scr (as : List Nat)
  | glob (pas : List Nat)
  | lost
  deriving DecidableEq, Repr

/-- Addresses of a local side. The translations of a claim are held, so that they cannot fail while it is held. -/
def State.side (s : State) (u : UnitSt) (acc : Acc) (scr : Option Bool) (base : DWord) (off n : Nat) : ClaimSide :=
  match scr with
  | none => .lost
  | some true => .scr (span (base.toNat + off) n)
  | some false =>
    match s.reach u.ctx (base + BitVec.ofNat 64 off) acc n with
    | .ok pas => .glob pas
    | _ => .lost

/-- Lines that an engine of a core reads at their home slices are filled there for its context (R14, R91). -/
def State.fillSide (s : State) (c core : Nat) : ClaimSide → State
  | .glob pas =>
    let ls := linesOf pas
    (ls.foldl (fun s l => s.countPkg (s.ctxWorld c) (corePort core) (slicePort (sliceOf l))) s).fillAll (some c) ls
  | _ => s

/-- What an engine operation reads of a side; engines see the window with every completed engine write (R249). -/
def State.readSide (s : State) (u : UnitSt) : ClaimSide → List Byte
  | .scr as => as.map u.engScr.read
  | .glob pas => pas.map (s.sliceByte u.uid)
  | .lost => []

/-- Bytes written to a side; `arrives` when an arrival counts them. -/
def State.writeSide (s : State) (uid : Nat) (ts : List Nat) (d : ClaimSide) (bs : List Byte) (arrives : Bool) : State :=
  match d with
  | .scr as => s.engineScr uid (as.zip bs) arrives
  | .glob pas => s.engineWrite uid ts pas bs
  | .lost => s

/-- The unit's own engine writes to these bytes are not all performed: a later operation, which may have seen their
completion, waits (R249). -/
def State.engineBusy (s : State) (u : Nat) : ClaimSide → Bool
  | .glob pas => s.ops.any fun o => o.unit == u && o.kind.isEngine && !o.done && shareByte o.addrs pas
  | _ => false

/-- An arrival of a claim's operation at its default word (R181, R238). -/
def State.claimArrive (s : State) (u : UnitSt) (ts : List Nat) (c : Claim) (n : Nat) : State :=
  if c.aws then s.arriveScr u.uid c.aw.toNat n
  else
    match s.reach u.ctx c.aw .w 16 with
    | .ok pas => s.engineArrive u ts pas n
    | _ => s

/-! ### Flows (R238, R239, R247) -/

/-- The claim that an engine operation names in V(a). -/
def EngOp.handle (e : EngOp) : Nat := e.o.a.toNat

def isFlowOp : Instr → Bool
  | .flow .. => true
  | _ => false

def isRlse : Instr → Bool
  | .rlse .. => true
  | _ => false

/-- A fabric operation that moves data or reads a group under a claim (R297). -/
def isFabOp : Instr → Bool
  | .puts .. | .get .. | .radd .. | .ratom .. | .mcst .. | .mcseq .. | .ring .. => true
  | _ => false

def usesClaim (i : Instr) : Bool := isFlowOp i || isFabOp i || isRlse i

/-- An operation on the claim is in progress (R296). -/
def State.inProgress (s : State) (ctx h : Nat) : Bool :=
  s.eng.any fun e => e.ctx == ctx && e.claim == some h && e.phase != .accepted

/-- Operations of a claim accepted before another and still open. -/
def State.claimOps (s : State) (ctx h id : Nat) (f : Instr → Bool) : List EngOp :=
  s.eng.filter fun e => e.ctx == ctx && e.handle == h && decide (e.id < id) && f e.ins

/-- Bytes of a severed operation's destination that were written: each aligned 8-byte unit holds its old or its new
value, as a free value decides (R239). DESIGN CHOICE, log 3. -/
def State.severed (s : State) (cells : List (Nat × Byte)) : State × List (Nat × Byte) :=
  let us := (cells.map fun c => c.1 / 8).eraseDups
  ({ s with fresh := s.fresh + us.length },
   cells.filter fun c => (Config.freeValue (s.fresh + us.idxOf (c.1 / 8))).getLsbD 0)

/-- A flow in progress ends SEVERED (R239): part of its destination written, or all of it when only its arrival was still
to come; no arrival, C lowered. -/
def State.severFlow (s : State) (e : EngOp) (c : Claim) : State :=
  match s.unit? e.unit with
  | none => s
  | some u =>
    let off (w : BitVec 128) (i : Nat) := w.toNat / 2 ^ (32 * i) % 2 ^ 32
    let n := e.o.c.toNat
    let bs := s.readSide u (s.side u .r c.srcScr c.src (off e.o.b 0) n)
    let d := s.side u .w c.dstScr c.dst (off e.o.b 1) n
    let as := match d with | .scr as => as | .glob pas => pas | .lost => []
    let r := s.severed (as.zip bs)
    let s := r.1
    let kept := r.2
    let s : State :=
      if e.phase == .landed then s
      else
        match d with
        | .scr _ => s.engineScr u.uid kept false
        | .glob _ => s.engineWrite u.uid (e.tids.map (·.1)) (kept.map (·.1)) (kept.map (·.2))
        | .lost => s
    (s.complete { e with wd := 0 } 0).updClaim e.ctx c.h fun c => { c with sev := true }

/-! ### Revocation (R236, R243, R245, R296) -/

/-- The put or radd packet of an operation that this node has sent to itself and not yet performed. -/
def ownPut (node op : Nat) : Instr → Option Packet
  | .putPacketRx p => if p.srcN == node && p.opId == op then some p else none
  | _ => none

/-- Local destination bytes that a severed fabric operation may have written, by physical or window address. -/
def State.severedCells (s : State) (e : EngOp) (c : Claim) (u : UnitSt) : List (Nat × Byte) :=
  match e.ins with
  | .get .. | .ring .. =>
    let ring := match e.ins with | .ring .. => true | _ => false
    let off := if ring then 0 else e.o.b.toNat / 2 ^ 32 % 2 ^ 32
    let n := if ring then c.len else e.o.c.toNat % 2 ^ 32
    let got := if e.phase == .landed then [] else ((s.fab.flights.find? (·.op == e.id)).map (·.got)).getD []
    let base := c.dst.toNat + off
    -- an aligned unit of which some bytes have not come holds its old value
    let whole (g : Nat × Byte) : Bool := (span ((base + g.1) / 8 * 8) 8).all fun a =>
      decide (a < base) || decide (base + n ≤ a) || got.any fun x => base + x.1 == a
    (got.filter whole).foldr (fun g cs =>
      match s.side u .w c.dstScr c.dst (off + g.1) 1 with
      | .scr [a] => (a, g.2) :: cs
      | .glob [a] => (a, g.2) :: cs
      | _ => cs) []
  | _ =>
    (s.agenda.filterMap (ownPut s.fab.node e.id)).foldr (fun p cs =>
      match s.reach e.ctx p.va .w p.data.length with
      | .ok pas => pas.zip (if p.ptype == 4 then raddBytes p.sub (pas.map s.mem.read) p.data else p.data) ++ cs
      | _ => cs) []

/-- Arrivals that such packets have posted at a home slice, where they wait for their GWCT. -/
def State.ownArrivals (s : State) (op : Nat) : List Nat :=
  (s.agenda.filterMap (ownPut s.fab.node op)).foldr (fun p ids => (if p.data.isEmpty then p.held else []) ++ ids) []

/-- The packets of a put or radd that a port still holds, without the arrival (R296). -/
def Port.noArrival (op : Nat) (q : Port) : Port :=
  { q with unacked := q.unacked.map fun x =>
      if x.2.opId == op && (x.2.ptype == 1 || x.2.ptype == 4) then (x.1, { x.2 with aw := none, arrive := 0 }) else x }

/-- A fabric operation in progress ends severed (R296): part of a local destination written, no arrival, F lowered. -/
def State.severFabric (s : State) (e : EngOp) (c : Claim) : State :=
  match s.unit? e.unit with
  | none => s
  | some u =>
    let r := s.severed (s.severedCells e c u)
    let cells := r.2
    let s := r.1
    let arrivals := s.ownArrivals e.id
    let s : State := { s with agenda := s.agenda.filter fun i => (ownPut s.fab.node e.id i).isNone
                              ops := s.ops.filter fun o => !(arrivals.contains o.id && !o.done)
                              fab := { s.fab with flights := s.fab.flights.filter (·.op != e.id)
                                                  ports := s.fab.ports.map (Port.noArrival e.id) } }
    let s := if c.dstScr == some true then s.engineScr u.uid cells false
      else s.engineWrite u.uid (e.tids.map (·.1)) (cells.map (·.1)) (cells.map (·.2))
    s.complete { e with wd := 0 } 0

/-- A flow, or a fabric operation in progress, on a claim that loses its link, key or context ends severed; an RATOM
goes on (R296, R303). -/
def State.severClaim (s : State) (ctx : Nat) (c : Claim) : State :=
  let es := s.eng.filter fun e => e.ctx == ctx && e.claim == some c.h && e.phase != .accepted &&
    match e.ins with
    | .ratom .. => false
    | _ => true
  let s := es.foldl (fun s e => if isFlowOp e.ins then s.severFlow e c else s.severFabric e c) s
  if es.isEmpty then s else s.report { ctx := ctx, kind := 7, detail := c.h, addr := c.node }

/-- The fabric job to which a context is bound (R292). -/
def State.jobOf (s : State) (ctx : Nat) : Nat := ((s.ctx? ctx).map fun (c : Ctx) => c.desc.fjob.toNat).getD 0

/-- The job and the number of the ring that a packet belongs to (R306). -/
def inRing (p : Packet) (job ring : Nat) : Bool := p.job == job && p.claim == ring

/-- Chunks that wait for a ring of a context are of no more use once its claim is revoked or released (R307). -/
def State.dropChunks (s : State) (ctx : Nat) (c : Claim) : State :=
  if c.kind == 7 then
    { s with fab := { s.fab with chunks := s.fab.chunks.filter fun p => !inRing p (s.jobOf ctx) ((c.ring.getD 3 0).toNat % 2 ^ 16) } }
  else s

/-- Revokes a claim at once, or severs it: LINK 3, KEY 4, CONTEXT 5. A DORMANT claim learns of a lost link only when it is
reserved again; when a revocation waited for the operations that have been severed, it takes effect (R236). -/
def State.cutClaim (s : State) (ctx : Nat) (cause : Nat) (c : Claim) : State :=
  if c.st == .claiming || c.st == .revoked then s
  else
    let s := s.severClaim ctx c
    if c.st == .dormant && cause == 3 then
      (if c.pend then s.dropChunks ctx c else s).updClaim ctx c.h fun c => if c.pend then { c with st := .revoked, pend := false } else c
    else
      let s := (s.dropChunks ctx c).updClaim ctx c.h fun c => { c with st := .revoked, cause := cause, pend := false }
      if cause == 4 then { s with trust := { s.trust with cutKeys := s.trust.cutKeys ++ [(ctx, c.h)] } } else s

def State.cutClaims (s : State) (ctx : Nat) (cause : Nat) (f : Claim → Bool) : State :=
  ((((s.ctx? ctx).map (·.claims)).getD []).filter f).foldl (fun s c => s.cutClaim ctx cause c) s

/-- The node or group to which a claim leads is lost: a DORMANT claim finds its route gone when it is reserved again (R296). -/
def State.cutRoute (s : State) (ctx : Nat) (c : Claim) : State :=
  (s.cutClaim ctx 3 c).updClaim ctx c.h fun c => { c with gone := c.gone || c.st == .dormant }

/-- UNMAP 1 or MIGRATE 2 reaches a claim: at once unless an operation on it is in progress (R243, R296). -/
def State.revokeClaim (s : State) (ctx : Nat) (cause : Nat) (c : Claim) : State :=
  if c.st == .flowing || (c.st == .dormant && s.inProgress ctx c.h) then
    s.updClaim ctx c.h fun c => { c with pend := true, cause := cause }
  else if c.st == .held || c.st == .dormant then
    (s.dropChunks ctx c).updClaim ctx c.h fun c => { c with st := .revoked, cause := cause }
  else s

/-- A flow or the last fabric operation on a claim has ended (R236). -/
def Claim.ended (c : Claim) : Claim :=
  if c.pend then { c with st := .revoked, pend := false }
  else if c.st == .flowing then { c with st := .held } else c

/-- The same, and a revoked ring's chunks go. -/
def State.endClaimOp (s : State) (ctx : Nat) (c : Claim) : State :=
  (if c.pend then s.dropChunks ctx c else s).updClaim ctx c.h Claim.ended

/-! ### Fabric claims: routes and remote ranges (R293, R295) -/

/-- The anchor of an mcast claim, and whether a switch orders its group (R294). -/
def Claim.anchor (c : Claim) : Nat := c.param.toNat / 2 ^ 80 % 2 ^ 13
def Claim.xop (c : Claim) : Bool := c.param.toNat.testBit 94
def Claim.group (c : Claim) : Nat := c.param.toNat / 2 ^ 64 % 2 ^ 16
def Claim.app (c : Claim) : Bool := c.param.toNat.testBit 93
def Claim.slotSize (c : Claim) : Nat := c.param.toNat / 2 ^ 96 % 2 ^ 16 + 1
def Claim.slotCount (c : Claim) : Nat := c.param.toNat / 2 ^ 112 % 2 ^ 16 + 1
def Claim.etype (c : Claim) : Nat := c.param.toNat % 4
def Claim.ctype (c : Claim) : Nat := c.param.toNat / 2 ^ 8 % 4
def Claim.slots (c : Claim) : Nat := c.param.toNat % 128

/-- The node at the other end of a claim's route. -/
def Claim.farNode (c : Claim) : Nat :=
  match c.kind with
  | 9 => c.anchor
  | 7 => (c.ring.getD 2 0).toNat % 2 ^ 13
  | _ => c.node

/-- A fabric claim whose packets stay on this node and use no link (R292). -/
def State.ownRoute (s : State) (c : Claim) : Bool := !(c.kind == 9 && c.xop) && c.farNode == s.fab.node

/-- Remote ranges of a claim with the access that each needs (R293). -/
def Claim.remote (c : Claim) : List (DWord × Nat × Acc) :=
  match c.kind with
  | 5 => [(c.src, c.len, .r)]
  | 4 | 6 => (c.dst, c.len, .w) :: if c.arv then [(c.aw, 16, .w)] else []
  | 8 => [(c.dst, c.len, .w)]
  | _ => []

/-- Every claim that a unit still holds becomes FREE (R237). -/
def State.freeClaimsOf (s : State) (u : UnitSt) : State :=
  let mine := (((s.ctx? u.ctx).map (·.claims)).getD []).filter (·.unit == u.uid)
  (mine.foldl (fun s c => s.dropChunks u.ctx c) s).updCtx u.ctx fun x => { x with claims := x.claims.filter (·.unit != u.uid) }

end Sys2Proof.Machine
end

