-- ==== Sys2Proof/Machine/Chunk.lean ====
section
/-! DEFINITION. Lossless payload compression of fabric packets (R314, R315): the chunk header, the exponent section with
its canonical codewords, and the sign-mantissa section. -/

namespace Sys2Proof.Machine

/-- Exponent bits, mantissa bits and bytes of an element, by ctype: bf16, e4m3, e5m2. -/
def ctypeOf : Nat → Nat × Nat × Nat
  | 0 => (8, 7, 2)
  | 1 => (4, 3, 1)
  | _ => (5, 2, 1)

/-- Elements of `k` bytes in a byte list. -/
def elemsOf (k : Nat) (bs : List Byte) : List Nat :=
  (List.range (bs.length / k)).map fun i => ofLe ((bs.drop (k * i)).take k)

/-- The low `n` bits of a number, bit 0 first. -/
def lowBits (n v : Nat) : List Bool := (List.range n).map v.testBit

/-- Bits into bytes, bit 0 first, with zero padding. -/
def packBits (bs : List Bool) : List Byte :=
  (List.range ((bs.length + 7) / 8)).map fun i =>
    BitVec.ofNat 8 ((List.range 8).foldl (fun n j => n + if bs.getD (8 * i + j) false then 2 ^ j else 0) 0)

def unpackBits (bs : List Byte) : List Bool := bs.foldr (fun b acc => lowBits 8 b.toNat ++ acc) []

/-! ### Canonical codewords (R315) -/

/-- The first code of each length from 1, as R315 computes it. -/
def firstCodes (lens : List Nat) (code : Nat) (prev : Nat) : Nat → List Nat
  | 0 => []
  | n + 1 =>
    let l := 15 - n
    let code := (code + prev) * 2
    code :: firstCodes lens code (lens.filter (· == l)).length n

/-- The codeword of a symbol, most significant bit first; none for an unused symbol. -/
def codeword (lens : List Nat) (sym : Nat) : Option (List Bool) :=
  let l := lens.getD sym 0
  if l == 0 then none
  else
    let rank := ((lens.take sym).filter (· == l)).length
    some (lowBits l ((firstCodes lens 0 0 15).getD (l - 1) 0 + rank)).reverse

/-- At least one used symbol, and a sum of 2^−lens no greater than 1. -/
def lensValid (lens : List Nat) : Bool :=
  lens.any (· != 0) && decide ((lens.filter (· != 0)).foldl (fun n l => n + 2 ^ (15 - l)) 0 ≤ 2 ^ 15)

/-! ### Coding -/

/-- The lengths that this device's sender uses: four bits for every symbol (a choice that R315 leaves to the sender). -/
def senderLens : List Nat := List.replicate 16 4

def chunkHeader (raw : Bool) (ctype cnt emx xlen : Nat) (lens : List Nat) : List Byte :=
  leBytes 2 (cnt + 4096 * ctype + if raw then 16384 else 0) ++ [BitVec.ofNat 8 emx, 0] ++ leBytes 2 xlen ++ [0, 0] ++
    leBytes 8 (lens.foldr (fun l n => l + 16 * n) 0)

/-- The exponent section's bits of one element. -/
def codeExp (lens : List Nat) (ebits emx e : Nat) : List Bool :=
  if emx - e < 15 then (codeword lens (emx - e)).getD [] else (codeword lens 15).getD [] ++ lowBits ebits e

/-- The coded form of a payload under a set of lengths: chunk header and payload. -/
def codeWith (lens : List Nat) (ctype : Nat) (bs : List Byte) : List Byte × List Byte :=
  let (eb, m, k) := ctypeOf ctype
  let xs := elemsOf k bs
  let es := xs.map fun x => x / 2 ^ m % 2 ^ eb
  let emx := es.foldl max 0
  let ex := packBits (es.foldr (fun e acc => codeExp lens eb emx e ++ acc) [])
  let sm := packBits (xs.foldr (fun x acc => lowBits (m + 1) (x % 2 ^ m + x / 2 ^ (m + eb) * 2 ^ m) ++ acc) [])
  (chunkHeader false ctype (xs.length - 1) emx ex.length lens, ex ++ sm)

/-- A payload as it is sent: coded when that is shorter, raw otherwise. A payload that is no whole number of elements is
raw, and its last part counts as an element. DEDUCED, log 44. -/
def codeChunk (ctype : Nat) (bs : List Byte) : List Byte × List Byte :=
  let k := (ctypeOf ctype).2.2
  let coded := codeWith senderLens ctype bs
  if bs.length % k == 0 && decide (coded.2.length < bs.length) then coded
  else (chunkHeader true ctype ((bs.length + k - 1) / k - 1) 0 0 [], bs)

/-! ### Decoding -/

/-- The symbol whose codeword the stream begins with, and the rest. -/
def decodeSym (lens : List Nat) (bits : List Bool) : Option (Nat × List Bool) :=
  (List.range 16).findSome? fun sym =>
    match codeword lens sym with
    | some w => if bits.take w.length == w then some (sym, bits.drop w.length) else none
    | none => none

def bitsNat (bs : List Bool) : Nat := bs.foldr (fun b n => (if b then 1 else 0) + 2 * n) 0

/-- `n` exponents of a stream. -/
def decodeExps (lens : List Nat) (ebits emx : Nat) : Nat → List Bool → Option (List Nat)
  | 0, _ => some []
  | n + 1, bits =>
    match decodeSym lens bits with
    | none => none
    | some (sym, rest) =>
      if sym == 15 then
        if rest.length < ebits then none
        else (decodeExps lens ebits emx n (rest.drop ebits)).map fun es => bitsNat (rest.take ebits) :: es
      else if emx < sym then none
      else (decodeExps lens ebits emx n rest).map fun es => (emx - sym) :: es

/-- The bytes that a chunk header and a payload stand for; none when they cannot be decoded. -/
def decodeChunk (h payload : List Byte) : Option (List Byte) :=
  let w := ofLe (h.take 2)
  let ctype := w / 4096 % 4
  let n := w % 4096 + 1
  let (eb, m, k) := ctypeOf ctype
  let emx := (h.getD 2 0).toNat
  let xlen := ofLe ((h.drop 4).take 2)
  let lens := (List.range 16).map fun i => ofLe ((h.drop 8).take 8) / 16 ^ i % 16
  if h.length != 16 || ctype == 3 || 32768 ≤ w || h.getD 3 0 != 0 || ofLe ((h.drop 6).take 2) != 0 then none
  else if w / 16384 % 2 == 1 then (if (payload.length + k - 1) / k == n then some payload else none)
  else if !lensValid lens || payload.length != xlen + (n * (m + 1) + 7) / 8 then none
  else
    let bits := unpackBits (payload.drop xlen)
    (decodeExps lens eb emx n (unpackBits (payload.take xlen))).map fun es =>
      (es.mapIdx fun i e =>
        let sm := bitsNat ((bits.drop (i * (m + 1))).take (m + 1))
        leBytes k (sm % 2 ^ m + e * 2 ^ m + sm / 2 ^ m * 2 ^ (m + eb))).foldr (· ++ ·) []

end Sys2Proof.Machine
end

