-- ==== Sys2Proof/Machine/Link.lean ====
section
/-! DEFINITION. The fabric's nodes, routes and links (R292, R316, R317): where a packet goes, sending on a port with its
replay buffer, delivery of a received packet to the event that acts on it, and packets that a node sends to itself. -/

namespace Sys2Proof

/-- The event that acts on a delivered packet, by its type (R316). -/
def Packet.rx (port : Nat) (p : Packet) : Option Instr :=
  match p.ptype with
  | 1 | 4 => some (.putPacketRx p)
  | 2 => some (.getRequestRx p)
  | 3 => some (.getDataRx p)
  | 5 => some (.ratomRequestRx p)
  | 6 => some (.ratomResponseRx p)
  | 7 => some (.ringChunkRx p)
  | 8 => some (.mcstStamp p)
  | 9 | 12 => some (.mcstPacketRx port p)
  | 10 => some (.nackRx p)
  | 11 => some (.mcstAckRx p)
  | _ => none

/-- Bytes that a packet takes on a link: header, payload and trailer flits. -/
def Packet.size (p : Packet) : Nat := 64 * (2 + (p.data.length + 63) / 64)

/-- The age that a packet has now, with the time it has spent in a port (R303). -/
def Packet.ageNow (p : Packet) (dt : Nat) : Nat := p.age + (dt - p.at_) / 100

/-- The packet as it leaves, or comes in, now. -/
def Packet.aged (dt : Nat) (p : Packet) : Packet := { p with age := p.ageNow dt, at_ := dt }

/-- A payload in the form that its claim's compression gives it (R314). -/
def Packet.coded (p : Packet) : Packet :=
  match p.ctype with
  | some t =>
    if p.data.isEmpty then p
    else
      let r := Machine.codeChunk t p.data
      { p with chunk := r.1, data := r.2 }
  | none => p

end Sys2Proof

namespace Sys2Proof.Machine

/-! ### Jobs and routes (R292, R295) -/

/-- The context that is bound to a job on this node. -/
def State.jobCtx (s : State) (job : Nat) : Option Ctx :=
  s.ctxs.find? fun c => c.live && job != 0 && c.desc.fjob.toNat == job

def State.port? (s : State) (p : Nat) : Option Port := s.fab.ports.find? (·.port == p)
def State.updPort (s : State) (p : Nat) (f : Port → Port) : State :=
  { s with fab := { s.fab with ports := s.fab.ports.map fun x => if x.port == p then f x else x } }

def State.inJob (s : State) (job node : Nat) : Bool :=
  ((s.fab.jobs.find? (·.job == job)).map fun (j : FJob) => j.members.contains node).getD false

/-- Up ports that lead to a node. -/
def State.portsTo (s : State) (node : Nat) : List Nat :=
  (s.fab.ports.filter fun p => p.up && p.nodes.contains node).map (·.port)

/-- A route to a node: the first up port; a node reaches itself through a port sequencer of its own, port 0.
DESIGN CHOICE, log 46. -/
def State.routeTo (s : State) (node : Nat) : Option Nat :=
  if node == s.fab.node then some 0 else (s.portsTo node).head?

/-- A route to the switch that orders a group. -/
def State.routeSwitch (s : State) (group : Nat) : Option Nat :=
  ((s.fab.ports.filter fun p => p.up && p.xops.contains group).map (·.port)).head?

/-! ### Sending -/

/-- Of unacknowledged packets, newest first, those that the 256 KiB replay buffer still holds (R317). -/
def keepReplay (room : Nat) : List (Nat × Packet) → List (Nat × Packet)
  | [] => []
  | x :: xs => if x.2.size ≤ room then x :: keepReplay (room - x.2.size) xs else []

/-- The flow identifier of a fabric packet (R382). -/
def flowId (node port claim : Nat) (response : Bool) : Nat :=
  2 ^ 31 + node * 2 ^ 18 + port * 2 ^ 13 + claim % 4096 * 2 + if response then 1 else 0

/-- The context of a packet's job has moved its bytes over the fabric (R404). -/
def State.countFab (s : State) (p : Packet) : State :=
  match s.jobCtx p.job with
  | some t => s.updCtx t.ctx fun c => { c with fabB := c.fabB + p.size }
  | none => s

/-- A packet leaves by a link: numbered, with the counter of its flow, and kept for replay. A port without its link sends
nothing. -/
def State.sendOn (s : State) (port : Nat) (p : Packet) : State :=
  match s.port? port with
  | none => s
  | some q =>
    if !q.up then s
    else
      let world := ((s.jobCtx p.job).map fun (c : Ctx) => c.desc.world).getD 0
      let flow := flowId s.fab.node port p.handle (p.ptype == 6 || p.ptype == 11)
      let p := { p with ctr := s.flowCtr world flow }
      let s := (s.countFlow world flow).countFab p
      s.updPort port fun q =>
        { q with txSeq := (q.txSeq + 1) % 2 ^ 32
                 unacked := q.unacked ++ [((q.txSeq + 1) % 2 ^ 32, p.coded)] }

/-- A packet to a node: to this node itself, or out by a port. -/
def State.emit (s : State) (port : Nat) (p : Packet) : State :=
  let p := { p with srcN := s.fab.node, at_ := s.dt }
  if p.dstN == s.fab.node then
    match p.rx port with
    | some i => { s with agenda := s.agenda ++ [i] }
    | none => s
  else s.sendOn port p

/-- A packet to a node by whatever port leads there now. -/
def State.emitTo (s : State) (p : Packet) : State :=
  match s.routeTo p.dstN with
  | some port => s.emit port p
  | none => s

/-- Pieces of up to 4 KiB of a payload, with their offsets (R299). Every piece but the last ends at a destination address
that is a multiple of 8, so that no aligned unit of 8 bytes comes in two packets (R296). -/
def packetData (dst : Nat) (bs : List Byte) : List (Nat × List Byte) :=
  let first := 4096 - dst % 8
  if bs.isEmpty then []
  else
    (0, bs.take first) ::
    (List.range ((bs.length - first + 4095) / 4096)).map fun i => (first + 4096 * i, (bs.drop (first + 4096 * i)).take 4096)

/-! ### Receiving (R317) -/

/-- A packet's failure: a CRC error, a wrong tag (R383), or a payload that cannot be decoded (R315). Replay is asked
for; the third failure in a row loses the link. -/
def State.linkFail (s : State) (port : Nat) : State :=
  let s := s.updPort port fun q =>
    { q with fails := q.fails + 1, errors := q.errors + 1, ctl := some (1, (q.rxLast + 1) % 2 ^ 32) }
  if ((s.port? port).map (·.fails)).getD 0 < 3 then s else { s with agenda := .linkLoss port :: s.agenda }

/-- The other side has received everything up to a number. -/
def Port.acked (q : Port) (n : Nat) : Port :=
  { q with unacked := q.unacked.filter fun x => !decide ((n + 2 ^ 32 - x.1) % 2 ^ 32 < 2 ^ 31) }

/-- Packets that leave again from the replay buffer have grown older there (R303). -/
def Port.aged (dt : Nat) (q : Port) : Port := { q with unacked := q.unacked.map fun x => (x.1, x.2.aged dt) }

/-- Ring chunks of one ring that have come and wait (R307): those of epochs that this member has not begun, and those still
to be taken. -/
def State.ringWaiting (s : State) (job ring : Nat) : Nat :=
  let mine (p : Packet) : Nat := if inRing p job ring then p.data.length else 0
  s.fab.chunks.foldl (fun n p => n + mine p) 0 +
  s.agenda.foldl (fun n i => n + match i with | .ringChunkRx p => mine p | _ => 0) 0

/-- A packet that finds no landing space is held back by credits: nothing of it is received (R307). -/
def State.noCredit (s : State) (p : Packet) : Bool := p.ptype == 7 && decide (8192 < s.ringWaiting p.job p.claim + p.data.length)

/-- The other side resumes from a number: whether everything from there is still in the replay buffer. -/
def Port.canReplay (q : Port) (from_ : Nat) : Bool :=
  from_ == (q.txSeq + 1) % 2 ^ 32 || (keepReplay 262144 q.unacked.reverse).any (·.1 == from_)

/-- LINK_PACKET_RX: a packet arrives by a port's link. -/
def execLinkPacketRx (port seq : Nat) (crcOk tagOk : Bool) (p : Packet) (s : State) : Out :=
  match s.port? port with
  | none => .next s
  | some q =>
    if !q.up then .next s
    else if !crcOk || !tagOk then .next (s.linkFail port)
    else if p.ptype == 13 then
      let upTo := if p.sub == 0 then p.seq else (p.seq + 2 ^ 32 - 1) % 2 ^ 32
      let s := s.updPort port fun q => if p.sub == 0 then q.acked upTo else (q.acked upTo).aged s.dt
      if p.sub == 1 && !q.canReplay p.seq then .next { s with agenda := .linkLoss port :: s.agenda } else .next s
    else if seq == (q.rxLast + 1) % 2 ^ 32 then
      let data := if p.chunk.isEmpty then some p.data else decodeChunk p.chunk p.data
      match data with
      | none => .next (s.linkFail port)
      | some data =>
        let p : Packet := { p with data := data, chunk := [], held := [], at_ := s.dt }
        if s.noCredit p then .next s
        else
          let s := (s.updPort port fun q => { q with rxLast := seq, fails := 0, ctl := some (0, seq) }).countFab p
          match p.rx port with
          | some i => .next { s with agenda := s.agenda ++ [i] }
          | none => .next s
    else if (seq + 2 ^ 32 - q.rxLast) % 2 ^ 32 < 2 ^ 31 then
      .next (s.updPort port fun q => { q with ctl := some (1, (q.rxLast + 1) % 2 ^ 32) })
    else .next (s.updPort port fun q => { q with ctl := some (0, q.rxLast) })

/-- LINK_RETRAIN: retraining succeeds, and each side resumes after the last number that the other received; or it fails
on, for 10 ms at most. -/
def execLinkRetrain (port : Nat) (ok : Bool) (peerLast : Nat) (s : State) : Out :=
  match s.port? port with
  | none => .next s
  | some q =>
    if ok then
      let s := s.updPort port fun q => { (q.acked peerLast).aged s.dt with up := true, downAt := none, fails := 0, ctl := some (0, q.rxLast) }
      .next (if q.canReplay ((peerLast + 1) % 2 ^ 32) then s else { s with agenda := .linkLoss port :: s.agenda })
    else
      match q.downAt with
      | none => .next (s.updPort port fun q => { q with downAt := some s.dt })
      | some t => .next (if t + 10000000 ≤ s.dt then { s with agenda := .linkLoss port :: s.agenda } else s)

end Sys2Proof.Machine
end

