-- ==== Sys2Proof/Machine/Copy.lean ====
section
/-! DEFINITION. The copy class (R229 to R250): CLAIM and its completion, FLOW with its begin and end, RLSE, CQRY, CPIN,
CUNPIN, and page changes by system software. Fabric claims' further checks are a parameter of the completion. -/

namespace Sys2Proof.Machine

/-! ### CLAIM (R233) -/

/-- A range of the window as an instruction of the elected lane names it: outside, misaligned, or fine.
DEDUCED, log 20. -/
def scrCheck (u : UnitSt) (a n align : Nat) : Option Trap :=
  if u.nscr < a + n then
    some { cause := .spaceRange, sub := 1, info := BitVec.ofNat 32 u.nscr, addr := BitVec.ofNat 64 (max a u.nscr) }
  else if a % align != 0 then
    some { cause := .spaceRange, sub := 3, info := BitVec.ofNat 32 u.nscr, addr := BitVec.ofNat 64 a }
  else none

/-- A plain load of these window bytes by the thread would wait now: for earlier accesses, or for elements that it has enqueued
(R171, R187). -/
def State.scrBusy (s : State) (u t : Nat) (as : List Nat) : Bool :=
  let o : MemOp := { id := s.nextId, unit := u, tid := t, sp := .scratch, addrs := as, kind := .load 0 .b32, grp := s.nextId
                     snap := (s.thread u t).snap }
  s.heldBack o || s.queuedBefore o

/-- The bytes at an address of the record are the elected lane's plain load in its program order. -/
def execClaim (d a : VReg) (s : State) : Out :=
  issueEng (.claim d a) .c d 1 [dst d, src .a a]
    (fun s v o e =>
      let at_ := o.a.toNat
      match scrCheck v.u at_ 64 64 with
      | some t => .trap t
      | none =>
        if s.scrBusy v.u.uid v.p.elected (span at_ 64) then .stall
        else
          let ws := wordsOf ((span at_ 64).map v.u.scr.read)
          let h := (s.ctx? v.u.ctx).bind Ctx.nextFree
          .accept { e with recd := ws, claim := h } fun s =>
            match h with
            | none => s
            | some h => s.updCtx v.u.ctx fun x =>
                { x with claims := x.claims ++ [{ h := h, unit := v.u.uid, op := s.nextId, kind := bits (wd ws 0) 0 4 }], lastClaim := h }) s

/-- A CLAIM ends with a result and raddr: the record's result fields first, then d (R233). -/
def State.endClaim (s : State) (e : EngOp) (result raddr : Nat) : State :=
  let a := e.o.a.toNat
  let s := s.updUnit e.unit fun u =>
    { u with scr := u.scr.writes (span (a + 0x30) 16) (leBytes 4 result ++ leBytes 4 0 ++ leBytes 8 raddr) }
  s.complete e (BitVec.ofNat 128 result)

/-- What a kind-4 to kind-9 claim's own checks find, with the port it takes. -/
abbrev FabricChk := State → UnitSt → Bool → Bool → Claim → Chk × Nat

/-- The status of a CLAIM that found no entry free: RECORD and QUOTA come before TABLE (R231). -/
def State.fullTable (fab : FabricChk) (s : State) (u : UnitSt) (e : EngOp) : Nat :=
  match claimOf 4096 e.unit e.id e.recd with
  | none => 1
  | some c =>
    match (if c.isFabric then (fab s u true false c).1 else s.chkCopy u true c) with
    | .fail 1 _ => 1
    | .fail 2 _ => 2
    | _ => 3

/-- A CLAIM's checks and reservations are over (R231, R234, R236). DEDUCED, log 25. -/
def State.finishClaim (fab : FabricChk) (refused landing : Bool) (e : EngOp) (s : State) : State :=
  match s.unit? e.unit, e.claim with
  | some u, none => s.endClaim e (0x80000000 + s.fullTable fab u e) 0
  | some u, some h =>
    match claimOf h e.unit e.id e.recd with
    | none => (s.freeClaim e.ctx h).endClaim e (0x80000000 + 1) 0
    | some c =>
      let r := if c.isFabric then fab s u refused landing c else (s.chkCopy u refused c, 0)
      match r.1 with
      | .wait => s
      | .fail st addr => (s.freeClaim e.ctx h).endClaim e (0x80000000 + st) addr.toNat
      | .ok =>
        (s.updClaim e.ctx h fun _ => { c with st := if u.st == .saved then .dormant else .held, port := r.2 }).endClaim e h 0
  | none, _ => s

/-! ### FLOW (R238) -/

def execFlow (d a b c : VReg) (noarv : Bool) (s : State) : Out :=
  issueEng (.flow d a b c noarv) .c d 1 [dst d, src .a a, src .b b 2, src .c c] (fun _ _ _ e => .accept e id) s

/-- The status of a flow when its turn comes, with the cause in bits 11:8. -/
def State.flowStatus (s : State) (e : EngOp) : Nat :=
  let off (i : Nat) := e.o.b.toNat / 2 ^ (32 * i) % 2 ^ 32
  match s.claim? e.ctx e.handle with
  | none => 16
  | some c =>
    if c.st == .claiming then 16
    else if c.unit != e.unit then 17
    else if c.isFabric then 18
    else if 2 ^ 20 < e.o.c.toNat ∨ c.len < off 0 + e.o.c.toNat ∨ c.len < off 1 + e.o.c.toNat then 19
    else if c.st == .revoked then 20 + 256 * c.cause
    else 0

def State.engOp? (s : State) (id : Nat) : Option EngOp := s.eng.find? (·.id == id)

/-- d of every thread of the path, written when an operation is accepted (R21). -/
def State.writeD (s : State) (e : EngOp) (v : BitVec 128) : State :=
  let f (i : Nat) (th : Thread) : Thread :=
    match e.tids.find? (·.1 == i) with
    | some (_, d) => th.putN d.toNat e.wd v
    | none => th
  s.updUnit e.unit fun u => { u with threads := u.threads.mapIdx f }

/-- Nothing accepted before on the claim is open, and the unit is not SAVED: what has not begun waits for its restoration
(R244), which a unit killed while SAVED no longer sees (R116). -/
def State.turn (s : State) (e : EngOp) (f : Instr → Bool) : Bool :=
  let saved := ((s.unit? e.unit).map (·.st == .saved)).getD false
  (s.claimOps e.ctx e.handle e.id f).isEmpty && !saved

/-- A pre-emption with no path still to run to the end of its clause: no further flow begins (R120, R244). -/
def UnitSt.stopping (u : UnitSt) : Bool :=
  u.preempt && u.threads.all fun th =>
    match th.st with
    | .inPath | .missing _ => false
    | .ready => th.pos.widx == 0
    | _ => true

def execFlowBegin (op : Nat) (s : State) : Out :=
  match s.engOp? op with
  | none => .next s
  | some e =>
    let stopping := ((s.unit? e.unit).map UnitSt.stopping).getD false
    if !isFlowOp e.ins || e.phase != .accepted || !s.turn e usesClaim || stopping then .next s
    else
      let st := s.flowStatus e
      if st != 0 || e.o.c == 0 then .next (s.complete e (BitVec.ofNat 128 st))
      else
        let s := (s.writeD e 0).updClaim e.ctx e.handle fun c => { c with st := .flowing }
        .next (s.updEng op fun e => { e with phase := .begun, wd := 0, claim := some e.handle })

def flowNoarv : Instr → Bool
  | .flow _ _ _ _ n => n
  | _ => false

/-- A flow's arrival, if it makes one, and its end. -/
def State.endFlow (s : State) (e : EngOp) (u : UnitSt) (c : Claim) (arrives : Bool) : State :=
  let s := if arrives then s.claimArrive u (e.tids.map (·.1)) c e.o.c.toNat else s
  (s.complete e 0).updClaim e.ctx c.h fun c => { c.ended with sev := false }

/-- The arrival word of a claim cannot be reached any more: its memory has been retired (R375). -/
def State.awLost (s : State) (ctx : Nat) (c : Claim) : Bool :=
  !c.aws && (match s.reach ctx c.aw .w 16 with
    | .ok _ => false
    | _ => true)

/-- A flow whose memory has been retired ends SEVERED, and is reported (R239, R246, R375). DEDUCED, log 25. -/
def State.loseFlow (s : State) (e : EngOp) (c : Claim) : State :=
  ((s.severFlow e c).endClaimOp e.ctx c).report { ctx := e.ctx, kind := 7, detail := c.h, addr := c.node }

/-- The poisoned line that a read of a side meets (R373). -/
def State.poisonedSide (s : State) : ClaimSide → Option Nat
  | .glob pas => s.poisoned pas
  | _ => none

/-- A flow ends: every read precedes every write; its arrival comes after every write is performed (R94, R238).
DEDUCED, log 25. -/
def execFlowEnd (op : Nat) (s : State) : Out :=
  match s.engOp? op with
  | none => .next s
  | some e =>
    match s.unit? e.unit, s.claim? e.ctx e.handle with
    | some u, some c =>
      let arrives := c.arv && !flowNoarv e.ins
      if !isFlowOp e.ins then .next s
      else if e.phase == .landed then
        .next (if s.unperformed e.held then s else if arrives && s.awLost e.ctx c then s.loseFlow e c else s.endFlow e u c arrives)
      else if e.phase != .begun then .next s
      else
        let off (i : Nat) := e.o.b.toNat / 2 ^ (32 * i) % 2 ^ 32
        let n := e.o.c.toNat
        let src := s.side u .r c.srcScr c.src (off 0) n
        let dst := s.side u .w c.dstScr c.dst (off 1) n
        if s.engineBusy u.uid src then .next s
        else if src == .lost || dst == .lost || (arrives && s.awLost e.ctx c) then .next (s.loseFlow e c)
        else
          match s.poisonedSide src with
          | some l => .next (s.consume l (some e.ctx))
          | none =>
            let s := s.fillSide e.ctx e.core src
            let id := s.nextId
            let s := s.writeSide u.uid (e.tids.map (·.1)) dst (s.readSide u src) arrives
            .next (if arrives && s.unperformed [id] then s.updEng op fun e => { e with phase := .landed, held := [id] }
              else s.endFlow e u c arrives)
    | _, _ => .next s

/-! ### RLSE, CQRY, CPIN, CUNPIN (R240 to R242) -/

def execRlse (d a : VReg) (s : State) : Out :=
  issueEng (.rlse d a) .c d 1 [dst d, src .a a] (fun _ _ _ e => .accept e id) s

def ClaimSt.code : ClaimSt → Nat
  | .claiming => 1 | .held => 2 | .flowing => 3 | .dormant => 4 | .revoked => 5

/-- The query word (R241). -/
def State.queryWord (s : State) (ctx unit h : Nat) : Nat :=
  if 4095 < h then 0x80000000
  else
    match s.claim? ctx h with
    | none => 0
    | some c =>
      if c.unit != unit then 0x80000000
      else
        let queued := (s.eng.filter fun e => e.ctx == ctx && e.handle == h && e.phase == .accepted && isFlowOp e.ins).length
        c.kind * 2 ^ 16 + (if c.st == .revoked || c.pend then c.cause else 0) * 2 ^ 12 + (if c.sev then 2 ^ 11 else 0) +
          (if c.pend then 2 ^ 10 else 0) + min queued 63 * 2 ^ 4 + c.st.code

/-- CQRY reads the entry when it enters the engine. -/
def execCqry (d a : VReg) (s : State) : Out :=
  issueEng (.cqry d a) .c d 1 [dst d, src .a a]
    (fun s v o e => .accept { e with status := s.queryWord v.u.ctx v.u.uid o.a.toNat } id) s

def execCpin (d a b : VReg) (s : State) : Out :=
  issueEng (.cpin d a b) .c d 1 [dst d, src .a a, src .b b] (fun _ _ _ e => .accept e id) s

def execCunpin (d a b : VReg) (s : State) : Out :=
  issueEng (.cunpin d a b) .c d 1 [dst d, src .a a, src .b b] (fun _ _ _ e => .accept e id) s

/-- Completion of RLSE, CQRY, CPIN and CUNPIN. -/
def State.copyDone (s : State) (e : EngOp) : State :=
  let a := e.o.a.toNat
  let n := e.o.b.toNat
  match s.unit? e.unit with
  | none => s
  | some u =>
    match e.ins with
    | .rlse .. =>
      if !s.turn e usesClaim then s
      else
        match s.claim? e.ctx a with
        | none => s.complete e 16
        | some c =>
          if c.st == .claiming then s.complete e 16
          else if c.unit != e.unit then s.complete e 17
          else ((s.dropChunks e.ctx c).freeClaim e.ctx a).complete e 0
    | .cqry .. => s.complete e (BitVec.ofNat 128 e.status)
    | .cpin .. =>
      if n != 0 && decide (u.nscr < a + n) then s.complete e 8
      else if s.framesFit u (pagesOf a n) then
        (s.updUnit u.uid fun u => { u with cpins := (u.cpins ++ pagesOf a n).eraseDups }).complete e 0
      else s.complete e 13
    | .cunpin .. =>
      if n != 0 && decide (u.nscr < a + n) then s.complete e 8
      else (s.updUnit u.uid fun u => { u with cpins := u.cpins.filter fun p => !(pagesOf a n).contains p }).complete e 0
    | _ => s

/-! ### Page changes (R243) -/

/-- The mapping of a table without a range of virtual addresses: what stands below it and above it. -/
def Map1.without (m : Map1) (c va n : Nat) : List Map1 :=
  if m.root != c || m.va + m.size ≤ va || va + n ≤ m.va then [m]
  else
    (if m.va < va then [{ m with size := va - m.va }] else []) ++
    (if va + n < m.va + m.size then
      [{ m with va := va + n, size := m.va + m.size - (va + n), ipa := m.ipa + (va + n - m.va) }] else [])

/-- The part of a mapping inside a range. -/
def Map1.within (m : Map1) (c va n : Nat) : List Map1 :=
  if m.root != c || m.va + m.size ≤ va || va + n ≤ m.va then []
  else
    let lo := max m.va va
    [{ m with va := lo, size := min (m.va + m.size) (va + n) - lo, ipa := m.ipa + (lo - m.va) }]

def State.unmapRange (s : State) (c va n : Nat) : State :=
  { s with map1 := s.map1.foldr (fun m ms => m.without (s.root1 c) va n ++ ms) [] }

/-- A stage-2 mapping without a range of intermediate addresses. -/
def Map2.without (m : Map2) (c ipa n : Nat) : List Map2 :=
  if m.root != c || m.ipa + m.size ≤ ipa || ipa + n ≤ m.ipa then [m]
  else
    (if m.ipa < ipa then [{ m with size := ipa - m.ipa }] else []) ++
    (if ipa + n < m.ipa + m.size then
      [{ m with ipa := ipa + n, size := m.ipa + m.size - (ipa + n), pa := m.pa + (ipa + n - m.ipa) }] else [])

/-- The part of a stage-2 mapping inside a range. -/
def Map2.within (m : Map2) (c ipa n : Nat) : List Map2 :=
  if m.root != c || m.ipa + m.size ≤ ipa || ipa + n ≤ m.ipa then []
  else
    let lo := max m.ipa ipa
    [{ m with ipa := lo, size := min (m.ipa + m.size) (ipa + n) - lo, pa := m.pa + (lo - m.ipa) }]

def State.unmap2Range (s : State) (c ipa n : Nat) : State :=
  { s with map2 := s.map2.foldr (fun m ms => m.without (s.root2 c) ipa n ++ ms) [] }

/-- A range mapped to physical addresses, with stage 2 in step. -/
def State.mapRange (s : State) (c va n pa : Nat) (r w x user : Bool) (world : Nat) : State :=
  let s := (s.unmapRange c va n).unmap2Range c pa n
  { s with map1 := { root := s.root1 c, va := va, size := n, ipa := pa, r := r, w := w, x := x, user := user } :: s.map1
           map2 := { root := s.root2 c, ipa := pa, size := n, pa := pa, r := true, w := true, x := true, world := world } :: s.map2 }

/-- The bytes of a moved page, and what is held of its lines, at their new addresses. -/
def State.moveBytes (s : State) (old new n : Nat) : State :=
  let inside (b a k : Nat) : Bool := decide (b ≤ a) && decide (a < b + k)
  let cells := (s.mem.filter fun c => inside old c.1 n).map fun c => (c.1 - old + new, c.2)
  let ls := (s.lines.filter fun x => inside (old / 128) x.line (n / 128)).map fun x =>
    { x with line := x.line - old / 128 + new / 128 }
  { s with mem := Memory.writeCells (s.mem.filter fun c => !inside new c.1 n) cells
           lines := ls ++ s.lines.filter fun x => !inside (new / 128) x.line (n / 128) }

/-- One mapping moved to another physical address, its bytes with it. DEDUCED, log 25. -/
def State.migrateOne (c : Nat) (pa : Nat) (s : State) (m : Map1) : State :=
  match s.map2.find? fun m2 => m2.root == s.root2 c && decide (m2.ipa ≤ m.ipa) && decide (m.ipa < m2.ipa + m2.size) with
  | none => s
  | some m2 => (s.moveBytes (m2.pa + (m.ipa - m2.ipa)) pa m.size).mapRange c m.va m.size pa m.r m.w m.x m.user m2.world

/-- The smallest page (R78); larger ones are whole numbers of it. -/
def pageSize : Nat := 4096

/-- A range of physical pages lies in device memory, or in host memory (R16, R397). -/
def onePlace (pa n : Nat) : Bool := pa % pageSize == 0 && (decide (pa + n ≤ hbmBytes) || isHost pa)

/-- A change is of whole pages (R16, R78). -/
def wholePages : PageChange → Bool
  | .unmap _ va n | .protect _ va n _ _ _ => va.toNat % pageSize == 0 && n % pageSize == 0
  | .map _ va n pa _ _ _ _ _ | .migrate _ va n pa => va.toNat % pageSize == 0 && n % pageSize == 0 && onePlace pa n
  | .unmap2 _ ipa n | .protect2 _ ipa n _ _ _ => ipa % pageSize == 0 && n % pageSize == 0
  | .migrate2 _ ipa n pa => ipa % pageSize == 0 && n % pageSize == 0 && onePlace pa n
  | .vmPages _ pa n => n % pageSize == 0 && pa % pageSize == 0 && decide (pa + n ≤ hbmBytes)
  | .grant .. | .far .. | .farKill .. => true

/-- Intermediate pages moved to other physical addresses, their bytes with them (R243). -/
def State.migrateIpa (c pa : Nat) (s : State) (m : Map2) : State :=
  let s := (s.moveBytes m.pa pa m.size).unmap2Range c m.ipa m.size
  { s with map2 := { m with pa := pa } :: s.map2 }

/-- A virtual machine's pages without a range of physical addresses. -/
def VmPage.without (m : VmPage) (pa n : Nat) : List VmPage :=
  if m.pa + m.size ≤ pa || pa + n ≤ m.pa then [m]
  else
    (if m.pa < pa then [{ m with size := pa - m.pa }] else []) ++
    (if pa + n < m.pa + m.size then [{ m with pa := pa + n, size := m.pa + m.size - (pa + n) }] else [])

/-- Pages go to the virtual machine of a world, or back to the system (R380). -/
def State.giveVm (s : State) (world pa n : Nat) : State :=
  let rest := s.vmap.foldr (fun m ms => m.without pa n ++ ms) []
  { s with vmap := if world == 0 || n == 0 then rest else { pa := pa, size := n, world := world } :: rest }

/-- The right of a context to another one's event (R348). -/
def Ctx.grant (owner name : Nat) (on : Bool) (c : Ctx) : Ctx :=
  let rest := c.grants.filter (· != (owner, name))
  { c with grants := if on then (owner, name) :: rest else rest }

/-- The change itself. -/
def State.applyChange (s : State) : PageChange → State
  | .unmap c va n => s.unmapRange c va.toNat n
  | .map c va n pa r w x user world => s.observed.mapRange c va.toNat n pa r w x user world
  | .protect c va n r w x =>
    let inside := s.map1.foldr (fun m ms => m.within (s.root1 c) va.toNat n ++ ms) []
    let s := s.unmapRange c va.toNat n
    { s with map1 := (inside.map fun m => { m with r := r, w := w, x := x }) ++ s.map1 }
  | .migrate c va n pa =>
    let inside := s.map1.foldr (fun m ms => m.within (s.root1 c) va.toNat n ++ ms) []
    inside.foldl (fun s m => s.migrateOne c (pa + (m.va - va.toNat)) m) s.observed
  | .unmap2 c ipa n => s.unmap2Range c ipa n
  | .protect2 c ipa n r w x =>
    let inside := s.map2.foldr (fun m ms => m.within (s.root2 c) ipa n ++ ms) []
    let s := s.unmap2Range c ipa n
    { s with map2 := (inside.map fun m => { m with r := r, w := w, x := x }) ++ s.map2 }
  | .migrate2 c ipa n pa =>
    let inside := s.map2.foldr (fun m ms => m.within (s.root2 c) ipa n ++ ms) []
    inside.foldl (fun s m => s.migrateIpa c (pa + (m.ipa - ipa)) m) s.observed
  | .vmPages w pa n => s.giveVm w pa n
  | .grant c owner name on => s.updCtx c (Ctx.grant owner name on)
  | .far .. | .farKill .. => s

/-- Whether a claim needs an access to a byte range of its context: source read, destination and arrival word write. -/
def Claim.uses (c : Claim) (va n : Nat) (r w : Bool) : Bool :=
  let meets (b : DWord) (k : Nat) : Bool := decide (b.toNat < va + n) && decide (va < b.toNat + k)
  (r && c.srcScr == some false && meets c.src c.len) || (w && c.dstScr == some false && meets c.dst c.len) ||
  (w && c.awLocal && !c.aws && meets c.aw 16)

/-- Whether a claim on this node's own memory needs an access to a range through its remote sides (R293). -/
def State.usesFar (s : State) (c : Claim) (va n : Nat) (r w : Bool) : Bool :=
  s.ownRoute c && c.remote.any fun x =>
    (if x.2.2 == .r then r else w) && decide (x.1.toNat < va + n) && decide (va < x.1.toNat + x.2.1)

/-- Contexts that translate by the stage-1 table of a context, and by its stage-2 table (R368). -/
def State.sharers1 (s : State) (c : Nat) : List Ctx := s.ctxs.filter fun x => s.root1 x.ctx == s.root1 c
def State.sharers2 (s : State) (c : Nat) : List Ctx := s.ctxs.filter fun x => s.root2 x.ctx == s.root2 c

/-- Claims of a context that pin a changed range of this node. -/
def State.hitsOf (s : State) (x : Ctx) (va n cause : Nat) (r w : Bool) : List (Nat × Nat × Claim) :=
  (x.claims.filter fun c => c.pins && (c.uses va n r w || s.usesFar c va n r w)).map fun c => (x.ctx, cause, c)

/-- Claims that pin a range of the stage-1 table of a context. -/
def State.localHits (s : State) (c va n cause : Nat) (r w : Bool) : List (Nat × Nat × Claim) :=
  (s.sharers1 c).foldr (fun x hs => s.hitsOf x va n cause r w ++ hs) []

/-- A claim whose remote side names a node, and needs there an access that is taken away (R293). -/
def State.usesAt (s : State) (c : Claim) (node va n : Nat) (r w : Bool) : Bool :=
  !s.ownRoute c && c.farNode == node && c.remote.any fun x =>
    (if x.2.2 == .r then r else w) && decide (x.1.toNat < va + n) && decide (va < x.1.toNat + x.2.1)

/-- Virtual ranges of a context that stage 1 maps into a range of intermediate addresses. -/
def State.vasOf (s : State) (c ipa n : Nat) : List (Nat × Nat) :=
  (s.map1.filter fun m => m.root == s.root1 c && decide (m.ipa < ipa + n) && decide (ipa < m.ipa + m.size)).map fun m =>
    let lo := max m.ipa ipa
    (m.va + (lo - m.ipa), min (m.ipa + m.size) (ipa + n) - lo)

/-- Claims that pin a range of the stage-2 table of a context, through whatever virtual addresses. -/
def State.localHits2 (s : State) (c ipa n cause : Nat) (r w : Bool) : List (Nat × Nat × Claim) :=
  (s.sharers2 c).foldr (fun x hs => (s.vasOf x.ctx ipa n).foldr (fun y hs => s.hitsOf x y.1 y.2 cause r w ++ hs) [] ++ hs) []

/-- Claims that a change meets, by context, with the cause of their revocation (R236, R243). -/
def State.pageHits (s : State) : PageChange → List (Nat × Nat × Claim)
  | .unmap c va n => s.localHits c va.toNat n 1 true true
  | .migrate c va n _ => s.localHits c va.toNat n 2 true true
  | .protect c va n r w _ => s.localHits c va.toNat n 1 (!r) (!w)
  | .map c va n _ _ _ _ _ _ => s.localHits c va.toNat n 2 true true
  | .unmap2 c ipa n => s.localHits2 c ipa n 1 true true
  | .protect2 c ipa n r w _ => s.localHits2 c ipa n 1 (!r) (!w)
  | .migrate2 c ipa n _ => s.localHits2 c ipa n 2 true true
  | .far node job va n cause r w =>
    match s.jobCtx job with
    | none => []
    | some t => (t.claims.filter fun x => x.pins && s.usesAt x node va.toNat n r w).map fun x => (t.ctx, cause, x)
  | .vmPages .. | .grant .. | .farKill .. => []

/-- Claims of a job that name a node lose their route there; a DORMANT one finds it gone when it is reserved again (R296). -/
def State.loseNode (s : State) (node job : Nat) : State :=
  match s.jobCtx job with
  | none => s
  | some t =>
    (t.claims.filter fun c => c.pins && c.isFabric && !s.ownRoute c && c.farNode == node).foldl (fun s c => s.cutRoute t.ctx c) s

/-- Engine writes of a context's units that are still to be performed under the old translation. -/
def State.engineWrites (s : State) : Bool :=
  s.ops.any fun o => (match o.kind with
    | .engine .. | .earrive .. => true
    | _ => false) && !o.done

/-- The contexts whose translations a change on this node alters, each with its virtual ranges; and the accesses taken away. -/
def State.changed (s : State) : PageChange → List (Nat × List (Nat × Nat)) × Bool × Bool
  | .unmap c va n | .migrate c va n _ | .map c va n _ _ _ _ _ _ => ((s.sharers1 c).map fun x => (x.ctx, [(va.toNat, n)]), true, true)
  | .protect c va n r w _ => ((s.sharers1 c).map fun x => (x.ctx, [(va.toNat, n)]), !r, !w)
  | .unmap2 c ipa n | .migrate2 c ipa n _ => ((s.sharers2 c).map fun x => (x.ctx, s.vasOf x.ctx ipa n), true, true)
  | .protect2 c ipa n r w _ => ((s.sharers2 c).map fun x => (x.ctx, s.vasOf x.ctx ipa n), !r, !w)
  | .vmPages .. | .grant .. | .far .. | .farKill .. => ([], false, false)

/-- Another node's claim that pins a changed range here: its revocation there comes before the change completes (R293). -/
def State.farPinned (s : State) (chg : PageChange) : Bool :=
  let (cs, r, w) := s.changed chg
  cs.any fun c => s.fab.far.any fun f => ((s.jobCtx f.job).map (·.ctx)) == some c.1 &&
    f.ranges.any fun x => (if x.2.2 then w else r) && c.2.any fun y => decide (x.1.toNat < y.1 + y.2) && decide (y.1 < x.1.toNat + x.2.1)

/-- PAGE_UNMAP: claims that pin the page are revoked; a change on this node waits for flows in progress on them, for what
they have written to be performed, and for the revocation of other nodes' claims. -/
def execPageUnmap (chg : PageChange) (s : State) : Out :=
  match chg with
  | .farKill node job => .next (s.loseNode node job)
  | _ =>
    if !wholePages chg then .next s
    else
      let hit := s.pageHits chg
      let far := match chg with
        | .far .. => true
        | _ => false
      let s := hit.foldl (fun s x => s.revokeClaim x.1 x.2.1 x.2.2) s
      if !far && (s.engineWrites || s.farPinned chg || hit.any fun x => s.inProgress x.1 x.2.2.h) then
        .next { s with agenda := s.agenda ++ [.pageUnmap chg] }
      else .next ((s.applyChange chg).settleLaunches)

end Sys2Proof.Machine
end

