-- ==== Sys2Proof/Machine/Float.lean ====
section
/-! DEFINITION. The floating-point instructions (R136 to R143): operands under their modifiers and the flush-mode
word, exact values rounded once, and the bounded free patterns of the approximated functions. -/

namespace Sys2Proof.Machine

/-- Operands a, b, c of element j under the modifiers (R136). -/
def fopA (t : Ty) (m : FMods) (th : Thread) (o : Opnds) (j : Nat) : Val :=
  operand t th.fi m.absa m.nega (elemN t.width o.a j)
def fopB (t : Ty) (m : FMods) (th : Thread) (o : Opnds) (j : Nat) : Val :=
  operand t th.fi m.absb m.negb (elemN t.width o.b j)
def fopC (t : Ty) (m : FMods) (th : Thread) (o : Opnds) (j : Nat) : Val :=
  operand t th.fi false m.negc (elemN t.width o.c j)

/-- The thread's rounding under a selection (R59, R60). -/
def Thread.rm (th : Thread) (r : Rnd) : RM := resolve th.rmode th.rng r

/-- Each element's exact value, rounded once (R61, R62). -/
def floatT (t : Ty) (m : FMods) (th : Thread) (f : RM → Nat → Val) : BitVec 128 :=
  mapT t fun j => result t th.fo (th.rm m.rnd) m.sat (f (th.rm m.rnd) j)

def faddV (t : Ty) (m : FMods) (th : Thread) (o : Opnds) : BitVec 128 :=
  floatT t m th fun rm j => Val.add rm (fopA t m th o j) (fopB t m th o j)
def fsubV (t : Ty) (m : FMods) (th : Thread) (o : Opnds) : BitVec 128 :=
  floatT t m th fun rm j => Val.add rm (fopA t m th o j) (fopB t m th o j).neg
def fmulV (t : Ty) (m : FMods) (th : Thread) (o : Opnds) : BitVec 128 :=
  floatT t m th fun _ j => Val.mul (fopA t m th o j) (fopB t m th o j)
def ffmaV (t : Ty) (m : FMods) (th : Thread) (o : Opnds) : BitVec 128 :=
  floatT t m th fun rm j => Val.add rm (Val.mul (fopA t m th o j) (fopB t m th o j)) (fopC t m th o j)
def fdivV (t : Ty) (m : FMods) (th : Thread) (o : Opnds) : BitVec 128 :=
  floatT t m th fun _ j => Val.div (fopA t m th o j) (fopB t m th o j)
def fsqrtV (t : Ty) (m : FMods) (th : Thread) (o : Opnds) : BitVec 128 :=
  floatT t m th fun _ j => Val.sqrt (fopA t m th o j)
/-- R138: an operand value, unrounded. -/
def fminV (t : Ty) (m : FMods) (th : Thread) (o : Opnds) : BitVec 128 :=
  floatT t m th fun _ j => Val.min2 (fopA t m th o j) (fopB t m th o j)
def fmaxV (t : Ty) (m : FMods) (th : Thread) (o : Opnds) : BitVec 128 :=
  floatT t m th fun _ j => Val.max2 (fopA t m th o j) (fopB t m th o j)
def fcmpV (t : Ty) (c : Cond) (m : FMods) (th : Thread) (o : Opnds) : BitVec 128 :=
  condT t fun j => floatCond c (fopA t m th o j) (fopB t m th o j)
def frndV (t : Ty) (m : FMods) (th : Thread) (o : Opnds) : BitVec 128 :=
  floatT t m th fun rm j => Val.roundInt rm (fopA t m th o j)

def execFadd (t : Ty) (d a b : VReg) (m : FMods) (s : State) : Out :=
  lane [tdst t d, tsrc .a t a, tsrc .b t b] (fun o th => th.putT t d (faddV t m th o)) s

def execFsub (t : Ty) (d a b : VReg) (m : FMods) (s : State) : Out :=
  lane [tdst t d, tsrc .a t a, tsrc .b t b] (fun o th => th.putT t d (fsubV t m th o)) s

def execFmul (t : Ty) (d a b : VReg) (m : FMods) (s : State) : Out :=
  lane [tdst t d, tsrc .a t a, tsrc .b t b] (fun o th => th.putT t d (fmulV t m th o)) s

def execFfma (t : Ty) (d a b c : VReg) (m : FMods) (s : State) : Out :=
  lane [tdst t d, tsrc .a t a, tsrc .b t b, tsrc .c t c] (fun o th => th.putT t d (ffmaV t m th o)) s

def execFmin (t : Ty) (d a b : VReg) (m : FMods) (s : State) : Out :=
  lane [tdst t d, tsrc .a t a, tsrc .b t b] (fun o th => th.putT t d (fminV t m th o)) s

def execFmax (t : Ty) (d a b : VReg) (m : FMods) (s : State) : Out :=
  lane [tdst t d, tsrc .a t a, tsrc .b t b] (fun o th => th.putT t d (fmaxV t m th o)) s

/-- FCMP; d is one register. -/
def execFcmp (t : Ty) (d a b : VReg) (c : Cond) (m : FMods) (s : State) : Out :=
  lane [dst d, tsrc .a t a, tsrc .b t b] (fun o th => th.putN d.toNat 1 (fcmpV t c m th o)) s

def execFdiv (t : Ty) (d a b : VReg) (m : FMods) (s : State) : Out :=
  lane [tdst t d, tsrc .a t a, tsrc .b t b] (fun o th => th.putT t d (fdivV t m th o)) s

def execFsqrt (t : Ty) (d a : VReg) (m : FMods) (s : State) : Out :=
  lane [tdst t d, tsrc .a t a] (fun o th => th.putT t d (fsqrtV t m th o)) s

def execFrnd (t : Ty) (d a : VReg) (m : FMods) (s : State) : Out :=
  lane [tdst t d, tsrc .a t a] (fun o th => th.putT t d (frndV t m th o)) s

/-! ### Approximated functions (R139) -/

/-- An approximated function of each element: its operand's pattern after flush, absolute value and negation decides
the result. -/
def approxV (t : Ty) (m : FMods) (f : Fmt → Bool → Nat → Val → Nat) (th : Thread) (o : Opnds) : BitVec 128 :=
  mapT t fun j =>
    let v := fopA t m th o j
    (fmtOf t).flush (th.fo && flushes t) (f (fmtOf t) m.sat ((fmtOf t).round .rne false v) v)

/-- FRCP; of `.f64`, correctly rounded (R137). -/
def frcpV (t : Ty) (m : FMods) (th : Thread) (o : Opnds) : BitVec 128 :=
  if t == .f64 then floatT t m th fun _ j => Val.div (.fin false 1 0) (fopA t m th o j) else approxV t m approxRcp th o

def execFrcp (t : Ty) (d a : VReg) (m : FMods) (s : State) : Out :=
  lane [tdst t d, tsrc .a t a] (fun o th => th.putT t d (frcpV t m th o)) s

def execFrsq (t : Ty) (d a : VReg) (m : FMods) (s : State) : Out :=
  lane [tdst t d, tsrc .a t a] (fun o th => th.putT t d (approxV t m approxRsq th o)) s

def execFexp2 (t : Ty) (d a : VReg) (m : FMods) (s : State) : Out :=
  lane [tdst t d, tsrc .a t a] (fun o th => th.putT t d (approxV t m approxExp2 th o)) s

def execFlog2 (t : Ty) (d a : VReg) (m : FMods) (s : State) : Out :=
  lane [tdst t d, tsrc .a t a] (fun o th => th.putT t d (approxV t m approxLog2 th o)) s

def execFsin (t : Ty) (d a : VReg) (m : FMods) (s : State) : Out :=
  lane [tdst t d, tsrc .a t a] (fun o th => th.putT t d (approxV t m (fun f _ => approxSin f) th o)) s

def execFcos (t : Ty) (d a : VReg) (m : FMods) (s : State) : Out :=
  lane [tdst t d, tsrc .a t a] (fun o th => th.putT t d (approxV t m (fun f _ => approxCos f) th o)) s

def execFtanh (t : Ty) (d a : VReg) (m : FMods) (s : State) : Out :=
  lane [tdst t d, tsrc .a t a] (fun o th => th.putT t d (approxV t m (fun f _ => approxTanh f) th o)) s

/-! ### Conversions (R140 to R143) -/

/-- FSCALE: a × 2^n, n from V(b), rounded once (R140). -/
def fscaleV (t : Ty) (m : FMods) (th : Thread) (o : Opnds) : BitVec 128 :=
  floatT t m th fun _ j =>
    Val.scale (fopA t m th o j) (if t.lanes == 1 then toSigned 32 o.b.toNat else toSigned 16 (elemN 16 o.b j))

/-- FSCALE; for `.f64` too, b is one register. -/
def execFscale (t : Ty) (d a b : VReg) (m : FMods) (s : State) : Out :=
  lane [tdst t d, tsrc .a t a, src .b b] (fun o th => th.putT t d (fscaleV t m th o)) s

/-- The source value of FCVT and FTOI: the element or byte that sel names (R141). -/
def selected (t : Ty) (sel : BitVec 2) (v : BitVec 128) : Nat :=
  match t with
  | .e4m3 | .e5m2 => elemN 8 v sel.toNat
  | .bf16x2 | .f16x2 => elemN 16 v sel.toNat
  | _ => elemN t.width v 0

/-- FCVT's results (R141): the value for d, and G after the conversions that selected SR. -/
def fcvtV (t dty : Ty) (m : FMods) (th : Thread) (o : Opnds) : BitVec 128 × Word :=
  let a := operand t th.fi m.absa m.nega (selected t m.sel o.a)
  let b := operand t th.fi m.absb m.negb (selected t m.sel o.b)
  let one (g : Word) (v : Val) : Nat := result dty th.fo (resolve th.rmode g m.rnd) m.sat v
  let g1 := if m.rnd == .sr then lfsr th.rng else th.rng
  match dty with
  | .bf16x2 | .f16x2 => (BitVec.ofNat 128 (one th.rng a + 2 ^ 16 * one g1 b), if m.rnd == .sr then lfsr g1 else g1)
  | .e4m3 | .e5m2 =>
    let i := m.sel.toNat
    let old := o.d.toNat
    (BitVec.ofNat 128 (old - elemN 8 o.d i * 2 ^ (8 * i) + one th.rng a * 2 ^ (8 * i)), g1)
  | _ => (BitVec.ofNat 128 (one th.rng a), g1)

/-- FCVT: an 8-bit destination keeps the other bytes of d; a packed one converts element 1 from b. -/
def execFcvt (t dty : Ty) (d a b : VReg) (m : FMods) (s : State) : Out :=
  lane ((if dty.byteFloat then srcDst d else tdst dty d) :: tsrc .a t a ::
      (if dty.packedFloat then [tsrc .b t b] else []))
    (fun o th => let r := fcvtV t dty m th o; ({ th with rng := r.2 } : Thread).putT dty d r.1) s

/-- FTOI (R142, R63). -/
def ftoiV (t dty : Ty) (m : FMods) (th : Thread) (o : Opnds) : BitVec 128 :=
  let v := operand t th.fi false false (selected t m.sel o.a)
  BitVec.ofNat 128 (wrap dty.width
    (Val.toInt (th.rm m.rnd) (loOf dty.isSigned dty.width) (hiOf dty.isSigned dty.width) v))

def execFtoi (t dty : Ty) (d a : VReg) (m : FMods) (s : State) : Out :=
  lane [tdst dty d, tsrc .a t a] (fun o th => th.putT dty d (ftoiV t dty m th o)) s

/-- ITOF (R142, R61). -/
def itofV (t dty : Ty) (m : FMods) (th : Thread) (o : Opnds) : BitVec 128 :=
  BitVec.ofNat 128 (result dty th.fo (th.rm m.rnd) false (Val.ofInt (elemI t o.a 0)))

def execItof (t dty : Ty) (d a : VReg) (m : FMods) (s : State) : Out :=
  lane [tdst dty d, tsrc .a t a] (fun o th => th.putT dty d (itofV t dty m th o)) s

/-- FCLASS ignores fi; for `.f32` and `.f64` d is one register (R143). -/
def execFclass (t : Ty) (d a : VReg) (s : State) : Out :=
  lane [dst d, tsrc .a t a]
    (fun o th => th.putN d.toNat 1 (mapT t fun j => classMask (fmtOf t) (elemN t.width o.a j))) s

end Sys2Proof.Machine
end

