-- ==== Sys2Proof/Machine/CrossLane.lean ====
section
/-! DEFINITION. The cross-lane instructions (R152 to R156): threads of the issuing path, addressed by slot. -/

namespace Sys2Proof.Machine

/-- Operand a by slot, of the threads that take part (R152). -/
def slotA (v : View) (ps : Parts) : List (Nat × BitVec 128) := ps.map fun x => (v.b.slotOf x.1, x.2.2.a)
def slotVal (v : View) (ps : Parts) (j : Nat) : Option (BitVec 128) := ((slotA v ps).find? (·.1 == j)).map (·.2)

/-- A cross-lane instruction: each thread's result from its slot, its own operands and everybody's. -/
def cross (us : List RegUse) (d : VReg) (n : Nat) (f : View → Parts → Nat → Thread → Opnds → BitVec 128) (s : State) : Out :=
  issue {} us (fun _ v ps t th o => .ok (th.putN d.toNat n (f v ps (v.b.slotOf t) th o)) none []) s

/-- The source slot of SHFL; none outside 0 to 31 (R153). -/
def shflSlot (mode : ShMode) (i n : Nat) : Option Nat :=
  match mode with
  | .idx => if n < 32 then some n else none
  | .up => if n ≤ i then some (i - n) else none
  | .down => if i + n < 32 then some (i + n) else none
  | .xor => if i ^^^ n < 32 then some (i ^^^ n) else none

/-- SHFL; b is one register under code 2 too (R153). DESIGN CHOICE, log 59. -/
def execShfl (t : Ty) (d a b : VReg) (mode : ShMode) (imm : Bool) (off : BitVec 5) (s : State) : Out :=
  cross (tdst t d :: tsrc .a t a :: (if imm then [] else [src .b b])) d t.regs
    (fun v ps i _ o =>
      (((shflSlot mode i (if imm then off.toNat else o.b.toNat)).bind (slotVal v ps))).getD o.a) s

/-- The mask of slots that satisfy a test. -/
def slotMask (xs : List (Nat × BitVec 128)) (f : BitVec 128 → Bool) : Nat :=
  xs.foldl (fun m x => if f x.2 then m + 2 ^ x.1 else m) 0

def voteV (mode : VoteMode) (xs : List (Nat × BitVec 128)) : Nat :=
  match mode with
  | .all => if xs.all (·.2 != 0) then 1 else 0
  | .any => if xs.any (·.2 != 0) then 1 else 0
  | .ballot => slotMask xs (· != 0)
  | .count => (xs.filter (·.2 != 0)).length

def execVote (d a : VReg) (mode : VoteMode) (s : State) : Out :=
  cross [dst d, src .a a] d 1 (fun v ps _ _ _ => BitVec.ofNat 128 (voteV mode (slotA v ps))) s

/-- MATCH; d is one register (R154). -/
def execVmatch (t : Ty) (d a : VReg) (all : Bool) (s : State) : Out :=
  cross [dst d, tsrc .a t a] d 1
    (fun v ps _ _ o =>
      let xs := slotA v ps
      if all then (if xs.all (·.2 == o.a) then 1 else 0) else BitVec.ofNat 128 (slotMask xs (· == o.a))) s

/-- ELECT (R154). -/
def execElect (d a : VReg) (nz : Bool) (s : State) : Out :=
  cross (dst d :: (if nz then [src .a a] else [])) d 1
    (fun v ps i _ _ =>
      let xs := slotA v ps
      let winner := if nz then (xs.find? (·.2 != 0)).map (·.1) else xs.head?.map (·.1)
      if winner == some i then 1 else 0) s

/-- BCAST (R154). -/
def execBcast (t : Ty) (d a : VReg) (fixed : Bool) (slot : BitVec 5) (s : State) : Out :=
  cross [tdst t d, tsrc .a t a] d t.regs
    (fun v ps _ _ o => (if fixed then slotVal v ps slot.toNat else (slotA v ps).head?.map (·.2)).getD o.a) s

/-! ### RED and SCAN (R75, R155, R156) -/

/-- The identity of an operation, as a pattern. -/
def redIdent (t : Ty) (op : RedOp) : Nat :=
  if t.float then
    match op with
    | .min => (fmtOf t).signed false (fmtOf t).infCode
    | .max => (fmtOf t).signed true (fmtOf t).infCode
    | _ => (fmtOf t).signed true 0
  else
    match op with
    | .and => 2 ^ t.width - 1
    | .min => wrap t.width (hiOf t.isSigned t.width)
    | .max => wrap t.width (loOf t.isSigned t.width)
    | _ => 0

/-- One combination, the left operand first: exact modulo 2^w, or one float operation under the elected lane's words. -/
def combine (t : Ty) (op : RedOp) (rm : RM) (fi fo : Bool) (x y : Nat) : Nat :=
  if t.float then
    let f := fmtOf t
    let ident := redIdent t op
    let rd (z : Nat) : Val := f.dec (if z == ident then z else f.flush (fi && flushes t) z)
    let v := match op with
      | .min => Val.min2 (rd x) (rd y)
      | .max => Val.max2 (rd x) (rd y)
      | _ => Val.add rm (rd x) (rd y)
    f.flush (fo && flushes t) (f.round rm false v)
  else
    let a := readInt t.isSigned t.width x
    let b := readInt t.isSigned t.width y
    match op with
    | .add => wrap t.width (a + b)
    | .min => wrap t.width (min a b)
    | .max => wrap t.width (max a b)
    | .and => x &&& y
    | .or => x ||| y
    | .xor => x ^^^ y

/-- The 32 slots' values with identities for those that do not take part, flushed under fi. -/
def slotValues (t : Ty) (op : RedOp) (fi : Bool) (v : View) (ps : Parts) : List Nat :=
  (List.range 32).map fun j =>
    match slotVal v ps j with
    | some x => if t.float then (fmtOf t).flush (fi && flushes t) (low t.width x.toNat) else low t.width x.toNat
    | none => redIdent t op

/-- Adjacent pairs combined, lower index on the left. -/
def level (f : Nat → Nat → Nat) : List Nat → List Nat
  | x :: y :: rest => f x y :: level f rest
  | xs => xs

/-- The fixed tree of five levels (R75). -/
def tree (f : Nat → Nat → Nat) (xs : List Nat) : Nat := (level f (level f (level f (level f (level f xs))))).headD 0

/-- The words that RED and SCAN use: the elected lane's (R152). -/
def electedWords (ps : Parts) (rnd : Rnd) : RM × Bool × Bool :=
  let th := (ps.headD (0, { regs := [] }, {})).2.1
  (th.rm rnd, th.fi, th.fo)

def redV (t : Ty) (op : RedOp) (rnd : Rnd) (v : View) (ps : Parts) : Nat :=
  let (rm, fi, fo) := electedWords ps rnd
  tree (combine t op rm fi fo) (slotValues t op fi v ps)

def execRed (t : Ty) (d a : VReg) (op : RedOp) (rnd : Rnd) (s : State) : Out :=
  cross [tdst t d, tsrc .a t a] d t.regs (fun v ps _ _ _ => BitVec.ofNat 128 (redV t op rnd v ps)) s

/-- One step of the scan: every slot i ≥ k takes x[i − k] ⊕ x[i], at once (R156). -/
def scanStep (f : Nat → Nat → Nat) (k : Nat) (xs : List Nat) : List Nat :=
  xs.mapIdx fun i x => if k ≤ i then f (xs.getD (i - k) 0) x else x

def scanV (t : Ty) (op : RedOp) (rnd : Rnd) (excl : Bool) (v : View) (ps : Parts) (i : Nat) : Nat :=
  let (rm, fi, fo) := electedWords ps rnd
  let xs := [1, 2, 4, 8, 16].foldl (fun xs k => scanStep (combine t op rm fi fo) k xs) (slotValues t op fi v ps)
  if excl then (if i == 0 then redIdent t op else xs.getD (i - 1) 0) else xs.getD i 0

def execScan (t : Ty) (d a : VReg) (op : RedOp) (rnd : Rnd) (excl : Bool) (s : State) : Out :=
  cross [tdst t d, tsrc .a t a] d t.regs (fun v ps i _ _ => BitVec.ofNat 128 (scanV t op rnd excl v ps i)) s

end Sys2Proof.Machine
end

