-- ==== Sys2Proof/Machine/Slices.lean ====
section
/-! DEFINITION. Unit barriers (R179) and stack slices (R163 to R168). -/

namespace Sys2Proof.Machine

/-! ### BAR -/

/-- One arrival at barrier `id`: the unit after it, the arrivals of the path that still wait, and what those that wait no
more take over from the phases that they completed. -/
def barArrive (know : Nat → List Nat) (id count : Nat) (x : UnitSt × List Nat × List Nat) (t : Nat) : UnitSt × List Nat × List Nat :=
  let b := x.1.bars.getD id {}
  let b' : Bar := { arrived := b.arrived ++ [t], need := if b.arrived.isEmpty then count else b.need, deps := know t ++ b.deps }
  if x.1.barDone b' then
    ({ x.1 with bars := x.1.bars.set id {}, threads := x.1.threads.map (Thread.leaveBar id b'.deps) }, [], b'.deps ++ x.2.2)
  else ({ x.1 with bars := x.1.bars.set id b' }, x.2.1 ++ [t], x.2.2)

/-- The arrivals of a path, in slot order. -/
def barAll (know : Nat → List Nat) (id count : Nat) (u : UnitSt) (ts : List Nat) : UnitSt × List Nat × List Nat :=
  ts.foldl (barArrive know id count) (u, [], [])

/-- BAR: a release at unit scope; a `.sync` thread waits for the completion of its phase. -/
def execBar (id : BitVec 4) (arrive : Bool) (count : BitVec 11) (s : State) : Out :=
  settled s (issueWith {} []
    (fun s v ps t th _ =>
      let r := barAll (s.known v.u.uid) id.toNat count.toNat v.u (ps.map (·.1))
      if ps.any fun x => !s.released v.u.uid x.1 .unit s.nextId then .stall
      else if !arrive && r.2.1.contains t then .ok { th with st := .waiting (.bar id.toNat) } none []
      else if arrive then .ok th none []
      else .ok { th with seen := r.2.2 ++ th.seen } none [])
    (fun v ps s => s.setUnit (barAll (s.known v.u.uid) id.toNat count.toNat v.u (ps.map (·.1))).1) s)

/-! ### Slices -/

/-- MARK: a delimiter frame whose return PC is the resume header (R164). -/
def execMark (off : BitVec 16) (s : State) : Out :=
  issue {} []
    (fun _ v _ _ th _ =>
      match privBad v.u.npriv th.sp 4 with
      | some i => .trap (privTrap v.u.npriv i)
      | none => .ok (th.push ((v.p.hdr + 8 * off.signExtend 56 : Pc).setWidth 64) 1) none []) s

def sliceTrap (sub : Nat) (h : Word) : Trap := { cause := .slice, sub := sub, info := h }

/-- CUT's walk from frame base `f` (R166): the base of the delimiter's frame. `links` is how many links it may still
follow. -/
def cutWalk (p : Nat) (th : Thread) : Nat → Word → Except Trap Word
  | links, f =>
    if f.toNat < 4 then .error (sliceTrap 1 0)
    else
      match privBad p (f - 4) 4 with
      | some i => .error (privTrap p i)
      | none =>
        if (th.pw (f - 1)).getLsbD 0 then .ok f
        else
          match links with
          | 0 | 1 => .error (sliceTrap 1 0)
          | n + 1 => cutWalk p th n (f + th.pw (f - 2))

/-- Bytes that a slice occupies (R165). -/
def Slice.bytes (x : Slice) : Nat := (64 + 4 * (x.words.length + x.carried.length) + 63) / 64 * 64

def Ctx.genOf (c : Ctx) (slot : Nat) : BitVec 12 := ((c.gens.find? (·.1 == slot)).map (·.2)).getD 0

/-- The next free slot of the heap, in rotation. -/
def freeSlotFrom (used : List Nat) (k : Nat) : Nat → Option Nat
  | 0 => none
  | n + 1 => if used.contains (k % 1024) then freeSlotFrom used (k + 1) n else some (k % 1024)

def Ctx.freeSlot (c : Ctx) : Option Nat := freeSlotFrom (c.slices.map (·.slot)) c.nextSlot 1024

/-- The heap takes one more slice of so many bytes: it has room while the slices' sizes together are within its size, wherever
they lie in it. DESIGN CHOICE, log 57. -/
def Ctx.heapFits (c : Ctx) (n : Nat) : Bool :=
  decide (c.slices.foldl (fun k x => k + x.bytes) 0 + n ≤ 1024 * c.desc.heapsz.toNat)

def handleOf (ctx slot : Nat) (gen : BitVec 12) : Word := BitVec.ofNat 10 ctx ++ BitVec.ofNat 10 slot ++ gen

/-- Private words of a thread from index `i`. -/
def Thread.pws (th : Thread) (i : Word) (n : Nat) : List Word := (List.range n).map fun k => th.pw (i + BitVec.ofNat 32 k)
def Thread.setPws (th : Thread) (i : Word) (ws : List Word) : Thread :=
  ws.zipIdx.foldl (fun t x => t.setPw (i + BitVec.ofNat 32 x.2) x.1) th

/-- CUT of one thread (R166): the context with the slice, and what happens to the thread. -/
def cutOne (v : View) (d a : VReg) (n : Nat) (c : Ctx) (th : Thread) : Ctx × TRes :=
  let p := v.u.npriv
  match cutWalk p th p th.fp with
  | .error t => (c, .trap t)
  | .ok f =>
    let b := f - 4
    if th.sp.toNat < f.toNat then (c, .trap (sliceTrap 1 0))
    else if p < th.sp.toNat then (c, .trap (privTrap p (BitVec.ofNat 32 p)))
    else
      let ws := th.pws b (th.sp - b).toNat
      let x : Slice := { slot := 0, words := ws, fpOff := (th.fp - b).toNat, resume := v.p.nextHeader.setWidth 56
                         dreg := d, a0 := a, carried := (List.range n).map fun i => th.reg (a.toNat + i) }
      match c.freeSlot with
      | none => (c, .trap (sliceTrap 2 0))
      | some slot =>
        if !c.heapFits x.bytes then (c, .trap (sliceTrap 2 0))
        else
          ({ c with slices := c.slices ++ [{ x with slot := slot }], nextSlot := (slot + 1) % 1024 },
           .ok ({ th with sp := b, fp := f + th.pw (f - 2) }.put d.toNat (handleOf c.ctx slot (c.genOf slot)))
             (some (th.retPc f)) [])

/-- One thread after another, in slot order, on the context's slices. -/
def sliceFold (f : Ctx → Thread → Opnds → Ctx × TRes) (c : Ctx) : Parts → Ctx × List (Nat × TRes)
  | [] => (c, [])
  | (t, th, o) :: ps =>
    let r := f c th o
    let rest := sliceFold f r.1 ps
    (rest.1, (t, r.2) :: rest.2)

/-- A slice instruction that changes the heap: threads act in slot order. -/
def sliceIssue (us : List RegUse) (f : View → Ctx → Thread → Opnds → Ctx × TRes) (s : State) : Out :=
  issueWith {} us
    (fun s v ps t _ _ =>
      (((sliceFold (f v) ((s.ctx? v.u.ctx).getD { ctx := v.u.ctx }) ps).2.find? (·.1 == t)).map (·.2)).getD .stall)
    (fun v ps s => s.updCtx v.u.ctx fun c => (sliceFold (f v) c ps).1) s

/-- CUT; its carried range is checked with its registers, and waits for those still to be written (R33, R163). -/
def execCut (d a : VReg) (n : BitVec 6) (s : State) : Out :=
  sliceIssue (dst d :: carried a n.toNat) (fun v c th _ => cutOne v d a n.toNat c th) s

/-- The slice of a live handle, or its sub-cause: 3 FOREIGN, 4 DROPPED. -/
def Ctx.slice? (c : Ctx) (h : Word) : Except Nat Slice :=
  if bits h.toNat 22 10 != c.ctx then .error 3
  else
    match c.slices.find? fun (x : Slice) => x.slot == bits h.toNat 12 10 && c.genOf x.slot == h.setWidth 12 with
    | some x => .ok x
    | none => .error 4
where bits (x lo n : Nat) : Nat := x / 2 ^ lo % 2 ^ n

/-- GRAFT of one thread (R167). A carried register or d that a bound queue covers is the register beneath the queue.
DESIGN CHOICE, log 57. -/
def graftOne (v : View) (c : Ctx) (th : Thread) (o : Opnds) : TRes :=
  let h : Word := o.a.setWidth 32
  let p := v.u.npriv
  match c.slice? h with
  | .error sub => .trap (sliceTrap sub h)
  | .ok x =>
    if decide (v.u.nregs ≤ x.dreg.toNat) || (!x.carried.isEmpty && decide (v.u.nregs < x.a0.toNat + x.carried.length)) then
      .trap (sliceTrap 5 h)
    else if p < th.sp.toNat + x.words.length then
      .trap (privTrap p (BitVec.ofNat 32 (max th.sp.toNat p)))
    else
      let base := th.sp
      let next := v.p.nextHeader
      let th := th.setPws base x.words
      let th := ((th.setPw base (next.setWidth 32)).setPw (base + 1) ((next >>> 32).setWidth 24 |>.setWidth 32)).setPw (base + 2)
        (th.fp - (base + 4))
      let th := { th with sp := base + BitVec.ofNat 32 x.words.length, fp := base + BitVec.ofNat 32 x.fpOff }
      let th := x.carried.zipIdx.foldl (fun (t : Thread) y => { t with regs := t.regs.set (x.a0.toNat + y.2) y.1 }) th
      .ok { th with regs := th.regs.set x.dreg.toNat (o.b.setWidth 32) } (some (x.resume.setWidth 64)) []

/-- Registers that a graft will write and that are still to be written stall it (R33). -/
def graftStall (s : State) (v : View) (t : Nat) (o : Opnds) : Bool :=
  match (s.ctx? v.u.ctx).map fun (c : Ctx) => c.slice? (o.a.setWidth 32) with
  | some (.ok x) => s.pending v.u.uid t x.dreg.toNat 1 || (!x.carried.isEmpty && s.pending v.u.uid t x.a0.toNat x.carried.length)
  | _ => false

def execGraft (a b : VReg) (s : State) : Out :=
  issue {} [src .a a, src .b b]
    (fun s v _ t th o =>
      if graftStall s v t o then .stall else graftOne v ((s.ctx? v.u.ctx).getD { ctx := v.u.ctx }) th o) s

/-- DROP of one thread (R168): the slot is free, and its generation advances. -/
def dropOne (c : Ctx) (th : Thread) (o : Opnds) : Ctx × TRes :=
  let h : Word := o.a.setWidth 32
  match c.slice? h with
  | .error sub => (c, .trap (sliceTrap sub h))
  | .ok x =>
    ({ c with slices := c.slices.filter (·.slot != x.slot)
              gens := (x.slot, c.genOf x.slot + 1) :: c.gens.filter (·.1 != x.slot) }, .ok th none [])

def execDrop (a : VReg) (s : State) : Out :=
  sliceIssue [src .a a] (fun _ c th o => dropOne c th o) s

end Sys2Proof.Machine
end

