-- ==== Sys2Proof/Machine/LaneMemory.lean ====
section
/-! DEFINITION. Loads and stores (R169 to R173), atomics and reservations (R174, R175), fences (R176), STB (R178) and
the arrival-word instructions (R182), at issue: each posts the accesses that its threads make. -/

namespace Sys2Proof.Machine

/-! ### Addresses and checks -/

/-- A global address (R36). -/
def gaddr (o : Opnds) (off : BitVec 22) : DWord := o.a.setWidth 64 + off.signExtend 64
/-- An address in the scratchpad window or the launch constants: the sum modulo 2^32 (log entry 12).
DEDUCED, log 12. -/
def saddr (o : Opnds) (off : BitVec 22) : Word := o.a.setWidth 32 + off.signExtend 32

def ldUses (d b : VReg) (n : Nat) (glob : Bool) : List RegUse := [dst d n, base b (if glob then 2 else 1)]
def stUses (d b : VReg) (n : Nat) (glob : Bool) : List RegUse := [src .d d n, base b (if glob then 2 else 1)]
def rmwUses (d b : VReg) (n : Nat) (glob : Bool) : List RegUse := [srcDst d n, base b (if glob then 2 else 1)]

def rangeTrap (sub lim : Nat) (addr : DWord) : Trap :=
  { cause := .spaceRange, sub := sub, info := BitVec.ofNat 32 lim, addr := addr }

/-- An issue that would raise the counter above 62 stalls; a replayed access has raised it already (R32, R199). -/
def Thread.fullFor (th : Thread) (k : CtrKind) : Bool := th.full k && th.replay != some k

/-- A global access of `n` bytes: translated for reading, writing or both, then posted. -/
def globalAccess (s : State) (v : View) (th : Thread) (k : CtrKind) (accs : List Acc) (va : DWord) (n : Nat)
    (post : List Nat → List Post) : TRes :=
  if th.fullFor k then .stall
  else
    match accs with
    | [] => .stall
    | a :: rest =>
      match s.reach v.u.ctx va a n with
      | .miss x => .miss x (some k)
      | .trap t => .trap t
      | .ok pas =>
        match rest with
        | [] => .ok th none (post pas)
        | a' :: _ =>
          match s.reach v.u.ctx va a' n with
          | .miss x => .miss x (some k)
          | .trap t => .trap t
          | .ok _ => .ok th none (post pas)

/-- As `globalAccess`, for the instructions that need natural alignment (R170). -/
def alignedAccess (s : State) (v : View) (th : Thread) (k : CtrKind) (accs : List Acc) (va : DWord) (n : Nat)
    (post : List Nat → List Post) : TRes :=
  if va.toNat % n != 0 then .trap (rangeTrap 3 0 va) else globalAccess s v th k accs va n post

/-- A scratchpad access of `n` bytes, aligned to `al`; a trap names the access's own address. DEDUCED, log 20. -/
def scratchAccess (v : View) (th : Thread) (k : CtrKind) (a : Word) (n al : Nat) (post : List Nat → List Post) : TRes :=
  if a.toNat % al != 0 then .trap (rangeTrap 3 v.u.nscr (a.setWidth 64))
  else if v.u.nscr < a.toNat + n then .trap (rangeTrap 1 v.u.nscr (a.setWidth 64))
  else if th.fullFor k then .stall
  else .ok th none (post (span a.toNat n))

/-! ### Loads and stores -/

def plainOrAcq (m : MemF) : Bool := m.ord == .plain || m.ord == .acq

def execLd (w : Width) (d : VReg) (m : MemF) (s : State) : Out :=
  issue { pro := plainOrAcq m, load := true } (ldUses d m.base w.regs true)
    (fun s v _ _ th o =>
      globalAccess s v th .l [.r] (gaddr o m.off) w.bytes fun pas =>
        [{ sp := .global, addrs := pas, va := gaddr o m.off, kind := .load d w, ord := m.ord, scope := m.scope }]) s

def execSt (w : Width) (d : VReg) (m : MemF) (s : State) : Out :=
  issue {} (stUses d m.base w.regs true)
    (fun s v _ _ th o =>
      globalAccess s v th .s [.w] (gaddr o m.off) w.bytes fun pas =>
        [{ sp := .global, addrs := pas, va := gaddr o m.off, kind := .store (leBytes w.bytes o.d.toNat)
           ord := m.ord, scope := m.scope }]) s

def execLds (w : Width) (d : VReg) (m : MemF) (s : State) : Out :=
  issue {} (ldUses d m.base w.regs false)
    (fun _ v _ _ th o =>
      scratchAccess v th .l (saddr o m.off) w.bytes 1 fun as =>
        [{ sp := .scratch, addrs := as, kind := .load d w, ord := m.ord }]) s

def execSts (w : Width) (d : VReg) (m : MemF) (s : State) : Out :=
  issue {} (stUses d m.base w.regs false)
    (fun _ v _ _ th o =>
      scratchAccess v th .s (saddr o m.off) w.bytes 1 fun as =>
        [{ sp := .scratch, addrs := as, kind := .store (leBytes w.bytes o.d.toNat), ord := m.ord }]) s

/-- The private word index of LDP and STP (R36). -/
def privIndex (th : Thread) (o : Opnds) (off : BitVec 22) (an : Anchor) (idx : Bool) : Word :=
  let b : Word := match an with
    | .fp => th.fp | .sp => th.sp | .none => 0
  b + (if idx then o.a.setWidth 32 else 0) + (off.sshiftRight 2).signExtend 32

def idxUse (b : VReg) (idx : Bool) : List RegUse := if idx then [base b 1] else []

/-- Words from a register group's value, and back. -/
def groupWords (v : BitVec 128) (n : Nat) : List Word := (List.range n).map fun i => (v >>> (32 * i)).setWidth 32
def groupOf (ws : List Word) : BitVec 128 := BitVec.ofNat 128 (ws.foldr (fun w acc => w.toNat + 2 ^ 32 * acc) 0)

/-- LDP: the words are the thread's own, and the load returns them (R169, R172). -/
def execLdp (w : Width) (d b : VReg) (off : BitVec 22) (an : Anchor) (idx : Bool) (s : State) : Out :=
  issue {} (dst d w.regs :: idxUse b idx)
    (fun _ v _ _ th o =>
      let i := privIndex th o off an idx
      match privBad v.u.npriv i w.regs with
      | some x => .trap (privTrap v.u.npriv x)
      | none =>
        if th.fullFor .l then .stall
        else .ok th none [{ sp := .scratch, addrs := [], kind := .fixed d w (groupOf (th.pws i w.regs)) }]) s

def execStp (w : Width) (d b : VReg) (off : BitVec 22) (an : Anchor) (idx : Bool) (s : State) : Out :=
  issue {} (src .d d w.regs :: idxUse b idx)
    (fun _ v _ _ th o =>
      let i := privIndex th o off an idx
      match privBad v.u.npriv i w.regs with
      | some x => .trap (privTrap v.u.npriv x)
      | none => .ok (th.setPws i (groupWords o.d w.regs)) none []) s

/-- LDK: the launch constants do not change while the launch runs (R82, R173). -/
def execLdk (w : Width) (d : VReg) (m : MemF) (s : State) : Out :=
  issue { pro := true, load := true } (ldUses d m.base w.regs false)
    (fun s v _ _ th o =>
      let a := saddr o m.off
      let consts := ((s.launch? v.u.launch).map fun (l : Launch) => l.consts).getD []
      if 4096 < a.toNat + w.bytes then .trap (rangeTrap 2 4096 (a.setWidth 64))
      else if th.fullFor .l then .stall
      else .ok th none [{ sp := .scratch, addrs := [], kind := .fixed d w (w.extend (consts.at_ a.toNat w.bytes)) }]) s

/-- PREF: the line comes into L1 with a lease; one that would fault, or whose translation is missing, is dropped. -/
def execPref (b : VReg) (off : BitVec 22) (_hint : Hint) (s : State) : Out :=
  issueWith {} [base b 2] (fun _ _ _ _ th _ => .ok th none [])
    (fun v ps s => ps.foldl (fun s x =>
      match s.reach v.u.ctx (gaddr x.2.2 off) .r 1 with
      | .ok pas => s.fetchLines v.u.ctx v.u.core pas (linesOf pas)
      | _ => s) s) s

/-! ### Atomics and reservations -/

/-- Data registers of an ATOM: the group that names them (R174). -/
def atomRegs (op : AtomOp) (wide : Bool) : Nat := (if wide then 2 else 1) * (if op == .cas then 2 else 1)

/-- First and second operand of an RMW. -/
def atomX (wide : Bool) (v : BitVec 128) : DWord := if wide then v.setWidth 64 else (v.setWidth 32).setWidth 64
def atomY (wide : Bool) (v : BitVec 128) : DWord :=
  if wide then (v >>> 64).setWidth 64 else ((v >>> 32).setWidth 32).setWidth 64

def execAtom (scr wide : Bool) (op : AtomOp) (d b : VReg) (off : BitVec 22) (ord : MOrd) (scope : Scope) (s : State) : Out :=
  issue {} (rmwUses d b (atomRegs op wide) (!scr))
    (fun s v _ _ th o =>
      let n := if wide then 8 else 4
      let k : MemKind := .atom op wide d (atomX wide o.d) (atomY wide o.d)
      if scr then
        scratchAccess v th .s (saddr o off) n n fun as => [{ sp := .scratch, addrs := as, kind := k, ord := ord }]
      else
        alignedAccess s v th .s [.r, .w] (gaddr o off) n fun pas =>
          [{ sp := .global, addrs := pas, va := gaddr o off, kind := k, ord := ord, scope := scope }]) s

def execLr (wide : Bool) (d : VReg) (m : MemF) (s : State) : Out :=
  issue {} (ldUses d m.base (if wide then 2 else 1) true)
    (fun s v _ _ th o =>
      alignedAccess s v th .l [.r] (gaddr o m.off) (if wide then 8 else 4) fun pas =>
        [{ sp := .global, addrs := pas, va := gaddr o m.off, kind := .lr d wide, ord := m.ord, scope := m.scope }]) s

def execSc (wide : Bool) (d : VReg) (m : MemF) (s : State) : Out :=
  issue {} (rmwUses d m.base (if wide then 2 else 1) true)
    (fun s v _ _ th o =>
      alignedAccess s v th .s [.w] (gaddr o m.off) (if wide then 8 else 4) fun pas =>
        [{ sp := .global, addrs := pas, va := gaddr o m.off, kind := .sc d wide (atomX wide o.d)
           ord := m.ord, scope := m.scope }]) s

/-! ### Fences (R89, R92, R93, R176) -/

/-- Every earlier access of the thread that reads has returned. -/
def State.readsBack (s : State) (u t : Nat) : Bool :=
  s.ops.all fun o => !(o.unit == u && o.tid == t && o.kind.dst.isSome)

/-- A fence stalls its path until a condition holds for each thread. DEDUCED, log 22. -/
def fenceIssue (ok : State → View → Nat → Thread → Bool) (s : State) : Out :=
  issue {} [] (fun s v _ t th _ => if ok s v t th then .ok th none [] else .stall) s

/-- What a FENCE orders in its core beside its waits (R89): a release half, what a reader of the thread's later writes takes
over; an acquire half, what its plain reads have taken over. -/
def State.fenced (s : State) (ord : MOrd) (scope : Scope) (u t : Nat) (th : Thread) : Thread :=
  let th := if ord.isAcq then { th with seen := s.stillOut (th.heard ++ th.seen), heard := [] } else th
  if ord.isRel then
    { th with told := s.stillOut (th.seen ++ s.ownStores u t fun _ => true), toldIn := scope == .unit && (th.told.isEmpty || th.toldIn) }
  else th

def execFence (ord : MOrd) (scope : Scope) (s : State) : Out :=
  issue {} [] (fun s v _ t th _ =>
    if s.readsBack v.u.uid t && (!ord.isRel || s.released v.u.uid t scope s.nextId) then .ok (s.fenced ord scope v.u.uid t th) none []
    else .stall) s

/-- FENCE.o2e: later engine operations of the path are held back with the path. Every earlier store is performed first,
also at unit and core scope, as engines read global memory at home slices (R91, R92). -/
def execFenceO2e (scope : Scope) (s : State) : Out :=
  fenceIssue (fun s v t _ =>
    s.readsBack v.u.uid t && s.released v.u.uid t (if scope.beyondCore then scope else .dev) s.nextId) s

/-- FENCE.e2o: DT is past the path's engine gwct, and what engines have written to the window is visible (R93). -/
def execFenceE2o (_scope : Scope) (s : State) : Out :=
  issueWith {} [] (fun s _ _ _ th _ => if th.egwct == 0 || decide (th.egwct.toNat < s.dt) then .ok th none [] else .stall)
    (fun v _ s => s.updUnit v.u.uid UnitSt.land) s

/-! ### STB (R178) -/

/-- STB: the address is checked first, then the slot's BOUND trap is taken. DESIGN CHOICE, log 69. -/
def execStb (d b : VReg) (off : BitVec 22) (ord : MOrd) (scope : Scope) (k : BitVec 6) (s : State) : Out :=
  issue {} (stUses d b 1 true)
    (fun s v _ _ th o =>
      let x : Word := o.d.setWidth 32
      let slot := s.boundOf v.u k.toNat
      let bad := (slot.map fun b => b.violates (fp32.dec x.toNat)).getD false
      let y := (slot.map fun b => BitVec.ofNat 32 (b.passF fp32 x.toNat).1).getD x
      let traps := bad && (slot.map fun b => b.action == 3).getD false
      match alignedAccess s v th .s [.w] (gaddr o off) 4 (fun pas =>
          [{ sp := .global, addrs := pas, va := gaddr o off, kind := .stb y (if bad then k.toNat else 0)
             ord := ord, scope := scope }]) with
      | .ok th' n ps => if traps then .trap { cause := .bound, sub := k.toNat, info := x, addr := gaddr o off } else .ok th' n ps
      | r => r) s

/-! ### Arrival words (R182) -/

/-- An access to the 16 bytes of an arrival word. -/
def wordAccess (scr : Bool) (k : CtrKind) (accs : List Acc) (off : BitVec 22) (ord : MOrd) (scope : Scope)
    (kind : Opnds → MemKind) (s : State) (v : View) (th : Thread) (o : Opnds) : TRes :=
  if scr then
    scratchAccess v th k (saddr o off) 16 16 fun as => [{ sp := .scratch, addrs := as, kind := kind o, ord := ord, scope := scope }]
  else
    alignedAccess s v th k accs (gaddr o off) 16 fun pas =>
      [{ sp := .global, addrs := pas, va := gaddr o off, kind := kind o, ord := ord, scope := scope }]

def execAwinit (scr : Bool) (d b : VReg) (off : BitVec 22) (ord : MOrd) (scope : Scope) (s : State) : Out :=
  issue {} (stUses d b 1 (!scr))
    (fun s v _ _ th o => wordAccess scr .s [.r, .w] off ord scope (fun o => .awinit (o.d.setWidth 32)) s v th o) s

def execAwadd (scr : Bool) (d b : VReg) (off : BitVec 22) (ord : MOrd) (scope : Scope) (s : State) : Out :=
  issue {} (stUses d b 1 (!scr))
    (fun s v _ _ th o => wordAccess scr .s [.r, .w] off ord scope (fun o => .awadd (o.d.setWidth 32)) s v th o) s

def execAwget (scr : Bool) (d b : VReg) (off : BitVec 22) (ord : MOrd) (scope : Scope) (s : State) : Out :=
  issue {} (ldUses d b 4 (!scr))
    (fun s v _ _ th o => wordAccess scr .l [.r] off ord scope (fun _ => .awget d) s v th o) s

/-- An own earlier access to these bytes, or an earlier acquire, is still outstanding (R90, R171). -/
def State.busyBytes (s : State) (u t : Nat) (sp : Space) (as : List Nat) : Bool :=
  s.ops.any fun o => o.unit == u && o.tid == t &&
    ((o.ord.isAcq && o.kind.bytes?.isNone) || (o.sp == sp && !o.done && shareByte o.addrs as))

/-- AWAIT's check at issue; afterwards each arrival checks again. -/
def awaitOne (s : State) (v : View) (t : Nat) (th : Thread) (o : Opnds) (d : VReg) (sp : Space) (va : DWord)
    (as : List Nat) (sys : Bool) : TRes :=
  if s.busyBytes v.u.uid t sp as then .stall
  else
    match s.genOf v.u sp va with
    | some g =>
      if g != o.d.setWidth 32 then .ok (th.endAwait d g (s.awaitDeps v.u sp va) sys) none []
      else .ok { th with st := .waiting (.await sp va d (o.d.setWidth 32) sys) } none []
    | none => .stall

/-- A poisoned line at the word of an AWAIT (R373). -/
def State.awaitPoison (s : State) (c : Nat) (va : DWord) : Option Nat :=
  match s.reach c va .r 16 with
  | .ok pas => s.poisoned pas
  | _ => none

/-- An AWAIT finds a new generation at its issue. -/
def State.awaitPasses (s : State) (u : UnitSt) (scr : Bool) (off : BitVec 22) (o : Opnds) : Bool :=
  match (if scr then s.genOf u .scratch ((saddr o off).setWidth 64) else s.genOf u .global (gaddr o off)) with
  | some g => g != o.d.setWidth 32
  | none => false

/-- AWAIT (R182); the thread waits while its word is poisoned, which consumes the poison (R373). At sys scope it observes what
other nodes have written before the arrivals that it sees (R94, R319). DESIGN CHOICE, log 64. -/
def execAwait (scr : Bool) (d b : VReg) (off : BitVec 22) (scope : Scope) (s : State) : Out :=
  issueWith {} (rmwUses d b 1 (!scr))
    (fun s v _ t th o =>
      let a := saddr o off
      let va := gaddr o off
      if scr then
        if a.toNat % 16 != 0 then .trap (rangeTrap 3 v.u.nscr (a.setWidth 64))
        else if v.u.nscr < a.toNat + 16 then .trap (rangeTrap 1 v.u.nscr (a.setWidth 64))
        else awaitOne s v t th o d .scratch (a.setWidth 64) (span a.toNat 16) (scope == .sys)
      else if va.toNat % 16 != 0 then .trap (rangeTrap 3 0 va)
      else
        match s.reach v.u.ctx va .r 16 with
        | .ok pas =>
          if (s.poisoned pas).isSome then .ok { th with st := .waiting (.await .global va d (o.d.setWidth 32) (scope == .sys)) } none []
          else awaitOne s v t th o d .global va pas (scope == .sys)
        | .miss x => .miss x none
        | .trap tr => .trap tr)
    (fun v ps s =>
      let s := if scope == .sys && ps.any fun x => s.awaitPasses v.u scr off x.2.2 then s.observed else s
      if scr then s else ps.foldl (fun s x =>
        match s.awaitPoison v.u.ctx (gaddr x.2.2 off) with
        | some l => s.consume l (some v.u.ctx)
        | none => s) s) s

end Sys2Proof.Machine
end

