-- ==== Sys2Proof/Machine/Streams.lean ====
section
/-! DEFINITION. Streams (R183 to R188): the pattern record, the stream instructions, and the reading and writing of
elements. -/

namespace Sys2Proof.Machine

/-! ### The record (R183) -/

/-- A pattern from the record's sixteen words, none when the record is malformed (R185). A base or index base in the
scratchpad beyond bits 21:0 makes it so, the index base also without ind. DESIGN CHOICE, log 58. -/
def patternOf (ws : List Word) : Option Pattern :=
  let f := wd ws 10
  let p : Pattern :=
    { base := BitVec.ofNat 64 (wd64 ws 0), c := [bits (wd ws 2) 0 16, bits (wd ws 2) 16 16, bits (wd ws 3) 0 16, bits (wd ws 3) 16 16]
      s := [4, 5, 6, 7].map fun i => toSigned 32 (wd ws i), ibase := BitVec.ofNat 64 (wd64 ws 8), ispace := flag f 11
      iscale := bits f 8 3, iw := bits f 6 2, ind := flag f 5, space := flag f 4, sx := flag f 3, dir := flag f 2, ew := bits f 0 2 }
  let small (x : DWord) : Bool := decide (x.toNat < 2 ^ 22)
  if bits f 12 20 == 0 && zeroFrom ws 11 && !p.c.contains 0 && p.ew != 3 && p.iw != 3 && !(p.sx && p.dir) &&
      (!p.space || small p.base) && (!p.ispace || small p.ibase) then some p
  else none

/-- SBIND: the record is read once, in UNBOUND. -/
def execSbind (d a : VReg) (k : BitVec 3) (s : State) : Out :=
  issue {} [dst d, src .a a]
    (fun s v _ t th o =>
      if (th.stream k.toNat).st != .unbound then .ok (th.put d.toNat 1) none []
      else
        let at_ := o.a.toNat
        match scrCheck v.u at_ 64 64 with
        | some tr => .trap tr
        | none =>
          if s.scrBusy v.u.uid t (span at_ 64) then .stall
          else
            match patternOf (wordsOf ((span at_ 64).map v.u.scr.read)) with
            | none => .ok (th.put d.toNat 2) none []
            | some p => .ok ((th.put d.toNat 0).setStream k.toNat { st := .bound, pat := p }) none []) s

def execSstart (d : VReg) (k : BitVec 3) (s : State) : Out :=
  issue {} [dst d]
    (fun s _ _ _ th _ =>
      let q := th.stream k.toNat
      if q.st == .bound then .ok ((th.put d.toNat 0).setStream k.toNat { q with st := .running, start := s.nextId, snap := th.snap }) none []
      else .ok (th.put d.toNat 1) none []) s

/-- An element write of a stream is still outstanding. -/
def State.elemsOut (s : State) (u t k : Nat) : Bool :=
  s.ops.any fun o => o.unit == u && o.tid == t && (match o.kind with | .elem _ k' _ => k' == k | _ => false)

/-- A load that will enqueue on the stream is still outstanding. -/
def State.enqueuing (s : State) (u t k : Nat) : Bool :=
  s.ops.any fun o => o.unit == u && o.tid == t && o.toQ && (o.kind.dst.map (·.1)) == some (504 + k)

/-- SSTOP's wait for a store stream (R185). -/
def stopReady (s : State) (v : View) (t : Nat) (th : Thread) (k : Nat) : Bool :=
  let q := th.stream k
  !q.pat.dir || q.st == .unbound ||
    (q.queue.isEmpty && !s.enqueuing v.u.uid t k && !s.elemsOut v.u.uid t k && (q.pat.space || th.gwct == 0 || decide (th.gwct.toNat < s.dt)))

/-- A stream's elements are numbered anew: what the thread's other streams know of them. -/
def Thread.forget (th : Thread) (k : Nat) : Thread :=
  { th with streams := (th.streams.map fun q => { q with snap := q.snap.set k 0 }).set k {} }

/-- The same, for accesses of threads that are still outstanding. -/
def State.forgetSnaps (s : State) (u : Nat) (ts : List Nat) (k : Nat) : State :=
  { s with ops := s.ops.map fun o => if o.unit == u && ts.contains o.tid then { o with snap := o.snap.set k 0 } else o }

def execSstop (k : BitVec 3) (s : State) : Out :=
  issueWith {} []
    (fun s v _ t th _ => if stopReady s v t th k.toNat then .ok (th.forget k.toNat) none [] else .stall)
    (fun v ps s => s.forgetSnaps v.u.uid (ps.map (·.1)) k.toNat) s

def execSstat (d : VReg) (k : BitVec 3) (s : State) : Out :=
  issue {} [dst d] (fun _ _ _ _ th _ => .ok (th.put d.toNat (th.stream k.toNat).word) none []) s

/-! ### Elements (R184) -/

/-- A fault stops a stream: it is DEAD, with the first fault's cause and address. The element of a store stream that meets
it is not stored; those enqueued behind it are (R186). -/
def Stream.kill (q : Stream) (cause : Nat) (addr : DWord) : Stream :=
  let q : Stream := if q.pat.dir then { q with queue := q.queue.drop 1, done := q.done + 1 } else q
  if q.st == .dead then q else { q with st := .dead, cause := cause, addr := addr }

def State.setStream (s : State) (u t k : Nat) (q : Stream) : State := s.updUnit u fun x => x.updThread t fun th => th.setStream k q
def State.updStream (s : State) (u t k : Nat) (f : Stream → Stream) : State :=
  s.updUnit u fun x => x.updThread t fun th => th.setStream k (f (th.stream k))

/-- The value of an element in its register (R186). -/
def Pattern.value (p : Pattern) (x : Nat) : Word :=
  let w := 8 * p.bytes
  if p.sx then BitVec.ofInt 32 (toSigned w x) else BitVec.ofNat 32 x

/-- Where the index of an element lies (R184); no bytes for a stream without indexes. -/
def State.indexAt (s : State) (u : UnitSt) (p : Pattern) (n : Nat) : Place :=
  if p.ind then s.place u p.ispace (p.ibase.toNat + p.off n) (if p.iw == 0 then 2 else if p.iw == 1 then 4 else 8) .r else .scr []

/-- A read of the stream unit: a global one through L1, a window one in its page (R187, R372). -/
def State.streamRead (s : State) (u : UnitSt) (t : Nat) : Place → State
  | .glob pas => (s.follow { id := s.nextId, unit := u.uid, tid := t, sp := .global, addrs := pas, kind := .load 0 .b32 }).fetchLines u.ctx u.core pas (linesOf pas)
  | .scr as => (s.follow { id := s.nextId, unit := u.uid, tid := t, sp := .scratch, addrs := as, kind := .load 0 .b32 }).touchPages u.uid as
  | _ => s

/-- The poisoned line that a read of the stream unit meets (R373). -/
def State.poisonedPlace (s : State) : Place → Option Nat
  | .glob pas => s.poisoned pas
  | _ => none

/-- Accesses of a thread before the SSTART of a load stream that its element reads follow: outstanding ones that the L1 does
not serve, and elements enqueued and not yet written (R187). -/
def State.streamHeld (s : State) (u : UnitSt) (t : Nat) (q : Stream) : Bool :=
  (s.ops.any fun o => o.unit == u.uid && o.tid == t && decide (o.id < q.start) && !o.done &&
    !(o.kind.bytes?.isSome && o.sp == .global && o.ent.isSome && o.core == u.core)) || (u.thread t).storeQueued q.snap

/-- STREAM_ELEMENT_READ: the next element of a running load stream enters its queue. -/
def execStreamElementRead (unit tid k : Nat) (s : State) : Out :=
  match s.unit? unit with
  | none => .next s
  | some u =>
    let q := (u.thread tid).stream k
    if q.st != .running || q.pat.dir || 4 ≤ q.queue.length || u.st != .resident || s.streamHeld u tid q then .next s
    else
      let ix := s.indexAt u q.pat q.next
      match s.poisonedPlace ix with
      | some l => .next (s.consume l (some u.ctx))
      | none =>
      match s.elemAddr u q.pat q.next with
      | .wait => .next s
      | .dead c a => .next (s.setStream unit tid k (q.kill c a))
      | .at_ a =>
        match s.place u q.pat.space a q.pat.bytes .r with
        | .miss => .next s
        | .dead c a => .next (s.setStream unit tid k (q.kill c a))
        | pl =>
          match s.poisonedPlace pl, s.placeRead u pl with
          | some l, _ => .next (s.consume l (some u.ctx))
          | none, none => .next s
          | none, some x =>
            .next (((s.streamRead u tid ix).streamRead u tid pl).updStream unit tid k fun q =>
              { q with queue := q.queue ++ [q.pat.value x], next := q.next + 1
                       st := if q.next + 1 == q.pat.total then .ended else q.st })

/-- Guard lines that a surrogate's element would take (R352): none when the limit is passed. -/
def State.guardElem (s : State) (u : UnitSt) (pas : List Nat) : Option State :=
  if u.role == .surrogate then
    let ls := u.guardAdmit pas
    if (linesOf pas).all fun l => ls.contains l then some (s.updUnit u.uid fun u => { u with glines := ls }) else none
  else some s

/-- STREAM_ELEMENT_WRITE: the oldest enqueued element of a store stream is written, a window element after the thread's
earlier accesses to its bytes (R187); the GWCT of a global one follows. -/
def execStreamElementWrite (unit tid k : Nat) (s : State) : Out :=
  match s.unit? unit with
  | none => .next s
  | some u =>
    let q := (u.thread tid).stream k
    match q.queue with
    | [] => .next s
    | v :: rest =>
      if !q.pat.dir then .next s
      else
        let q' : Stream := { q with queue := rest, done := q.done + 1 }
        let op (sp : Space) (as : List Nat) : MemOp :=
          { id := s.nextId, unit := unit, tid := tid, core := u.core, sp := sp, addrs := as, grp := s.nextId
            kind := .elem (leBytes q.pat.bytes v.toNat) k q.done }
        let ix := s.indexAt u q.pat q.done
        match s.poisonedPlace ix with
        | some l => .next (s.consume l (some u.ctx))
        | none =>
        match s.elemAddr u q.pat q.done with
        | .wait => .next s
        | .dead c a => .next (s.setStream unit tid k (q.kill c a))
        | .at_ a =>
          match s.place u q.pat.space a q.pat.bytes .w with
          | .miss => .next s
          | .dead c a => .next (s.setStream unit tid k (q.kill c a))
          | .scr as =>
            if u.paged as && !s.heldBack (op .scratch as) then
              let d := s.depsOf (op .scratch as)
              let s := (((s.streamRead u tid ix).updStream unit tid k fun _ => q').updUnit unit fun u =>
                { u with scr := u.scr.writes as (leBytes q.pat.bytes v.toNat) }).touchPages unit as
              .next (s.leaveTrail (op .scratch as) false d.1 d.2)
            else .next s
          | .glob pas =>
            let s := (s.streamRead u tid ix).updStream unit tid k fun _ => q'
            match s.guardElem u pas with
            | none => .next (s.updUnit unit fun u => { u with gfault := true })
            | some s => .next { s with nextId := s.nextId + 1, ops := s.ops ++ [op .global pas] }

/-- System software refuses a translation that streams of a thread wait for: they are DEAD with UNRESOLVED. -/
def State.refuseStreams (s : State) (u : UnitSt) (_t : Nat) (th : Thread) : Thread :=
  let f (q : Stream) : Stream :=
    let n := if q.pat.dir then q.done else q.next
    let busy := if q.pat.dir then !q.queue.isEmpty else q.st == .running
    if !busy then q
    else
      let w := if q.pat.iw == 0 then 2 else if q.pat.iw == 1 then 4 else 8
      let i := q.pat.ibase.toNat + q.pat.off n
      if q.pat.ind && s.place u q.pat.ispace i w .r == .miss then q.kill 2 (BitVec.ofInt 64 i)
      else
        match s.elemAddr u q.pat n with
        | .at_ a => if s.place u q.pat.space a q.pat.bytes (if q.pat.dir then .w else .r) == .miss then q.kill 2 (BitVec.ofInt 64 a) else q
        | _ => q
  { th with streams := th.streams.map f }

end Sys2Proof.Machine
end

