-- ==== Sys2Proof/Machine/Perform.lean ====
section
/-! DEFINITION. How outstanding accesses end (R84 to R87, R171, R175, R199): data return, performance at the home slice
or the scratchpad, expiry of leases and reservations, and the resolution of translation misses. -/

namespace Sys2Proof.Machine

/-- An access waits for what goes before it: earlier accesses and enqueued elements of its thread, and a release's waits
(R87, R171, R187). -/
def State.opReady (s : State) (o : MemOp) : Bool := !s.heldBack o && !s.queuedBefore o && s.releasedOp o

/-- A write that has entered leaves its core behind the core's earlier writes of the same lines, and its thread's from another
core (R85, R86, R90). -/
def State.mayArrive (s : State) (o : MemOp) : Bool :=
  o.ent.isSome && !(s.ops.any fun p => (p.core == o.core || (p.unit == o.unit && p.tid == o.tid)) && p.sp == .global && p.ent.isSome && !p.arrived &&
    decide (p.ent.getD 0 < o.ent.getD 0) && shareLine p.addrs o.addrs)

/-- A thread's result: into the queue that d named at issue, else into the ordinary registers (R43). -/
def Thread.result (th : Thread) (o : MemOp) (n : Nat) (v : BitVec 128) : Thread :=
  match o.kind.dst with
  | none => th
  | some (d, _) => if n == 0 then th else if o.toQ then th.put d (v.setWidth 32) else th.setN d n v

/-- Another piece of the same access is still outstanding. -/
def State.sibling (s : State) (o : MemOp) : Option MemOp :=
  s.ops.find? fun p => p.grp == o.grp && p.unit == o.unit && p.tid == o.tid && p.id != o.id && !p.ret

/-- A thread's access has ended: its register result is written, its counter lowered. -/
def State.endOp (s : State) (o : MemOp) (n : Nat) (v : BitVec 128) : State :=
  (s.updUnit o.unit fun u => u.updThread o.tid fun th => (th.result o n v).lower o.kind.ctr).dropOp o.id

/-- Bytes in a unit of memory that has been retired (R375). -/
def State.inRetired (s : State) (pas : List Nat) : Bool := pas.any fun a => s.fw.retired.contains (a / 65536)

/-- A read in flight whose page has been retired waits; it is replayed once system software has mapped its address anew
(R199, R374). -/
def State.retranslate (s : State) (o : MemOp) : State :=
  let c := ((s.unit? o.unit).map (·.ctx)).getD 0
  match s.reach c o.va .r o.addrs.length with
  | .ok pas => s.updOp o.id fun o => { o with addrs := pas }
  | _ => s

/-! ### LOAD_RETURN -/

/-- What a byte held before another node's write that nobody has observed: a plain load behind an AWAIT below sys scope may
still give it (R319). Which it gives is a free value, log 64. -/
def State.pastByte (s : State) (u : UnitSt) (o : MemOp) (a : Nat) : Option Byte :=
  if (u.thread o.tid).stale && o.ord == .plain && (s.loadSrc u.uid [a]).isNone then
    (s.fab.past.find? fun x => x.1 == u.ctx && x.2.1 == a).bind fun x =>
      if (Config.freeValue s.fresh).getLsbD (a % 64) then some x.2.2 else none
  else none

/-- The bytes that a piece of a load reads, with those of pieces that have returned, by their place in the access. -/
def State.loadBytes (s : State) (u : UnitSt) (o : MemOp) : List (Nat × Byte) :=
  o.got ++ o.addrs.zipIdx.map fun x => (o.off + x.2, match o.sp with
    | .global => (s.pastByte u o x.1).getD (s.loadByte u.uid x.1)
    | .scratch => u.scr.read x.1)

/-- What a load leaves of the bytes that nobody has observed: those that it read as they were. An AWGET at sys scope observes
all (R94, R319). -/
def State.readPast (s : State) (u : UnitSt) (o : MemOp) : State :=
  if s.fab.past.isEmpty || o.sp != .global then s
  else
    match o.kind, o.scope with
    | .awget _, .sys => s.observed
    | _, _ => { s.dropPast (o.addrs.filter fun a => (s.pastByte u o a).isNone) with fresh := s.fresh + 1 }

/-- What a load writes to its registers: how many, and the value of its bytes. -/
def MemOp.value (o : MemOp) (bs : List (Nat × Byte)) : Nat × BitVec 128 :=
  let raw := ofLe ((List.range bs.length).map fun i => ((bs.find? (·.1 == i)).map (·.2)).getD 0)
  match o.kind with
  | .fixed _ w v => (w.regs, v)
  | .load _ w => (w.regs, w.extend raw)
  | .lr _ wide => (if wide then 2 else 1, BitVec.ofNat 128 raw)
  | _ => (4, BitVec.ofNat 128 raw)

/-- The reservation of an LR that returns: none when a write of another agent, co-after the one from which the LR takes
its value, waits at the line's home slice (R175). -/
def State.reserve (s : State) (o : MemOp) : Option Resv :=
  let l := lineOf (o.addrs.headD 0)
  let r : Resv := { line := l, since := s.kclk, src := s.loadSrc o.unit o.addrs }
  let seen := (s.ops.find? fun p => some p.id == r.src).map fun p => if p.arrived then some p.seq else none
  let after (p : MemOp) : Bool := match seen with
    | some (some n) => decide (n < p.seq)
    | some none => false
    | none => true
  let other := (s.waitingOn l).any fun p => !(p.unit == o.unit && p.tid == o.tid) && after p
  if other then none else some r

/-- The data of a load returns: read when no earlier access of the thread holds it back; an acquire beyond the core
does not read bytes whose GWCT has not passed (R86). The last piece of an access to return writes its registers (R170).
DEDUCED, log 22. -/
def execLoadReturn (op : Nat) (s : State) : Out :=
  let s := s.entered
  match s.op? op with
  | none => .next s
  | some o =>
    match s.unit? o.unit with
    | none => .next (s.dropOp op)
    | some u =>
      let ls := if o.sp == .global then linesOf o.addrs else []
      if o.kind.ctr != .l || !s.opReady o || !s.portOpen (s.opWorld o) then .next s
      else if o.sp == .scratch && !u.paged o.addrs then .next s
      else if o.sp == .global && s.inRetired o.addrs then .next (s.retranslate o)
      else if o.sp == .global && o.ord.isAcq && o.scope.beyondCore && s.coreStores o.unit ls then .next s
      else
        match (if o.sp == .global then s.poisoned o.addrs else none) with
        | some l => .next (s.consume l (some u.ctx))
        | none =>
          let bs := s.loadBytes u o
          let r := s.reserve o
          let s := (s.readPast u o).follow o
          let s := if o.sp == .global then s.fetchLines u.ctx u.core o.addrs ls else s.touchPages o.unit o.addrs
          match s.sibling o with
          | some p => .next ((s.updOp p.id fun p => { p with got := p.got ++ bs }).dropOp o.id)
          | none =>
            let x := o.value bs
            let s := s.endOp o x.1 x.2
            .next (if o.kind.isLr then s.updUnit o.unit fun u => u.updThread o.tid fun th => { th with resv := r } else s)

/-! ### GWCT_RETURN -/

/-- A write of the scratchpad or an RMW there, performed at the core (R32, R89, R174, R181). -/
def State.performScr (s : State) (u : UnitSt) (o : MemOp) : State :=
  let e := o.kind.effect (u.scr.readN o.addrs)
  let d := s.depsOf o
  let s := ((if o.kind.rmw then s.follow o else s).leaveTrail o o.kind.rmw d.1 d.2).touchPages u.uid o.addrs
  let s : State := match o.kind with
    | .awadd n => s.arriveScr u.uid (o.addrs.headD 0) n.toNat
    | _ => s.updUnit u.uid fun u => { u with scr := u.scr.writes o.addrs e.1 }
  match s.sibling o with
  | some _ => s.dropOp o.id
  | none => s.endOp o ((o.kind.dst.map (·.2)).getD 0) e.2

/-- The thread's reservation is intact on the line of an SC. -/
def State.resvHolds (s : State) (o : MemOp) : Bool :=
  match (s.unit? o.unit).bind fun u => (u.thread o.tid).resv with
  | some r => r.line == lineOf (o.addrs.headD 0) && decide (s.kclk < r.since + 1024)
  | none => false

def State.clearOwn (s : State) (o : MemOp) : State :=
  s.updUnit o.unit fun u => u.updThread o.tid fun th => { th with resv := none }

/-- A failed SC: status 1, and nothing written (R175). -/
def State.failSc (s : State) (o : MemOp) : State := (s.clearOwn o).endOp o (match o.kind with | .sc _ true _ => 2 | _ => 1) 1

/-- An older reservation's SC is ready to reach the same line: it is preferred (R175). -/
def State.olderSc (s : State) (o : MemOp) : Bool :=
  let since (p : MemOp) : Nat := (((s.unit? p.unit).bind fun u => (u.thread p.tid).resv).map (·.since)).getD 0
  s.ops.any fun p => p.kind.isSc && p.id != o.id && !p.arrived && p.ent.isSome && s.resvHolds p && s.resvHolds o &&
    shareLine p.addrs o.addrs && (decide (since p < since o) || (since p == since o && decide (p.id < o.id)))

/-- The GWCT of a write, or the result of an RMW once it is performed, returns to its thread: the thread's gwct rises to
it, and the last piece of an access lowers S (R32, R85). Of a write to host memory the acknowledgement returns (R397). -/
def State.returnOp (s : State) (o : MemOp) : State :=
  if o.kind.dst.isSome && !o.done then s
  else
    let s := if o.toHost then s else s.raiseGwct o.unit o.tid o.gwct
    let last := (s.sibling o).isNone
    let f (th : Thread) : Thread :=
      let th := th.result o ((o.kind.dst.map (·.2)).getD 0) o.res
      if last && (match o.kind with | .elem .. => false | _ => true) then th.lower o.kind.ctr else th
    let s := if o.ret then s else s.updUnit o.unit fun u => u.updThread o.tid f
    if o.done then s.dropOp o.id else s.updOp o.id fun o => { o with ret := true }

/-- A surrogate's write enters its guard line: its GWCT is the DT of entry (R362). -/
def State.enterGuard (s : State) (o : MemOp) : State :=
  if o.kind.isSc && !s.resvHolds o then s.failSc o
  else
    let s := (if o.kind.isSc then s.clearOwn o else s).countStb o
    let s := (s.updOp o.id fun o => { o with arrived := true, gwct := s.dt }).performOp o
    match s.op? o.id with
    | some o => s.returnOp o
    | none => s

/-- One step of a global write: its arrival at the home slice, with its return when it is performed at once; or its
return. -/
def State.stepGlob (s : State) (o : MemOp) : State :=
  if o.arrived then s.returnOp o
  else if !s.mayArrive o then s
  else if s.guarded o.unit then s.enterGuard o
  else if o.kind.isSc && !s.resvHolds o then s.failSc o
  else if o.kind.isSc && s.olderSc o then s
  else
    let s := (if o.kind.isSc then s.clearOwn o else s).arriveOp o
    match s.op? o.id with
    | some o => if o.done then s.returnOp o else s
    | none => s

/-- The front end's and the firmware's writes leave in the order in which they are made, each once those before it are
performed. DESIGN CHOICE, log 66. An addition to an event's word reads it (R373). -/
def State.stepFront (s : State) (o : MemOp) : State :=
  let first := s.ops.all fun p => !p.kind.isFront || decide (o.id ≤ p.id)
  if o.arrived || !first then s
  else
    match (match o.kind with | .frontAdd .. => s.poisoned o.addrs | _ => none) with
    | some l => s.consume l (s.opCtx o)
    | none => s.arriveOp o

/-- A store, RMW or EVSIG is performed, and its GWCT or its completion lowers S (R32, R85). DEDUCED, log 22. -/
def execGwctReturn (op : Nat) (s : State) : Out :=
  let s := s.entered
  match s.op? op with
  | none => .next s
  | some o =>
    if o.kind.isFront then .next (s.stepFront o)
    else if o.kind.ctr != .s || o.kind.isEngine then .next s
    else
      match o.kind with
      | .evsig _ _ ev inc =>
        let c := ((s.unit? o.unit).map (·.ctx)).getD 0
        .next (if s.opReady o then ((s.addEvent c ev inc.toNat).endOp o 1 0).settleLaunches else s)
      | _ =>
        match o.sp with
        | .scratch =>
          match s.unit? o.unit with
          | some u => .next (if s.opReady o && u.paged o.addrs then s.performScr u o else s)
          | none => .next (s.dropOp op)
        | .global =>
          if o.kind.rmw && !o.arrived && s.inRetired o.addrs then .next (s.retranslate o)
          else
          match (if o.kind.rmw && !o.arrived then s.poisoned o.addrs else none) with
          | some l => .next (s.consume l (s.opCtx o))
          | none => .next (s.stepGlob o)

/-! ### Leases, reservations, misses -/

/-- Leases of a line end; each with no store waiting doubles the line's next ones (R84). -/
def execLeaseExpiry (core line : Nat) (s : State) : Out :=
  if s.leases.any fun x => x.core == core && x.line == line && decide (x.till ≤ s.dt) then .next (s.expireLine line) else .next s

/-- 1,024 kclk after its LR a reservation ends (R175). -/
def execReservationTimeout (unit tid : Nat) (s : State) : Out :=
  let f (th : Thread) : Thread :=
    match th.resv with
    | some r => if r.since + 1024 ≤ s.kclk then { th with resv := none } else th
    | none => th
  .next (s.updUnit unit fun u => u.updThread tid f)

/-- A read of a thread in flight to retired memory whose address system software has not mapped anew (R374, R375). -/
def State.strandedOp (s : State) (u : UnitSt) (t : Nat) : Option MemOp :=
  s.ops.find? fun o => o.unit == u.uid && o.tid == t && o.sp == .global && !o.arrived && (o.kind.ctr == .l || o.kind.rmw) &&
    s.inRetired o.addrs && (match s.reach u.ctx o.va .r o.addrs.length with
      | .ok _ => false
      | _ => true)

/-- It takes UNRESOLVED at its own word, once the thread's clause is over: the access and the counter it raised are gone (R199). -/
def State.refuseOp (s : State) (u : UnitSt) (t : Nat) (o : MemOp) : State :=
  let th := u.thread t
  if th.st == .inPath || !th.alive || th.isTrapped then s
  else
    let tr := trapRec s u.ctx o.pos { cause := .unresolved, sub := 2, addr := o.va }
    let s : State := { s with ops := s.ops.filter fun p => !(p.unit == o.unit && p.tid == o.tid && p.grp == o.grp) }
    (s.setUnit (u.setThread t ((th.lower o.kind.ctr).trapped o.pos tr))).settleTraps u.uid [t]

/-- System software has mapped the address, and the thread makes its access again; or it refuses, and the access takes
UNRESOLVED (R199). In a prologue a refused fetch is no load that faults (R334). A refusal for a thread that does not wait at a
miss is that of a read in flight to retired memory, or else one of its streams'. DEDUCED, log 23. -/
def execTranslationResolved (unit tid : Nat) (r : Resolution) (s : State) : Out :=
  match s.unit? unit with
  | none => .next s
  | some u =>
    let th := u.thread tid
    match th.st, r with
    | .missing _, .mapped => .next (s.setUnit (u.setThread tid { th with st := .ready }))
    | .missing va, .refused =>
      let fetch := u.role == .prologue && th.replay.isNone
      let tr := trapRec s u.ctx th.pos (if fetch then { cause := .permission, sub := 3, addr := va }
        else { cause := .unresolved, sub := 2, addr := va })
      .next ((s.setUnit (u.setThread tid (th.dropReplay.trapped th.pos tr))).settleTraps unit [tid])
    | _, .refused =>
      match s.strandedOp u tid with
      | some o => .next (s.refuseOp u tid o)
      | none => .next (s.setUnit (u.setThread tid (s.refuseStreams u tid th)))
    | _, _ => .next s

end Sys2Proof.Machine
end

