-- ==== Sys2Proof/Machine/Fabric.lean ====
section
/-! DEFINITION. The fabric class (R294 to R307, R313, R318): checks of fabric claims, issue of fabric instructions, the
turn of an operation on its claim, its acceptance and landing, remote atomics' timers, and rings. -/

namespace Sys2Proof.Machine

/-! ### Checks of fabric claims (R294, R295, R305) -/

/-- The bits of param that a kind uses (R294). -/
def paramMask : Nat → Nat
  | 4 | 5 => 0x300
  | 6 => 0x303
  | 7 => 0x300 + (2 ^ 22 - 1) * 2 ^ 64
  | 8 => 0x7F
  | _ => 0x300 + (2 ^ 31 - 1) * 2 ^ 64 + (2 ^ 32 - 1) * 2 ^ 96

/-- Scratchpad address of the ring route record. -/
def Claim.rrec (c : Claim) : Nat := c.param.toNat / 2 ^ 64 % 2 ^ 22

/-- The ring route record as 16 words. -/
def ringWords (u : UnitSt) (c : Claim) : List Word := wordsOf ((span c.rrec 64).map u.scr.read)

/-- Fields of a ring route record (R305). -/
def Claim.rw (c : Claim) (i : Nat) : Word := c.ring.getD i 0
def Claim.ringPos (c : Claim) : Nat := bits (c.rw 0).toNat 16 8
def Claim.ringN (c : Claim) : Nat := bits (c.rw 0).toNat 8 8 + 1
def Claim.ringType (c : Claim) : Nat := bits (c.rw 0).toNat 2 2
def Claim.ringOp (c : Claim) : Nat := bits (c.rw 0).toNat 0 2
def Claim.ringSeg (c : Claim) : Nat := (c.rw 1).toNat
def Claim.ringId (c : Claim) : Nat := bits (c.rw 3).toNat 0 16

/-- The record of a ring is well formed. -/
def Claim.ringOk (c : Claim) : Bool :=
  let w0 := (c.rw 0).toNat
  let w2 := (c.rw 2).toNat
  bits w0 24 8 == 0 && bits w0 4 4 == 0 && decide (2 ≤ c.ringN) && decide (c.ringN ≤ 64) &&
  decide (c.ringPos < c.ringN) && c.ringType != 3 && c.ringOp != 3 && c.ringSeg % 128 == 0 &&
  decide (c.ringN * c.ringSeg ≤ c.len) && bits w2 29 3 == 0 && bits w2 13 3 == 0 && bits (c.rw 3).toNat 16 16 == 0 &&
  (c.ring.drop 4).all (· == 0)

/-- The further reasons of R295 for RECORD. DEDUCED, log 27. -/
def Claim.fabBad (u : UnitSt) (c : Claim) : Bool :=
  let p := c.param.toNat
  (p &&& paramMask c.kind) != p || c.ctype == 3 || (c.kind != 8 && c.ctype != 0 && !c.cmp) ||
  (c.kind == 6 && c.etype == 3) || (c.kind == 8 && (c.slots == 0 || decide (64 < c.slots))) ||
  (c.ssp && !([4, 6, 7, 9].contains c.kind)) || (c.dsp && !([5, 7].contains c.kind)) ||
  ((c.kind == 7 || c.kind == 9) && c.node != 0) || ((c.kind == 4 || c.kind == 6) && c.aws) ||
  (c.kind == 8 && (c.arv || c.cmp || c.src != 0)) ||
  (c.srd && c.kind != 6) || (c.kind == 6 && (c.src.toNat % 4 != 0 || c.dst.toNat % 4 != 0 || c.len % 4 != 0)) ||
  (c.kind == 9 && decide (4096 < c.slotSize)) || (c.kind == 9 && c.app && decide (c.len < c.slotCount * c.slotSize)) || (c.kind == 9 && c.xop && c.anchor != 0) ||
  (c.kind == 7 && (c.rrec % 64 != 0 || decide (u.nscr < c.rrec + 64) || !(c.ringOk)))

/-- The claim with its ring route record, as read at claim time. -/
def Claim.withRing (u : UnitSt) (c : Claim) : Claim := if c.kind == 7 then { c with ring := ringWords u c } else c

/-- The context belongs to the group of an mcast claim. -/
def State.inGroup (s : State) (job : Nat) (c : Claim) : Bool :=
  s.fab.groups.any fun g =>
    g.group == c.group && g.job == job && g.members.contains s.fab.node && (if c.xop then g.xop else !g.xop && g.anchor == c.anchor)

/-- The port toward the node, anchor or switch, or none: ROUTE. -/
def State.fabRoute (s : State) (ctx : Nat) (c : Claim) : Option Nat :=
  let job := s.jobOf ctx
  if c.kind == 9 && !s.inGroup job c then none
  else if c.kind == 9 && c.xop then s.routeSwitch c.group
  else if s.inJob job c.farNode then s.routeTo c.farNode else none

/-- Claims of the device that hold reservations at a port. -/
def State.claimsAt (s : State) (port : Nat) : List Claim :=
  s.ctxs.foldl (fun cs x => cs ++ x.claims.filter fun c => c.isFabric && (c.st == .held || c.st == .flowing) && c.port == port) []

/-- The port has a virtual channel reservation free; packets that stay on this node use none (R292, R295). How many a port
has, the spec does not say (log 27). -/
def State.hasChannel (s : State) (c : Claim) (port : Nat) : Bool :=
  s.ownRoute c || decide (((s.claimsAt port).filter fun x => !s.ownRoute x).length < Config.vcReservations port)

/-- The ports toward the node, anchor or switch. -/
def State.fabPorts (s : State) (c : Claim) : List Nat :=
  if c.kind == 9 && c.xop then (s.fab.ports.filter fun p => p.up && p.xops.contains c.group).map (·.port)
  else if s.ownRoute c then [0] else s.portsTo c.farNode

/-- The route of a new claim: a port toward its node with a channel free, or none: ROUTE. -/
def State.freePort (s : State) (ctx : Nat) (c : Claim) : Option Nat :=
  if (s.fabRoute ctx c).isNone then none else (s.fabPorts c).find? (s.hasChannel c)

/-- Landing reservations of 8 KiB at a port (R295): of this node's claims, and of other nodes' puts and radds. -/
def State.landings (s : State) (port : Nat) : Nat :=
  ((s.claimsAt port).filter fun x => x.kind == 5 || x.kind == 7 || (s.ownRoute x && (x.kind == 4 || x.kind == 6))).length +
  (s.fab.far.filter fun f => f.port == port && (f.kind == 4 || f.kind == 6)).length

/-- Response-cache entries reserved at a port (R295). -/
def State.cacheSlots (s : State) (port : Nat) : Nat :=
  ((s.claimsAt port).filter fun x => x.kind == 8 && s.ownRoute x).foldl (fun n x => n + x.slots) 0 +
  (s.fab.far.filter fun f => f.port == port && f.kind == 8).foldl (fun n f => n + f.slots) 0

/-- Landing space that this device's ports can give (R295): 128 reservations of 8 KiB, 4,096 cache entries. -/
def State.landingFull (s : State) (port : Nat) (c : Claim) : Bool :=
  match c.kind with
  | 5 | 7 => decide (128 ≤ s.landings port)
  | 4 | 6 => s.ownRoute c && decide (128 ≤ s.landings port)
  | 8 => s.ownRoute c && decide (4096 < s.cacheSlots port + c.slots)
  | _ => false

/-- The walk of R293 over one remote range on this node; raddr is the remote address. -/
def State.walkFar (s : State) (job : Nat) (x : DWord × Nat × Acc) : Chk :=
  match s.jobCtx job with
  | none => .fail 11 x.1
  | some t =>
    match s.chkGlobal t.ctx x.2.2 true x.1 x.2.1 with
    | .fail .. => .fail 11 x.1
    | r => r

/-- Step 7: the remote walk and the landing space. What another node finds, the outside says; raddr is then the remote
address of the claim. -/
def State.chkLanding (s : State) (ctx : Nat) (landing : Bool) (port : Nat) (c : Claim) : Chk :=
  let far : DWord := (c.remote.map (·.1)).headD 0
  if s.ownRoute c then
    (c.remote.foldl (fun (r : Chk) x => r.then_ fun _ => s.walkFar (s.jobOf ctx) x) Chk.ok).then_ fun _ =>
      if s.landingFull port c then .fail 11 far else .ok
  else if (landing && !c.remote.isEmpty) || s.landingFull port c then .fail 11 far else .ok

/-- The checks of a claim of kind 4 to 9 in R295's order, with the port of its route. -/
def chkFabric : FabricChk := fun s u refused landing c0 =>
  let c := c0.withRing u
  if c.fabBad u then (.fail 1 0, 0)
  else
    let local_ := ((s.chkQuota c u.ctx).then_ fun _ => s.chkSide u refused .r c.srcScr c.src c.len).then_ fun _ =>
      (s.chkSide u refused .w c.dstScr c.dst c.len).then_ fun _ => s.chkArrival u refused c
    match local_ with
    | .ok =>
      if c.srd && s.ctxWorld u.ctx != 0 then (.fail 12 0, 0)
      else
        match s.freePort u.ctx c with
        | none => (.fail 10 0, 0)
        | some port =>
          if 256 ≤ ((s.claimsAt port).filter (!·.pool)).length then (.fail 4 0, 0)
          else
            (((s.chkLanding u.ctx landing port c).then_ fun _ =>
              if s.framesFit u c.scrPages then .ok else .fail 13 0), port)
    | r => (r, 0)

/-! ### Issue (R297) -/

/-- R352: a surrogate unit's fabric instruction. -/
def guardTrap (v : View) : Trap :=
  { cause := .guard, sub := 2, info := BitVec.ofNat 32 v.u.glines.length }

/-- A fabric instruction enters its engine. -/
def issueFab (i : Instr) (d : VReg) (wd : Nat) (us : List RegUse) (wc : Option (VReg × Nat))
    (stall : State → View → Opnds → Bool) (s : State) : Out :=
  issueEng i .f d wd us
    (fun s v o e =>
      if v.u.role == .surrogate then .trap (guardTrap v)
      else if stall s v o then .stall
      else .accept { e with wc := wc } id) s

def noStall (_ : State) (_ : View) (_ : Opnds) : Bool := false

def execPuts (d a b c : VReg) (noarv : Bool) (s : State) : Out :=
  issueFab (.puts d a b c noarv) d 1 [dst d, src .a a, src .b b 2, src .c c] none noStall s

def execGet (d a b c : VReg) (noarv : Bool) (s : State) : Out :=
  issueFab (.get d a b c noarv) d 1 [dst d, src .a a, src .b b 2, src .c c] none noStall s

def execRadd (d a b c : VReg) (noarv : Bool) (s : State) : Out :=
  issueFab (.radd d a b c noarv) d 1 [dst d, src .a a, src .b b 2, src .c c] none noStall s

def execMcst (d a b c : VReg) (noarv : Bool) (s : State) : Out :=
  issueFab (.mcst d a b c noarv) d 1 [dst d, src .a a, src .b b 2, src .c c] none noStall s

/-- The applied number and view of a member (R312), for the group of a claim. -/
def State.mcseqWord (s : State) (ctx h : Nat) : BitVec 128 :=
  match (s.claim? ctx h).bind fun c => s.fab.groups.find? fun g => g.group == c.group && g.job == s.jobOf ctx with
  | some g => BitVec.ofNat 128 ((g.want + 2 ^ 48 - 1) % 2 ^ 48 + 2 ^ 48 * (g.view % 2 ^ 15))
  | none => 0

/-- MCSEQ reads the member's state when it enters the engine (R312). -/
def execMcseq (d a : VReg) (s : State) : Out :=
  issueEng (.mcseq d a) .f d 2 [dst d 2, src .a a]
    (fun s v o e =>
      if v.u.role == .surrogate then .trap (guardTrap v)
      else .accept { e with recd := wordsOf (leBytes 8 (s.mcseqWord v.u.ctx o.a.toNat).toNat) } id) s

def execRing (d a : VReg) (s : State) : Out := issueFab (.ring d a) d 1 [dst d, src .a a] none noStall s

def isRatom : Instr → Bool
  | .ratom .. => true
  | _ => false

/-- Slots of an atomic claim in use: RATOMs issued and not yet begun, and flights (R303). -/
def State.slotsUsed (s : State) (ctx : Nat) (c : Claim) : Nat :=
  (s.eng.filter fun e => e.ctx == ctx && e.handle == c.h && isRatom e.ins && e.phase == .accepted).length +
  (s.fab.flights.filter fun f => f.claim == c.op).length

/-- An RATOM with no free slot stalls at issue (R303). -/
def State.noSlot (s : State) (v : View) (o : Opnds) : Bool :=
  match s.claim? v.u.ctx o.a.toNat with
  | some c => c.kind == 8 && c.unit == v.u.uid && c.pins && decide (c.slots ≤ s.slotsUsed v.u.ctx c)
  | none => false

/-- RATOM: the c group is operand and result (R302). -/
def execRatom (wide : Bool) (op : AtomOp) (d a b c : VReg) (s : State) : Out :=
  let n := atomRegs op wide
  issueFab (.ratom wide op d a b c) d 1
    [dst d, src .a a, src .b b, { fld := .c, reg := c, n := n, src := true, dst := true }] (some (c, n)) State.noSlot s

/-- FQUIET holds the path until every fabric operation of its threads has landed (R313). DEDUCED, log 27. -/
def execFquiet (s : State) : Out :=
  issue { lane := false } []
    (fun s v _ _ th _ =>
      if v.u.role == .surrogate then .trap (guardTrap v)
      else if v.p.tids.any (s.fabricOut v.u.uid) then .ok { th with st := .waiting (.quiet v.p.tids) } none []
      else .ok th none []) s

/-! ### The turn of an operation (R297, R299, R302, R308) -/

/-- The claim kind of an instruction (R230). -/
def fabKind : Instr → Nat
  | .puts .. => 4 | .get .. => 5 | .radd .. => 6 | .ring .. => 7 | .ratom .. => 8 | _ => 9

def EngOp.off (e : EngOp) (i : Nat) : Nat := e.o.b.toNat / 2 ^ (32 * i) % 2 ^ 32
def EngOp.len (e : EngOp) : Nat := e.o.c.toNat % 2 ^ 32

/-- Element bytes of a compressed claim's offsets and lengths (R299). -/
def Claim.unit_ (c : Claim) : Nat := if c.cmp then (ctypeOf c.ctype).2.2 else 1

/-- BOUNDS under the instruction's own conditions. -/
def fabBounds (e : EngOp) (c : Claim) : Bool :=
  let n := e.len
  let s0 := e.off 0
  let d0 := e.off 1
  match e.ins with
  | .ratom wide .. =>
    let w := if wide then 8 else 4
    s0 % w != 0 || decide (c.len < s0 + w)
  | .mcst .. =>
    n == 0 || decide (c.slotSize < n) || decide (c.len < s0 + n) || (if c.app then d0 != 0 else decide (c.len < d0 + n))
  | .mcseq .. | .ring .. => false
  | _ =>
    decide (2 ^ 20 < n) || decide (c.len < s0 + n) || decide (c.len < d0 + n) ||
    (c.kind == 6 && (s0 % 4 != 0 || d0 % 4 != 0 || n % 4 != 0)) ||
    s0 % c.unit_ != 0 || d0 % c.unit_ != 0 || n % c.unit_ != 0

/-- The status of an operation at its turn. -/
def State.fabStatus (s : State) (e : EngOp) : Nat :=
  match s.claim? e.ctx e.handle with
  | none => 16
  | some c =>
    if c.st == .claiming then 16
    else if c.unit != e.unit then 17
    else if c.kind != fabKind e.ins then 18
    else if fabBounds e c then 19
    else if c.st == .revoked then 20 + 256 * c.cause
    else 0

/-- Earlier operations on the claim have had their turn, and no revocation waits for operations in progress (R243,
R296). -/
def State.fabTurn (s : State) (e : EngOp) : Bool :=
  let saved := ((s.unit? e.unit).map (·.st == .saved)).getD false
  !(s.eng.any fun x => x.ctx == e.ctx && x.handle == e.handle && decide (x.id < e.id) && usesClaim x.ins && x.phase == .accepted) &&
  !(((s.claim? e.ctx e.handle).map fun (c : Claim) =>
      c.unit == e.unit && ((c.st == .dormant && saved) || c.pend)).getD false)

def fabNoarv : Instr → Bool
  | .puts _ _ _ _ n | .get _ _ _ _ n | .radd _ _ _ _ n | .mcst _ _ _ _ n => n
  | _ => false

/-- Packets' name of a claim: its number, and its handle in the low bits. -/
def Claim.name (c : Claim) : Nat := c.op * 4096 + c.h

def State.flight? (s : State) (op : Nat) : Option Flight := s.fab.flights.find? (·.op == op)
def State.updFlight (s : State) (op : Nat) (f : Flight → Flight) : State :=
  { s with fab := { s.fab with flights := s.fab.flights.map fun x => if x.op == op then f x else x } }
def State.dropFlight (s : State) (op : Nat) : State :=
  { s with fab := { s.fab with flights := s.fab.flights.filter (·.op != op) } }

/-- The operation is in progress: its claim FLOWING (R296), d written unless an RATOM's or MCSEQ's result follows, and a
flight made. -/
def State.takeOff (s : State) (e : EngOp) (c : Claim) : State :=
  let counted := match e.ins with | .ratom .. | .mcst .. | .ring .. => true | _ => false
  let s := s.updClaim e.ctx c.h fun c =>
    { c with st := if c.st == .held then .flowing else c.st, count := if counted then (c.count + 1) % 65536 else c.count }
  let s := if isRatom e.ins then s else s.writeD e 0
  let s := s.updEng e.id fun e => { e with phase := .begun, wd := if isRatom e.ins then e.wd else 0, claim := some c.h }
  { s with fab := { s.fab with flights := s.fab.flights ++
      [{ op := e.id, claim := c.op, ctx := e.ctx, tag := c.count, first := s.dt, sent := s.dt, port := c.port }] } }

/-- What every packet of an operation carries. -/
def State.packet (s : State) (e : EngOp) (c : Claim) (ptype : Nat) : Packet :=
  { ptype := ptype, dstN := c.farNode, srcN := s.fab.node, job := s.jobOf e.ctx, claim := c.name, handle := c.h, opId := e.id
    group := if c.kind == 9 then c.group else 0, ctype := if c.cmp then some c.ctype else none }

/-- The packets of a put or radd (R299). -/
def State.putPackets (s : State) (e : EngOp) (c : Claim) (bs : List Byte) : List Packet :=
  (packetData (c.dst.toNat + e.off 1) bs).map fun x =>
    let last := x.1 + x.2.length == e.len
    { s.packet e c (if c.kind == 6 then 4 else 1) with
        va := c.dst + BitVec.ofNat 64 (e.off 1 + x.1), sub := if c.kind == 6 then c.etype else 0, data := x.2, last := last
        aw := if last && c.arv && !fabNoarv e.ins then some c.aw else none, arrive := e.len }

/-- The request packet of an RATOM at an age in units of 0.1 µs (R303). -/
def State.ratomPacket (s : State) (e : EngOp) (c : Claim) (tag age : Nat) : Packet :=
  match e.ins with
  | .ratom wide op .. =>
    { s.packet e c 5 with va := c.dst + BitVec.ofNat 64 (e.off 0), sub := op.code.toNat, wide := wide, tag := tag, age := age
                          data := leBytes 16 e.o.c.toNat }
  | _ => s.packet e c 5

/-- Bytes of a ring segment of this member, from its contribution (R306). -/
def State.ringOwn (s : State) (u : UnitSt) (c : Claim) (j off n : Nat) : List Byte :=
  s.readSide u (s.side u .r c.srcScr c.src (j * c.ringSeg + off) n)

/-- A chunk to the next member of the ring. -/
def State.ringPacket (s : State) (e : EngOp) (c : Claim) (tag j off : Nat) (final : Bool) (hops : Nat) (bs : List Byte) : Packet :=
  { s.packet e c 7 with claim := c.ringId, seq := j, doff := off, tag := tag, sub := if final then 1 else 0, view := hops, data := bs }

/-- Bytes of a ring operation that the next member has not yet taken in. -/
def State.ringOut (s : State) (e : EngOp) (c : Claim) : Nat :=
  let sent (q : Port) : Nat := q.unacked.foldl (fun n x => n + if x.2.opId == e.id && x.2.ptype == 7 then x.2.data.length else 0) 0
  s.fab.ports.foldl (fun n q => n + sent q) 0 + if s.ownRoute c then s.ringWaiting (s.jobOf e.ctx) c.ringId else 0

/-- Chunks go out while the next member has credit for them: 8 KiB (R307). -/
def State.ringPump (s : State) (e : EngOp) (c : Claim) : Nat → State
  | 0 => s
  | n + 1 =>
    match ((s.flight? e.id).map (·.queue)).getD [] with
    | [] => s
    | p :: ps =>
      if 8192 < s.ringOut e c + p.data.length then s
      else ((s.updFlight e.id fun f => { f with queue := ps }).emit c.port p).ringPump e c n

/-- Chunks to the next member, behind those that wait for credit. -/
def State.ringSend (s : State) (e : EngOp) (c : Claim) (ps : List Packet) : State :=
  let s := s.updFlight e.id fun f => { f with queue := f.queue ++ ps }
  s.ringPump e c (((s.flight? e.id).map (·.queue.length)).getD 0)

/-- A part of the ring's result has come (R306); it is written when all of it has, so that no aligned unit of 8 bytes is
written in parts (R296). -/
def State.ringWrite (s : State) (e : EngOp) (c : Claim) (j off : Nat) (bs : List Byte) : State :=
  s.updFlight e.id fun f => { f with wrote := f.wrote + bs.length, got := f.got ++ bs.mapIdx fun i b => (j * c.ringSeg + off + i, b) }

/-- Bytes of a ring's result, and where they begin (R306). -/
def Claim.ringTotal (c : Claim) : Nat := if c.ringOp == 0 then c.ringSeg else c.ringN * c.ringSeg
def Claim.ringBase (c : Claim) : Nat := if c.ringOp == 0 then c.ringPos * c.ringSeg else 0

/-- The segment that a member sends first: its own of an allgather, else the one before (R306). -/
def Claim.ringFirst (c : Claim) : Nat := if c.ringOp == 1 then c.ringPos else (c.ringPos + c.ringN - 1) % c.ringN

/-- A RING starts: the member's first segment goes out, an allgather writes its own, and chunks of this epoch that have
waited are taken (R306, R307). -/
def State.ringStart (s : State) (e : EngOp) (c : Claim) (bs : List Byte) : State :=
  let gather := c.ringOp == 1
  let j := c.ringFirst
  let s := if gather then s.ringWrite e c j 0 bs else s
  let s := s.ringSend e c ((packetData 0 bs).map fun x => s.ringPacket e c c.count j x.1 gather 1 x.2)
  let mine (p : Packet) : Bool := inRing p (s.jobOf e.ctx) c.ringId && p.tag == c.count
  { s with agenda := s.agenda ++ (s.fab.chunks.filter mine).map .ringChunkRx
           fab := { s.fab with chunks := s.fab.chunks.filter fun p => !mine p } }

/-- An MCST's packet goes to its order point. -/
def State.sendMcst (s : State) (port : Nat) (c : Claim) (p : Packet) : State :=
  if c.xop then s.sendOn port { p with srcN := s.fab.node } else s.emit port p

/-- The first packets of an operation whose checks have passed. -/
def State.launchOp (s : State) (e : EngOp) (c : Claim) (bs : List Byte) : State :=
  match e.ins with
  | .puts .. | .radd .. => (s.putPackets e c bs).foldl (fun s p => s.emit c.port p) s
  | .get .. => s.emit c.port { s.packet e c 2 with va := c.src + BitVec.ofNat 64 (e.off 0), arrive := e.len }
  | .ratom .. => s.emit c.port (s.ratomPacket e c c.count 0)
  | .mcst .. =>
    let p := { s.packet e c 8 with doff := e.off 1, noarv := fabNoarv e.ins, data := bs, tag := c.count }
    let s := s.updFlight e.id fun f => { f with pkt := some p }
    s.sendMcst c.port c p
  | .ring .. => s.ringStart e c bs
  | _ => s

/-- Where the local source of an operation lies, if it has one. -/
def State.fabFrom (s : State) (e : EngOp) (u : UnitSt) (c : Claim) : ClaimSide :=
  match e.ins with
  | .puts .. | .radd .. | .mcst .. => if e.len == 0 then .scr [] else s.side u .r c.srcScr c.src (e.off 0) e.len
  | .ring .. => s.side u .r c.srcScr c.src (c.ringFirst * c.ringSeg) c.ringSeg
  | _ => .scr []

/-- The local source of an operation: bytes; or a poisoned line among them (R374), or a write of the unit's engines that is
still to be performed (R249). -/
def State.fabSource (s : State) (e : EngOp) (u : UnitSt) (c : Claim) : Except (Option Nat) (List Byte) :=
  let d := s.fabFrom e u c
  match s.poisonedSide d with
  | some l => .error (some l)
  | none => if s.engineBusy u.uid d then .error none else .ok (s.readSide u d)

/-- The claim of an operation that is no longer in progress (R236, R296). -/
def State.fabOver (s : State) (e : EngOp) : State :=
  match e.claim.bind fun h => s.claim? e.ctx h with
  | some c => if s.inProgress e.ctx c.h then s else s.endClaimOp e.ctx c
  | none => s

/-- An operation in progress whose local memory has been retired ends severed, and is reported (R239, R296, R375).
DEDUCED, log 25. -/
def State.loseFab (s : State) (e : EngOp) (c : Claim) : State :=
  ((s.severFabric e c).fabOver e).report { ctx := e.ctx, kind := 7, detail := c.h, addr := c.node }

/-- An operation's turn on its claim has come. -/
def State.fabBegin (s : State) (e : EngOp) : State :=
  if !s.fabTurn e then s
  else
    let st := s.fabStatus e
    if st != 0 then
      let v := match e.ins with
        | .mcseq .. => st + 2 ^ 63
        | _ => st
      s.complete { e with wc := none } (BitVec.ofNat 128 v)
    else
      match s.unit? e.unit, s.claim? e.ctx e.handle with
      | some u, some c =>
        match e.ins with
        | .mcseq .. => s.observed.complete e (BitVec.ofNat 128 (wd64 e.recd 0))
        | i =>
          let empty := match i with
            | .puts .. | .get .. | .radd .. => e.len == 0
            | _ => false
          if empty then s.complete e 0
          else
            match s.fabSource e u c with
            | .error (some l) => s.consume l (some e.ctx)
            | .error none => s
            | .ok bs =>
              let s := s.fillSide e.ctx e.core (s.fabFrom e u c)
              if s.fabFrom e u c == .lost then (s.takeOff e c).loseFab { e with claim := some c.h } c
              else (s.takeOff e c).launchOp e c bs
      | _, _ => s

/-! ### Ends (R296, R298) -/

/-- An operation is no longer in progress: F falls unless it has fallen, the claim leaves FLOWING with its last one. -/
def State.fabEnd (s : State) (e : EngOp) (v : BitVec 128) : State :=
  ((s.complete e v).raiseEgwct e.unit (e.tids.map (·.1)) s.dt).fabOver e

/-- A GET or RING whose writes are performed arrives, with its bytes, and ends. -/
def State.fabArrive (s : State) (e : EngOp) (u : UnitSt) (c : Claim) (n : Nat) : State :=
  let s := if c.arv && !fabNoarv e.ins then s.claimArrive u (e.tids.map (·.1)) c n else s
  (s.dropFlight e.id).fabEnd { e with wd := 0 } 0

/-- All `n` bytes of a GET or RING have come, for its destination from an offset: they are written (R299, R306). -/
def State.fabWrite (s : State) (e : EngOp) (u : UnitSt) (c : Claim) (got : List (Nat × Byte)) (from_ off n : Nat) : State :=
  let id := s.nextId
  let m : Memory := Memory.writeCells [] got
  let arrives := c.arv && !fabNoarv e.ins
  let d := s.side u .w c.dstScr c.dst off n
  if d == .lost || (arrives && s.awLost e.ctx c) then s.loseFab e c
  else
    let s := s.writeSide u.uid (e.tids.map (·.1)) d ((List.range n).map fun i => m.read (from_ + i)) arrives
    if s.unperformed [id] then s.updEng e.id fun e => { e with phase := .landed, held := [id] } else s.fabArrive e u c n

/-- A GET whose bytes have all come is written, after earlier GETs of its claim, and arrives (R299, R318). -/
def State.getEnd (s : State) (e : EngOp) (u : UnitSt) (c : Claim) (f : Flight) : State :=
  let earlier := s.eng.any fun x => x.ctx == e.ctx && x.claim == e.claim && decide (x.id < e.id) &&
    (x.phase == .begun || x.phase == .landed)
  if e.phase == .landed then (if s.unperformed e.held then s else s.fabArrive e u c e.len)
  else if f.got.length < e.len || earlier then s
  else s.fabWrite e u c f.got 0 (e.off 1) e.len

/-- A RING whose whole result is there writes it, arrives and completes (R306). -/
def State.ringEnd (s : State) (e : EngOp) (u : UnitSt) (c : Claim) (f : Flight) : State :=
  let s := s.ringPump e c f.queue.length
  if f.wrote < c.ringTotal || s.unperformed e.held || (s.flight? e.id).any fun f => !f.queue.isEmpty then s
  else if e.phase == .landed then s.fabArrive e u c c.ringTotal
  else s.fabWrite e u c f.got c.ringBase c.ringBase c.ringTotal

/-- One step of a fabric operation inside its engine. -/
def State.fabStep (s : State) (e : EngOp) : State :=
  match e.phase with
  | .accepted => s.fabBegin e
  | .begun | .landed =>
    match s.unit? e.unit, e.claim.bind fun h => s.claim? e.ctx h, s.flight? e.id with
    | some u, some c, some f =>
      match e.ins with
      | .get .. => s.getEnd e u c f
      | .ring .. => s.ringEnd e u c f
      | _ => s
    | _, _, _ => s
  | .fabAccepted => s

/-- ENGINE_OP_COMPLETE: operations of the copy and fabric engines that have no end event of their own. -/
def execEngineOpComplete (op : Nat) (s : State) : Out :=
  match s.engOp? op with
  | none => .next s
  | some e => .next (if isFabOp e.ins then s.fabStep e else s.copyDone e)

/-- The two-completion operations: PUTS, RADD, MCST (R298). -/
def hasLanding : Instr → Bool
  | .puts .. | .radd .. | .mcst .. => true
  | _ => false

/-- Whether a put, radd or MCST is accepted: no link holds a packet of it unacknowledged, or it has its stamp. -/
def State.isAccepted (s : State) (e : EngOp) : Bool :=
  match e.ins with
  | .mcst .. => ((s.flight? e.id).map (·.stamp.isSome)).getD false
  | _ => !(s.fab.ports.any fun q => q.unacked.any fun x => x.2.opId == e.id && (x.2.ptype == 1 || x.2.ptype == 4))

/-- FABRIC_ACCEPTED: F falls, unless the claim waits for the landing (wfl). -/
def execFabricAccepted (op : Nat) (s : State) : Out :=
  match s.engOp? op with
  | none => .next s
  | some e =>
    if !hasLanding e.ins || e.phase != .begun || !s.isAccepted e then .next s
    else
      let wfl := ((e.claim.bind fun h => s.claim? e.ctx h).map Claim.wfl).getD false
      let f (i : Nat) (th : Thread) : Thread := if e.tids.any (·.1 == i) then th.lower .f else th
      let s := s.updEng op fun e => { e with phase := .fabAccepted, fell := !wfl }
      .next (if wfl then s else s.updUnit e.unit fun u => { u with threads := u.threads.mapIdx f })

/-- What this node can tell of a landing: its own packets are performed, an MCST's landing has been reported.
DESIGN CHOICE, log 29. -/
def State.mayLand (s : State) (e : EngOp) : Bool :=
  match e.ins with
  | .mcst .. => ((s.flight? e.id).map (·.done.isSome)).getD false
  | _ => (s.agenda.filterMap (ownPut s.fab.node e.id)).isEmpty

/-- FABRIC_LANDED. -/
def execFabricLanded (op : Nat) (s : State) : Out :=
  match s.engOp? op with
  | none => .next s
  | some e =>
    if e.phase != .fabAccepted || !s.mayLand e then .next s
    else .next ((s.dropFlight op).fabEnd { e with wd := 0 } 0)

/-! ### Remote atomics at the requester (R303, R304) -/

/-- RATOM_RETRY: no response 20 µs after a send; the age is still below 500 µs. -/
def execRatomRetry (op : Nat) (s : State) : Out :=
  match s.engOp? op, s.flight? op with
  | some e, some f =>
    match e.claim.bind fun h => s.claim? e.ctx h with
    | none => .next s
    | some c =>
      if !isRatom e.ins || e.phase != .begun || s.dt < f.sent + 20000 || f.first + 500000 ≤ s.dt then .next s
      else
        let port := ((s.portsTo c.farNode).find? (· != f.port)).getD f.port
        let s := s.updFlight op fun f => { f with sent := s.dt, port := port }
        .next (s.emit port (s.ratomPacket e c f.tag ((s.dt - f.first) / 100)))
  | _, _ => .next s

/-- RATOM_UNKNOWN: 520 µs after the first issue without a response. -/
def execRatomUnknown (op : Nat) (s : State) : Out :=
  match s.engOp? op, s.flight? op with
  | some e, some f =>
    if !isRatom e.ins || e.phase != .begun || s.dt < f.first + 520000 then .next s
    else .next ((s.updFlight op fun f => { f with done := some s.dt }).fabEnd { e with wc := none } 21)
  | _, _ => .next s

/-- RATOM_SLOT_RELEASE: 1 ms after the response or UNKNOWN. -/
def execRatomSlotRelease (op : Nat) (s : State) : Out :=
  match s.flight? op with
  | some f =>
    match f.done with
    | some t => .next (if t + 1000000 ≤ s.dt && (s.engOp? op).isNone then s.dropFlight op else s)
    | none => .next s
  | none => .next s

/-- RATOM_RESPONSE_RX: the old value goes to the c group, and d is OK. -/
def execRatomResponseRx (p : Packet) (s : State) : Out :=
  match s.engOp? p.opId with
  | none => .next s
  | some e =>
    match e.ins with
    | .ratom wide _ _ _ _ c =>
      if e.phase != .begun || ((s.flight? e.id).map (·.tag)) != some p.tag then .next s
      else
        let v := BitVec.ofNat 128 (ofLe (p.data.take 8))
        let f (i : Nat) (th : Thread) : Thread :=
          if e.tids.any (·.1 == i) then th.putN c.toNat (if wide then 2 else 1) v else th
        let s := s.updUnit e.unit fun u => { u with threads := u.threads.mapIdx f }
        .next ((s.updFlight e.id fun f => { f with done := some s.dt }).fabEnd e 0)
    | _ => .next s

/-! ### Packets at the target (R299, R300, R303) -/

/-- A packet's write, RMW or arrival at home slices: its number, while it is not performed (R85). -/
def State.farOp (s : State) (pas : List Nat) (k : MemKind) : State × Option Nat :=
  let id := s.nextId
  let s := s.postHome id 1024 pas k
  if s.unperformed [id] then (s, some id) else (s.dropOp id, none)

/-- A packet of another node is about to write: what it overwrites may still be read until the write is observed (R319). -/
def State.keepFar (s : State) (c : Nat) (p : Packet) (pas : List Nat) : State :=
  if p.srcN == s.fab.node then s else s.keepPast c pas

/-- A packet waits at the home slice for its write, before other events of the agenda. -/
def State.again (s : State) (i : Instr) : State := { s with agenda := i :: s.agenda }

/-- What a packet has posted is performed, or is not yet; none when it has posted nothing. -/
def State.farDone (s : State) (p : Packet) : Option Bool := p.held.head?.map fun id => !s.unperformed [id]

/-- The arrival that a put or radd packet carries, once its writes are performed (R94, R181). -/
def State.putArrive (s : State) (c : Nat) (p : Packet) : State :=
  match p.aw with
  | none => s
  | some aw =>
    match s.reach c aw .w 16 with
    | .ok pas =>
      match s.farOp pas (.farArrive c p.arrive) with
      | (s, some id) => s.again (.putPacketRx { p with data := [], held := [id] })
      | (s, none) => s
    | _ => s

/-- PUT_PACKET_RX: the payload is written, or added, in the target context; the last packet arrives. -/
def execPutPacketRx (p : Packet) (s : State) : Out :=
  match s.jobCtx p.job with
  | none => .next s
  | some t =>
    match s.farDone p with
    | some false => .next (s.again (.putPacketRx p))
    | some true =>
      let s := s.dropOp (p.held.headD 0)
      .next (if p.data.isEmpty then s else s.putArrive t.ctx p)
    | none =>
      match s.reach t.ctx p.va .w p.data.length with
      | .ok pas =>
        match (if p.ptype == 4 then s.poisoned pas else none) with
        | some l => .next ((s.again (.putPacketRx p)).consume l (some t.ctx))
        | none =>
          match (s.keepFar t.ctx p pas).farOp pas (if p.ptype == 4 then .farAdd t.ctx p.sub p.data else .far t.ctx p.data) with
          | (s, some id) => .next (s.again (.putPacketRx { p with held := [id] }))
          | (s, none) => .next (s.putArrive t.ctx p)
      | _ => .next s

/-- GET_REQUEST_RX: the target's bytes go back in packets of up to 4 KiB. -/
def execGetRequestRx (p : Packet) (s : State) : Out :=
  match s.jobCtx p.job with
  | none => .next s
  | some t =>
    match s.reach t.ctx p.va .r p.arrive with
    | .ok pas =>
      match s.poisoned pas with
      | some l => .next ((s.again (.getRequestRx p)).consume l (some t.ctx))
      | none =>
        .next ((packetData 0 (pas.map s.mem.read)).foldl (fun s x =>
          s.emitTo { ptype := 3, dstN := p.srcN, job := p.job, claim := p.claim, handle := p.handle, opId := p.opId, doff := x.1, data := x.2
                     last := x.1 + x.2.length == p.arrive, ctype := p.ctype }) s)
    | _ => .next s

/-- GET_DATA_RX: data of a GET in progress; once all has come, it is written and arrives. -/
def execGetDataRx (p : Packet) (s : State) : Out :=
  match s.engOp? p.opId with
  | none => .next s
  | some e =>
    match e.ins with
    | .get .. =>
      if e.phase != .begun then .next s
      else
        let cells := p.data.mapIdx fun i b => (p.doff + i, b)
        let s := s.updFlight e.id fun f =>
          { f with got := f.got ++ cells.filter fun c => !(f.got.any (·.1 == c.1)) }
        .next (s.fabStep e)
    | _ => .next s

/-- Cached results younger than 1 ms (R303). DEDUCED, log 27. -/
def State.freshCache (s : State) : List CacheE := s.fab.cache.filter fun x => s.dt < x.at_ + 1000000

/-- The answer to a request: the old value. -/
def State.respond (s : State) (p : Packet) (v : DWord) : State :=
  s.emitTo { ptype := 6, dstN := p.srcN, job := p.job, claim := p.claim, handle := p.handle, opId := p.opId, tag := p.tag,
             data := leBytes 8 v.toNat }

/-- The RMW of a request has been performed: its result is cached, and answered. -/
def State.ratomDone (s : State) (p : Packet) (v : DWord) : State :=
  let x : CacheE := { src := p.srcN, claim := p.claim, tag := p.tag, result := v, at_ := s.dt }
  ({ s with fab := { s.fab with cache := x :: s.freshCache } } : State).respond p v

/-- RATOM_REQUEST_RX: performed once at an age of at most 500 µs, answered from the cache, or discarded. The age grows while
the request waits in a port, and up to the GWCT at which its RMW is performed. -/
def execRatomRequestRx (p : Packet) (s : State) : Out :=
  match s.farDone p with
  | some false => .next (s.again (.ratomRequestRx p))
  | some true =>
    let id := p.held.headD 0
    let v := (((s.op? id).map MemOp.res).getD 0).setWidth 64
    .next ((s.dropOp id).ratomDone p v)
  | none =>
    match s.fab.cache.find? fun x => x.src == p.srcN && x.claim == p.claim && x.tag == p.tag with
    | some x => .next (s.respond p x.result)
    | none =>
      match s.jobCtx p.job, AtomOp.ofCode (BitVec.ofNat 4 p.sub) with
      | some t, some op =>
        match s.reach t.ctx p.va .w (if p.wide then 8 else 4) with
        | .ok pas =>
          if 5000 < p.ageNow (s.gwctOf (linesOf pas)) then .next s
          else
            match s.poisoned pas with
            | some l => .next ((s.again (.ratomRequestRx p)).consume l (some t.ctx))
            | none =>
              let o := BitVec.ofNat 128 (ofLe p.data)
              let id := s.nextId
              let s := s.postHome id 1024 pas (.farAtom t.ctx op p.wide (atomX p.wide o) (atomY p.wide o))
              if s.unperformed [id] then .next (s.again (.ratomRequestRx { p with held := [id] }))
              else .next ((s.dropOp id).ratomDone p ((((s.op? id).map MemOp.res).getD 0).setWidth 64))
        | _ => .next s
      | _, _ => .next s

/-! ### Ring chunks (R306, R307) -/

/-- The ring claim of this member and the RING of an epoch, if it has been issued and is in progress. -/
def State.ringOf (s : State) (p : Packet) : Option (Claim × EngOp) :=
  (s.jobCtx p.job).bind fun t =>
    (t.claims.filter fun c => c.kind == 7 && c.pins && c.ringId == p.claim).findSome? fun c =>
      (s.eng.find? fun e => e.ctx == t.ctx && e.claim == some c.h && e.phase == .begun &&
        ((s.flight? e.id).map (·.tag)) == some p.tag).map fun e => (c, e)

/-- A chunk of an epoch that this member has not begun waits in its claim's landing space; one that finds no space there
stays where it is (R307). -/
def State.parkChunk (s : State) (p : Packet) : State :=
  if s.noCredit p then { s with agenda := s.agenda ++ [.ringChunkRx p] }
  else { s with fab := { s.fab with chunks := s.fab.chunks ++ [p] } }

/-- RING_CHUNK_RX: a partial sum gains this member's contribution and goes on, or is a finished segment; a finished
segment is written and goes on to the members that lack it. -/
def execRingChunkRx (p : Packet) (s : State) : Out :=
  match s.ringOf p with
  | none => .next (s.parkChunk p)
  | some (c, e) =>
    match s.unit? e.unit with
    | none => .next s
    | some u =>
      if p.sub == 1 then
        let s := s.ringWrite e c p.seq p.doff p.data
        .next (if p.view + 1 < c.ringN then s.ringSend e c [s.ringPacket e c p.tag p.seq p.doff true (p.view + 1) p.data] else s)
      else
        match s.poisonedSide (s.side u .r c.srcScr c.src (p.seq * c.ringSeg + p.doff) p.data.length) with
        | some l => .next ((s.again (.ringChunkRx p)).consume l (some e.ctx))
        | none =>
        let own := s.ringOwn u c p.seq p.doff p.data.length
        let acc := raddBytes (c.ringType) p.data own
        if p.view + 1 < c.ringN then .next (s.ringSend e c [s.ringPacket e c p.tag p.seq p.doff false (p.view + 1) acc])
        else
          let s := s.ringWrite e c (if c.ringOp == 0 then c.ringPos else p.seq) p.doff acc
          .next (if c.ringOp == 2 then s.ringSend e c [s.ringPacket e c p.tag p.seq p.doff true 1 acc] else s)

end Sys2Proof.Machine
end

