-- ==== Sys2Proof/Machine/Fetch.lean ====
section
/-! DEFINITION. Fetching (R26, R28): the word at a path's position, the stepped word of a repetition (R48), the check of
a whole clause (R29), and what a failed fetch does. -/

namespace Sys2Proof.Machine

/-- The word at position `k` of a clause, translated for execution. -/
inductive Got where
  | word (w : DWord)
  | miss (va : DWord)
  | trap (t : Trap)
  deriving DecidableEq, Repr

def State.codeWord (s : State) (c : Nat) (hdr : Pc) (k : Nat) : Got :=
  match s.reach c (Pos.addr { hdr := hdr, widx := k }) .x 8 with
  | .ok pas => .word (BitVec.ofNat 64 (s.mem.readN pas))
  | .miss va => .miss va
  | .trap t => .trap t

/-- The poisoned line that a path's fetch meets: at a header the whole clause is read, and behind a REP the repeated word (R29,
R49, R373). -/
def State.codePoison (s : State) (c : Nat) (p : Path) : Option Nat :=
  let at_ := match s.codeWord c p.hdr p.widx with
    | .word w =>
      if p.widx == 0 then List.range ((decodeHeader w).cnt.toNat + 2)
      else if fld w 56 8 == 0x9E#8 then [p.widx, p.widx + 1] else [p.widx]
    | _ => []
  at_.findSome? fun k =>
    match s.reach c (Pos.addr { hdr := p.hdr, widx := k }) .x 8 with
    | .ok pas => s.poisoned pas
    | _ => none

/-- Where a register field stands in a word, by the opcode's format (R34, R39). -/
def fieldLow (op : BitVec 8) (f : Fld) : Nat :=
  if op.toNat / 16 == 0xC then
    match f with
    | .d => 31 | .a => 22 | _ => 13
  else if op == 0x80 then 43
  else
    match f with
    | .d => 43 | .a => 34 | .b => 25 | .c => 16

/-- A word with one register field replaced. -/
def setField (w : DWord) (lo : Nat) (r : VReg) : DWord :=
  (w &&& ~~~((0x1FF#64) <<< lo)) ||| (r.setWidth 64 <<< lo)

/-- The value of a field in repetition k, unless it leaves 0 to 511 (R49). -/
def stepField (w : DWord) (k : Nat) (f : Fld) (step : Int) : Option VReg :=
  let x : Int := (fld w (fieldLow (fld w 56 8) f) 9 : VReg).toNat + k * step
  if 0 ≤ x ∧ x < 512 then some (BitVec.ofNat 9 x.toNat) else none

/-- One field stepped, a step of zero leaving the word as it is. -/
def stepOne (k : Nat) (w : DWord) (fs : Fld × Int) : DWord :=
  if fs.2 == 0 then w
  else
    match stepField w k fs.1 fs.2 with
    | some r => setField w (fieldLow (fld w 56 8) fs.1) r
    | none => w

/-- The repeated word with its fields at repetition k (R48). -/
def RepSt.word (r : RepSt) (w : DWord) : DWord :=
  [(Fld.d, r.sd), (.a, r.sa), (.b, r.sb), (.c, r.sc)].foldl (stepOne r.k) w

/-- The sub-cause of a word that is no instruction (R193). -/
def badSub : Bad → Nat
  | .unassigned => 1 | .reservedField => 2 | .reservedValue => 3

/-- ILLEGAL_INSTR for a word that does not decode. The word after a REP can decide the cause (R49). -/
def State.badWord (s : State) (v : View) (w : DWord) (b : Bad) : Trap :=
  let next := s.wordAt v.u.ctx { hdr := v.p.hdr, widx := v.p.widx + 1 }
  if fld w 56 8 == 0x9E#8 && v.p.rep.isNone && (opClass (fld next 56 8)).isNone then
    { cause := .illegalInstr, sub := 1, info := (next >>> 32).setWidth 32, addr := v.p.pos.addr }
  else s.illegal v (badSub b)

/-- What a path finds at its position. -/
inductive Fetched1 where
  | run (i : Instr)
  | trap (t : Trap)
  | miss (va : DWord)
  deriving DecidableEq, Repr

def State.fetchInstr (s : State) (v : View) : Fetched1 :=
  match s.codeWord v.u.ctx v.p.hdr v.p.widx with
  | .miss va => .miss va
  | .trap t => .trap t
  | .word w =>
    if v.p.widx == 0 then .run (.clauseHeader (decodeHeader w))
    else
      match decodeWord (match v.p.rep with | some r => r.word w | none => w) with
      | .ok i => .run i
      | .error b => .trap (s.badWord v w b)

/-- The threads of the path wait for the translation of a fetch (R199). -/
def State.missAll (s : State) (v : View) (va : DWord) : State := s.finish v (v.p.tids.map fun t => (t, .miss va none))

/-- The instruction words of a clause, in order. -/
def State.clauseWords (s : State) (c : Nat) (hdr : Pc) (k : Nat) : Nat → Except Got (List DWord)
  | 0 => .ok []
  | n + 1 =>
    match s.codeWord c hdr k with
    | .word w =>
      match s.clauseWords c hdr (k + 1) n with
      | .ok ws => .ok (w :: ws)
      | .error g => .error g
    | g => .error g

def isRepWord (w : DWord) : Bool := fld w 56 8 == 0x9E#8

/-- An assigned opcode of another class (R29); REP and the all-zero word stand in any clause. -/
def classClash (cls : Nat) (w : DWord) : Bool :=
  w != 0 &&
  match opClass (fld w 56 8) with
  | none | some 15 => false
  | some k => k != cls

def endsEarly : List DWord → Bool
  | w :: w' :: ws => opEnds (fld w 56 8) || endsEarly (w' :: ws)
  | _ => false

def repMisplaced : List DWord → Bool
  | [] => false
  | [w] => isRepWord w
  | w :: w' :: ws => (isRepWord w && (isRepWord w' || opEnds (fld w' 56 8))) || repMisplaced (w' :: ws)

/-- The header's own checks (R29), by sub-cause. -/
def headerBad (h : Header) : Option Nat :=
  if h.sig != 0b1010#4 then some 1 else if 7 ≤ h.cls.toNat then some 2 else if h.rsv != 0 then some 3 else none

/-- The checks of the clause's words (R29), by sub-cause. DEDUCED, log 18. -/
def clauseBad (h : Header) (ws : List DWord) : Option Nat :=
  if ws.any (classClash h.cls.toNat) then some 4
  else if endsEarly ws then some 5
  else if repMisplaced ws then some 6
  else none

/-- Clause ILLEGAL_CLAUSE trap at a header. -/
def badClause (h : Header) (hdr : Pc) (sub : Nat) : Trap :=
  { cause := .illegalClause, sub := sub, addr := hdr.setWidth 64
    info := (((encode (.clauseHeader h)).getD 0) >>> 32).setWidth 32 }

/-- A counter meets a wait field (R32). -/
def meets (limit count : BitVec 6) : Bool := limit == 63 || decide (count.toNat ≤ limit.toNat)

def headerMet (h : Header) (c : Ctrs) : Bool :=
  meets h.wL c.l && meets h.wS c.s && meets h.wC c.c && meets h.wT c.t && meets h.wF c.f

/-- The whole check of a clause whose header is at `hdr`. -/
inductive Checked where
  | ok
  | trap (t : Trap)
  | miss (va : DWord)
  deriving DecidableEq, Repr

def State.checkClause (s : State) (c : Nat) (hdr : Pc) (h : Header) : Checked :=
  match headerBad h with
  | some sub => .trap (badClause h hdr sub)
  | none =>
    match s.clauseWords c hdr 1 (h.cnt.toNat + 1) with
    | .error (.miss va) => .miss va
    | .error (.trap t) => .trap t
    | .error (.word _) => .ok
    | .ok ws =>
      match clauseBad h ws with
      | some sub => .trap (badClause h hdr sub)
      | none => .ok

/-- The path in its slot replaced. -/
def State.putPath (s : State) (v : View) (p : Path) : State :=
  s.updUnit v.u.uid fun u => u.setBundle (((u.bundle? v.b.bid).getD v.b).setPath v.pr.slot (some p))

/-- A clause header (R27 to R32): the whole clause is checked, then its wait fields hold the path. The path's first
instruction may issue in the same kclk. -/
def execClauseHeader (h : Header) (s : State) : Out :=
  match s.view? with
  | none => .next s
  | some v =>
    match s.checkClause v.u.ctx v.p.hdr h with
    | .trap t => .next (s.trapAll v t)
    | .miss va => .next (s.missAll v va)
    | .ok =>
      if v.p.tids.all fun t => headerMet h (v.u.thread t).ctrs then
        .next { s.putPath v { v.p with widx := 1, cnt := h.cnt.toNat + 1, cls := h.cls.toNat, hint := h.yld == 1 } with issueQ := v.pr :: s.issueQ }
      else .next s

end Sys2Proof.Machine
end

