-- ==== Sys2Proof/Machine/Sweep.lean ====
section
/-! DEFINITION. The sweep engine (R201 to R228): operands and their checks at issue, what each sweep computes segment by
segment, its start and completion, and the filling of scratchpad pages. -/

namespace Sys2Proof.Machine

/-! ### Elements -/

/-- Float format of a sweep type. -/
def sfmt : STy → Fmt
  | .bf16 => bf16 | .f16 => fp16 | .e4m3 => fE4m3 | .e5m2 => fE5m2
  | _ => fp32

def sw (t : STy) : Nat := 8 * t.bytes
/-- Elements of a segment (R201). -/
def perSeg (t : STy) : Nat := 128 / t.bytes

def selemVal (t : STy) (c : Nat) : Val := if t.isInt then Val.ofInt (toSigned (sw t) c) else (sfmt t).dec c

/-- Wraps, or clamps with sat (R209). -/
def fitInt (t : STy) (sat : Bool) (x : Int) : Nat := wrap (sw t) (if sat then clampTo true (sw t) x else x)

/-- The greater or the lesser of two codes: floats by R138, integers signed. -/
def pickCode (t : STy) (big : Bool) (a b : Nat) : Nat :=
  if t.isInt then
    let x := toSigned (sw t) a
    let y := toSigned (sw t) b
    fitInt t false (if big then max x y else min x y)
  else (sfmt t).round .rne false (if big then Val.max2 (selemVal t a) (selemVal t b) else Val.min2 (selemVal t a) (selemVal t b))

/-- An arithmetic result: integers fitted, floats rounded once (R207, R209). -/
def arith (t : STy) (rm : RM) (sat : Bool) (fi : Int) (fv : Val) : Nat :=
  if t.isInt then fitInt t sat fi else (sfmt t).round rm sat fv

/-- R210: for 16-bit types the FP32 value is one that every rounding takes to within 1 ulp of T of the true value. -/
def oneUlp (t : STy) : Further := fun v c =>
  t.bytes != 2 || [RM.rne, .rtz, .rup, .rdn].all fun rm =>
    match v with
    | .fin _ m e => within (sfmt t) v 1 ((sfmt t).quantum m e) ((sfmt t).round rm false (fp32.dec c))
    | _ => true

/-- SWEXP and SWRCP (R210). -/
def sweepExp (t : STy) (rm : RM) (sat : Bool) (a b : Nat) : Nat :=
  let x := fp32.round .rne false (Val.mul (selemVal t a) (selemVal t b))
  (sfmt t).round rm sat (fp32.dec (approxExp2With (oneUlp t) fp32 false x (fp32.dec x)))
def sweepRcp (t : STy) (rm : RM) (sat : Bool) (a : Nat) : Nat :=
  let x := fp32.round .rne false (selemVal t a)
  (sfmt t).round rm sat (fp32.dec (approxRcpWith (oneUlp t) fp32 false x (fp32.dec x)))

/-- One converted element (R211). -/
def convElem (s d : STy) (rm : RM) (c : Nat) : Nat :=
  if !d.isInt then (sfmt d).round rm false (selemVal s c)
  else if s.isInt then fitInt d true (toSigned (sw s) c)
  else wrap (sw d) (Val.toInt rm (loOf true (sw d)) (hiOf true (sw d)) (selemVal s c))

/-! ### Cursors (R202) -/

structure Cur where
  addr : Nat
  step : Int
  deriving DecidableEq, Repr

def cursor (v : BitVec 128) : Cur := { addr := v.toNat % 2 ^ 22, step := 16 * toSigned 10 (v.toNat / 2 ^ 22 % 2 ^ 10) }
def Cur.seg (c : Cur) (i : Nat) : Int := c.addr + i * c.step

/-! ### Checks at issue (R204) -/

/-- A byte range that an operation touches: start, length, alignment. -/
structure Rng where
  at_ : Int
  len : Nat
  al  : Nat
  deriving DecidableEq, Repr

def segs (c : Cur) (n len al : Nat) : List Rng := (List.range n).map fun i => ⟨c.seg i, len, al⟩
def recs (c : Cur) (n size : Nat) : List Rng := (List.range n).map fun (i : Nat) => ⟨c.addr + i * size, size, 1⟩

/-- Elements of a segment of a conversion (R211). -/
def cvtLanes (s d : STy) : Nat := 128 / max s.bytes d.bytes

/-- The FS fields of a sweep. -/
def sweepF : Instr → SwF
  | .swadd f _ | .swmul f _ | .swfma f _ | .swmax f _ | .swmin f _ | .swexp f _ | .swrcp f _ | .swcvt f _ _ | .swqmx f _ _
  | .swdmx f _ _ | .swred f _ _ _ | .swcmp f _ _ | .swsel f _ | .swcpy f _ | .swgat f _ | .swtrn f => f
  | _ => { ty := .i32, count := 0, d := 0, a := 0, b := 0, bound := 0 }

/-- Whether b is a scalar register; none when b is not used. -/
def sweepB : Instr → Option Bool
  | .swadd _ m | .swmul _ m | .swfma _ m | .swexp _ m => some m.scal
  | .swmax _ sc | .swmin _ sc | .swcmp _ _ sc | .swsel _ sc => some sc
  | .swcpy _ sc => if sc then some true else none
  | .swgat _ _ => some false
  | _ => none

/-- Whether a is used: not by a fill. -/
def sweepA : Instr → Bool
  | .swcpy _ sc => !sc
  | _ => true

/-- Registers that a sweep reads from its elected lane. -/
def sweepUses (i : Instr) : List RegUse :=
  let f := sweepF i
  src .d f.d :: ((if sweepA i then [src .a f.a] else []) ++ (if (sweepB i).isSome then [src .b f.b] else []))

/-- Ranges of the operands, in the order d, a, b. -/
def sweepRanges (i : Instr) (o : Opnds) : List Rng :=
  let f := sweepF i
  let n := f.count.toNat
  let e := f.ty.bytes
  let d := cursor o.d
  let a := cursor o.a
  match i with
  | .swcvt _ t _ => segs d n (cvtLanes f.ty t * t.bytes) t.bytes ++ segs a n (cvtLanes f.ty t * e) e
  | .swqmx _ mx _ => recs d n (mxSize mx) ++ segs a n 128 4
  | .swdmx _ mx _ => segs d n 128 4 ++ recs a n (mxSize mx)
  | .swred .. => [⟨d.addr, 128, e⟩] ++ segs a n 128 e
  | .swgat _ k => segs d n 128 e ++ [⟨a.addr, 2 ^ k.toNat * e, 1⟩] ++ segs (cursor o.b) n 128 e
  | _ => segs d n 128 e ++ (if sweepA i then segs a n 128 e else []) ++
      (if sweepB i == some false then segs (cursor o.b) n 128 e else [])

/-- SPACE_RANGE for one range, at the first byte that failed. -/
def Rng.bad (lim : Nat) (r : Rng) : Option Trap :=
  if r.at_ < 0 then some (mk 1 r.at_)
  else if (lim : Int) < r.at_ + r.len then some (mk 1 (max r.at_ lim))
  else if r.at_.toNat % r.al != 0 then some (mk 3 r.at_)
  else none
where
  mk (sub : Nat) (a : Int) : Trap :=
    { cause := .spaceRange, sub := sub, info := BitVec.ofNat 32 lim, addr := BitVec.ofInt 64 a }

/-- The arrival word of a slot with arv set. -/
def arvRange (b : Option BoundE) : List Rng :=
  match b with
  | some b => if b.arv then [⟨b.aw, 16, 16⟩] else []
  | none => []

def rangesBad (lim : Nat) (rs : List Rng) : Option Trap := rs.findSome? (Rng.bad lim)

/-! ### What a sweep computes -/

/-- The window as the sweep has it so far, the bytes written, the rounding, and what the slot has found. -/
structure Sw where
  scr   : Memory
  out   : Memory := []
  rm    : RM
  viol  : Nat := 0
  first : Option (Word × DWord) := none

/-- One value through a bound slot: what is written, and whether it violates. -/
def passSlot (b : Option BoundE) (t : STy) (c : Nat) : Nat × Bool :=
  match b with
  | none => (c, false)
  | some b =>
    if t.isInt then
      let r := b.passI (sw t) (toSigned (sw t) c)
      (wrap (sw t) r.1, r.2)
    else b.passF (sfmt t) c

def Sw.store (x : Sw) (a : Int) (bs : List Byte) : Sw :=
  let as := span a.toNat bs.length
  { x with scr := x.scr.writes as bs, out := x.out ++ as.zip bs }

/-- Counts one violation; the first is recorded as FP32 with its address (R222). DEDUCED, log 13. -/
def Sw.note (x : Sw) (v : Val) (a : Int) : Sw :=
  { x with viol := x.viol + 1
           first := match x.first with
             | some f => some f
             | none => some (BitVec.ofNat 32 (fp32.round .rne false v), BitVec.ofInt 64 a) }

/-- Writes one element through the slot. -/
def Sw.put (b : Option BoundE) (t : STy) (x : Sw) (a : Int) (c : Nat) : Sw :=
  let r := passSlot b t c
  let x := if r.2 then x.note (selemVal t c) a else x
  x.store a (leBytes t.bytes r.1)

/-- Writes the elements of one segment. -/
def Sw.row (b : Option BoundE) (t : STy) (x : Sw) (a : Int) (cs : List Nat) : Sw :=
  cs.zipIdx.foldl (fun (x : Sw) (c : Nat × Nat) => x.put b t (a + c.2 * t.bytes) c.1) x

def Sw.elem (x : Sw) (t : STy) (a : Int) (j : Nat) : Nat := x.scr.at_ (a.toNat + j * t.bytes) t.bytes

/-- The rounding of the next n elements, and the state after them (R65). -/
def Sw.rounds (x : Sw) (n : Nat) : List RM × RM :=
  (stepped x.rm n, match x.rm with | .sr g => .sr (lfsrSteps n g) | r => r)

/-- An element-wise sweep: every source byte of a segment is read before any is written (R219). -/
def sweepEw (f : SwF) (o : Opnds) (scal : Bool) (b : Option BoundE) (op : RM → Nat → Nat → Nat → Nat) (x : Sw) : Sw :=
  let t := f.ty
  let s := o.b.toNat % 2 ^ sw t
  (List.range f.count.toNat).foldl (fun (x : Sw) (i : Nat) =>
    let (rms, rm) := x.rounds (perSeg t)
    let at_ (v : BitVec 128) := (cursor v).seg i
    let cs := rms.zipIdx.map fun r =>
      op r.1 (x.elem t (at_ o.a) r.2) (if scal then s else x.elem t (at_ o.b) r.2) (x.elem t (at_ o.d) r.2)
    Sw.row b t { x with rm := rm } (at_ o.d) cs) x

/-- A sweep in which each segment's codes come from the window alone. -/
def sweepRows (n : Nat) (b : Option BoundE) (t : STy) (at_ : Nat → Int) (cs : Sw → Nat → List Nat) (x : Sw) : Sw :=
  (List.range n).foldl (fun x i => Sw.row b t x (at_ i) (cs x i)) x

def sweepCvt (f : SwF) (d : STy) (o : Opnds) (b : Option BoundE) (x : Sw) : Sw :=
  let m := cvtLanes f.ty d
  (List.range f.count.toNat).foldl (fun (x : Sw) (i : Nat) =>
    let (rms, rm) := x.rounds m
    let cs := rms.zipIdx.map fun r => convElem f.ty d r.1 (x.elem f.ty ((cursor o.a).seg i) r.2)
    Sw.row b d { x with rm := rm } ((cursor o.d).seg i) cs) x

/-- SWQMX: the 32 inputs are checked before renormalisation; a violating input is recorded at the record byte that
holds its element's first bit (log entry 13). -/
def sweepQmx (f : SwF) (mx : MxTy) (o : Opnds) (b : Option BoundE) (x : Sw) : Sw :=
  let w := bitsOf (mxElem mx)
  (List.range f.count.toNat).foldl (fun (x : Sw) (i : Nat) =>
    let d : Int := (cursor o.d).addr + i * mxSize mx
    let a := (cursor o.a).seg i
    let (rms, rm) := x.rounds 32
    let ins := (List.range 32).map fun j => x.elem .f32 a j
    let x := ins.zipIdx.foldl (fun (x : Sw) (c : Nat × Nat) =>
      if (passSlot b .f32 c.1).2 then x.note (fp32.dec c.1) (d + 1 + c.2 * w / 8) else x) { x with rm := rm }
    let vs := ins.map fun c => fp32.dec (passSlot b .f32 c).1
    x.store d (leBytes (mxSize mx) (mxWord mx (renormalise (mxElem mx) (vs.zip rms))))) x

def sweepDmx (f : SwF) (mx : MxTy) (o : Opnds) (b : Option BoundE) (x : Sw) : Sw :=
  sweepRows f.count.toNat b .f32 (cursor o.d).seg (fun x i =>
    (mxRead mx (x.scr.at_ ((cursor o.a).addr + i * mxSize mx) (mxSize mx))).map fun v => fp32.round x.rm false v) x

/-- Combines an accumulator element, on the left, with an element (R216). -/
def foldElem (t : STy) (op : FoldOp) (rm : RM) (a c : Nat) : Nat :=
  match op with
  | .add => arith t rm false (toSigned (sw t) a + toSigned (sw t) c) (Val.add rm (selemVal t a) (selemVal t c))
  | .max => pickCode t true a c
  | .min => pickCode t false a c

def sweepRed (f : SwF) (op : FoldOp) (acc : Bool) (o : Opnds) (b : Option BoundE) (x : Sw) : Sw :=
  let t := f.ty
  let n := f.count.toNat
  let row (a : Int) : List Nat := (List.range (perSeg t)).map fun j => x.elem t a j
  let d : Int := (cursor o.d).addr
  let rows := (List.range n).map fun i => row ((cursor o.a).seg i)
  let start := if acc then row d else rows.headD []
  let r := (if acc then rows else rows.drop 1).foldl (fun (y : List Nat × RM) cs =>
    let rms := stepped y.2 (perSeg t)
    (((y.1.zip cs).zip rms).map fun z => foldElem t op z.2 z.1.1 z.1.2,
     match y.2 with | .sr g => .sr (lfsrSteps (perSeg t) g) | rm => rm)) (start, x.rm)
  Sw.row b t x d r.1

def sweepGat (f : SwF) (k : Nat) (o : Opnds) (b : Option BoundE) (x : Sw) : Sw :=
  let t := f.ty
  sweepRows f.count.toNat b t (cursor o.d).seg (fun x i =>
    (List.range (perSeg t)).map fun j =>
      x.elem t (cursor o.a).addr (x.elem t ((cursor o.b).seg i) j % 2 ^ k)) x

/-- SWTRN: a whole group is read before it is written (R218, R219). -/
def sweepTrn (f : SwF) (o : Opnds) (b : Option BoundE) (x : Sw) : Sw :=
  let t := f.ty
  let e := perSeg t
  (List.range (f.count.toNat / 32)).foldl (fun x g =>
    let flat : List Nat := (List.range (32 * e)).map fun k => x.elem t ((cursor o.a).seg (32 * g + k % 32)) (k / 32)
    (List.range 32).foldl (fun x r => Sw.row b t x ((cursor o.d).seg (32 * g + r)) ((flat.drop (r * e)).take e)) x) x

/-- A mask element of SWCMP (R214). -/
def cmpElem (t : STy) (c : Cond) (a b : Nat) : Nat :=
  let r := if t.isInt then intCond c true (sw t) a b else floatCond c (selemVal t a) (selemVal t b)
  if r then 2 ^ sw t - 1 else 0

/-- What a sweep does to the window. -/
def sweepRun (i : Instr) (o : Opnds) (b : Option BoundE) (x : Sw) : Sw :=
  let t := (sweepF i).ty
  let int (c : Nat) : Int := toSigned (sw t) c
  let val := selemVal t
  match i with
  | .swadd f m => sweepEw f o m.scal b (fun rm a c _ => arith t rm m.sat (int a + int c) (Val.add rm (val a) (val c))) x
  | .swmul f m => sweepEw f o m.scal b (fun rm a c _ => arith t rm m.sat (int a * int c) (Val.mul (val a) (val c))) x
  | .swfma f m => sweepEw f o m.scal b
      (fun rm a c d => arith t rm m.sat (int a * int c + int d) (Val.add rm (Val.mul (val a) (val c)) (val d))) x
  | .swmax f sc => sweepEw f o sc b (fun _ a c _ => pickCode t true a c) x
  | .swmin f sc => sweepEw f o sc b (fun _ a c _ => pickCode t false a c) x
  | .swexp f m => sweepEw f o m.scal b (fun rm a c _ => sweepExp t rm m.sat a c) x
  | .swrcp f m => sweepEw f o true b (fun rm a _ _ => sweepRcp t rm m.sat a) x
  | .swcvt f d _ => sweepCvt f d o b x
  | .swqmx f mx _ => sweepQmx f mx o b x
  | .swdmx f mx _ => sweepDmx f mx o b x
  | .swred f op acc _ => sweepRed f op acc o b x
  | .swcmp f c sc => sweepEw f o sc none (fun _ a y _ => cmpElem t c a y) x
  | .swsel f sc => sweepEw f o sc b (fun _ a c d => if d != 0 then a else c) x
  | .swcpy f sc => if sc then sweepEw f { o with a := o.d } true b (fun _ _ c _ => c) x else sweepEw f o true b (fun _ a _ _ => a) x
  | .swgat f k => sweepGat f k.toNat o b x
  | .swtrn f => sweepTrn f o b x
  | _ => x

/-- The rounding selection; 000 selects RNE for SWQMX (R212). -/
def sweepRnd : Instr → Rnd
  | .swadd _ m | .swmul _ m | .swfma _ m | .swexp _ m | .swrcp _ m => m.rnd
  | .swcvt _ _ r | .swdmx _ _ r | .swred _ _ _ r => r
  | .swqmx _ _ r => if r == .sr then .sr else .rne
  | _ => .rne

/-- Bytes that an arrival counts (R223). -/
def sweepBytes (i : Instr) : Nat :=
  let f := sweepF i
  let n := f.count.toNat
  match i with
  | .swred .. => 128
  | .swqmx _ mx _ => n * mxSize mx
  | .swcvt _ d _ => n * (cvtLanes f.ty d * d.bytes)
  | _ => n * 128

/-! ### Issue (R18, R203, R204) -/

/-- Pages that an operation's ranges touch. -/
def rangePages (rs : List Rng) : List Nat := rs.foldl (fun ps r => ps ++ pagesOf r.at_.toNat r.len) []

/-- A sweep of a path: checked, then accepted; with a count of 0 it completes at once. -/
def issueSweep (i : Instr) (s : State) : Out :=
  issueEng i .t 0 0 (sweepUses i)
    (fun s v o e =>
      let step := State.stepG v (sweepRnd i)
      if (sweepF i).count == 0 then .done step
      else
        match rangesBad v.u.nscr (sweepRanges i o ++ arvRange (s.boundOf v.u (sweepF i).bound.toNat)) with
        | some t => .trap t
        | none => .accept { e with pages := (rangePages (sweepRanges i o)).eraseDups } step) s

def execSwadd (f : SwF) (m : SwM) (s : State) : Out := issueSweep (.swadd f m) s
def execSwmul (f : SwF) (m : SwM) (s : State) : Out := issueSweep (.swmul f m) s
def execSwfma (f : SwF) (m : SwM) (s : State) : Out := issueSweep (.swfma f m) s
def execSwmax (f : SwF) (scal : Bool) (s : State) : Out := issueSweep (.swmax f scal) s
def execSwmin (f : SwF) (scal : Bool) (s : State) : Out := issueSweep (.swmin f scal) s
def execSwexp (f : SwF) (m : SwM) (s : State) : Out := issueSweep (.swexp f m) s
def execSwrcp (f : SwF) (m : SwM) (s : State) : Out := issueSweep (.swrcp f m) s
def execSwcvt (f : SwF) (dt : STy) (rnd : Rnd) (s : State) : Out := issueSweep (.swcvt f dt rnd) s
def execSwqmx (f : SwF) (mx : MxTy) (rnd : Rnd) (s : State) : Out := issueSweep (.swqmx f mx rnd) s
def execSwdmx (f : SwF) (mx : MxTy) (rnd : Rnd) (s : State) : Out := issueSweep (.swdmx f mx rnd) s
def execSwred (f : SwF) (op : FoldOp) (acc : Bool) (rnd : Rnd) (s : State) : Out := issueSweep (.swred f op acc rnd) s
def execSwcmp (f : SwF) (c : Cond) (scal : Bool) (s : State) : Out := issueSweep (.swcmp f c scal) s
def execSwsel (f : SwF) (scal : Bool) (s : State) : Out := issueSweep (.swsel f scal) s
def execSwcpy (f : SwF) (scal : Bool) (s : State) : Out := issueSweep (.swcpy f scal) s
def execSwgat (f : SwF) (n : BitVec 5) (s : State) : Out := issueSweep (.swgat f n) s
def execSwtrn (f : SwF) (s : State) : Out := issueSweep (.swtrn f) s

/-! ### The engine's steps -/

def isSweep : Instr → Bool
  | .swadd .. | .swmul .. | .swfma .. | .swmax .. | .swmin .. | .swexp .. | .swrcp .. | .swcvt .. | .swqmx .. | .swdmx ..
  | .swred .. | .swcmp .. | .swsel .. | .swcpy .. | .swgat .. | .swtrn .. => true
  | _ => false

/-- Sweeps of a core in the order of their acceptance (R224). -/
def State.sweeps (s : State) (core : Nat) : List EngOp := s.eng.filter fun e => e.core == core && isSweep e.ins

/-- SWEEP_START: the oldest sweep, once its pages are in frames; its results are found (R205, R224). It reads the window as
engines see it (R226). -/
def execSweepStart (core : Nat) (s : State) : Out :=
  match (s.sweeps core).head? with
  | none => .next s
  | some e =>
    match s.unit? e.unit with
    | none => .next s
    | some u =>
      if e.phase != .accepted || !e.pages.all (fun p => u.frames.contains p) then .next s
      else
        let x := sweepRun e.ins e.o (s.boundOf u (sweepF e.ins).bound.toNat)
          { scr := u.engScr, rm := resolve e.rmode e.g (sweepRnd e.ins) }
        let s := s.touchPages u.uid (e.pages.map (16384 * ·))
        .next (s.updEng e.id fun e => { e with phase := .begun, out := x.out, viol := x.viol, first := x.first })

/-- The bound trap that an operation owes its threads, with the word that its record names beside the WAIT's (R222, R284). -/
def State.owe (s : State) (e : EngOp) (k : Nat) (word : Option Pos) : State :=
  match s.unit? e.unit, e.first with
  | some u, some (info, addr) =>
    let t : Trap := { cause := .bound, sub := k, info := info, addr := addr }
    if e.tids.any fun x => (u.thread x.1).alive then
      let f (i : Nat) (th : Thread) : Thread :=
        if e.tids.any (·.1 == i) && th.alive then { th with owed := th.owed ++ [{ op := e.id, trap := t, pos := word }] } else th
      s.setUnit { u with threads := u.threads.mapIdx f }
    else s.endUnit u (trapRec s u.ctx e.pos t)
  | _, _ => s

/-- A sweep's end: its writes, the count of its slot, its arrival, T, and a bound trap owed (R221 to R224). -/
def State.endSweep (s : State) (u : UnitSt) (e : EngOp) : State :=
  let k := (sweepF e.ins).bound.toNat
  let b := s.boundOf u k
  let arv := (b.map (·.arv)).getD false
  let s := (s.engineScr u.uid e.out arv).countBound u k e.viol
  let s := match b with
    | some b => if b.arv then s.arriveScr u.uid b.aw (sweepBytes e.ins) else s
    | none => s
  let s := s.complete e 0
  if (b.map fun b => b.action == 3).getD false then s.owe e k none else s

/-- Engine writes on a core that the lanes do not see yet become visible, the oldest of the first such unit (R91, R225). -/
def State.landLate (s : State) (core : Nat) : State :=
  match s.units.find? fun u => u.core == core && !u.late.isEmpty with
  | some u => s.setUnit u.landOne
  | none => s

/-- SWEEP_COMPLETE; with no sweep to complete, one that has completed becomes visible to the lanes, which nothing but
FENCE.e2o or an arrival orders (R225). DESIGN CHOICE, log 50. -/
def execSweepComplete (core : Nat) (s : State) : Out :=
  match (s.sweeps core).head? with
  | none => .next (s.landLate core)
  | some e =>
    match s.unit? e.unit with
    | none => .next s
    | some u => .next (if e.phase == .begun then s.endSweep u e else s.landLate core)

/-! ### Page frames (R205, R372) -/

/-- Pages that a core holds in frames, by unit. -/
def State.framesUsed (s : State) (core : Nat) : Nat :=
  (s.units.filter (·.core == core)).foldl (fun n u => n + u.frames.length) 0

/-- Page frames of a core that are in service: 16 in each scratchpad bank that is not disabled (R377). -/
def State.frameCount (s : State) (core : Nat) : Nat := 16 * (s.banksOf core 0 16).length

/-- The frames of a core that hold pages, with their units and pages. -/
def State.framesHeld (s : State) (core : Nat) : List (Nat × Nat × Nat) :=
  (s.core core).place.filter fun x => (s.unit? x.2.1).any fun u => u.core == core && u.frames.contains x.2.2

/-- A free frame of a core: the lowest in service. DESIGN CHOICE, log 62. -/
def State.freeFrame (s : State) (core : Nat) : Nat :=
  let banks := s.banksOf core 0 16
  let held := (s.framesHeld core).map (·.1)
  ((List.range 256).find? fun f => banks.contains (f / 16) && !held.contains f).getD 0

/-- Whether a page of a unit is in a frame that it may leave: it is not pinned, and no tile operation in progress uses it. -/
def State.mayEvict (s : State) (x : Nat × Nat) : Bool :=
  match s.unit? x.1 with
  | some u => u.frames.contains x.2 && !(s.pinnedOf u).contains x.2 && !(s.eng.any fun e => e.unit == x.1 && e.touch.contains x.2)
  | none => false

/-- The page of a core that leaves its frame: of those not pinned, the one touched longest ago (R205, R242, R372). -/
def State.victim (s : State) (core : Nat) : Option (Nat × Nat) := (s.core core).lru.reverse.find? s.mayEvict

/-- The bytes of a window that a page covers. -/
def UnitSt.pageBytes (u : UnitSt) (page : Nat) : List Nat := span (16384 * page) (min 16384 (u.nscr - 16384 * page))

/-- The save area of a context. -/
def State.saveBase (s : State) (c : Nat) : Nat := ((s.ctx? c).map fun (x : Ctx) => x.desc.save.toNat).getD 0

/-- A page is written back to its backing region and leaves its frame. -/
def State.evictPage (s : State) (uid page : Nat) : State :=
  match s.unit? uid with
  | none => s
  | some u =>
    let s := s.putPhys (s.saveBase u.ctx + u.back + 16384 * page) ((u.pageBytes page).map u.scr.read)
    (s.setUnit { u with frames := u.frames.filter (· != page) }).updCore u.core
      fun c => { c with lru := c.lru.filter (· != (uid, page)), place := c.place.filter fun x => x.2 != (uid, page) }

/-- A page comes into a frame. Its contents stand in the window, equal to what its backing region holds (DESIGN CHOICE, log 62). -/
def State.pageIn (s : State) (unit page : Nat) : State :=
  let core := s.coreOf unit
  let held := (s.freeFrame core, unit, page) :: s.framesHeld core
  ((s.updUnit unit fun u => { u with frames := u.frames ++ [page] }).updCore core fun c => { c with place := held }).touchPages unit [16384 * page]

/-- A SAVED unit's pages come in only for its accepted sweeps, on the core that saved it (R205, R227). -/
def State.wantsPage (s : State) (u : UnitSt) (page : Nat) : Bool :=
  decide (16384 * page < u.nscr) && !u.frames.contains page &&
  (u.st != .saved || s.eng.any fun e => e.unit == u.uid && e.pages.contains page)

/-- A page of a unit's window comes into a frame of its core, another page leaving when none is free. -/
def State.fillPage (s : State) (unit page : Nat) : State :=
  match s.unit? unit with
  | none => s
  | some u =>
    if !s.wantsPage u page then s
    else if s.framesUsed u.core < s.frameCount u.core then s.pageIn unit page
    else
      match s.victim u.core with
      | some (x, p) => (s.evictPage x p).pageIn unit page
      | none => s

/-- The frames of a disabled bank are emptied: a page there that may not leave the core comes into another frame (R377).
DEDUCED, log 35. -/
def State.emptyBank (s : State) (core bank : Nat) : State :=
  ((s.framesHeld core).filter fun x => x.1 / 16 == bank).foldl (fun s x =>
    let gone := s.evictPage x.2.1 x.2.2
    if s.mayEvict x.2 then gone
    else if gone.framesUsed core < gone.frameCount core then gone.pageIn x.2.1 x.2.2
    else
      match gone.victim core with
      | some (y, p) => (gone.evictPage y p).pageIn x.2.1 x.2.2
      | none => gone) s

/-- SCRATCH_PAGE_FILL. -/
def execScratchPageFill (unit page : Nat) (s : State) : Out := .next (s.fillPage unit page)

end Sys2Proof.Machine
end

