-- ==== Sys2Proof/Machine/Multicast.lean ====
section
/-! DEFINITION. Ordered multicast (R308 to R312, R320, R321, R406): groups, the anchor's stamps, history and views, the
member's settling buffer and applied number; the completion of CLAIM; and the loss of a link (R245, R296, R317). -/

namespace Sys2Proof.Machine

def State.group? (s : State) (job group : Nat) : Option Group :=
  s.fab.groups.find? fun g => g.job == job && g.group == group
def State.updGroup (s : State) (job group : Nat) (f : Group → Group) : State :=
  { s with fab := { s.fab with groups := s.fab.groups.map fun g => if g.job == job && g.group == group then f g else g } }

/-- MULTICAST_GROUP_CREATE: view 0, and every member applies the next number first (R309, R320). -/
def execMulticastGroupCreate (group job : Nat) (members : List Nat) (anchor : Nat) (xop : Bool) (next : Nat) (s : State) : Out :=
  if (s.group? job group).isSome then .next s
  else
    let g : Group := { group := group, job := job, members := members, anchor := anchor, xop := xop, want := next
                       amembers := members, next := next, acks := members.map fun m => (m, next) }
    .next { s with fab := { s.fab with groups := g :: s.fab.groups } }

/-! ### The anchor (R308, R310, R311, R320) -/

/-- Whether this node anchors a group. -/
def State.anchors (s : State) (g : Group) : Bool := !g.xop && g.anchor == s.fab.node

/-- A stamped packet goes to a member of the view. -/
def State.sendStamped (s : State) (x : Stamped) (m : Nat) : State :=
  s.emitTo { x.p with ptype := if x.p.ptype == 12 then 12 else 9, dstN := m, seq := x.seq, held := [] }

/-- A packet takes the group's next number and goes to every member of the view. -/
def State.stamp (s : State) (g : Group) (p : Packet) : State :=
  let x : Stamped := { seq := g.next, at_ := s.dt, p := p }
  let s := s.updGroup g.job g.group fun g =>
    { g with next := g.next + 1, hist := (x :: g.hist).take 65536, stamps := g.stamps ++ [(g.next, s.dt)]
             aloft := if p.ptype == 8 then g.aloft ++ [(g.next, p.srcN, p.opId)] else g.aloft }
  g.amembers.foldl (fun s m => s.sendStamped x m) s

/-- An acknowledgement packet: 0 of a member to the anchor, 1 a stamp to the sender, 2 a landing to the sender. -/
def State.sendAck (s : State) (sub dst : Nat) (g : Group) (seq op : Nat) : State :=
  s.emitTo { ptype := 11, dstN := dst, job := g.job, group := g.group, seq := seq, sub := sub, opId := op }

/-- MCST_STAMP: stamped once; a copy whose send number has its stamp already is answered with it (R406).
DEDUCED, log 28. -/
def execMcstStamp (p : Packet) (s : State) : Out :=
  match s.group? p.job p.group with
  | none => .next s
  | some g =>
    if !s.anchors g || !g.amembers.contains p.srcN then .next s
    else
      match g.hist.find? fun x => x.p.ptype == 8 && x.p.srcN == p.srcN && x.p.claim == p.claim && x.p.tag == p.tag with
      | some x => .next (s.sendAck 1 p.srcN g x.seq p.opId)
      | none => .next ((s.stamp g { p with view := g.aview }).sendAck 1 p.srcN g g.next p.opId)

/-- Packets that every member of the view has acknowledged, or has left the view, are reported landed to their senders. -/
def State.landGroup (s : State) (job group : Nat) : State :=
  match s.group? job group with
  | none => s
  | some g =>
    let least := (g.amembers.map fun m => ((g.acks.find? (·.1 == m)).map (·.2)).getD 0).foldl min g.next
    let news := g.aloft.filter fun x => decide (x.1 < least)
    let s := s.updGroup job group fun g =>
      { g with aloft := g.aloft.filter fun x => !decide (x.1 < least), stamps := g.stamps.filter fun x => !decide (x.1 < least) }
    news.foldl (fun s x => s.sendAck 2 x.2.1 g x.1 x.2.2) s

/-- MCST_ACK_RX. -/
def execMcstAckRx (p : Packet) (s : State) : Out :=
  match p.sub with
  | 0 =>
    let f (g : Group) : Group :=
      { g with acks := g.acks.map fun a => if a.1 == p.srcN then (a.1, max a.2 (p.seq + 1)) else a }
    .next ((s.updGroup p.job p.group f).landGroup p.job p.group)
  | 1 => .next (s.updFlight p.opId fun f => if f.stamp.isNone then { f with stamp := some p.seq } else f)
  | _ => .next (s.updFlight p.opId fun f => if f.pkt.isSome then { f with done := some s.dt } else f)

/-- This node is lost to a group: its MCSTs in progress end severed, and its claims on the group become REVOKED (LINK). -/
def State.cutGroup (s : State) (g : Group) : State :=
  match s.jobCtx g.job with
  | some t => (t.claims.filter fun c => c.kind == 9 && c.group == g.group).foldl (fun s c => s.cutRoute t.ctx c) s
  | none => s

/-- A member is lost: a view marker at the next number names the members that remain (R311). -/
def State.loseMember (s : State) (g : Group) (m : Nat) : State :=
  let rest := g.amembers.filter (· != m)
  let s := s.updGroup g.job g.group fun g =>
    { g with aview := g.aview + 1, amembers := rest, acks := g.acks.filter (·.1 != m) }
  let marker : Packet := { ptype := 12, job := g.job, group := g.group, view := g.aview + 1, members := rest, srcN := s.fab.node }
  let s := (s.stamp { g with amembers := rest } marker).landGroup g.job g.group
  if m == s.fab.node then s.cutGroup g else s

/-- The anchor's last link toward a member is lost, or a packet has gone unacknowledged for 1 ms. -/
def State.isLost (s : State) (g : Group) (m : Nat) : Bool :=
  let acked := ((g.acks.find? (·.1 == m)).map (·.2)).getD 0
  g.amembers.contains m &&
  ((s.routeTo m).isNone || g.stamps.any fun x => decide (acked ≤ x.1) && decide (x.2 + 1000000 ≤ s.dt))

/-- MEMBER_LOST: this node as the anchor declares a member lost; or another anchor has declared this node lost. -/
def execMemberLost (name : GroupName) (member : Nat) (s : State) : Out :=
  match s.group? name.job name.group with
  | none => .next s
  | some g =>
    if s.anchors g then .next (if s.isLost g member then s.loseMember g member else s)
    else .next (if member == s.fab.node then s.cutGroup g else s)

/-- NACK_RX: missing packets go again; a number older than the history loses the member. -/
def execNackRx (p : Packet) (s : State) : Out :=
  match s.group? p.job p.group with
  | none => .next s
  | some g =>
    if !s.anchors g || !g.amembers.contains p.srcN then .next s
    else
      let oldest := (g.hist.map (·.seq)).foldl min g.next
      if p.seq < oldest then .next (s.loseMember g p.srcN)
      else
        let miss := g.hist.filter fun x => decide (p.seq ≤ x.seq) && decide (x.seq < p.seq + p.arrive)
        .next (miss.reverse.foldl (fun s x => s.sendStamped x p.srcN) s)

/-! ### The member (R309, R310, R320, R321) -/

/-- The claim through which this member applies a group's packets. -/
def State.serving (s : State) (g : Group) : Option (Claim × UnitSt) :=
  (s.jobCtx g.job).bind fun t =>
    (t.claims.find? fun c => c.kind == 9 && c.group == g.group && c.pins).bind fun c => (s.unit? c.unit).map fun u => (c, u)

/-- Where packet s goes in the member's own log or block. -/
def applyBase (c : Claim) (p : Packet) : DWord :=
  c.dst + BitVec.ofNat 64 (if c.app then p.seq % c.slotCount * c.slotSize else p.doff)

/-- The packet in turn has been applied: the number goes up, and is acknowledged to the anchor. -/
def State.applied (s : State) (g : Group) (p : Packet) : State :=
  let s := s.updGroup g.job g.group fun g =>
    let g := { g with want := g.want + 1, waiting := g.waiting.filter (·.p.seq != p.seq) }
    if p.ptype == 12 then { g with view := p.view, members := p.members } else g
  s.sendAck 0 g.anchor g p.seq 0

/-- The packet in turn goes on waiting, for its write or its arrival. -/
def State.applyHeld (s : State) (g : Group) (p : Packet) : State :=
  s.updGroup g.job g.group fun g => { g with waiting := g.waiting.map fun x => if x.p.seq == p.seq then { x with p := p } else x }

/-- The arrival of the packet in turn, once its writes are performed: the state, and whether it is applied. -/
def State.applyArrive (s : State) (g : Group) (c : Claim) (u : UnitSt) (p : Packet) : State × Bool :=
  if !c.arv || p.noarv then (s.applied g p, true)
  else if c.aws then ((s.arriveScr u.uid c.aw.toNat p.arrive).applied g p, true)
  else
    match s.reach u.ctx c.aw .w 16 with
    | .ok pas =>
      match s.farOp pas (.farArrive u.ctx p.arrive) with
      | (s, some id) => (s.applyHeld g { p with data := [], held := [id] }, false)
      | (s, none) => (s.applied g p, true)
    | _ => (s.applied g p, true)

/-- One step of the packet in turn (R309): its writes, then its arrival; a view marker has neither. -/
def State.applyStep (s : State) (g : Group) (c : Claim) (u : UnitSt) (p : Packet) : State × Bool :=
  match s.farDone p with
  | some false => (s, false)
  | some true =>
    let s := s.dropOp (p.held.headD 0)
    if p.data.isEmpty then (s.applied g p, true) else s.applyArrive g c u p
  | none =>
    if p.ptype == 12 then (s.applied g p, true)
    else
      let p := { p with arrive := p.data.length }
      match s.reach u.ctx (applyBase c p) .w p.data.length with
      | .ok pas =>
        match (s.keepFar u.ctx p pas).farOp pas (.far u.ctx p.data) with
        | (s, some id) => (s.applyHeld g { p with held := [id] }, false)
        | (s, none) => s.applyArrive g c u p
      | _ => s.applyArrive g c u p

/-- Applies waiting packets in ascending number. One whose writes wait at a home slice is looked at again. -/
def State.applyGroup (s : State) (job group : Nat) : Nat → State
  | 0 => s
  | n + 1 =>
    match s.group? job group with
    | none => s
    | some g =>
      match g.waiting.find? fun w => w.p.seq == g.want, s.serving g with
      | some w, some (c, u) =>
        match s.applyStep g c u w.p with
        | (s, true) => State.applyGroup s job group n
        | (s, false) => { s with agenda := s.agenda ++ [.mcstPacketRx w.port { w.p with data := [], held := [0] }] }
      | _, _ => s

def State.applyAll_ (s : State) (job group : Nat) : State :=
  s.applyGroup job group ((((s.group? job group).map (·.waiting.length)).getD 0) + 1)

/-- Bytes of the settling buffer of a port that wait (R310). -/
def Group.settling (gs : List Group) (port : Nat) : Nat :=
  gs.foldl (fun n g => n + ((g.waiting.filter (·.port == port)).map (·.p.data.length)).foldl (· + ·) 0) 0

/-- MCST_PACKET_RX. -/
def execMcstPacketRx (port : Nat) (p : Packet) (s : State) : Out :=
  match s.group? p.job p.group with
  | none => .next s
  | some g =>
    if p.seq < g.want then .next s
    else if g.waiting.any (·.p.seq == p.seq) then
      .next (if p.held.isEmpty then s else s.applyAll_ p.job p.group)
    else if p.seq != g.want && decide (262144 < Group.settling s.fab.groups port + p.data.length) then .next s
    else
      let s := s.updGroup p.job p.group fun g => { g with waiting := g.waiting ++ [{ port := port, at_ := s.dt, p := p }] }
      .next (s.applyAll_ p.job p.group)

/-- MCST_NACK: the lowest waiting packet has waited 10 µs, and so has the last NACK. DEDUCED, log 28. -/
def execMcstNack (name : GroupName) (s : State) : Out :=
  match s.group? name.job name.group with
  | none => .next s
  | some g =>
    match g.waiting with
    | [] => .next s
    | w :: ws =>
      let low := ws.foldl (fun (m : Settling) x => if x.p.seq < m.p.seq then x else m) w
      if low.p.seq ≤ g.want || s.dt < low.at_ + 10000 || (g.nacked != 0 && decide (s.dt < g.nacked + 10000)) ||
          (s.serving g).isNone then .next s
      else
        let s := s.updGroup g.job g.group fun g => { g with nacked := s.dt }
        .next (s.emitTo { ptype := 10, dstN := g.anchor, job := g.job, group := g.group, seq := g.want
                          arrive := low.p.seq - g.want })

/-! ### CLAIM_COMPLETE (R231, R295, R320) -/

def isClaim : Instr → Bool
  | .claim .. => true
  | _ => false

/-- What follows once a claim is held: its scratchpad pages stand in frames (R231), a ring's route record stands, a group's
waiting packets are applied. -/
def State.claimHeld (s : State) (u : UnitSt) (ctx h : Nat) : State :=
  match s.claim? ctx h with
  | none => s
  | some c =>
    let s := c.scrPages.foldl (fun s p => s.fillPage u.uid p) s
    match c.kind with
    | 7 => s.updClaim ctx h (Claim.withRing u)
    | 9 => s.applyAll_ (s.jobOf ctx) c.group
    | _ => s

/-- The claim phase of another node's claim (R293, R295): its ranges are walked and pinned and its landing space reserved,
if all of that can be; or it has ended there. -/
def State.farClaim (s : State) (f : FarClaim) : State :=
  let rest := s.fab.far.filter fun x => !(x.node == f.node && x.job == f.job && x.name == f.name)
  let walk := f.ranges.foldl (fun (r : Chk) x => r.then_ fun _ => s.walkFar f.job (x.1, x.2.1, if x.2.2 then .w else .r)) Chk.ok
  let room := match f.kind with
    | 4 | 6 => decide (s.landings f.port < 128)
    | 8 => decide (s.cacheSlots f.port + f.slots ≤ 4096)
    | _ => true
  if f.gone then { s with fab := { s.fab with far := rest } }
  else if walk == .ok && room then { s with fab := { s.fab with far := rest ++ [f] } }
  else s

/-- CLAIM_COMPLETE of the CLAIM that took entry `h`, or with `h` above 4,095 of the oldest one that found none; or this
node's part in another node's claim. -/
def execClaimComplete (ctx h : Nat) (refused : Bool) (landing : Landing) (s : State) : Out :=
  match landing with
  | .far f => .next (s.farClaim f)
  | _ =>
    match s.eng.find? fun e => e.ctx == ctx && isClaim e.ins && e.claim == (if h < 4096 then some h else none) with
    | none => .next s
    | some e =>
      let s' := s.finishClaim chkFabric refused (landing == .full) e
      match s'.engOp? e.id, s'.unit? e.unit with
      | none, some u => .next (s'.claimHeld u ctx h)
      | _, _ => .next s'

/-! ### LINK_LOSS (R245, R296, R317, R406) -/

/-- An mcast claim moves to another port toward its order point, and its MCSTs that are not accepted are sent again. -/
def State.reroute (s : State) (ctx : Nat) (c : Claim) (port : Nat) : State :=
  let s := s.updClaim ctx c.h fun c => { c with port := port }
  let es := s.eng.filter fun e => e.ctx == ctx && e.claim == some c.h && e.phase == .begun
  es.foldl (fun s e =>
    match s.flight? e.id with
    | some f =>
      match f.pkt, f.stamp with
      | some p, none => s.sendMcst port c p
      | _, _ => s
    | none => s) s

/-- The port to which an mcast claim moves: one with a virtual channel free, or else the first up one, so that the claim keeps its
state while a route is left (R406). DESIGN CHOICE, log 72. -/
def State.movePort (s : State) (ctx : Nat) (c : Claim) : Option Nat :=
  if c.kind != 9 || (s.fabRoute ctx c).isNone then none else (s.freePort ctx c).or (s.fabPorts c).head?

/-- What the loss of a port's link does to one claim. -/
def State.loseRoute (s : State) (ctx port : Nat) (c : Claim) : State :=
  if !c.isFabric || c.port != port || s.ownRoute c || c.st == .claiming || c.st == .revoked then s
  else
    match s.movePort ctx c with
    | some q => s.reroute ctx c q
    | none => s.cutClaim ctx 3 c

/-- Groups that this node anchors, with members it no longer reaches. -/
def State.lostMembers (s : State) : List Instr :=
  (s.fab.groups.filter s.anchors).foldl (fun is g =>
    is ++ (g.amembers.filter fun m => (s.routeTo m).isNone).map fun m => .memberLost ⟨g.job, g.group⟩ m) []

/-- LINK_LOSS. -/
def execLinkLoss (port : Nat) (s : State) : Out :=
  match s.port? port with
  | none => .next s
  | some q =>
    if !q.up then .next s
    else
      let s := s.updPort port fun q => { q with up := false, unacked := [], fails := 0, downAt := none }
      let s := s.report { kind := 5, detail := port, addr := q.nodes.headD 0 }
      let s := s.ctxs.foldl (fun s x => x.claims.foldl (fun s c => s.loseRoute x.ctx port c) s) s
      .next { s with agenda := s.agenda ++ s.lostMembers }

end Sys2Proof.Machine
end

