-- ==== Sys2Proof/Machine/Sha.lean ====
section
/-! DEFINITION. SHA-256 over bytes, the digest of R384 and R388 to R395. Its constants are computed from what they stand for:
fractional parts of roots of the first primes. -/

namespace Sys2Proof.Machine.Sha

/-! ### Constants -/

/-- The primes below 312: 64 of them. -/
def primes : List Nat := (List.range 312).filter fun n => decide (1 < n) && [2, 3, 5, 7, 11, 13, 17].all fun d => n == d || n % d != 0

/-- The first 32 bits behind the point of the e-th root of a number below 2^9, found bit by bit. -/
def rootBits (e p : Nat) : Word :=
  BitVec.ofNat 32 ((List.range 35).foldl (fun r i => if (r + 2 ^ (34 - i)) ^ e ≤ p * 2 ^ (32 * e) then r + 2 ^ (34 - i) else r) 0)

def roundKeys : List Word := primes.map (rootBits 3)

/-! ### The compression of one block -/

/-- The chaining value, which is also the working state of a block. -/
structure Chain where
  a : Word
  b : Word
  c : Word
  d : Word
  e : Word
  f : Word
  g : Word
  h : Word
  deriving DecidableEq, Repr

def Chain.ofList : List Word → Chain
  | [a, b, c, d, e, f, g, h] => { a := a, b := b, c := c, d := d, e := e, f := f, g := g, h := h }
  | _ => { a := 0, b := 0, c := 0, d := 0, e := 0, f := 0, g := 0, h := 0 }

def Chain.start : Chain := .ofList ((primes.take 8).map (rootBits 2))

/-- Exclusive or of three rotations, or of two and a shift. -/
def spin (x : Word) (i j k : Nat) : Word := x.rotateRight i ^^^ x.rotateRight j ^^^ x.rotateRight k
def spinShift (x : Word) (i j k : Nat) : Word := x.rotateRight i ^^^ x.rotateRight j ^^^ (x >>> k)

/-- One round, with the sum of its key and its message word. -/
def Chain.round (x : Chain) (kw : Word) : Chain :=
  let pick := (x.e &&& x.f) ||| (~~~x.e &&& x.g)
  let most := (x.a &&& (x.b ||| x.c)) ||| (x.b &&& x.c)
  let t := x.h + spin x.e 6 11 25 + pick + kw
  { a := t + spin x.a 2 13 22 + most, b := x.a, c := x.b, d := x.c, e := x.d + t, f := x.e, g := x.f, h := x.g }

/-- The rounds with these keys; `ws` holds the next sixteen message words. -/
def Chain.rounds : List Word → Chain → List Word → Chain
  | [], x, _ => x
  | k :: ks, x, ws =>
    let w := ws.headD 0
    let next := spinShift (ws.getD 14 0) 17 19 10 + ws.getD 9 0 + spinShift (ws.getD 1 0) 7 18 3 + w
    Chain.rounds ks (x.round (k + w)) (ws.tail ++ [next])

def Chain.add (x y : Chain) : Chain :=
  { a := x.a + y.a, b := x.b + y.b, c := x.c + y.c, d := x.d + y.d, e := x.e + y.e, f := x.f + y.f, g := x.g + y.g, h := x.h + y.h }

def Chain.toDigest (x : Chain) : BitVec 256 := x.a ++ x.b ++ x.c ++ x.d ++ x.e ++ x.f ++ x.g ++ x.h

/-! ### Messages -/

/-- Big-endian bytes of a number. -/
def beBytes : Nat → Nat → List Byte
  | 0, _ => []
  | n + 1, v => BitVec.ofNat 8 (v / 256 ^ n) :: beBytes n v

/-- A message word. -/
def wordAt (m : List Byte) (i : Nat) : Word := m.getD (4 * i) 0 ++ m.getD (4 * i + 1) 0 ++ m.getD (4 * i + 2) 0 ++ m.getD (4 * i + 3) 0

/-- The message with its padding: a one bit, zeros, and its length in bits, up to a multiple of 64 bytes. -/
def padded (m : List Byte) : List Byte :=
  m ++ 0x80 :: (List.replicate ((119 - m.length % 64) % 64) 0 ++ beBytes 8 (8 * m.length))

def sha256 (m : List Byte) : BitVec 256 :=
  let p := padded m
  ((List.range (p.length / 64)).foldl (fun (x : Chain) i =>
    x.add (x.rounds roundKeys ((List.range 16).map fun j => wordAt p (16 * i + j)))) Chain.start).toDigest

end Sys2Proof.Machine.Sha
end

