-- ==== Sys2Proof/Machine/LaunchEngine.lean ====
section
/-! DEFINITION. The steps of the launch engine (R322 to R360): doorbells, the reading and starting of commands,
completion rings, tilth events and energy windows. -/

namespace Sys2Proof.Machine

/-! ### Doorbells (R323, R407) -/

/-- A queue that is in use and not in error. -/
def Queue.usable (q : Queue) : Bool := q.en && decide (q.log < 13) && q.st != 3

/-- A doorbell value reaches the front end, or for the management ring the global scheduler core (R366), which reports a bad
one; a frozen queue keeps it for its context's start. DESIGN CHOICE, log 61. -/
def State.ringBell (s : State) (c : Nat) (x : Queue) (v : DWord) : State :=
  let d : Word := v.setWidth 32
  if !x.usable then s
  else if (v >>> 32) == 0 && decide ((d - x.head).toNat ≤ x.entries) then
    s.setQueue c (({ x with upto := d } : Queue).settled (x.st == 2))
  else
    let s := s.setQueue c { x with st := 3, upto := x.head }
    if c == mgmt then s.report { status := 1, kind := 1, detail := 7, addr := v.toNat }
    else s.putRecord c x.q (recordWords 0 3 7 0 x.head.toNat s.dt v.toNat)

/-- DOORBELL_WRITE: the front end takes a write of the doorbell word. -/
def execDoorbellWrite (ctx q : Nat) (v : DWord) (s : State) : Out :=
  match s.queue? ctx q with
  | none => .next s
  | some x => .next (s.ringBell ctx x v)

/-- System software re-enables a queue in error (R323). -/
def execQueueReenable (ctx q : Nat) (s : State) : Out :=
  match s.queue? ctx q with
  | none => .next s
  | some x => .next (if x.st == 3 then s.setQueue ctx (({ x with st := 0, upto := x.head } : Queue).settled (((s.ctx? ctx).map fun (c : Ctx) => c.frz).getD false)) else s)

/-- The consumer advances chead; held records are written in order (R325). -/
def execCheadWrite (ctx q : Nat) (v : Word) (s : State) : Out :=
  match s.queue? ctx q with
  | none => .next s
  | some x => .next (flushHeld s ctx { x with chead := v } x.held)

/-! ### Reading a command (R323, R324, R326, R327) -/

/-- Where the next unread command of a queue lies in its ring. -/
def Queue.headAt (y : Queue) : Nat := y.ring.toNat + 64 * (y.head.toNat % y.entries)

/-- The queue, when it has a command that the front end may read. -/
def State.headQueue (s : State) (c q : Nat) : Option Queue :=
  match s.ctx? c, s.queue? c q with
  | some x, some y => if x.live && !x.frz && y.usable && y.head != y.upto then some y else none
  | _, _ => none

/-- The next unread command of a queue that the front end may read. -/
def State.headCmd (s : State) (c q : Nat) : Option (Queue × List Word) :=
  match s.headQueue c q with
  | some y => if (s.poisoned (span y.headAt 64)).isSome then none else some (y, s.physWords y.headAt 16)
  | none => none

/-- The front end's read of a poisoned command consumes the poison (R373). -/
def State.headPoison (s : State) (c q : Nat) : State :=
  match (s.headQueue c q).bind fun y => s.poisoned (span y.headAt 64) with
  | some l => s.consume l (some c)
  | none => s

/-- Reads a command: it leaves the ring, joins its job's current round, and takes its priority (R343, R357). -/
def State.takeCmd (s : State) (c : Nat) (x : Queue) (ws : List Word) : State × Cmd :=
  let j := s.job c (CW.job ws)
  let cmd : Cmd := { cid := s.nextId, ctx := c, q := x.q, words := ws, round := j.round, prio := x.prio, readAt := s.dt }
  let s := { s.setQueue c (({ x with head := x.head + 1, lastCseq := CW.cseq ws } : Queue).settled false) with
             nextId := s.nextId + 1, cmds := s.cmds ++ [cmd] }
  let s := if CW.job ws == 0 then s else s.setJob c j
  let v := s.view c (some cmd) 1 0
  let prio := match ((s.ctx? c).bind (·.policy)).bind fun p => p.result 1 { ldv := v, ldq := [] } with
    | some r => min r 7
    | none => x.prio
  (s.updCmd cmd.cid fun y => { y with prio := prio }, { cmd with prio := prio })

/-- A rejected command has no other effect: it completes at once with its reason. A launch's record names its status
block (R325). DEDUCED, log 31. -/
def State.reject (s : State) (c : Cmd) (why : Nat) : State :=
  s.completeCmd c.cid 3 why (if CW.type c.words == 1 || CW.type c.words == 2 then CW.blk c.words else 0) 0

/-- PHASE (R343). -/
def State.phasePast (s : State) (c : Nat) (ws : List Word) : Bool :=
  CW.job ws != 0 && decide (CW.phase ws < (s.job c (CW.job ws)).phase)

/-- Reads the head command when it is well formed and of the right type, and goes on with it. -/
def readAs (type ctx q : Nat) (f : State → Cmd → Queue → State) (s : State) : Out :=
  match s.headCmd ctx q with
  | none => .next (s.headPoison ctx q)
  | some (x, ws) =>
    if CW.type ws == type && (cmdBad ws).isNone then
      let (s, c) := s.takeCmd ctx x ws
      .next ((if s.phasePast ctx ws then s.reject c 5 else f s c x).settleLaunches)
    else .next s

/-- Step 1 of R333, for both kinds of launch. -/
def State.readLaunch (s : State) (c : Cmd) : State :=
  let l := newLaunch c.ctx c.cid none c.words
  if s.blockBusy l.lid then s.reject c 3 else s.claimBlock l

def execLaunch (ctx q : Nat) (s : State) : Out := readAs 1 ctx q (fun s c _ => s.readLaunch c) s
def execGuardedLaunch (ctx q : Nat) (s : State) : Out := readAs 2 ctx q (fun s c _ => s.readLaunch c) s

/-- GRAPH: the whole node table is checked (R340); a translation miss of the table leaves the command unread. -/
def execGraph (ctx q : Nat) (s : State) : Out :=
  match s.headCmd ctx q with
  | none => .next (s.headPoison ctx q)
  | some (_, ws) =>
    let n := bits (wd ws 6) 0 16
    match (if n == 0 then .ok [] else s.readVa ctx (wd64 ws 4) (128 * n) : Read) with
    | .miss => .next s
    | .poison l => .next (s.consume l (some ctx))
    | r =>
      readAs 3 ctx q (fun s c _ =>
        match (match r with | .ok bs => nodesOf n n bs | _ => none) with
        | some ns => if acyclic n ns then s.updCmd c.cid fun c => { c with nodes := withCounters ns } else s.reject c 4
        | none => s.reject c 4) s

/-! ### Starting a command (R324) -/

/-- What a command does when it starts. A launch's begin, an EVENT WAIT's end and the like follow by themselves. -/
def State.startCmd (s : State) (c : Cmd) : State :=
  let s := s.updCmd c.cid fun c => { c with st := .started }
  match CW.type c.words with
  | 4 =>
    (s.addEvent (bits (wd c.words 6) 0 10) (bits (wd c.words 6) 16 16) (wd64 c.words 4)).completeCmd c.cid 0 0 0 0
  | 6 => s.startCancel c
  | _ => s

/-- Starts a command in the step that reads it, when nothing holds it back. -/
def State.tryStart (s : State) (c : Cmd) : State :=
  match s.nextCmd with
  | some b => if b.cid == c.cid then s.startCmd c else s
  | none => s

def execCommandStart (ctx : Nat) (cmd : Nat) (s : State) : Out :=
  match s.nextCmd with
  | some c => .next (if c.ctx == ctx && c.cid == cmd then (s.startCmd c).settleLaunches else s)
  | none => .next s

/-- GRANT (R348): another context's event without a right to it. -/
def State.ungranted (s : State) (c : Cmd) : Bool :=
  let owner := bits (wd c.words 6) 0 10
  let name := bits (wd c.words 6) 16 16
  owner != c.ctx && !(((s.ctx? c.ctx).map fun (x : Ctx) => x.grants.contains (owner, name)).getD false)

def execEventSignal (ctx q : Nat) (s : State) : Out :=
  readAs 4 ctx q (fun s c _ => if s.ungranted c then s.reject c 6 else s.tryStart c) s
def execEventWait (ctx q : Nat) (s : State) : Out :=
  readAs 5 ctx q (fun s c _ => if s.ungranted c then s.reject c 6 else s.tryStart c) s
def execCancel (ctx q : Nat) (s : State) : Out := readAs 6 ctx q (fun s c _ => s.tryStart c) s

/-- RESYNC completes at once: the queue's head, and the cseq of the last command read before it (R351). -/
def execResync (ctx q : Nat) (s : State) : Out :=
  readAs 7 ctx q (fun s c x => s.completeCmd c.cid 0 0 (x.head + 1).toNat x.lastCseq.toNat) s

/-- TYPE and FIELD (R327). -/
def execCommandRejected (ctx q : Nat) (s : State) : Out :=
  match s.headCmd ctx q with
  | none => .next (s.headPoison ctx q)
  | some (x, ws) =>
    match cmdBad ws with
    | none => .next s
    | some why =>
      let (s, c) := s.takeCmd ctx x ws
      .next ((s.reject c why).settleLaunches)

/-- PLIMIT after 100 µs of DT (R334). -/
def execPrologueTimeout (ctx blk : Nat) (s : State) : Out :=
  match s.launch? (ctx * 4096 + blk) with
  | none => .next s
  | some l =>
    .next (if s.alive ctx && l.st == .prologue && l.code == 0 && decide (l.pstart + 100000 ≤ s.dt) then
      (s.faultLaunch l.lid 4 0).settleLaunches else s)

/-! ### Tilth events and policies (R357 to R359) -/

/-- A launch that still has units to place. -/
def Launch.hasWaiting (l : Launch) : Bool :=
  l.st == .running && !l.cancel && (!l.redo.isEmpty || decide (l.placed < l.units))

/-- The end of a slice while another context's units wait. -/
def execTilthSlice (ctx : Nat) (s : State) : Out :=
  match s.ctx? ctx with
  | none => .next s
  | some c =>
    let others := s.launches.any (fun l => l.ctx != ctx && l.hasWaiting) ||
      s.units.any fun u => u.ctx != ctx && u.st == .saved
    if !others || decide (s.dt < c.sliceAt + c.slice10 * 10000) then .next s
    else
      let r := match c.policy.bind fun p => p.result 2 { ldv := s.view ctx none 2 0, ldq := [] } with
        | some n => min n 100000
        | none => 200
      if r == 0 then
        .next ((s.preemptUnits fun u => u.ctx == ctx).updCtx ctx fun c => { c with sliceAt := s.dt })
      else .next (s.updCtx ctx fun c => { c with slice10 := r, sliceAt := s.dt })

/-- Rejection code of one operation at index `i` of `n`. -/
def tilthOpBad (n i : Nat) (w : BitVec 16) (code : Nat) : Bool :=
  let x := w.toNat
  let op := bits x 11 5
  let isR := (decide (2 ≤ op) && decide (op ≤ 12)) || op == 14 || op == 15 || op == 21
  match code with
  | 3 => decide (24 ≤ op)
  | 4 => (isR && bits x 0 2 != 0) || (op == 2 && bits x 2 3 != 0) || (op == 18 && bits x 8 3 != 0) ||
      (op == 19 && bits x 5 3 != 0) || (op == 22 && bits x 0 8 != 0) || (op == 23 && bits x 8 3 != 0)
  | 5 => (op == 19 || op == 20) && decide (16 ≤ bits x 0 5)
  | _ => decide (16 ≤ op) && decide (op ≤ 18) && decide (n ≤ i + 1 + bits x 0 8)

/-- The verifier (R359): a policy, or the reason of its rejection. -/
def tilthVerify (image : List (BitVec 16)) : Except Nat Policy :=
  let w0 := (image.getD 0 0).toNat
  let n := bits w0 8 8 + 1
  let mask := bits w0 0 3
  let ops := image.drop 4
  let ents := [1, 2, 3].map fun i => (image.getD i 0).toNat
  let bad (code : Nat) : Bool := (ops.zipIdx).any fun x => tilthOpBad n x.2 x.1 code
  let last := bits (ops.getLastD 0).toNat 11 5
  if image.length != 4 + n then .error 1
  else if bits w0 3 5 != 0 || (List.range 3).any (fun i => decide (n ≤ ents.getD i 0) || (!flag mask i && ents.getD i 0 != 0)) then .error 2
  else if bad 3 then .error 3
  else if bad 4 then .error 4
  else if bad 5 then .error 5
  else if bad 6 then .error 6
  else if last != 22 && last != 23 then .error 7
  else .ok { mask := mask, ents := ents, ops := ops }

def execTilthPolicyLoad (ctx : Nat) (image : List (BitVec 16)) (s : State) : Out :=
  match tilthVerify image with
  | .ok p => .next ({ s with fw := { s.fw with polRej := 0 } }.updCtx ctx fun c => { c with policy := some p })
  | .error why => .next { s with fw := { s.fw with polRej := why } }

/-! ### Energy windows (R360) -/

/-- Energy above the allowance, less what earlier windows left, goes against the next window. -/
def Job.newWindow (allow : Nat) (j : Job) : Job :=
  { j with energy := 0, placed := 0, excess := if allow == 0 then 0 else j.energy + j.excess - 1000 * allow }

/-- A new window begins at each multiple of 1,000,000 ns. -/
def execEnergyWindow (s : State) : Out :=
  if s.dt / 1000000 == s.power.window then .next s
  else
    .next { s with power := { s.power with window := s.dt / 1000000 }
                   ctxs := s.ctxs.map fun c => { c with jobs := c.jobs.map fun j => j.newWindow (s.allowance c.ctx j.job) } }

end Sys2Proof.Machine
end

