-- ==== Sys2Proof/Machine/Launched.lean ====
section
/-! DEFINITION. The instructions of class 5 (R335, R336, R353) and the event instructions (R349, R350). -/

namespace Sys2Proof.Machine

/-! ### LSET and the ends of a prologue -/

/-- An LSET value's effect on the launch; none when it is out of range (R335). -/
def Launch.setParam (l : Launch) (sel : Nat) (v : BitVec 128) : Option Launch :=
  let x := v.toNat % 2 ^ 32
  let y := v.toNat / 2 ^ 32 % 2 ^ 32
  if sel ≤ 2 then
    if 65535 < x then none
    else some (if sel == 0 then { l with dimx := x } else if sel == 1 then { l with dimy := x } else { l with dimz := x })
  else if sel == 3 then (if 16 ≤ x ∧ x ≤ 1024 then some { l with spill := x } else none)
  else if sel == 4 then some { l with seed := BitVec.ofNat 32 x }
  else if sel == 8 then (if (x + 2 ^ 32 * y) % 64 == 0 then some { l with kdesc := BitVec.ofNat 64 (x + 2 ^ 32 * y) } else none)
  else if 0x101 ≤ sel ∧ sel ≤ 0x13F then
    let k := sel - 0x100
    some { l with blims := (k, BitVec.ofNat 32 x, BitVec.ofNat 32 y) :: l.blims.filter (·.1 != k) }
  else if 0x141 ≤ sel ∧ sel ≤ 0x17F then
    let k := sel - 0x140
    if x < 8 ∧ y < 2 ^ 22 then some { l with bacts := (k, BitVec.ofNat 32 x, BitVec.ofNat 32 y) :: l.bacts.filter (·.1 != k) }
    else none
  else some { l with consts := l.consts.writes (span (4 * (sel - 0x400)) 4) (leBytes 4 x) }

/-- An instruction legal only in a prologue (R47), with its effect there on the launch engine. -/
def inPrologue (us : List RegUse) (wait : State → Launch → Bool) (f : Nat → Parts → State → State) (s : State) : Out :=
  thenDo State.settleLaunches
    (issueWith { lane := false, pro := true } us
      (fun s v _ _ th _ =>
        if v.u.role != .prologue then .trap (s.illegal v 5)
        else if ((s.launch? v.u.launch).map (wait s)).getD false then .stall else .ok th none [])
      (fun v ps s => if v.u.role == .prologue && !ps.isEmpty then f v.u.launch ps s else s) s)

/-- LSET (R335): LSETV ends the launch. -/
def execLset (a : VReg) (sel : BitVec 12) (s : State) : Out :=
  inPrologue [src .a a (if lsetInfo sel == some true then 2 else 1)] (fun _ _ => false)
    (fun lid ps s =>
      match s.launch? lid with
      | none => s
      | some l =>
        match l.setParam sel.toNat ((ps.head?.map (·.2.2.a)).getD 0) with
        | some l' => s.updLaunch lid fun _ => l'
        | none => s.faultLaunch lid 6 0) s

def execLcancel (s : State) : Out :=
  inPrologue [] (fun _ _ => false)
    (fun lid _ s => (s.updLaunch lid fun l => { l with cancel := true }).completeLaunch lid) s

/-- The descriptors of a launch cannot be read yet: its LEND is replayed. -/
def State.descsWait (s : State) (l : Launch) : Bool := s.launchDescs l == .wait

def execLend (s : State) : Out :=
  inPrologue [] State.descsWait (fun lid _ s => (s.lend lid false).getD s) s

/-- LREPEAT; at iteration 65,535 it completes the launch with REPEAT (R336). -/
def execLrepeat (s : State) : Out :=
  inPrologue [] State.descsWait
    (fun lid _ s =>
      if ((s.launch? lid).map (·.iter)).getD 0 == 65535 then s.faultLaunch lid 10 0 else (s.lend lid true).getD s) s

/-! ### GCHECK (R353) -/

/-- The order of residuals: NaN above every other value, −0 equal to +0. -/
def residualKey (w : Word) : Int :=
  let m : Nat := w.toNat % 2 ^ 31
  if 0x7F800000 < m then 2 ^ 33 else if w.toNat < 2 ^ 31 then m else -(m : Int)

def maxResidual (a : Option Word) (b : Word) : Word :=
  match a with
  | none => b
  | some a => if residualKey a < residualKey b then b else a

def execGcheck (a : VReg) (s : State) : Out :=
  settled s (issueWith { lane := false } [src .a a]
    (fun s v _ _ th _ => if v.u.role != .surrogate then .trap (s.illegal v 5) else .ok th.exit none [])
    (fun v ps s =>
      match ps.head? with
      | some (_, _, o) =>
        if v.u.role == .surrogate then
          s.updUnit v.u.uid fun u =>
            { u with checked := u.checked + 1, residual := some (maxResidual u.residual (o.a.setWidth 32)) }
        else s
      | none => s) s)

/-! ### Named events (R349, R350) -/

/-- EVSIG: each thread posts its addition, a release at S; a bad name writes 1. -/
def execEvsig (d a b : VReg) (scope : Scope) (s : State) : Out :=
  issue { lane := false } [dst d, src .a a, src .b b]
    (fun _ _ _ _ th o =>
      if 65536 ≤ o.a.toNat then .ok (th.put d.toNat 1) none []
      else if th.full .s then .stall
      else .ok th none [{ sp := .global, addrs := [], kind := .evsig (scope == .sys) d o.a.toNat (o.b.setWidth 64)
                          ord := .rel, scope := scope }]) s

/-- A thread at EVWAIT whose event is named rightly and whose target is not met. -/
def State.mustWait (s : State) (c : Nat) (o : Opnds) : Bool := decide (o.a.toNat < 65536) && decide (s.event c o.a.toNat < o.b.toNat)

/-- The waiter has no place on the entry's list of 64: the threads before it in the path come first (R347). -/
def State.overflows (s : State) (c : Nat) (before : Parts) (e : Nat) : Bool :=
  !s.canEnter c e ||
  decide (64 ≤ s.waiters c e + (before.filter fun x => x.2.2.a.toNat == e && s.mustWait c x.2.2).length)

/-- EVWAIT: each thread waits for its target, or to its absolute deadline. -/
def execEvwait (d a b c : VReg) (scope : Scope) (s : State) : Out :=
  issueWith { lane := false } [dst d, src .a a, src .b b 2, src .c c]
    (fun s v ps t th o =>
      if 65536 ≤ o.a.toNat then .ok (th.put d.toNat 2) none []
      else if o.b.toNat ≤ s.event v.u.ctx o.a.toNat then .ok (th.put d.toNat 0) none []
      else
        .ok { th with st := .waiting (.event (scope == .sys) o.a.toNat (o.b.setWidth 64) d
                (if o.c == 0 then none else some (s.dt + 1000 * o.c.toNat))
                (s.overflows v.u.ctx (ps.takeWhile (·.1 != t)) o.a.toNat)) } none [])
    (fun v ps s => ps.foldl (fun s x => if s.mustWait v.u.ctx x.2.2 then s.fetchEvent v.u.ctx x.2.2.a.toNat else s) s) s

/-- DT in the kclk before this one, at the core clock in force. -/
def State.dtBefore (s : State) : Nat := (s.time - 1000 * tick / s.power.freq.toNat) / tick

/-- A waiter's timeout passes first: `dt` is the DT of the kclk that is over, so that an addition in the kclk of the timeout
comes before it (R350). -/
def Thread.timeEvent (dt : Nat) (th : Thread) : Thread :=
  match th.st with
  | .waiting (.event _ _ _ d (some dl) _) => if dl ≤ dt then { th.put d.toNat 1 with st := .ready } else th
  | _ => th

def execEvwaitTimeout (unit tid : Nat) (s : State) : Out :=
  .next (s.updUnit unit fun u => if u.st == .resident then u.updThread tid (fun th => (th.wakeOver s u.ctx).timeEvent s.dtBefore) else u)

end Sys2Proof.Machine
end

