-- ==== Sys2Proof/Machine/Special.lean ====
section
/-! DEFINITION. Special state: GETS and SETS (R189, R190). -/

namespace Sys2Proof.Machine

/-- The launch that a unit belongs to. -/
def State.launchOf (s : State) (u : UnitSt) : Launch := (s.launch? u.launch).getD { lid := u.launch, ctx := u.ctx, cmd := 0 }

/-- What a selector reads. -/
def getsValue (s : State) (v : View) (t : Nat) (th : Thread) (sel : Nat) : Nat :=
  let u := v.u
  let l := s.launchOf u
  if 0x100 ≤ sel then (u.side (hbOf t) (sel - 0x100)).toNat
  else
    match sel with
    | 0x000 => t
    | 0x001 => hbOf t
    | 0x002 => laneOf t
    | 0x003 => v.b.slotOf t
    | 0x004 => u.x
    | 0x005 => u.y
    | 0x006 => u.z
    | 0x007 => u.lin
    | 0x008 => l.dimx
    | 0x009 => l.dimy
    | 0x00A => l.dimz
    | 0x00B => u.threads.length
    | 0x010 => u.launch
    | 0x011 => u.ctx
    | 0x012 => s.ctxWorld u.ctx
    | 0x013 => u.core
    | 0x020 => s.dt
    | 0x021 => s.kclk
    | 0x022 => th.gwct.toNat
    | 0x023 => th.egwct.toNat
    | 0x024 => th.ctrs.word.toNat
    | 0x030 => th.sp.toNat
    | 0x031 => th.fp.toNat
    | 0x032 => u.npriv
    | 0x040 => ((s.ctx? u.ctx).map fun (c : Ctx) => c.energy).getD 0
    | 0x050 => th.rmode.toNat
    | 0x051 => th.fmode.toNat
    | 0x052 => th.rng.toNat
    | 0x060 => ((((s.ctx? u.ctx).map fun (c : Ctx) => c.claims).getD []).filter (·.unit == u.uid)).length
    | 0x070 => u.gang.toNat
    | _ => 0

/-- Registers of a selector. -/
def selRegs (sel : BitVec 12) : Nat := if (selInfo sel).any (·.1) then 2 else 1

/-- Selectors that a prologue may read (R334). -/
def prologueSel (sel : Nat) : Bool := sel == 0x020 || sel == 0x010 || sel == 0x011 || sel == 0x012

def execGets (d : VReg) (sel : BitVec 12) (s : State) : Out :=
  issue { lane := false, pro := prologueSel sel.toNat } [dst d (selRegs sel)]
    (fun s v _ t th _ => .ok (th.putN d.toNat (selRegs sel) (BitVec.ofNat 128 (getsValue s v t th sel.toNat))) none []) s

/-- A thread's own state written by SETS; reserved bits of the mode words stay zero (R60). -/
def Thread.setSel (th : Thread) (sel : Nat) (x : Word) : Thread :=
  match sel with
  | 0x030 => { th with sp := x }
  | 0x031 => { th with fp := x }
  | 0x050 => { th with rmode := x &&& 3 }
  | 0x051 => { th with fmode := x &&& 3 }
  | 0x052 => { th with rng := nonzeroG x }
  | _ => th

/-- A sidecar takes the value of the lowest slot among the writers of its home bundle: written last. -/
def setSides (n : Nat) (ps : Parts) (u : UnitSt) : UnitSt :=
  ps.reverse.foldl (fun u x => u.setSide (hbOf x.1) n (x.2.2.a.setWidth 64)) u

def execSets (sel : BitVec 12) (a : VReg) (s : State) : Out :=
  issueWith { lane := false } [src .a a (selRegs sel)]
    (fun _ _ _ _ th o => .ok (th.setSel sel.toNat (o.a.setWidth 32)) none [])
    (fun v ps s =>
      if 0x100 ≤ sel.toNat then s.updUnit v.u.uid (setSides (sel.toNat - 0x100) ps) else s) s

end Sys2Proof.Machine
end

