-- ==== Sys2Proof/Machine/Tile.lean ====
section
/-! DEFINITION. The tile engine (R251 to R290): operand words, alignment and block products (R72 to R74), checks at issue,
the rendezvous latch, and the start and completion of its operations. -/

namespace Sys2Proof.Machine

/-! ### Operand words (R275, R276) -/

/-- How the elements of a row or column are stored (R254, R257). -/
inductive TFmt where
  | elem (f : Fmt) (size : Nat)
  | recs (t : MxTy)
  | i8 | i4 | bp
  deriving DecidableEq, Repr

def bFmtOf : Nat → Option TFmt
  | 0 => some (.elem fE4m3 1) | 1 => some (.elem fE5m2 1) | 2 => some (.recs .mxf8a) | 3 => some (.recs .mxf8b)
  | 4 => some (.recs .mxf6a) | 5 => some (.recs .mxf6b) | 6 => some (.recs .mxf4) | 7 => some (.recs .mxi8)
  | 8 => some .i8 | 9 => some .i4 | _ => none

def aFmtOf : Nat → Option TFmt
  | 0 => some .bp | 1 => some .i8 | 2 => some (.elem fE4m3 1) | 3 => some (.elem fE5m2 1) | 4 => some (.recs .mxf8a)
  | 5 => some (.recs .mxf8b) | 6 => some (.recs .mxf6a) | 7 => some (.recs .mxf6b) | 8 => some (.recs .mxf4)
  | 9 => some (.recs .mxi8) | 10 => some (.elem bf16 2) | 11 => some (.elem fp16 2) | _ => none

def TFmt.isMx : TFmt → Bool
  | .recs _ => true
  | _ => false

/-- Bytes of `k` stored elements. -/
def TFmt.len (f : TFmt) (k : Nat) : Nat :=
  match f with
  | .elem _ n => k * n
  | .recs t => k / 32 * mxSize t
  | .i8 => k
  | .i4 => (k + 1) / 2
  | .bp => 0

/-- A format word's fields. -/
def fwA (w : Nat) : Nat := bits w 0 4
def fwP (w : Nat) : Nat := bits w 4 4
def fwB (w : Nat) : Nat := bits w 8 4
def fwMid (w : Nat) : Bool := flag w 12
def fwSparse (w : Nat) : Bool := flag w 13
def fwMreq (w : Nat) : Bool := flag w 14
def fwAcc (w : Nat) : Bool := flag w 15
def fwRnd (w : Nat) : Nat := bits w 16 2

/-- What TLDB checks of a format word. -/
def fwLoads (w : Nat) : Bool :=
  decide (w < 2 ^ 18) && (bFmtOf (fwB w)).isSome && (!fwSparse w || fwB w == 0 || fwB w == 1 || fwB w == 8 || fwB w == 9)

/-- What TMMA checks of a format word. -/
def fwMultiplies (w : Nat) : Bool :=
  fwLoads w && (aFmtOf (fwA w)).isSome && decide (2 ≤ fwP w) && decide (fwP w ≤ 8) && (fwA w != 1 || fwP w == 8) &&
    (!fwMid w || fwA w == 0) && (fwRnd w == 0 || (fwRnd w == 1 && decide (2 ≤ fwA w)))

/-- A shape word: M, a_first, N. -/
structure TShape where
  m  : Nat
  af : Nat
  n  : Nat
  deriving DecidableEq, Repr

def shapeOf (w : Nat) : Option TShape :=
  let m := bits w 0 9 + 1
  let af := bits w 9 9
  if w < 2 ^ 27 ∧ m ≤ 384 ∧ af + m ≤ 384 then some ⟨m, af, bits w 18 9 + 1⟩ else none

/-- A dims word: K_B, N_B. -/
def dimsOf (w : Nat) : Option (Nat × Nat) :=
  if w < 2 ^ 25 ∧ bits w 9 7 = 0 then some (bits w 0 9 + 1, bits w 16 9 + 1) else none

/-- Bases and pitches are below 2^22 (R271). -/
def inWin (x : Nat) : Bool := decide (x < 2 ^ 22)

/-- Operands as the tile instructions name them. -/
def EngOp.base (e : EngOp) : Nat := e.o.a.toNat % 2 ^ 32
def EngOp.pitch (e : EngOp) : Nat := e.o.b.toNat % 2 ^ 32
def EngOp.word1 (e : EngOp) : Nat := e.o.b.toNat / 2 ^ 32 % 2 ^ 32
def EngOp.fw (e : EngOp) : Nat := e.o.c.toNat % 2 ^ 32

/-! ### Alignment and block products (R69, R72 to R74) -/

def signOf (v : Val) : Int := if v.isZero then 0 else if v.isNeg then -1 else 1

def TElt.zero : TElt := .fin 0 0

/-- The elements of one block aligned to `p` bits, `floor` being the smallest-normal exponent (R72). -/
def alignBlk (p : Nat) (rm : RM) (floor : Int) (xs : List Val) : TBlk :=
  let fins := xs.filter fun x => !x.isNan && !x.isInf && !x.isZero
  match fins with
  | [] =>
    { e := 0, xs := xs.map fun x => match x with | .nan => .nan | .inf s => .inf s | .fin .. => .fin 0 0 }
  | x :: _ =>
    let top := fins.foldl (fun m y => max m (max y.log2Floor floor)) (max x.log2Floor floor)
    let lim : Int := 2 ^ (p - 1) - 1
    { e := top - (p - 2)
      xs := xs.map fun x => match x with
        | .nan => .nan
        | .inf s => .inf s
        | .fin .. => .fin (Val.toInt rm (-lim) lim (x.scale (p - 2 - top))) (signOf x) }

def intBlk (xs : List Int) : TBlk := { e := 0, xs := xs.map fun n => .fin n (if n < 0 then -1 else if n == 0 then 0 else 1) }

/-- The smallest-normal exponent of a record's elements under its scale. -/
def mxFloor (t : MxTy) (scale : Nat) : Int :=
  (match bfmt? (mxElem t) with | some f => f.emin | none => -6) + ((scale : Int) - 127)

/-- Consecutive pieces of `g` elements. -/
def pieces {α : Type} (g : Nat) : Nat → List α → List (List α)
  | 0, _ => []
  | n + 1, xs => if xs.isEmpty then [] else xs.take g :: pieces g n (xs.drop g)

/-- A stored row or column of `k` elements in blocks of `g`, from its bytes. -/
def TFmt.blocks (f : TFmt) (p : Nat) (rm : RM) (lo : Int) (g k : Nat) (rd : Nat → Byte) : List TBlk :=
  let num (i n : Nat) : Nat := ofLe ((span i n).map rd)
  match f with
  | .elem fm n => (pieces g k ((List.range k).map fun i => fm.dec (num (i * n) n))).map (alignBlk p rm fm.emin)
  | .recs t => (List.range (k / 32)).map fun b =>
      alignBlk p rm (mxFloor t (num (b * mxSize t) 1)) (mxRead t (num (b * mxSize t) (mxSize t)))
  | .i8 => (pieces g k ((List.range k).map fun i => max lo (toSigned 8 (num i 1)))).map intBlk
  | .i4 => (pieces g k ((List.range k).map fun i => toSigned 4 (num (i / 2) 1 / 16 ^ (i % 2)))).map intBlk
  | .bp => []

/-- The BP reading of element i of a tensor with plane pitch q (R68, R69). -/
def bpElem (rd : Nat → Byte) (q p : Nat) (mid : Bool) (i : Nat) : Int :=
  let v := (List.range p).foldl (fun x j => 2 * x + ((rd (j * q + i / 8)).toNat / 2 ^ (i % 8) % 2)) 0
  toSigned p v * 2 ^ (8 - p) + (if mid && p < 8 then 2 ^ (7 - p) else 0)

/-- A block filled up to 32 positions: absent ones take part as zero. -/
def TBlk.full (b : TBlk) : List TElt := b.xs ++ List.replicate (32 - b.xs.length) TElt.zero

/-- Stored rows of a sparse block at their logical positions (R261). -/
def TBlk.expand (b : TBlk) (idx : List Nat) : List TElt :=
  b.xs.zipIdx.foldl (fun ys (x : TElt × Nat) => ys.set (4 * (x.2 / 2) + idx.getD x.2 0) x.1) (List.replicate 32 TElt.zero)

def TElt.isNan : TElt → Bool
  | .nan => true
  | _ => false

/-- What one K position with an infinity contributes: none without one; a NaN; or an infinity. -/
def infPair : TElt → TElt → Option Val
  | .inf s, .inf t => some (.inf (s != t))
  | .inf s, .fin _ g => some (if g == 0 then .nan else .inf (s != decide (g < 0)))
  | .fin _ g, .inf s => some (if g == 0 then .nan else .inf (s != decide (g < 0)))
  | _, _ => none

def eltInt : TElt → Int
  | .fin n _ => n
  | _ => 0

/-- The product of two aligned blocks, converted to FP32 (R73, R74). DEDUCED, log 21. -/
def blockProd (ea eb : Int) (xs ys : List TElt) : Val :=
  let ps := xs.zip ys
  let infs := ps.filterMap fun p => infPair p.1 p.2
  if ps.any fun p => p.1.isNan || p.2.isNan then .nan
  else
    match infs with
    | i :: rest => if infs.any Val.isNan || rest.any (· != i) then .nan else i
    | [] =>
      let n := ps.foldl (fun (acc : Int) p => acc + eltInt p.1 * eltInt p.2) 0
      fp32.dec (fp32.round .rne false (Val.ofUnits n (ea + eb) false))

/-! ### The engine's state -/

def TileSt.cell (t : TileSt) (r c : Nat) : Word := ((t.acc.find? (·.1 == 512 * r + c)).map (·.2)).getD 0
def TileSt.setCell (t : TileSt) (r c : Nat) (w : Word) : TileSt :=
  { t with acc := (512 * r + c, w) :: t.acc.filter (·.1 != 512 * r + c), high := max t.high (r + 1) }

def Tile.k (t : Tile) : Nat := if t.sparse then 2 * t.kb else t.kb

/-- TLDB's effect at its turn (R278). -/
def loadTile (scr : Memory) (e : EngOp) (kb nb : Nat) (f : TFmt) : Tile :=
  let sp := fwSparse e.fw
  { kb := kb, nb := nb, bfmt := fwB e.fw, sparse := sp, mcopy := !sp && decide (nb ≤ 256)
    cols := (List.range nb).map fun c =>
      f.blocks 8 .rne (-127) (if sp then 16 else 32) kb (fun i => scr.read (e.base + c * e.pitch + i)) }

/-- The metadata that TLDM reads (R261, R279). -/
def readSide2 (scr : Memory) (b kb nb : Nat) : List (List Nat) :=
  (List.range nb).map fun c => (List.range kb).map fun k =>
    (scr.read (b + (c * 512 + k) / 4)).toNat / 4 ^ ((c * 512 + k) % 4) % 4

/-- Every pair of indices is ascending (R262). -/
def pairsOk : List Nat → Bool
  | a :: b :: xs => decide (a < b) && pairsOk xs
  | _ => true

/-- The aligned blocks of A row `r` (R258, R280). -/
def aRow (scr : Memory) (e : EngOp) (k r : Nat) : List TBlk :=
  let p := fwP e.fw
  match (aFmtOf (fwA e.fw)).getD .i8 with
  | .bp => (pieces 32 k ((List.range k).map fun i =>
      bpElem (fun a => scr.read (e.base + a)) e.pitch p (fwMid e.fw) (r * k + i))).map intBlk
  | f => f.blocks p (if fwRnd e.fw == 1 then .rtz else .rne) (-128) 32 k (fun i => scr.read (e.base + r * e.pitch + i))

/-- Logical blocks of a tile's columns. -/
def Tile.nblocks (t : Tile) : Nat := (t.k + 31) / 32

/-- One K-block step: block `k` mod nb of A row `k` ÷ nb is added in every column (R269, R280). -/
def mmaStep (scr : Memory) (e : EngOp) (sh : TShape) (tile : Tile) (side : List (List Nat)) (t : TileSt) (k : Nat) : TileSt :=
  let nb := tile.nblocks
  let r := k / nb
  let b := k % nb
  let a := ((aRow scr e tile.k r).getD b { e := 0, xs := [] })
  (List.range sh.n).foldl (fun (t : TileSt) c =>
    let y := ((tile.cols.getD c []).getD b { e := 0, xs := [] })
    let ys := if tile.sparse then y.expand ((side.getD c []).drop (16 * b)) else y.full
    let prev := if b == 0 && !fwAcc e.fw then 0 else t.cell (sh.af + r) c
    t.setCell (sh.af + r) c
      (BitVec.ofNat 32 (fp32.round .rne false (Val.add .rne (fp32.dec prev.toNat) (blockProd a.e y.e a.full ys))))) t

/-- Steps `lo` to `hi` − 1. A row that is partly added goes on with the bytes that were read for it (R281). -/
def mmaSteps (scr : Memory) (e : EngOp) (sh : TShape) (t : TileSt) (lo hi : Nat) : TileSt :=
  match t.tile with
  | none => t
  | some tile =>
    let rd (k : Nat) : Memory := if k / tile.nblocks == lo / tile.nblocks then e.row.getD scr else scr
    (List.range (hi - lo)).foldl (fun t i => mmaStep (rd (lo + i)) e sh tile ((t.side.map (·.idx)).getD []) t (lo + i)) t

/-! ### Statuses (R273) -/

/-- What fails of an operation before the engine's state is looked at. -/
def preStatus (e : EngOp) : Nat :=
  match e.ins with
  | .tldb .. =>
    if !fwLoads e.fw then 1
    else
      match dimsOf e.word1 with
      | none => 2
      | some (kb, _) =>
        let mx := ((bFmtOf (fwB e.fw)).map (·.isMx)).getD false
        if !inWin e.base || !inWin e.pitch || (mx && kb % 32 != 0) || (fwSparse e.fw && kb % 2 != 0) then 2 else 0
  | .tldm .. =>
    match dimsOf e.pitch with
    | none => 2
    | some (kb, _) => if !inWin e.base || kb % 2 != 0 then 2 else 0
  | .tmma .. =>
    if !fwMultiplies e.fw then 1
    else if (shapeOf e.word1).isNone || !inWin e.base || !inWin e.pitch then 2 else 0
  | .tzero .. => if (shapeOf e.base).isNone then 2 else 0
  | .tst _ _ _ _ _ _ ty _ =>
    match shapeOf e.word1 with
    | none => 2
    | some sh => if !inWin e.base || !inWin e.pitch || (decide (4 < tstCode ty) && sh.n % 32 != 0) then 2 else 0
  | _ => e.status
where
  tstCode : TstTy → Nat
    | .f32 => 0 | .bf16 => 1 | .f16 => 2 | .e4m3 => 3 | .e5m2 => 4 | _ => 5

/-- A tile as TMMA's checks see it: K_B, N_B, format, sparse. -/
abbrev TileKey := Nat × Nat × Nat × Bool

def Tile.key (t : Tile) : TileKey := (t.kb, t.nb, t.bfmt, t.sparse)

/-- The checks of R280 against a tile, in its order. -/
def mmaStatus (e : EngOp) (sh : TShape) (k : TileKey) : Nat :=
  let (kb, nb, bf, sp) := k
  let kl := if sp then 2 * kb else kb
  let mx := ((aFmtOf (fwA e.fw)).map (·.isMx)).getD false
  if nb < sh.n || (mx && kl % 32 != 0) || (fwA e.fw == 0 && decide (8 * e.pitch < sh.m * kl)) then 2
  else if fwB e.fw != bf || fwSparse e.fw != sp then 3
  else 0

/-! ### Ranges (R274) -/

def isTile : Instr → Bool
  | .tgang .. | .tldb .. | .tldm .. | .tmma .. | .tzero .. | .tst .. | .tmir .. => true
  | _ => false

/-- Tile operations of a unit, in the order of their acceptance. -/
def State.tileOps (s : State) (u : Nat) : List EngOp := s.eng.filter fun e => e.unit == u && isTile e.ins

/-- The tile that a TMMA accepted now will find. -/
def State.comingTile (s : State) (u : UnitSt) : Option TileKey :=
  match ((s.tileOps u.uid).filter fun e => (match e.ins with | .tldb .. => true | _ => false) && preStatus e == 0).getLast? with
  | some e => (dimsOf e.word1).map fun d => (d.1, d.2, fwB e.fw, fwSparse e.fw)
  | none => ((s.core u.core).te.tile).map Tile.key

def mmaRanges (e : EngOp) (sh : TShape) (k : TileKey) : List Rng :=
  let kl := if k.2.2.2 then 2 * k.1 else k.1
  match (aFmtOf (fwA e.fw)).getD .i8 with
  | .bp => (List.range (fwP e.fw)).map fun (j : Nat) => ⟨e.base + j * e.pitch, (sh.m * kl + 7) / 8, 128⟩
  | f => (List.range sh.m).map fun (r : Nat) => ⟨e.base + r * e.pitch, f.len kl, 1⟩

/-- Element type of a TST into a plain format; none for MX. -/
def tstTy : TstTy → Except MxTy STy
  | .f32 => .ok .f32 | .bf16 => .ok .bf16 | .f16 => .ok .f16 | .e4m3 => .ok .e4m3 | .e5m2 => .ok .e5m2
  | .mxf8a => .error .mxf8a | .mxf8b => .error .mxf8b | .mxf6a => .error .mxf6a | .mxf6b => .error .mxf6b
  | .mxf4 => .error .mxf4 | .mxi8 => .error .mxi8

/-- Bytes of a row that TST writes. -/
def tstRow (ty : TstTy) (n : Nat) : Nat :=
  match tstTy ty with
  | .ok t => n * t.bytes
  | .error mx => n / 32 * mxSize mx

/-- The scratchpad ranges of an operation whose words are valid, with the tile that a TMMA multiplies by. -/
def State.rangesWith (s : State) (u : UnitSt) (key : Option TileKey) (e : EngOp) : List Rng :=
  if preStatus e != 0 then []
  else
    match e.ins with
    | .tldb .. =>
      match dimsOf e.word1, bFmtOf (fwB e.fw) with
      | some (kb, nb), some f => (List.range nb).map fun (c : Nat) => ⟨e.base + c * e.pitch, f.len kb, 1⟩
      | _, _ => []
    | .tldm .. =>
      match dimsOf e.pitch with
      | some (kb, nb) => [⟨e.base, ((nb - 1) * 512 + kb - 1) / 4 + 1, 1⟩]
      | none => []
    | .tmma .. =>
      match shapeOf e.word1, key with
      | some sh, some k => if mmaStatus e sh k == 0 then mmaRanges e sh k else []
      | _, _ => []
    | .tst _ _ _ _ _ _ ty k =>
      match shapeOf e.word1 with
      | some sh => ((List.range sh.m).map fun (r : Nat) => ⟨e.base + r * e.pitch, tstRow ty sh.n, 1⟩) ++
          arvRange (s.boundOf u k.toNat)
      | none => []
    | _ => []

/-- The ranges that are checked at issue. -/
def State.tileRanges (s : State) (u : UnitSt) (e : EngOp) : List Rng := s.rangesWith u (s.comingTile u) e

/-! ### Issue (R271, R274) -/

/-- A tile operation of a path: checked and accepted. -/
def issueTile (i : Instr) (d : VReg) (us : List RegUse) (prep : State → View → EngOp → EngOp)
    (f : View → EngOp → State → State) (s : State) : Out :=
  issueEng i .t d 1 us
    (fun s v _ e =>
      let e := prep s v e
      match rangesBad v.u.nscr (s.tileRanges v.u e) with
      | some t => .trap t
      | none => .accept e (f v e)) s

/-- Home bundles of a unit. -/
def UnitSt.hbs (u : UnitSt) : Nat := u.threads.length / 32

/-- TGANG's mask, when its indices are valid (R277). -/
def gangMask (hbs n v : Nat) : Option Nat :=
  let is := (List.range n).map fun i => bits v (5 * i) 5
  if v / 2 ^ (5 * n) == 0 && is.all (fun i => decide (i < hbs)) && decide (is.Pairwise (· < ·)) then
    some (is.foldl (fun m i => m + 2 ^ i) 0)
  else none

/-- TGANG: the register is set before the path's next instruction issues. -/
def execTgang (d a : VReg) (n : BitVec 3) (s : State) : Out :=
  issueTile (.tgang d a n) d [dst d, src .a a]
    (fun _ v e => { e with status := if (gangMask v.u.hbs n.toNat e.base).isSome then 0 else 6 })
    (fun v e s =>
      match gangMask v.u.hbs n.toNat e.base with
      | some m => s.updUnit v.u.uid fun u => { u with gang := BitVec.ofNat 32 m }
      | none => s) s

def execTldb (d a b c : VReg) (s : State) : Out :=
  issueTile (.tldb d a b c) d [dst d, src .a a, src .b b 2, src .c c] (fun _ _ e => e) (fun _ _ s => s) s

def execTldm (d a b : VReg) (s : State) : Out :=
  issueTile (.tldm d a b) d [dst d, src .a a, src .b b] (fun _ _ e => e) (fun _ _ s => s) s

def execTzero (d a : VReg) (s : State) : Out :=
  issueTile (.tzero d a) d [dst d, src .a a] (fun _ _ e => e) (fun _ _ s => s) s

/-- TST: the elected lane's G steps once when SR is selected, even if the operation is later rejected (R65). -/
def execTst (d a b : VReg) (clr sat : Bool) (rnd : Rnd) (ty : TstTy) (bound : BitVec 6) (s : State) : Out :=
  issueTile (.tst d a b clr sat rnd ty bound) d [dst d, src .a a, src .b b 2] (fun _ _ e => e) (fun v _ s => s.stepG v rnd) s

/-- TMIR: whether mirroring may be turned off is settled at issue (R286, R369). -/
def execTmir (d : VReg) (on : Bool) (s : State) : Out :=
  issueTile (.tmir d on) d [dst d]
    (fun s v e => { e with status := if on || (((s.ctx? v.u.ctx).map fun (x : Ctx) => x.desc.mirx).getD false) then 0 else 5 })
    (fun _ _ s => s) s

/-! ### Progress and mirror counts (R268, R269, R285) -/

def isTmma : Instr → Bool
  | .tmma .. => true
  | _ => false

/-- The TMMA in progress in a unit's engine. -/
def State.running (s : State) (u : Nat) : Option EngOp := (s.tileOps u).find? fun e => isTmma e.ins && e.phase == .begun

def State.tileBlocks (s : State) (u : Nat) : Nat :=
  max 1 ((((s.unit? u).bind fun x => (s.core x.core).te.tile).map Tile.nblocks).getD 1)

/-- Adds the blocks of a TMMA up to step `hi`; the rows it comes to are read now (R281). -/
def State.mmaTo (s : State) (e : EngOp) (hi : Nat) : State :=
  match s.unit? e.unit, shapeOf e.word1 with
  | some u, some sh =>
    let nb := s.tileBlocks e.unit
    let row := if hi % nb == 0 then none else if hi / nb == e.prog / nb then some (e.row.getD u.engScr) else some u.engScr
    (s.updCore u.core fun c => { c with te := mmaSteps u.engScr e sh c.te e.prog hi }).updEng e.id fun e =>
      { e with prog := max e.prog hi, row := if hi ≤ e.prog then e.row else row }
  | _, _ => s

/-- The next whole row of a TMMA in progress is read at one moment, and added. DESIGN CHOICE, log 70. -/
def State.mmaRow (s : State) (e : EngOp) : State :=
  match shapeOf e.word1 with
  | none => s
  | some sh =>
    let nb := s.tileBlocks e.unit
    let hi := (e.prog / nb + 1) * nb
    if hi ≤ sh.m * nb then s.mmaTo e hi else s

/-- Where a TMMA stands at a moment the spec does not fix: anywhere from its last known step to its last one.
DESIGN CHOICE, log 3. -/
def State.mmaSome (s : State) (e : EngOp) : State :=
  match shapeOf e.word1 with
  | none => s
  | some sh =>
    let total := sh.m * s.tileBlocks e.unit
    let (s', v) := s.free
    if total ≤ e.prog then s else s'.mmaTo e (e.prog + v.toNat % (total - e.prog))

/-- The progress counter: row and blocks of it (R269). -/
def progressWord (nb prog : Nat) : Nat := prog / nb * 2 ^ 16 + prog % nb

/-- Threshold and window of a row of R377's table. -/
def State.limit (s : State) (i : Nat) : Nat × Nat := s.fw.limits.getD i (1, 0)

/-- Mismatches within the window. -/
def State.recent (s : State) (ts : List Nat) : List Nat := ts.filter fun t => decide (s.dt < t + (s.limit 4).2)

/-- A structure is quarantined (R378). -/
def State.addQuar (s : State) (id : Nat) : State := { s with fw := { s.fw with quars := id :: s.fw.quars } }

/-- One half of a core's array counts a mismatch, which its leaf controller reports; with the third within 10 s, or as
configuration records set it, the fault is lasting: the tile engine is quarantined, and the unit that holds it pre-empted
(R268, R364, R377). -/
def State.mismatch (s : State) (core half : Nat) : State :=
  let id := 4 * 2 ^ 24 + core
  let add (ts : List Nat) : List Nat := s.dt :: s.recent ts
  let s := s.updCore core fun c => if half == 0 then { c with mis0 := add c.mis0 } else { c with mis1 := add c.mis1 }
  let s := s.tellUp core (.mismatch core s.dt)
  let c := s.core core
  if (if half == 0 then c.mis0 else c.mis1).length < (s.limit 4).1 then s
  else
    let s := if s.fw.quars.contains id then s else (s.addQuar id).leafReport core { kind := 4, detail := id }
    match s.units.find? fun u => u.core == core && u.tile && u.st == .resident with
    | some u => s.preemptWhole u
    | none => s

/-- TSTAT's words (R285). -/
def State.tstatWord (s : State) (u : UnitSt) (sel : TstatSel) : Nat :=
  let c := s.core u.core
  match sel with
  | .tile =>
    let t := c.te.tile
    let b (x : Bool) (i : Nat) : Nat := if x then 2 ^ i else 0
    b t.isSome 31 + b ((t.map (·.sparse)).getD false) 30 + b ((t.map (·.mcopy)).getD false) 29 + b c.te.side.isSome 28 +
      (t.map (·.bfmt)).getD 0 * 2 ^ 24 + b u.mirror 23 + ((t.map (·.nb)).getD 1 - 1) * 2 ^ 9 + ((t.map (·.kb)).getD 1 - 1)
  | .prog =>
    match s.running u.uid with
    | some e => 2 ^ 31 + progressWord (s.tileBlocks u.uid) e.prog
    | none => 0
  | .mir => min 3 (s.recent c.mis1).length * 2 ^ 18 + min 3 (s.recent c.mis0).length * 2 ^ 16 + u.replays

/-- TSTAT: read when accepted, complete at once. A TMMA in progress has come to a step that nothing fixes. -/
def execTstat (d : VReg) (sel : TstatSel) (s : State) : Out :=
  issueEng (.tstat d sel) .t d 1 [dst d]
    (fun _ v _ e => .done fun s =>
      let s := match sel, s.running v.u.uid with
        | .prog, some r => s.mmaSome r
        | _, _ => s
      match s.unit? v.u.uid with
      | some u => s.writeD e (BitVec.ofNat 128 (s.tstatWord u sel))
      | none => s) s

/-! ### TMMA and the rendezvous latch (R263 to R265) -/

/-- A thread at the latch: its d, operands and the place of its TMMA. -/
def Thread.latched (th : Thread) : Option (VReg × Opnds × Pos) :=
  match th.st with
  | .waiting (.latch d b p sh fw pc) =>
    some (d, { a := b.setWidth 128, b := (sh ++ p).setWidth 128, c := fw.setWidth 128 }, pc)
  | _ => none

/-- Arrived threads, by index. -/
def UnitSt.arrivals (u : UnitSt) : List (Nat × VReg × Opnds × Pos) :=
  (List.range u.threads.length).filterMap fun t => (u.thread t).latched.map fun x => (t, x)

/-- The listed home bundles of a gang register value. -/
def listed (g : Word) : List Nat := (List.range 32).filter fun h => g.getLsbD h

/-- Every arrived thread takes a trap at its TMMA; the latch is empty again. DEDUCED, log 26. -/
def State.latchTrap (s : State) (u : UnitSt) (tr : Trap) : State :=
  let f (th : Thread) : Thread :=
    match th.latched with
    | some (_, _, pc) => th.trapped pc (trapRec s u.ctx pc tr)
    | none => th
  (s.setUnit { u with latch := none, threads := u.threads.map f }).settleTraps u.uid (u.arrivals.map (·.1))

/-- The rendezvous completes: vote, range check, and one operation for every arrived thread. -/
def State.latchDone (s : State) (u : UnitSt) (g : Word) (lead : Nat × VReg × Opnds × Pos) : State :=
  let arr := u.arrivals
  let e : EngOp := { id := 0, unit := u.uid, ctx := u.ctx, core := u.core, tids := arr.map fun x => (x.1, x.2.1)
                     ins := .tmma lead.2.1 0 0 0, o := lead.2.2.1, pos := lead.2.2.2, ctr := .t, wd := 1 }
  if arr.any fun x => x.2.2.1.c != lead.2.2.1.c then s.latchTrap u { cause := .formatDivergence, info := g }
  else
    match rangesBad u.nscr (s.tileRanges u e) with
    | some t => s.latchTrap u t
    | none =>
      if arr.any fun x => (u.thread x.1).full .t then s
      else
        let f (th : Thread) : Thread := if th.latched.isSome then { th with st := .ready } else th
        (s.setUnit { u with latch := none, threads := u.threads.map f }).accept e

/-- What a rendezvous comes to: an exited home bundle, completion, or nothing yet. -/
def State.settleLatch (uid : Nat) (s : State) : State :=
  match s.unit? uid with
  | none => s
  | some u =>
    match u.latch with
    | none => s
    | some g =>
      let ofHb (h : Nat) : List Nat := u.living.filter fun t => hbOf t == h
      match (listed g).find? fun h => (ofHb h).isEmpty with
      | some h => s.latchTrap u { cause := .gangExited, sub := h, info := g }
      | none =>
        if (listed g).all fun h => (ofHb h).all fun t => (u.thread t).latched.isSome then
          match u.arrivals.find? fun x => some (hbOf x.1) == (listed g).head? with
          | some lead => s.latchDone u g lead
          | none => s
        else s

/-- Registers of TMMA. -/
def tmmaUses (d a b c : VReg) : List RegUse := [dst d, src .a a, src .b b 2, src .c c]

/-- TMMA of a path alone (R280). -/
def tmmaAlone (d a b c : VReg) (s : State) : Out :=
  issueEng (.tmma d a b c) .t d 1 (tmmaUses d a b c)
    (fun s v o e =>
      if v.p.tids.any fun t => (v.u.thread t).reg c.toNat != o.c.setWidth 32 then
        .trap { cause := .formatDivergence, info := v.u.gang }
      else
        match rangesBad v.u.nscr (s.tileRanges v.u e) with
        | some t => .trap t
        | none => .accept e id) s

/-- TMMA under a gang: each thread arrives at the latch. -/
def tmmaGang (d a b c : VReg) (s : State) : Out :=
  issueWith { lane := false } (tmmaUses d a b c)
    (fun _ v _ _ th o =>
      .ok { th with st := .waiting (.latch d (o.a.setWidth 32) (o.b.setWidth 32) ((o.b >>> 32).setWidth 32) (o.c.setWidth 32) v.p.pos) }
        none [])
    (fun v ps s => if ps.isEmpty then s else s.updUnit v.u.uid fun u => { u with latch := some (u.latch.getD u.gang) }) s

def execTmma (d a b c : VReg) (s : State) : Out :=
  match s.view? with
  | none => .next s
  | some v =>
    if v.u.gang == 0 && v.u.latch.isNone then tmmaAlone d a b c s
    else
      -- ILLEGAL_INSTR is the path's (R287)
      match (v.p.tids.filterMap fun t => (v.u.thread t).useBad v.u.nregs false (tmmaUses d a b c)).head? with
      | some sub => .next (s.trapAll v (s.illegal v sub))
      | none => thenDo (State.settleLatch v.u.uid) (tmmaGang d a b c s)

/-! ### The engine's steps (R272) -/

/-- The oldest tile operation of the unit that holds a core's engine. -/
def State.tileHead (s : State) (core : Nat) : Option (UnitSt × EngOp) :=
  (s.units.find? fun u => u.tile && u.core == core && !u.away && (u.st == .resident || u.st == .draining)).bind fun u =>
    (s.tileOps u.uid).head?.map fun e => (u, e)

/-- The status of an operation when its turn comes (R273, R280). -/
def State.turnStatus (s : State) (u : UnitSt) (e : EngOp) : Nat :=
  let te := (s.core u.core).te
  if preStatus e != 0 then preStatus e
  else
    match e.ins, shapeOf e.word1 with
    | .tmma .., some sh =>
      match te.tile with
      | none => 3
      | some t =>
        let st := mmaStatus e sh t.key
        if st != 0 then st
        else if t.sparse && !((te.side.map fun x => decide (t.kb ≤ x.kb) && decide (t.nb ≤ x.nb)).getD false) then 4
        else 0
    | _, _ => 0

/-- A machine-check at a row (R267): the operation stops there, its unit ends, its launch is marked. The report names the
core, and in detail the operation's progress counter (DESIGN CHOICE, log 63). -/
def State.machineCheck (s : State) (u : UnitSt) (e : EngOp) (row : Nat) : State :=
  let nb := s.tileBlocks u.uid
  let at_ := progressWord nb (max e.prog (row * nb))
  let s := s.mmaTo e (row * nb)
  let s := s.complete { e with wd := 0 } 0
  let s := s.updUnit u.uid fun u => ({ u with mcheck := true, faulted := true }).drain
  let s := s.updLaunch u.launch fun l => l.setFault 2
    { fatal := true, repk := 0, widx := 0, pc := e.pos.addr, header := e.pos.hdr.setWidth 64, dt := s.dt
      trap := { cause := .illegalInstr, info := BitVec.ofNat 32 at_, addr := BitVec.ofNat 64 u.core } }
  s.leafReport u.core { ctx := u.ctx, kind := 3, detail := at_, addr := u.core }

/-- The mirror comparisons that fail, row by row (R266): each row is replayed, or stops the operation. -/
def State.mirrorRows (s : State) (u : UnitSt) (e : EngOp) : List MirFault → State
  | [] => s
  | f :: fs =>
    let hit (half : Nat) (b : Bool) (s : State) : State := if b then s.mismatch u.core half else s
    let s := s.updUnit u.uid fun u => { u with replays := min 65535 (u.replays + 1) }
    if f.again then (hit 1 true (hit 0 true s)).machineCheck u e f.row
    else State.mirrorRows (hit 1 f.upper (hit 0 f.lower s)) u e fs

/-- Comparisons that concern the operation: those of rows not yet wholly added in which some half is wrong (R270). -/
def faultsOf (m nb prog : Nat) (fs : List MirFault) : List MirFault :=
  (List.range m).filterMap fun r => if (r + 1) * nb ≤ prog then none else fs.find? fun f => f.row == r && (f.lower || f.upper)

/-- TILE_OP_START: the oldest operation begins. Of a TMMA that has begun, the engine comes to the next row (R281). -/
def execTileOpStart (core : Nat) (faults : List MirFault) (s : State) : Out :=
  match s.tileHead core with
  | none => .next s
  | some (u, e) =>
    let st := s.turnStatus u e
    if e.phase != .accepted then .next (if isTmma e.ins && e.phase == .begun then s.mmaRow e else s)
    else if st != 0 then .next (s.complete e (BitVec.ofNat 128 st))
    else if !(rangePages (s.rangesWith u ((s.core core).te.tile.map Tile.key) e)).all (fun p => u.frames.contains p) then .next s
    else
      let ps := (rangePages (s.rangesWith u ((s.core core).te.tile.map Tile.key) e)).eraseDups
      let s := (s.updEng e.id fun e => { e with phase := .begun, touch := ps }).touchPages u.uid (ps.map (16384 * ·))
      match shapeOf e.word1, (s.core core).te.tile with
      | some sh, some t =>
        if isTmma e.ins && !t.sparse && decide (sh.n ≤ 256) && t.mcopy && (u.mirror || fwMreq e.fw) then
          .next (s.mirrorRows u e (faultsOf sh.m t.nblocks e.prog faults))
        else .next s
      | _, _ => .next s

/-- One row that TST writes (R283). DEDUCED, log 13. -/
def tstOneRow (te : TileSt) (e : EngOp) (sh : TShape) (ty : TstTy) (sat : Bool) (b : Option BoundE) (x : Sw) (r : Nat) : Sw :=
  let d : Int := e.base + r * e.pitch
  let v (c : Nat) : Nat := (te.cell (sh.af + r) c).toNat
  match tstTy ty with
  | .ok t =>
    let (rms, rm) := x.rounds sh.n
    Sw.row b t { x with rm := rm } d (rms.zipIdx.map fun z => (sfmt t).round z.1 sat (fp32.dec (v z.2)))
  | .error mx =>
    (List.range (sh.n / 32)).foldl (fun (x : Sw) (g : Nat) =>
      let (rms, rm) := x.rounds 32
      let at_ : Int := d + g * mxSize mx
      let ins := (List.range 32).map fun i => v (32 * g + i)
      let x := ins.zipIdx.foldl (fun (x : Sw) (c : Nat × Nat) =>
        if (passSlot b .f32 c.1).2 then x.note (fp32.dec c.1) (at_ + 1 + c.2 * bitsOf (mxElem mx) / 8) else x) { x with rm := rm }
      let vs := ins.map fun c => fp32.dec (passSlot b .f32 c).1
      x.store at_ (leBytes (mxSize mx) (mxWord mx (renormalise (mxElem mx) (vs.zip rms))))) x

/-- Sets cells of the named rows and columns to +0. -/
def TileSt.clear (t : TileSt) (sh : TShape) : TileSt :=
  { t with high := max t.high (sh.af + sh.m)
           acc := t.acc.filter fun x =>
             !(decide (sh.af ≤ x.1 / 512) && decide (x.1 / 512 < sh.af + sh.m) && decide (x.1 % 512 < sh.n)) }

/-- TST's writes, count, arrival and owed bound trap (R283, R284). -/
def State.tstDone (s : State) (u : UnitSt) (e : EngOp) (sh : TShape) (clr sat : Bool) (rnd : Rnd) (ty : TstTy) (k : Nat) : State :=
  let b := s.boundOf u k
  let x := (List.range sh.m).foldl (tstOneRow (s.core u.core).te e sh ty sat b) { scr := u.engScr, rm := resolve e.rmode e.g rnd }
  let s := s.engineScr u.uid x.out ((b.map (·.arv)).getD false)
  let s := if clr then s.updCore u.core fun c => { c with te := c.te.clear sh } else s
  let s := s.countBound u k x.viol
  let s := match b with
    | some b => if b.arv then s.arriveScr u.uid b.aw (sh.m * tstRow ty sh.n) else s
    | none => s
  let e := { e with first := x.first }
  let s := s.complete e 0
  if (b.map fun b => b.action == 3).getD false then s.owe e k (some e.pos) else s

/-- TILE_OP_COMPLETE; with no operation to complete, an engine write of the window becomes visible to the lanes (R91). -/
def execTileOpComplete (core : Nat) (s : State) : Out :=
  match s.tileHead core with
  | none => .next (s.landLate core)
  | some (u, e) =>
    let done (s : State) : State := s.complete e 0
    if e.phase != .begun then .next (s.landLate core)
    else
      match e.ins with
      | .tldb .. =>
        match dimsOf e.word1, bFmtOf (fwB e.fw) with
        | some (kb, nb), some f =>
          .next (done (s.updCore core fun c => { c with te := { c.te with tile := some (loadTile u.engScr e kb nb f) } }))
        | _, _ => .next s
      | .tldm .. =>
        match dimsOf e.pitch with
        | some (kb, nb) =>
          let idx := readSide2 u.engScr e.base kb nb
          if idx.all pairsOk then
            .next (done (s.updCore core fun c => { c with te := { c.te with side := some ⟨kb, nb, idx⟩ } }))
          else .next (s.complete e 4)
        | none => .next s
      | .tmma .. =>
        match shapeOf e.word1 with
        | some sh => .next (done (s.mmaTo e (sh.m * s.tileBlocks u.uid)))
        | none => .next s
      | .tzero .. =>
        match shapeOf e.base with
        | some sh => .next (done (s.updCore core fun c => { c with te := c.te.clear sh }))
        | none => .next s
      | .tst _ _ _ clr sat rnd ty k =>
        match shapeOf e.word1 with
        | some sh => .next (s.tstDone u e sh clr sat rnd ty k.toNat)
        | none => .next s
      | .tmir _ on => .next (done (s.updUnit u.uid fun u => { u with mirror := on }))
      | _ => .next (done s)

/-- The TMMA in progress comes to the step at which a pre-emption stops it (R269). -/
def State.nearStop (s : State) (u : UnitSt) : State :=
  match s.running u.uid with
  | some e => s.mmaSome e
  | none => s

/-- It stops there, and starts again at that step with a new read of the row (R270). -/
def State.stopTile (s : State) (u : UnitSt) : State :=
  match s.running u.uid with
  | some e => s.updEng e.id fun e => { e with phase := .accepted, row := none }
  | none => s

end Sys2Proof.Machine
end

