-- ==== Sys2Proof/Machine/LaneEngine.lean ====
section
/-! DEFINITION. The lane engine's own steps: the issue cycle with its path picks (R102 to R106), the elder rule, spill
and the bundle former (R107 to R110). -/

namespace Sys2Proof.Machine

/-! ### Ready threads and groups (R102, R103) -/

/-- The wait fields of a thread's next clause are met. At a clause that is malformed, or that cannot be read, the path
opens and finds that out: the whole clause is checked before its wait fields (R29). -/
def State.waitsMet (s : State) (u : UnitSt) (th : Thread) : Bool :=
  th.pos.widx != 0 ||
  match s.codeWord u.ctx th.pos.hdr 0 with
  | .word w => s.checkClause u.ctx th.pos.hdr (decodeHeader w) != .ok || headerMet (decodeHeader w) th.ctrs
  | _ => true

def State.isReady (s : State) (u : UnitSt) (t : Nat) : Bool :=
  let th := u.thread t
  th.st == .ready && s.waitsMet u th

/-- Threads of a bundle in slot order. -/
def Bundle.tids (b : Bundle) : List Nat := b.slots.filterMap id

/-- Ready threads of a bundle at one position, with their greatest elder age. -/
structure Grp where
  pos  : Pos
  tids : List Nat
  age  : Nat
  deriving DecidableEq, Repr

def State.groups (s : State) (u : UnitSt) (b : Bundle) : List Grp :=
  let ready := b.tids.filter (s.isReady u)
  let at_ (p : Pos) : List Nat := ready.filter fun t => (u.thread t).pos == p
  (ready.map fun t => (u.thread t).pos).eraseDups.map fun p =>
    { pos := p, tids := at_ p, age := (at_ p).foldl (fun m t => max m (u.thread t).age) 0 }

/-- Lower PC first. -/
def Pos.lower (p q : Pos) : Bool := decide (p.addr.toNat < q.addr.toNat) || (p.addr == q.addr && decide (p.rep < q.rep))

/-- A thread of the group has reached an elder age of 256 kclk. -/
def Grp.elder (g : Grp) : Bool := decide (256 ≤ g.age)

/-- The order of the path pick: elders by age, then the more populous; the lower PC decides. -/
def Grp.before (x y : Grp) : Bool :=
  if x.elder != y.elder then x.elder
  else
    let kx := if x.elder then x.age else x.tids.length
    let ky := if x.elder then y.age else y.tids.length
    decide (ky < kx) || (kx == ky && x.pos.lower y.pos)

def firstGrp : List Grp → Option Grp
  | [] => none
  | g :: gs =>
    match firstGrp gs with
    | some h => if h.before g then some h else some g
    | none => some g

/-- Whether a group may open now: not in a bundle that is held (R196); in a unit that is being saved or drains, only inside
a clause that is already open (R31, R116, R120); and not at the PC of the path in the other slot (R103). -/
def mayOpen (u : UnitSt) (b : Bundle) (slot : Bool) (g : Grp) : Bool :=
  !b.hold && !u.away && ((u.st == .resident && !u.preempt) || g.pos.widx != 0) &&
  !(((b.path (!slot)).map fun p => p.hdr == g.pos.hdr && g.pos.widx == 0).getD false)

/-- The group becomes the open path of a slot. -/
def State.openPath (s : State) (u : UnitSt) (b : Bundle) (slot : Bool) (g : Grp) : State :=
  let p : Path := { tids := g.tids, hdr := g.pos.hdr, widx := g.pos.widx, cnt := g.pos.cnt, cls := g.pos.cls,
                    hint := g.pos.hint, krep := g.pos.rep }
  let f (i : Nat) (th : Thread) : Thread := if g.tids.contains i then { th with st := .inPath, age := 0 } else th
  s.setUnit (({ u with threads := u.threads.mapIdx f }).setBundle (b.setPath slot (some p)))

/-- Fills one path slot, if it is empty, from the groups that a test admits. -/
def State.pickSlot (s : State) (uid bid : Nat) (slot : Bool) (ok : Grp → Bool) : State :=
  match s.unit? uid with
  | none => s
  | some u =>
    match u.bundle? bid with
    | none => s
    | some b =>
      if (b.path slot).isSome then s
      else
        match firstGrp ((s.groups u b).filter fun g => ok g && mayOpen u b slot g) with
        | some g => s.openPath u b slot g
        | none => s

/-- A path pick (R103). -/
def State.pathPick (s : State) (uid bid : Nat) (ok : Grp → Bool) : State :=
  (s.pickSlot uid bid false ok).pickSlot uid bid true ok

/-! ### Divergence (R106) -/

/-- Headers of a bundle's open paths. -/
def Bundle.openAt (b : Bundle) : List Pos := ((b.path0.toList ++ b.path1.toList).map fun p => { hdr := p.hdr })

/-- After the path pick: the count, and the spill that it begins. A thread inside a clause is not spilled (R31, R50, R199). -/
def State.diverge (s : State) (uid bid : Nat) : State :=
  match s.unit? uid with
  | none => s
  | some u =>
    match u.bundle? bid with
    | none => s
    | some b =>
      let gs := s.groups u b
      let pcs := (b.openAt ++ gs.map (·.pos)).eraseDups
      let n := if 3 ≤ pcs.length then b.divc + 1 else 0
      if n != 0 && decide ((s.launchOf u).spill ≤ n) then
        let out := (gs.filter fun g => g.pos.widx == 0 && !b.openAt.contains g.pos).foldl (fun ts g => ts ++ g.tids) []
        let f (i : Nat) (th : Thread) : Thread := if out.contains i then { th with st := .spilling, age := 0 } else th
        s.setUnit (({ u with threads := u.threads.mapIdx f }).setBundle { b with divc := 0 })
      else s.setUnit (u.setBundle { b with divc := n })

/-! ### The silt pool (R107, R108) -/

/-- Where a thread's record lies: its unit's place in the pool, then the thread's own. -/
def State.siltAt (s : State) (u : UnitSt) (t : Nat) : Nat :=
  (s.launchOf u).pool + u.silt * (s.launchOf u).siltUnit + t * siltRec u.nregs

/-- The spill record; the spec gives no layout. DESIGN CHOICE, log 62. -/
def Thread.siltBytes (th : Thread) : List Byte :=
  leBytes 8 th.pos.addr.toNat ++ leBytes 8 th.gwct.toNat ++ leBytes 8 th.egwct.toNat ++
  bytesOf [th.sp, th.fp, th.ctrs.word, th.rng, th.rmode, th.fmode] ++ List.replicate 16 0 ++ bytesOf th.regs

def State.writeSilt (s : State) (u : UnitSt) (t : Nat) : State := s.putPhys (s.siltAt u t) (u.thread t).siltBytes

/-! ### The issue cycle (R104) -/

/-- One kclk: the counter, and device time at the core clock in force (R5, R403); writes whose GWCT has come are performed
(R85). DESIGN CHOICE, log 48. -/
def State.clock (s : State) : State :=
  State.performAll { s with kclk := s.kclk + 1, time := s.time + 1000 * tick / s.power.freq.toNat }

/-- FQUIET ends when every fabric operation of its threads has landed (R313). -/
def Thread.settleQuiet (s : State) (u : UnitSt) (th : Thread) : Thread :=
  match th.st with
  | .waiting (.quiet grp) => if grp.all fun t => !s.fabricOut u.uid t then { th with st := .ready } else th
  | _ => th

/-- A built bundle dissolves with its last thread (R109). -/
def UnitSt.dissolve (u : UnitSt) : UnitSt :=
  { u with bundles := u.bundles.filter fun b => !b.built || b.tids.any fun t => (u.thread t).alive }

/-- Waits of a resident unit that time or other agents have ended, at the start of a kclk; `was` is the DT of the kclk that
has passed, whose arrivals and additions come before its timeouts (R159, R350). -/
def State.settleTimed (s : State) (was : Nat) : State :=
  { s with units := s.units.map fun u =>
      if u.st == .resident then
        let f (th : Thread) : Thread := (((((th.timeJoin s.kclk).wake s.dt).wakeOver s u.ctx).timeEvent was)).settleQuiet s u
        (({ u with threads := u.threads.map f }).settle).dissolve
      else u.dissolve }

/-- Threads that the silt pool holds (R107). -/
def Thread.inSilt (th : Thread) : Bool :=
  match th.st with
  | .spilled _ => true
  | _ => false

/-- The completions of a spilled thread's stores and engine operations reach its record (R107). -/
def State.settleSilt (s : State) : State :=
  s.units.foldl (fun s u => (List.range u.threads.length).foldl (fun s t =>
    if (u.thread t).inSilt then s.writeSilt u t else s) s) s

def State.settleAll (s : State) (was : Nat) : State :=
  let s := s.settleWaits.settleTimed was
  (((s.units.map (·.uid)).foldl (fun s u => s.settleLatch u) s).settleLaunches).settleSilt

/-- What an issue pick competes for: a quadrant of a core, or a prologue's own thread. -/
abbrev PickKey := Nat × Nat

def UnitSt.keyOf (u : UnitSt) (b : Bundle) : PickKey := (u.core, if u.role == .prologue then 4 + u.uid else b.quad)

/-- A unit whose bundles a quadrant may pick. -/
def UnitSt.issues (u : UnitSt) : Bool := (u.st == .resident || u.st == .draining) && !u.away

/-- The quadrant is asked to pick another bundle next (R31, R161). -/
def Bundle.yields (b : Bundle) : Bool := b.yld || b.hint

/-- Another bundle of the quadrant has a ready thread (R161). -/
def State.otherReady (s : State) (u : UnitSt) (b : Bundle) : Bool :=
  s.units.any fun x => x.issues && x.bundles.any fun y =>
    x.keyOf y == u.keyOf b && !(x.uid == u.uid && y.bid == b.bid) && !y.hold && y.tids.any (s.isReady x)

/-- The picks that one kclk allows: one bundle for each quadrant of a core, of units that issue; after a YIELD or a
yield hint another one than the bundle that yielded, if one has a ready thread (R31, R104, R161). -/
def State.legalPicks (s : State) : List PickKey → List Pick → List Pick
  | _, [] => []
  | used, p :: ps =>
    match (s.unit? p.unit).bind fun u => (u.bundle? p.bundle).map fun b => (u, b) with
    | some (u, b) =>
      if u.issues && !used.contains (u.keyOf b) && !(b.yields && s.otherReady u b) then p :: s.legalPicks (u.keyOf b :: used) ps
      else s.legalPicks used ps
    | none => s.legalPicks used ps

/-- Quadrants that have picked a bundle owe no YIELD any more (R31, R161). -/
def State.clearYields (s : State) (ps : List Pick) : State :=
  let keys := ps.filterMap fun p => (s.unit? p.unit).bind fun u => (u.bundle? p.bundle).map u.keyOf
  { s with units := s.units.map fun u =>
      { u with bundles := u.bundles.map fun b => if b.yields && keys.contains (u.keyOf b) then { b with yld := false, hint := false } else b } }

/-- Open paths of a bundle, the lower PC first (R19). -/
def State.pathsOf (s : State) (p : Pick) : List PathRef :=
  match (s.unit? p.unit).bind fun u => u.bundle? p.bundle with
  | none => []
  | some b =>
    let r (slot : Bool) : PathRef := { unit := p.unit, bundle := p.bundle, slot := slot }
    match b.path0, b.path1 with
    | some x, some y => if y.pos.lower x.pos then [r true, r false] else [r false, r true]
    | some _, none => [r false]
    | none, some _ => [r true]
    | none, none => []

/-- Ages of ready threads whose PC does not issue in this kclk; those at the PC of a path that turns out to stall age when it
does (R105). -/
def State.ageUnit (s : State) (ps : List Pick) (u : UnitSt) : UnitSt :=
  if u.st != .resident then u
  else
    let issuing : List (Nat × Pos) := (u.bundles.filter fun b => ps.contains ⟨u.uid, b.bid⟩).foldl
      (fun xs b => xs ++ b.openAt.map fun p => (b.bid, p)) []
    let home (t : Nat) : Nat := ((u.bundles.find? fun b => b.tids.contains t).map (·.bid)).getD 0
    let f (t : Nat) (th : Thread) : Thread :=
      if s.isReady u t && !issuing.contains (home t, th.pos) then { th with age := th.age + 1 } else th
    { u with threads := u.threads.mapIdx f }

/-- The units whose paths issue in a kclk have an issue cycle more (R404). -/
def State.countIssue (s : State) (ps : List Pick) : State :=
  { s with units := s.units.map fun u => { u with issued := u.issued + (ps.filter fun p => p.unit == u.uid && !(s.pathsOf p).isEmpty).length } }

/-- One kclk of the device: every quadrant picks a bundle, fills its path slots, and issues from its open paths. The
picks may be any (R105). -/
def execIssueCycle (picks : List Pick) (s : State) : Out :=
  let s := s.clock.settleAll s.dt
  let ps := s.legalPicks [] picks
  let s := s.clearYields ps
  let s := ps.foldl (fun s p => (s.pathPick p.unit p.bundle fun _ => true).diverge p.unit p.bundle) s
  let s : State := { s with units := s.units.map (s.ageUnit ps) }
  let s := s.countIssue ps
  .next { s with issueQ := s.issueQ ++ ps.foldr (fun p rs => s.pathsOf p ++ rs) [] }

/-- ELDER_RULE: a thread whose age has reached 256 kclk enters a path slot at its bundle's next path pick (R105); in the
kclk of a YIELD none joins a path (R161). -/
def execElderRule (unit bundle : Nat) (s : State) : Out :=
  if ((s.unit? unit).bind fun u => u.bundle? bundle).any (·.yld) then .next s else .next (s.pathPick unit bundle Grp.elder)

/-- A path that stalls does not issue: the ready threads of its bundle that wait at its PC age (R105). -/
def State.ageStalled (v : View) (s : State) : State :=
  match s.unit? v.u.uid with
  | none => s
  | some u =>
    match u.bundle? v.b.bid with
    | none => s
    | some b =>
      if b.path v.pr.slot != some v.p || u.st != .resident then s
      else
        let f (t : Nat) (th : Thread) : Thread :=
          if b.tids.contains t && th.pos == { hdr := v.p.hdr } && s.isReady u t then { th with age := th.age + 1 } else th
        s.setUnit { u with threads := u.threads.mapIdx f }

/-! ### Spill and the bundle former (R107 to R110) -/

/-- A spill of one thread is complete: L is 0, and no register write is pending. -/
def State.spillDone (s : State) (u : UnitSt) (t : Nat) : Bool :=
  let th := u.thread t
  th.st == .spilling && th.ctrs.l == 0 && !s.pending u.uid t 0 512

/-- SPILL: threads of a bundle whose spill has begun write their records and leave their slots (R107). -/
def execSpill (unit bundle : Nat) (s : State) : Out :=
  match s.unit? unit with
  | none => .next s
  | some u =>
    match u.bundle? bundle with
    | none => .next s
    | some b =>
      let out := b.tids.filter (s.spillDone u)
      let f (i : Nat) (th : Thread) : Thread :=
        if out.contains i then { th with st := .spilled s.kclk, resv := none } else th
      let gone (x : Option Nat) : Option Nat := x.bind fun t => if out.contains t then none else some t
      let u' := (({ u with threads := u.threads.mapIdx f }).setBundle { b with slots := b.slots.map gone }).dissolve
      .next (out.foldl (fun s t => s.writeSilt u t) (s.setUnit u'))

/-- Spilled threads of a unit with the kclk at which each entered the pool. -/
def UnitSt.spilledAt (u : UnitSt) : List (Nat × Nat) :=
  (List.range u.threads.length).filterMap fun t =>
    match (u.thread t).st with
    | .spilled k => some (t, k)
    | _ => none

/-- Threads of the groups that are due, for each at most 32: a group of 32, or one whose earliest thread came 512 kclk
ago. -/
def UnitSt.dueGroups (u : UnitSt) (now : Nat) : List (List Nat) :=
  (u.spilledAt.map fun x => (u.thread x.1).pos).eraseDups.filterMap fun p =>
    let g := u.spilledAt.filter fun x => (u.thread x.1).pos == p
    if decide (32 ≤ g.length) || g.any (fun x => decide (x.2 + 512 ≤ now)) then some ((g.map (·.1)).take 32) else none

/-- The quadrant of a home bundle. -/
def UnitSt.quadOf (u : UnitSt) (hb : Nat) : Nat := ((u.bundles.find? fun b => !b.built && b.bid == hb).map (·.quad)).getD 0

/-- Built bundles of a quadrant. -/
def State.builtIn (s : State) (core quad : Nat) : Nat :=
  (s.units.filter fun u => u.core == core && !u.away).foldl
    (fun n u => n + (u.bundles.filter fun b => b.built && b.quad == quad).length) 0

/-- The group that the former builds next: of the due ones whose quadrant has a place for a built bundle, the one whose
first thread has the lowest index. DESIGN CHOICE, log 51. -/
def State.dueGroup (s : State) (u : UnitSt) : Option (List Nat) :=
  (u.dueGroups s.kclk).find? fun ts => decide (s.builtIn u.core (u.quadOf (hbOf (ts.headD 0))) < 8)

/-- BUNDLE_BUILD (R109). -/
def execBundleBuild (unit : Nat) (s : State) : Out :=
  match s.unit? unit with
  | none => .next s
  | some u =>
    match s.dueGroup u with
    | none => .next s
    | some ts =>
      if u.st != .resident then .next s
      else
        let q := u.quadOf (hbOf (ts.headD 0))
        let bid := u.bundles.foldl (fun m b => max m (b.bid + 1)) 32
        let f (i : Nat) (th : Thread) : Thread := if ts.contains i then { th with st := .ready } else th
        .next (s.setUnit { u with
          threads := u.threads.mapIdx f
          bundles := u.bundles ++
            [{ bid := bid, quad := q, built := true, slots := ts.map some ++ List.replicate (32 - ts.length) none }] })

end Sys2Proof.Machine
end

