-- ==== Sys2Proof/Machine/Units.lean ====
section
/-! DEFINITION. The life of a unit (R115): placement (R81, R98 to R100, R111), L1 modes (R356), pre-emption and restoration
(R120 to R122, R228, R244, R269), and retirement with a surrogate's verdict (R116, R354). -/

namespace Sys2Proof.Machine

/-! ### Room on a core (R100, R251, R356) -/

def State.onCore (s : State) (core : Nat) : List UnitSt :=
  s.units.filter fun u => u.core == core && u.role != .prologue && !u.away

/-- A thread that has not stopped for good. -/
def Thread.busy (th : Thread) : Bool :=
  match th.st with
  | .exited | .trapped _ => false
  | _ => true

/-- Units whose save has not been reported yet keep their places on the core (R370). -/
def State.leaving (s : State) (core : Nat) : List UnitSt :=
  s.units.filter fun u => u.core == core && u.away && u.st == .saved && !u.freed

/-- Units that hold registers of a core: resident ones, draining ones until their threads have stopped (R116), and those that
leave it. -/
def State.coreLive (s : State) (core : Nat) : List UnitSt :=
  ((s.onCore core).filter fun u => u.st == .resident || u.threads.any Thread.busy) ++ s.leaving core

/-- A context may use a core for a unit of so many home bundles and registers. -/
def State.hasRoom (s : State) (ctx core hbs nregs : Nat) (tile fl1 : Bool) : Bool :=
  let us := s.coreLive core
  let cl := clusterOf core
  ((s.ctx? ctx).map fun (c : Ctx) => c.live && !c.frz && c.desc.part.getLsbD (core / 16)).getD false &&
  decide (core < 128) && s.inService core tile &&
  decide (us.foldl (fun n u => n + u.hbs) 0 + hbs ≤ 128) &&
  decide (us.foldl (fun n u => n + u.hbs * u.nregs) 0 + hbs * nregs ≤ 16384) &&
  (!tile || !((s.onCore core).any (·.tile) || (s.leaving core).any (·.tile))) && s.fused.contains cl == fl1 && !s.changing.contains cl

/-! ### Placement -/

/-- A thread at creation (R97, R111); at an entry that is no header address it is trapped (R28). -/
def State.newThread (s : State) (l : Launch) (d : Desc) (lin t : Nat) : Thread :=
  Thread.arriveAt { regs := List.replicate d.regs 0, rng := seedG l.seed lin t } s l.ctx d.entry

/-- Home bundles of a new unit as bundles: quadrants in rotation. -/
def homeBundles (hbs : Nat) : List Bundle :=
  (List.range hbs).map fun h => { bid := h, quad := h % 4, slots := (List.range 32).map fun l => some (32 * h + l) }

/-- The kernel that a unit runs. -/
def Launch.kernel (l : Launch) (exact : Bool) : Desc := if exact then l.xdesc else l.desc

def State.newUnit (s : State) (uid : Nat) (l : Launch) (exact : Bool) (lin core : Nat) (pbase : List DWord) : UnitSt :=
  let d := l.kernel exact
  { uid := uid, ctx := l.ctx, launch := l.lid, lin := lin, x := lin % l.dimx, y := lin / l.dimx % l.dimy
    z := lin / (l.dimx * l.dimy), role := if exact then .exact else if l.guarded then .surrogate else .plain
    core := core, nregs := d.regs, npriv := d.priv, nscr := 1024 * d.scr, tile := d.tile
    threads := (List.range d.thr).map (s.newThread l d lin), bundles := homeBundles d.hbs
    zs := List.replicate d.hbs (List.replicate 64 0x7F7F7F7F7F7F7F7F), pbase := pbase }

/-- Planned energy of a unit of a kernel: the mean of its last 16 (R360). -/
def Ctx.planned (c : Ctx) (k : DWord) : Nat :=
  match ((c.means.find? (·.1 == k)).map (·.2)).getD [] with
  | [] => 0
  | es => es.foldl (· + ·) 0 / es.length

/-- The address of a unit's kernel descriptor. -/
def Launch.kernelVa (l : Launch) (exact : Bool) : DWord := if exact then l.desc.exact else l.kdesc

/-- The allowance of the job lets a unit run in this window (R360). -/
def State.allowed (s : State) (l : Launch) (exact : Bool) : Bool :=
  match s.ctx? l.ctx with
  | none => false
  | some c =>
    let j := c.jobOf l.job
    let a := 1000 * s.allowance l.ctx l.job
    a == 0 || j.placed == 0 || decide (j.energy + j.excess + c.planned (l.kernelVa exact) ≤ a)

/-- The unit that a launch hands out next: an exact unit for a failed verdict, or the next unitlin (R333, R354). -/
def Launch.nextUnit (l : Launch) : Option (Nat × Bool) :=
  if !l.hasWaiting then none
  else
    match l.redo with
    | lin :: _ => some (lin, true)
    | [] => some (l.placed, false)

/-! ### Private bases (R81) -/

/-- Physical address of a byte of the private region: one that stage 1 maps without user access, outside every silt pool. -/
def State.walkPriv (s : State) (c va : Nat) : Option Nat :=
  (s.map1.find? fun m => m.root == s.root1 c && decide (m.va ≤ va) && decide (va < m.va + m.size)).bind fun m =>
    if m.user || m.silt then none
    else
      let ipa := m.ipa + (va - m.va)
      (s.map2.find? fun m => m.root == s.root2 c && decide (m.ipa ≤ ipa) && decide (ipa < m.ipa + m.size)).map fun m2 =>
        m2.pa + (ipa - m2.ipa)

/-- Bytes of a context's save area. -/
def State.saveSize (s : State) (c : Nat) : Nat := 1024 * ((s.ctx? c).map fun (x : Ctx) => x.desc.savesz.toNat).getD 0

/-- Bytes of the private words of a home bundle with `p` words to a thread. -/
def privBytes (p : Nat) : Nat := 128 * p

/-- Private ranges in use: their first byte and their length, in a context. -/
def State.privUsed (s : State) (c : Nat) : List (Nat × Nat) :=
  (s.units.filter (·.ctx == c)).foldl (fun xs u => xs ++ u.pbase.map fun b => (b.toNat, privBytes u.npriv)) []

def disjoint (x y : Nat × Nat) : Bool := decide (x.1 + x.2 ≤ y.1) || decide (y.1 + y.2 ≤ x.1) || x.2 == 0 || y.2 == 0

/-- A range may hold a home bundle's private words: aligned, every page of it in a region without user access, outside the
save area (R120), and in no other use. -/
def State.privOk (s : State) (c : Nat) (used : List (Nat × Nat)) (x : Nat × Nat) : Bool :=
  x.1 % 128 == 0 && used.all (disjoint x) &&
  (List.range (x.2 / 128)).all fun r =>
    match s.walkPriv c (x.1 + 128 * r) with
    | some pa => disjoint (pa, 128) (s.saveBase c, s.saveSize c)
    | none => false

/-- The bases of a unit's home bundles are right; a kernel without private words needs none. -/
def State.basesOk (s : State) (c p hbs : Nat) (bs : List DWord) : Bool :=
  p == 0 || (bs.length == hbs &&
    (bs.foldl (fun (r : List (Nat × Nat) × Bool) b =>
      let x := (b.toNat, privBytes p)
      (x :: r.1, r.2 && s.privOk c r.1 x)) (s.privUsed c, true)).2)

/-! ### The save area (R120, R372) -/

/-- The lowest place for `n` bytes in `size` bytes beside the ranges in use. -/
def firstFit (size n : Nat) (used : List (Nat × Nat)) : Option Nat :=
  if n == 0 then some 0
  else
    let ok (a : Nat) : Bool := decide (a + n ≤ size) && used.all (disjoint (a, n))
    (0 :: used.map fun x => x.1 + x.2).foldl (fun m a =>
      if ok a then (match m with
        | some b => some (min a b)
        | none => some a)
      else m) none

/-- The thread count that a unit's saved image counts: those in a bundle. -/
def UnitSt.inBundles (u : UnitSt) : Nat := (u.threads.filter fun th => !th.inSilt).length

/-- Bytes that a unit's saved state takes (R120, R269). -/
def State.saveBytes (s : State) (u : UnitSt) : Nat :=
  let te := if u.away then u.tsave else (s.core u.core).te
  u.inBundles * (256 + 4 * u.nregs) + 512 * u.hbs + 1024 +
  if u.tile then
    2048 * te.high + (if te.tile.isSome then 262144 + 32768 else 0) + (if te.side.isSome then 65536 else 0)
  else 0

/-- The save area in use: backing regions of windows, and saved units. -/
def State.saveUsed (s : State) (c : Nat) : List (Nat × Nat) :=
  (s.units.filter (·.ctx == c)).foldl (fun xs u =>
    xs ++ (if u.nscr == 0 then [] else [(u.back, u.nscr)]) ++ (if u.away then [(u.saveAt, s.saveBytes u)] else [])) []

/-! ### The silt pool (R108) -/

/-- A unit keeps its place in the pool while it is on a core, and while threads of it are in the pool. -/
def UnitSt.keepsSilt (u : UnitSt) : Bool := !u.away || u.threads.any Thread.inSilt

/-- The lowest free place in a launch's pool. -/
def State.siltPlace (s : State) (l : Launch) : Option Nat :=
  let used := (s.units.filter fun u => u.launch == l.lid && u.keepsSilt && u.role != .prologue).map (·.silt)
  (List.range l.poolN).find? fun k => !used.contains k

/-! ### One unit -/

/-- One unit is placed, if it may be: with room on the core, in the save area for its window's backing region, and in the
silt pool. DESIGN CHOICE, log 62. -/
def State.placeOne (s : State) (lid core : Nat) (pbase : List DWord) : Option State :=
  match s.launch? lid with
  | none => none
  | some l =>
    match l.nextUnit with
    | none => none
    | some (lin, exact) =>
      let d := l.kernel exact
      match firstFit (s.saveSize l.ctx) (1024 * d.scr) (s.saveUsed l.ctx), s.siltPlace l with
      | some back, some silt =>
        if !s.hasRoom l.ctx core d.hbs d.regs d.tile d.fl1 || !s.allowed l exact || !s.basesOk l.ctx d.priv d.hbs pbase then none
        else
          let u : UnitSt := { s.newUnit s.nextId l exact lin core pbase with back := back, silt := silt }
          let s := { s with nextId := s.nextId + 1, units := s.units ++ [u] }
          let s := if d.tile then s.updCore core fun c => { c with te := {} } else s
          let s := s.updLaunch lid fun l => if exact then { l with redo := l.redo.drop 1 } else { l with placed := l.placed + 1 }
          let j := s.job l.ctx l.job
          some ((s.setJob l.ctx { j with placed := j.placed + 1 }).settleTraps u.uid (List.range d.thr))
      | _, _ => none

/-- A co-resident launch's units, all together or none (R338). -/
def State.placeAll (s : State) (lid : Nat) (cores : List Nat) (hbs : Nat) : Nat → List DWord → Option State
  | 0, _ => some s
  | n + 1, bs =>
    match cores.findSome? fun c => s.placeOne lid c (bs.take hbs) with
    | some s' => State.placeAll s' lid cores hbs n (bs.drop hbs)
    | none => none

/-- A leaf controller acts on the placement of a launch's next unit; the units of a co-resident launch are placed in one
step. -/
def State.placeNext (s : State) (l : Launch) (core : Nat) (privBase : List DWord) : State :=
  let cores := core :: (((s.ctx? l.ctx).map Ctx.coresOf).getD []).filter (· != core)
  (if l.cores && l.redo.isEmpty && l.placed == 0 then s.placeAll l.lid cores l.desc.hbs l.units privBase
    else s.placeOne l.lid core privBase).getD s

/-- A leaf controller acts on a hand-over of a launch's next unit. -/
def State.placeAt (s : State) (launch core : Nat) (privBase : List DWord) : State :=
  match s.launch? launch with
  | none => s
  | some l => s.placeNext l core privBase

/-- A message to a leaf controller that has no other one before it and is not restarting is acted on at once. -/
def State.linkFree (s : State) (leaf : Nat) : Bool := s.leafUp leaf && (s.linkDir leaf false).waiting.isEmpty

/-- A request reaches the leaf controller of a core's cluster, which carries it out, at once or after the messages before it
(R364, R365). DESIGN CHOICE, log 54. -/
def State.askLeaf (s : State) (core : Nat) (m : Msg) (f : State → State) : State :=
  let s' := s.tellDown (clusterOf core) m
  if s.linkFree (clusterOf core) then f (s'.updLink (clusterOf core) false LinkDir.act) else s'

/-- PLACE_UNIT: a leaf controller places the launch's next unit, with its private bases. -/
def execPlaceUnit (launch core : Nat) (privBase : List DWord) (s : State) : Out :=
  .next (s.askLeaf core (.place launch core privBase) fun s => s.placeAt launch core privBase)

/-! ### Fused L1 mode (R356) -/

/-- The partition that a die belongs to; without one, the whole device counts as one. -/
def State.partOf (s : State) (die : Nat) : Nat := ((s.power.parts.find? (·.dies.getLsbD die)).map (·.part)).getD 8

/-- A cluster holds a unit whose kernel wants the other mode. -/
def State.clusterHolds (s : State) (cl : Nat) (fused : Bool) : Bool :=
  s.units.any fun u => u.role != .prologue && clusterOf u.core == cl && (u.st == .resident || u.st == .draining) &&
    (((s.launch? u.launch).map fun l => (if u.role == .exact then l.xdesc else l.desc).fl1 == fused).getD false)

/-- The kernel that a live unit runs. -/
def State.kernelOf (s : State) (u : UnitSt) : Desc := (s.launchOf u).kernel (u.role == .exact)

/-- A unit of a context waits for a mode that none of the context's cores has room in. -/
def State.starved (s : State) (ctx hbs nregs : Nat) (tile fl1 : Bool) : Bool :=
  !((((s.ctx? ctx).map Ctx.coresOf).getD []).any fun k => s.hasRoom ctx k hbs nregs tile fl1)

/-- The contexts that wait for a mode: with a unit to place, or to restore. -/
def State.wanting1 (s : State) (fl1 : Bool) : List Nat :=
  (s.launches.filterMap fun l => l.nextUnit.bind fun x =>
    let d := l.kernel x.2
    if d.fl1 == fl1 && s.starved l.ctx d.hbs d.regs d.tile fl1 then some l.ctx else none) ++
  (s.units.filter fun u => u.st == .saved && (s.kernelOf u).fl1 == fl1 && s.starved u.ctx u.hbs u.nregs u.tile fl1).map (·.ctx)

/-- Units on a cluster. -/
def State.unitsAt (s : State) (cl : Nat) : Nat :=
  (s.units.filter fun u => u.role != .prologue && clusterOf u.core == cl && !u.away).length

/-- Clusters that a context may use and that are in a mode, with their partition free of changes. -/
def State.modeClusters (s : State) (ctx : Nat) (fused : Bool) : List Nat :=
  ((((s.ctx? ctx).map Ctx.coresOf).getD []).map clusterOf).eraseDups.filter fun cl =>
    s.fused.contains cl == fused && !s.changing.any fun x => s.partOf (x / 4) == s.partOf (cl / 4)

/-- The front end changes this cluster: some units wait for the mode that it is not in, and of the clusters that would do
it holds the fewest units. -/
def State.mayChange (s : State) (cl : Nat) : Bool :=
  let fused := s.fused.contains cl
  (s.wanting1 (!fused)).any fun ctx =>
    let cs := s.modeClusters ctx fused
    cs.contains cl && cs.all fun x => decide (s.unitsAt cl ≤ s.unitsAt x)

/-- Stores that the L1s of a cluster still hold. -/
def State.dirtyL1 (s : State) (cl : Nat) : Bool :=
  s.ops.any fun o => clusterOf o.core == cl && o.sp == .global && o.kind.writes && !o.kind.isEngine && !o.arrived

/-- L1_MODE_CHANGE: the first step begins a change, the second completes it once the cluster is free and its L1s are written
back: their copies and leases are dropped. -/
def execL1ModeChange (cluster : Nat) (s : State) : Out :=
  let fused := s.fused.contains cluster
  if s.changing.contains cluster then
    if s.clusterHolds cluster fused || s.dirtyL1 cluster then .next s
    else .next { s with changing := s.changing.filter (· != cluster)
                        fused := if fused then s.fused.filter (· != cluster) else cluster :: s.fused
                        leases := s.leases.filter fun x => clusterOf x.core != cluster
                        cores := s.cores.mapIdx fun k c => if clusterOf k == cluster then { c with l1 := [] } else c }
  else if s.mayChange cluster then .next { s with changing := cluster :: s.changing }
  else .next s

/-! ### Write-back of private words (R81) -/

/-- Dirty private words go back to their global addresses. -/
def State.writePrivate (s : State) (u : UnitSt) : State :=
  (List.range u.threads.length).foldl (fun s t =>
    (List.range u.npriv).foldl (fun s w =>
      let va := (u.pbase.getD (hbOf t) 0).toNat + (w * 32 + laneOf t) * 4
      match s.walkPriv u.ctx va with
      | some pa => s.putPhys pa (leBytes 4 ((u.thread t).pw (BitVec.ofNat 32 w)).toNat)
      | none => s) s) s

/-! ### Pre-emption (R120, R371) -/

/-- PREEMPT_REQUEST: dropped for a unit that is entering DRAINING (R122); it waits while the controller restarts (R365). -/
def execPreemptRequest (unit : Nat) (s : State) : Out :=
  match s.unit? unit with
  | none => .next s
  | some u =>
    .next (if s.leafUp (clusterOf u.core) then s.preemptWhole u else { s with agenda := s.agenda ++ [.preemptRequest unit] })

/-- The units that are saved in one step: a co-resident launch's together (R338). -/
def State.saveSet (s : State) (u : UnitSt) : List UnitSt :=
  if (s.launchOf u).cores then s.units.filter fun x => x.launch == u.launch && x.st == .resident && x.role != .prologue else [u]

/-- Steps 1 to 6 of R120 are over. -/
def State.mayStop (s : State) (u : UnitSt) : Bool :=
  let settled (th : Thread) : Bool :=
    th.ctrs.l == 0 && !(th.streams.any fun q => q.pat.dir && !q.queue.isEmpty) &&
    match th.st with
    | .inPath | .missing _ | .spilling => false
    | .ready => th.pos.widx == 0
    | _ => true
  u.st == .resident && u.preempt && u.threads.all settled &&
  !(s.ops.any fun o => o.unit == u.uid && o.kind.dst.isSome) &&
  !(s.eng.any fun e => e.unit == u.uid && e.phase != .accepted && (isFlowOp e.ins || (isTile e.ins && !isTmma e.ins))) &&
  !(s.fw.handlers.any (·.unit == u.uid))

/-- HELD claims become DORMANT (R244). -/
def State.sleepClaims (s : State) (u : UnitSt) : State :=
  s.updCtx u.ctx fun c => { c with claims := c.claims.map fun x =>
    if x.unit == u.uid && x.st == .held then { x with st := .dormant } else x }

/-- The saved image: as many bytes as R120 and R269 count. The spec gives no layout, so every byte of it is a free value.
DESIGN CHOICE, log 62. -/
def State.image (s : State) (n : Nat) : List Byte :=
  (List.range n).map fun i => (Config.freeValue (s.fresh + i / 8) >>> (8 * (i % 8))).setWidth 8

/-- A unit's state goes into the save area (R97, R120, R269). DEDUCED, log 24. -/
def State.saveUnit (s : State) (u : UnitSt) : State :=
  let n := s.saveBytes u
  let at_ := (firstFit (s.saveSize u.ctx) n (s.saveUsed u.ctx)).getD 0
  let s : State := { s.putPhys (s.saveBase u.ctx + at_) (s.image n) with fresh := s.fresh + n / 8 + 1 }
  let s := (s.stopTile u).sleepClaims u
  let s := s.writePrivate u
  let f (th : Thread) : Thread := { th with resv := none, age := 0 }
  let te := (s.core u.core).te
  let s := s.updUnit u.uid fun u =>
    { u with st := .saved, away := true, freed := false, preempt := false, savedAt := s.kclk, threads := u.threads.map f, bundles := []
             tsave := if u.tile then te else {}, saveAt := at_ }
  if u.tile then s.updCore u.core fun c => { c with te := {} } else s

/-- Each of the units fits in the save area beside the ones before it. -/
def State.saveFits (s : State) (c : Nat) : List (Nat × Nat) → List UnitSt → Bool
  | _, [] => true
  | used, u :: us =>
    match firstFit (s.saveSize c) (s.saveBytes u) used with
    | some a => s.saveFits c ((a, s.saveBytes u) :: used) us
    | none => false

/-- In-flight TMMAs come to their next K-block step (R269). -/
def State.nearStops (s : State) (us : List UnitSt) : State := us.foldl (fun s u => s.nearStop u) s

/-- UNIT_SAVE, which the leaf controller reports (R370). A unit whose state the save area cannot hold stays RESIDENT (R371);
a co-resident launch is saved whole or not at all (R338). -/
def execUnitSave (unit : Nat) (s : State) : Out :=
  match s.unit? unit with
  | none => .next s
  | some u =>
    let us := s.saveSet u
    if us.any (fun x => !s.leafUp (clusterOf x.core)) || !s.mayStop u then .next s
    else if !us.all (·.preempt) then .next (s.preemptWhole u)
    else if !us.all s.mayStop then .next s
    else
      let s' := s.nearStops us
      if s'.saveFits u.ctx (s'.saveUsed u.ctx) us then
        .next (us.foldl (fun s x => match s.unit? x.uid with
          | some x => (s.saveUnit x).tellUp x.core (.saved x.uid)
          | none => s) s')
      else
        let ids := us.map (·.uid)
        let s : State := { s with units := s.units.map fun x => if ids.contains x.uid then { x with preempt := false } else x }
        .next (s.leafReport u.core { ctx := u.ctx, status := 2, kind := 1, detail := u.launch, addr := u.lin })

/-! ### Restoration (R121, R228, R244, R250) -/

/-- Claims of a unit, the lower handles first. -/
def State.claimsOf (s : State) (u : UnitSt) : List Claim :=
  ((((s.ctx? u.ctx).map (·.claims)).getD []).filter (·.unit == u.uid)).mergeSort fun a b => decide (a.h ≤ b.h)

/-- The route that a DORMANT fabric claim takes: its own port, or another one, with a channel free. -/
def State.newRoute (s : State) (c : Claim) : Option Nat :=
  let ports := s.fabPorts c
  ((if ports.contains c.port then [c.port] else []) ++ ports).find? (s.hasChannel c)

/-- One DORMANT claim is re-reserved on the unit's core: with a staging buffer of the core's pool, and for a fabric kind its
route; or it is revoked when its route is gone (R244, R250). None when it has to wait. DEDUCED, log 25. -/
def State.wakeClaim (s : State) (u : UnitSt) (c : Claim) : Option State :=
  if c.st != .dormant then some s
  else if c.isFabric && (c.gone || (s.fabRoute u.ctx c).isNone) then
    some ((s.dropChunks u.ctx c).updClaim u.ctx c.h fun c => { c with st := .revoked, cause := 3 })
  else if 256 ≤ s.stagingUsed u.core then none
  else if c.isFabric then (s.newRoute c).map fun p => s.updClaim u.ctx c.h fun c => { c with st := .held, port := p, pool := true }
  else some (s.updClaim u.ctx c.h fun c => { c with st := .held })

/-- The DORMANT claims of a unit in ascending handle order; each pins its pages into frames of the core. -/
def State.wakeClaims (s : State) (u : UnitSt) : List Claim → Option State
  | [] => some s
  | c :: cs =>
    match s.wakeClaim u c with
    | some s => (c.scrPages.foldl (fun s p => s.fillPage u.uid p) s).wakeClaims u cs
    | none => none

/-- Frames that pinned pages of other units hold on a core. -/
def State.pinnedBeside (s : State) (u : UnitSt) (core : Nat) : Nat :=
  (s.units.filter fun x => x.core == core && x.uid != u.uid).foldl (fun n x => n + (s.pinnedOf x).length) 0

/-- What a restoration on a core waits for: room, the unit's sweeps, fabric operations on its claims (R228), a CLAIM that is
still CLAIMING (R250), and frames for its pinned pages (R242). DEDUCED, log 25. -/
def State.mayRestore (s : State) (u : UnitSt) (core : Nat) : Bool :=
  let cs := s.claimsOf u
  u.st == .saved && s.hasRoom u.ctx core u.hbs u.nregs u.tile (s.kernelOf u).fl1 &&
  !(s.eng.any fun e => e.unit == u.uid && isSweep e.ins) && cs.all (fun c => c.st != .claiming && !s.inProgress u.ctx c.h) &&
  decide (s.pinnedBeside u core + (s.pinnedOf u).length ≤ 192) &&
  (u.keepsSilt || (s.siltPlace (s.launchOf u)).isSome)

/-- A thread after the time its unit was SAVED: JOIN timeouts are counted in kclk of residence (R159); spilled threads
wait anew (R121); events are checked again, and join a wait list again (R347, R350). -/
def Thread.rejoin (s : State) (ctx savedAt : Nat) (th : Thread) : Thread :=
  match th.st with
  | .waiting (.join d dl) => { th with st := .waiting (.join d (dl + (s.kclk - savedAt))) }
  | .spilled _ => { th with st := .spilled s.kclk }
  | .waiting (.event sys ev target d dl _) =>
    if target.toNat ≤ s.event ctx ev then { th.put d.toNat 0 with st := .ready }
    else { th with st := .waiting (.event sys ev target d dl (!s.canEnter ctx ev || decide (64 ≤ s.waiters ctx ev))) }
  | _ => th

/-- Home bundles of a restored unit: spilled threads stay in the silt pool. -/
def UnitSt.rehome (u : UnitSt) : List Bundle :=
  let keep (x : Option Nat) : Option Nat := x.bind fun t => if (u.thread t).inSilt then none else some t
  (homeBundles u.hbs).map fun b => { b with slots := b.slots.map keep }

/-- On another core than the one that saved it, the unit's pages are written back first and their frames freed (R228). -/
def State.leaveCore (s : State) (u : UnitSt) (core : Nat) : State :=
  if u.core == core then s else u.frames.foldl (fun s p => s.evictPage u.uid p) s

/-- A unit stands on a core again, with its claims and pinned pages; none when one of these has to wait (R121, R242, R250). -/
def State.restore (s : State) (u : UnitSt) (core : Nat) : Option State :=
  let silt := if u.keepsSilt then u.silt else (s.siltPlace (s.launchOf u)).getD 0
  let s := s.leaveCore u core
  let s := if u.tile then s.updCore core fun c => { c with te := u.tsave } else s
  let s := s.updUnit u.uid fun u =>
    { u with st := .resident, away := false, freed := false, core := core, tsave := {}, silt := silt
             threads := u.threads.map (Thread.rejoin s u.ctx u.savedAt), bundles := u.rehome }
  let s : State := { s with eng := s.eng.map fun e => if e.unit == u.uid then { e with core := core } else e }
  match s.unit? u.uid with
  | none => none
  | some x =>
    match s.wakeClaims x (s.claimsOf x) with
    | none => none
    | some s =>
      let s := (s.pinnedOf x).foldl (fun s p => s.fillPage x.uid p) s
      let framed := ((s.unit? u.uid).map (·.frames)).getD []
      if (s.pinnedOf x).all fun p => framed.contains p then some (s.wakeUnit u.uid) else none

/-- A leaf controller acts on a restoration. -/
def State.restoreAt (s : State) (unit core : Nat) : State :=
  match s.unit? unit with
  | none => s
  | some u => if s.mayRestore u core then (s.restore u core).getD s else s

/-- RESTORE_UNIT. -/
def execRestoreUnit (unit core : Nat) (s : State) : Out :=
  .next (s.askLeaf core (.restore unit core) fun s => s.restoreAt unit core)

/-! ### Retirement (R116, R354, R355) -/

/-- Everything a draining unit waits for has been acknowledged, and its threads have stopped. -/
def State.drained (s : State) (u : UnitSt) : Bool :=
  u.st == .draining && !(u.threads.any Thread.busy) && !(s.ops.any (·.unit == u.uid)) &&
  !(s.eng.any (·.unit == u.uid)) && !(u.threads.any fun th => th.storeQueued th.snap) && !(s.fw.handlers.any (·.unit == u.uid)) &&
  !s.faultSent u

/-- A unit killed while SAVED with tile operations outstanding drains them on its core's tile engine, once no other unit
holds it (R116). DESIGN CHOICE, log 53. -/
def State.drainTile (s : State) (u : UnitSt) : State :=
  if u.st == .draining && u.away && u.tile && (s.eng.any fun e => e.unit == u.uid && isTile e.ins) &&
      !(s.onCore u.core).any (·.tile) then
    (s.updCore u.core fun c => { c with te := u.tsave }).updUnit u.uid fun u => { u with away := false, tsave := {} }
  else s

/-- A surrogate unit passes (R354). -/
def UnitSt.passes (u : UnitSt) (tol : Word) : Bool :=
  match u.residual with
  | some r =>
    let v := fp32.dec r.toNat
    let t := fp32.dec tol.toNat
    !u.faulted && !u.gfault && !u.cancelled && !v.isNan && !t.isNan && !t.lt v
  | none => false

/-- The last 16 energies of a kernel's units. -/
def Ctx.addMean (c : Ctx) (k : DWord) (e : Nat) : Ctx :=
  let es := ((c.means.find? (·.1 == k)).map (·.2)).getD []
  { c with means := (k, (e :: es).take 16) :: c.means.filter (·.1 != k) }

/-- A unit leaves: its claims, its energy, itself. -/
def State.removeUnit (s : State) (u : UnitSt) : State :=
  let l := s.launchOf u
  let s := (s.freeClaimsOf u).updCtx u.ctx fun c =>
    if u.role == .prologue then c else c.addMean (l.kernelVa (u.role == .exact)) u.energy
  { s with units := s.units.filter (·.uid != u.uid), eng := s.eng.filter (·.unit != u.uid) }

/-- The launch's counter falls by one unit (R25); at its end the iteration is over. A cancelled launch is over with its
last unit. -/
def State.countRetired (s : State) (lid : Nat) : State :=
  let s := (s.updLaunch lid fun l => { l with retired := l.retired + 1 }).writeBlock lid
  match s.launch? lid with
  | none => s
  | some l =>
    if l.retired == l.units then s.endIteration lid
    else if l.cancel && (s.unitsOf lid).isEmpty then s.completeLaunch lid
    else s

/-- A failing surrogate of a cancelled launch gets no exact unit and does not raise retired (R355, R363); with the last unit
gone the launch is over. -/
def State.failCancelled (s : State) (lid : Nat) : State :=
  let s := s.writeBlock lid
  if (s.unitsOf lid).isEmpty then s.completeLaunch lid else s

/-- A failed surrogate leaves: its guard lines with it, and an exact unit is due, unless the launch is cancelled (R354, R361);
also for one that a machine check has ended. DESIGN CHOICE, log 63. -/
def State.failUnit (s : State) (u : UnitSt) : State :=
  let s := ((s.writePrivate u).removeUnit u).updLaunch u.launch fun l => { l with gfail := l.gfail + 1 }
  if (s.launchOf u).cancel then (s.failCancelled u.launch).settleLaunches
  else (s.updLaunch u.launch fun l => { l with redo := l.redo ++ [u.lin] }).writeBlock u.launch

/-- A passing surrogate's commit has been performed (R354, R363). -/
def State.endCommit (s : State) (u : UnitSt) : State :=
  let s := ((s.writePrivate u).removeUnit u).updLaunch u.launch fun l => { l with gcommit := l.gcommit + 1 }
  (s.countRetired u.launch).settleLaunches

/-- A drained surrogate reaches its verdict, which later cancels leave as it is; on a pass its guard lines go to their home
slices as one write (R95, R354, R355). -/
def State.reachVerdict (s : State) (u : UnitSt) : State :=
  let pass := u.passes (s.launchOf u).tol
  if !pass then s.failUnit u
  else if u.guard.isEmpty then s.endCommit u
  else
    let id := s.nextId
    let s := s.updUnit u.uid fun u => { u with verdict := some true, commit := some id }
    let s := s.postHome u.uid u.core (u.guard.map (·.1)) (.commit u.ctx (u.guard.map (·.2)))
    if s.unperformed [id] then s else s.endCommit u

/-- UNIT_RETIRE. -/
def execUnitRetire (unit : Nat) (s : State) : Out :=
  match s.unit? unit with
  | none => .next s
  | some u =>
    match u.commit with
    | some id => .next (if s.unperformed [id] then s else s.endCommit u)
    | none =>
      if !s.drained u then .next (s.drainTile u)
      else
        match u.role with
        | .prologue => .next (((s.removeUnit u).completeLaunch u.launch).settleLaunches)
        | .plain => .next ((((s.writePrivate u).removeUnit u).countRetired u.launch).settleLaunches)
        | .exact =>
          let s := ((s.writePrivate u).removeUnit u).updLaunch u.launch fun l => { l with exact := l.exact + 1 }
          .next ((s.countRetired u.launch).settleLaunches)
        | .surrogate => .next (s.reachVerdict u)

end Sys2Proof.Machine
end

