-- ==== Sys2Proof/Machine/Window.lean ====
section
/-! DEFINITION. Trap handlers and the bundle window (R195 to R198): dispatch, the window's registers and commands, return
and time limit. Registers of the power block that have no row of their own are written here too (R6, R402). -/

namespace Sys2Proof.Machine

/-! ### Handlers (R195, R198) -/

/-- A thread that waits for a handler: not fatally trapped. -/
def Thread.wantsHandler (th : Thread) : Option TrapRec :=
  match th.st with
  | .trapped r => if r.fatal then none else some r
  | _ => none

/-- A trap that waits for the handler of a leaf controller. -/
structure Due where
  dt   : Nat
  core : Nat
  slot : Nat
  unit : Nat
  bid  : Nat
  tid  : Nat
  deriving DecidableEq, Repr

/-- The order of DT, core and slot (R195); of two traps equal in these, in units or bundles of one core, the lower unit number
and then the bundle that stands first in its unit comes first. DESIGN CHOICE, log 69. -/
def Due.before (x y : Due) : Bool :=
  decide (x.dt < y.dt) ||
  (x.dt == y.dt && (decide (x.core < y.core) || (x.core == y.core && (decide (x.slot < y.slot) ||
    (x.slot == y.slot && decide (x.unit < y.unit))))))

def firstDue : List Due → Option Due
  | [] => none
  | x :: xs =>
    match firstDue xs with
    | some y => if y.before x then some y else some x
    | none => some x

def Bundle.due (u : UnitSt) (b : Bundle) : List Due :=
  b.tids.filterMap fun t => (u.thread t).wantsHandler.map fun r =>
    { dt := r.dt, core := u.core, slot := b.slotOf t, unit := u.uid, bid := b.bid, tid := t }

/-- Traps of a cluster that wait. -/
def State.dueAt (s : State) (leaf : Nat) : List Due :=
  (s.units.filter fun u => u.st == .resident && clusterOf u.core == leaf).foldl (fun ds u =>
    ds ++ u.bundles.foldl (fun ds b => ds ++ b.due u) []) []

def State.handler? (s : State) (leaf : Nat) : Option Handler := s.fw.handlers.find? (·.leaf == leaf)
def State.dropHandler (s : State) (leaf : Nat) : State :=
  { s with fw := { s.fw with handlers := s.fw.handlers.filter (·.leaf != leaf) } }

def State.updBundle (s : State) (uid bid : Nat) (f : Bundle → Bundle) : State :=
  s.updUnit uid fun u => { u with bundles := u.bundles.map fun b => if b.bid == bid then f b else b }

/-- HANDLER_DISPATCH: one trap of a cluster at a time, in the order of DT, core and slot; traps wait while the controller
restarts (R365). -/
def execHandlerDispatch (leaf : Nat) (s : State) : Out :=
  if (s.handler? leaf).isSome || !s.leafUp leaf then .next s
  else
    match firstDue (s.dueAt leaf) with
    | none => .next s
    | some d =>
      let cause := (((s.unit? d.unit).bind fun u => (u.thread d.tid).wantsHandler).map fun r => r.trap.cause.code).getD 0
      let s := s.updBundle d.unit d.bid fun b => { b with wslot := d.slot }
      .next { s with fw := { s.fw with handlers :=
        { leaf := leaf, unit := d.unit, bundle := d.bid, tid := d.tid, since := s.dt, cause := cause } :: s.fw.handlers } }

/-- The record of HANDLER_TIME: at the thread's place, with the cause of the trap that was handled (R193, R198). -/
def State.timeRecord (s : State) (h : Handler) (u : UnitSt) : TrapRec :=
  let th := u.thread h.tid
  let r := match th.st with
    | .trapped r => r
    | _ => trapRec s u.ctx th.pos { cause := .handlerTime }
  { r with fatal := true, dt := s.dt, trap := { cause := .handlerTime, sub := h.cause } }

/-- The unit ends because a handler failed (R198); the leaf controller sends the trap record up (R364). -/
def State.handlerFailed (s : State) (h : Handler) : State :=
  match s.unit? h.unit with
  | none => s
  | some u =>
    if u.faulted then s
    else
      let r := s.timeRecord h u
      (s.setUnit ({ u with faulted := true, first := some (r, u.slotOf h.tid) }.drain)).tellUp u.core (.fault u.uid r)

/-- The leaf controller clears hold, and the window is no longer mapped. -/
def State.endHandler (s : State) (h : Handler) : State :=
  (s.updBundle h.unit h.bundle fun b => { b with hold := false }).dropHandler h.leaf

def State.stillTrapped (s : State) (h : Handler) : Bool :=
  !h.done && ((s.unit? h.unit).map fun (u : UnitSt) => (u.thread h.tid).wantsHandler.isSome).getD false

/-- A handler has run for more than 100 µs of DT. -/
def State.overTime (s : State) (h : Handler) : Bool := decide (h.since + 100000 < s.dt)

/-- HANDLER_RETURN. -/
def execHandlerReturn (leaf : Nat) (s : State) : Out :=
  match s.handler? leaf with
  | none => .next s
  | some h => .next ((if s.stillTrapped h || s.overTime h then s.handlerFailed h else s).endHandler h)

/-- HANDLER_TIMEOUT: more than 100 µs of DT. -/
def execHandlerTimeout (leaf : Nat) (s : State) : Out :=
  match s.handler? leaf with
  | none => .next s
  | some h => .next (if s.overTime h then (s.handlerFailed h).endHandler h else s)

/-! ### Commands (R197) -/

/-- DESIGN CHOICE, log 43. -/
def State.setWstat (s : State) (h : Handler) (n : Nat) : State :=
  s.updBundle h.unit h.bundle fun b => { b with wstat := n }

/-- The thread in the selected slot. -/
def Bundle.selected (b : Bundle) : Option Nat := b.slots.getD b.wslot none

/-- The trap that the handler runs for has been dealt with. -/
def State.handled (s : State) (h : Handler) : State :=
  { s with fw := { s.fw with handlers := s.fw.handlers.map fun x => if x.leaf == h.leaf then { x with done := true } else x } }

/-- A command on the selected TRAPPED thread: `f` answers the state and the status. DEDUCED, log 42. -/
def State.command (s : State) (leaf : Nat) (f : State → Handler → UnitSt → Nat → TrapRec → State × Nat) : State :=
  match s.handler? leaf with
  | none => s
  | some h =>
    match s.unit? h.unit with
    | none => s
    | some u =>
      if u.st != .resident then s.setWstat h 4
      else
        match ((u.bundle? h.bundle).bind Bundle.selected).map fun t => (t, (u.thread t).st) with
        | some (t, .trapped r) =>
          let x := f s h u t r
          let s := x.1.setWstat h x.2
          if x.2 == 0 && t == h.tid then s.handled h else s
        | _ => s.setWstat h 1

/-- A thread goes on at a position. -/
def State.resumeAt (s : State) (u : UnitSt) (t : Nat) (p : Pos) : State :=
  s.updUnit u.uid fun u => u.updThread t fun th => { th with pos := p, st := .ready, age := 0, wpc := none }

/-- The PC that the window shows: the one written, or the record's. -/
def Thread.windowPc (th : Thread) (r : TrapRec) : DWord := th.wpc.getD r.pc

/-- Where RESUME goes: a word of the trapping clause, told by its position, at or after the trapping word, with a REP's
repetition at the REP word; or a header (R27, R197), which the fetch finds out on a page that misses (R199). -/
def State.resumePos (s : State) (c : Nat) (p : Pos) (pc : DWord) : Option Pos :=
  let n := pc.toNat
  let h := p.hdr.toNat
  let k := (n - h) / 8
  if n % 8 != 0 || 2 ^ 56 ≤ n then none
  else if h < n && decide (k ≤ p.cnt) then
    if p.widx ≤ k then some { p with widx := k, rep := if k == p.widx then p.rep else 0 } else none
  else
    match s.codeWord c (pc.setWidth 56) 0 with
    | .word w => if (headerBad (decodeHeader w)).isNone then some { hdr := pc.setWidth 56 } else none
    | .miss _ => some { hdr := pc.setWidth 56 }
    | .trap _ => none

def State.doResume (s : State) (_ : Handler) (u : UnitSt) (t : Nat) (r : TrapRec) : State × Nat :=
  if r.fatal then (s, 3)
  else
    match s.resumePos u.ctx (u.thread t).pos ((u.thread t).windowPc r) with
    | some p => (s.resumeAt u t p, 0)
    | none => (s, 2)

/-- SKIP: the thread goes on at the word after the trapped one (R197). DEDUCED, log 42. -/
def State.doSkip (s : State) (_ : Handler) (u : UnitSt) (t : Nat) (r : TrapRec) : State × Nat :=
  if r.fatal then (s, 3)
  else
    let p := (u.thread t).pos
    if p.widx < p.cnt then (s.resumeAt u t { p with widx := p.widx + 1, rep := 0 }, 0)
    else (s.resumeAt u t { hdr := p.hdr + BitVec.ofNat 56 (8 * (p.cnt + 1)) }, 0)

def State.doEndthread (s : State) (_ : Handler) (u : UnitSt) (t : Nat) (_ : TrapRec) : State × Nat :=
  (((s.updUnit u.uid fun u => u.updThread t Thread.exit).settleUnit u.uid).settleLatch u.uid, 0)

def State.doEndunit (s : State) (_ : Handler) (u : UnitSt) (t : Nat) (r : TrapRec) : State × Nat :=
  (s.endUnit u { r with fatal := true } (u.slotOf t), 0)

/-- WCMD 0: nothing, with status OK. -/
def execWcmdNone (leaf : Nat) (s : State) : Out :=
  match s.handler? leaf with
  | none => .next s
  | some h =>
    .next (s.setWstat h (if ((s.unit? h.unit).map fun (u : UnitSt) => u.st == .resident).getD false then 0 else 4))

def execResume (leaf : Nat) (s : State) : Out := .next (s.command leaf State.doResume)
def execSkip (leaf : Nat) (s : State) : Out := .next (s.command leaf State.doSkip)
def execEndthread (leaf : Nat) (s : State) : Out := .next (s.command leaf State.doEndthread)
def execEndunit (leaf : Nat) (s : State) : Out := .next (s.command leaf State.doEndunit)

/-- WCMD 5 to 7: BADPC. -/
def execWcmdReserved (leaf : Nat) (_code : BitVec 3) (s : State) : Out :=
  match s.handler? leaf with
  | none => .next s
  | some h =>
    .next (s.setWstat h (if ((s.unit? h.unit).map fun (u : UnitSt) => u.st == .resident).getD false then 2 else 4))

/-! ### Registers (R6, R196) -/

/-- held: the handler asks for it, and no path of the bundle is open. -/
def Bundle.held (b : Bundle) : Bool := b.hold && b.path0.isNone && b.path1.isNone

/-- WCTL: hold and slot are written; held and the reserved bits are not. -/
def execWctl (leaf : Nat) (v : Word) (s : State) : Out :=
  match s.handler? leaf with
  | none => .next s
  | some h => .next (s.updBundle h.unit h.bundle fun b => { b with hold := v.getLsbD 15, wslot := v.toNat % 32 })

/-- One half of a 64-bit value replaced. -/
def setHalf (x : DWord) (hi : Bool) (v : Word) : DWord :=
  if hi then (v ++ x.setWidth 32 : BitVec 64) else ((x >>> 32).setWidth 32 ++ v : BitVec 64)

/-- A write at 0x180 to 0x1FF or 0x800 to 0xFFF, to a TRAPPED thread. -/
def Thread.windowWrite (nregs : Nat) (held : Bool) (r : TrapRec) (off : Nat) (v : Word) (th : Thread) : Thread :=
  if 0x800 ≤ off then
    let i := (off - 0x800) / 4
    if i < nregs then { th with regs := th.regs.set i v } else th
  else
    match off with
    | 0x180 => { th with wpc := some (setHalf (th.windowPc r) false v) }
    | 0x184 => { th with wpc := some (setHalf (th.windowPc r) true v) }
    | 0x188 => { th with sp := v }
    | 0x18C => { th with fp := v }
    | 0x194 => { th with rng := nonzeroG v }
    | 0x198 => { th with rmode := v &&& 3 }
    | 0x19C => { th with fmode := v &&& 3 }
    | 0x1B0 => if held then { th with age := v.toNat } else th
    | _ => th

/-- A 32-bit write of the window by its access codes (R6, R196). -/
def State.windowWrite (s : State) (h : Handler) (off : Nat) (v : Word) : State :=
  match s.unit? h.unit with
  | none => s
  | some u =>
    match u.bundle? h.bundle with
    | none => s
    | some b =>
      if u.st != .resident then s.setWstat h 4
      else if (0x180 ≤ off ∧ off < 0x200) ∨ 0x800 ≤ off then
        match b.selected with
        | some t =>
          match (u.thread t).st with
          | .trapped r => s.updUnit u.uid fun u => u.updThread t (Thread.windowWrite u.nregs b.held r off v)
          | _ => s.setWstat h 1
        | none => s.setWstat h 1
      else if 0x200 ≤ off ∧ off < 0x400 then
        match b.selected with
        | some t =>
          let n := (off - 0x200) / 8
          if b.held then
            s.updUnit u.uid fun u => u.setSide (hbOf t) n (setHalf (u.side (hbOf t) n) (off % 8 == 4) v)
          else s
        | none => s
      else if off == 0x010 && b.held then s.updBundle u.uid b.bid fun b => { b with divc := v.toNat }
      else s

/-- thr: the clock is below 2,400 MHz (R402). -/
def PowerSt.throttled (p : PowerSt) : Bool := decide (p.freq.toNat < 2400)

/-- The aligned 64-bit word of the power block at an offset (R402). -/
def PowerSt.read (p : PowerSt) (off : Nat) : Nat :=
  match off with
  | 0x00 => p.plimit.toNat
  | 0x08 => p.edev.toNat
  | 0x10 => p.pnow.toNat + 2 ^ 32 * p.freq.toNat
  | 0x18 => (if p.throttled then 1 else 0) + if p.bad then 2 else 0
  | _ => 0

/-- A write of the power limit: out of range it is ignored and sets bad (R402). -/
def State.setPlimit (s : State) (v : BitVec 16) : State :=
  if 1000 ≤ v.toNat ∧ v.toNat ≤ 3200 then { s with power := { s.power with plimit := v } }
  else { s with power := { s.power with bad := true } }

/-- WCMD by its command code; bits 31:3 are written as zero. -/
def execWcmd (leaf : Nat) (code : Nat) (s : State) : Out :=
  match code with
  | 0 => execWcmdNone leaf s
  | 1 => execResume leaf s
  | 2 => execSkip leaf s
  | 3 => execEndthread leaf s
  | 4 => execEndunit leaf s
  | n => execWcmdReserved leaf (BitVec.ofNat 3 n) s

/-- REGISTER_WRITE: an aligned write of the window that is mapped on a leaf controller, or of the power block. -/
def execRegisterWrite (t : RegTarget) (v : DWord) (s : State) : Out :=
  match t with
  | .power 0x00 => .next (s.setPlimit (v.setWidth 16))
  | .power 0x18 => .next (if v.getLsbD 1 then { s with power := { s.power with bad := false } } else s)
  | .power _ => .next s
  | .window leaf off wide =>
    match s.handler? leaf with
    | none => .next s
    | some h =>
      if off % (if wide then 8 else 4) != 0 || 4096 ≤ off then .next s
      else if off == 0 then execWctl leaf (v.setWidth 32) s
      else if off == 8 then execWcmd leaf (v.toNat % 8) s
      else
        let s := s.windowWrite h off (v.setWidth 32)
        .next (if wide then s.windowWrite h (off + 4) ((v >>> 32).setWidth 32) else s)

/-! ### What the window shows (R196) -/

/-- Slot summary state; a thread that leaves its slot for the silt pool and still stands there shows 0, as an empty slot does, with
its home bundle and lane. DESIGN CHOICE, log 69. -/
def TSt.slotCode : TSt → Nat
  | .ready => 1 | .inPath => 2 | .waiting _ | .missing _ => 3 | .trapped _ => 4 | .exited => 5
  | .spilling | .spilled _ => 0

/-- The 64-bit word at an aligned offset of the path table: its PC is that of the path's clause header, and the next word's index
counts from 1 after the header, 16 being shown as 0 in its four bits. DESIGN CHOICE, log 69. -/
def Path.tableWord (b : Bundle) (p : Option Path) (i : Nat) : Nat :=
  match p, i with
  | some p, 0 => p.hdr.toNat
  | some p, 1 => (p.tids.foldl (fun m t => m ||| 2 ^ b.slotOf t) 0) + 2 ^ 32 * (1 + 16 * (p.widx % 16))
  | _, _ => 0

/-- The trap record's words (R196). -/
def TrapRec.windowWord (r : TrapRec) (i : Nat) : Nat :=
  match i with
  | 0 => (if r.fatal then 2 ^ 24 else 0) + r.repk % 16 * 2 ^ 20 + r.widx % 16 * 2 ^ 16 + r.trap.sub % 256 * 2 ^ 8 + r.trap.cause.code +
      2 ^ 32 * r.trap.info.toNat
  | 1 => r.pc.toNat
  | 2 => r.header.toNat
  | 3 => r.trap.addr.toNat
  | 4 => r.dt
  | _ => 0

/-- The 64-bit word at 0x180 to 0x1C0 for a thread. -/
def Thread.windowWord (u : UnitSt) (t : Nat) (th : Thread) (off : Nat) : Nat :=
  let pc := match th.st with
    | .trapped r => th.windowPc r
    | _ => th.pos.addr
  match off with
  | 0x180 => pc.toNat
  | 0x188 => th.sp.toNat + 2 ^ 32 * th.fp.toNat
  | 0x190 => th.ctrs.word.toNat + 2 ^ 32 * th.rng.toNat
  | 0x198 => th.rmode.toNat + 2 ^ 32 * th.fmode.toNat
  | 0x1A0 => th.gwct.toNat
  | 0x1A8 => th.egwct.toNat
  | 0x1B0 => th.age + 2 ^ 32 * u.nregs
  | 0x1B8 => u.npriv
  | 0x1C0 => (u.pbase.getD (hbOf t) 0).toNat
  | _ => 0

/-- The aligned 64-bit word of the bundle window at an offset. -/
def windowRead (u : UnitSt) (b : Bundle) (off : Nat) : Nat :=
  let slotWord (i : Nat) : Nat :=
    match b.slots.getD i none with
    | some t => (u.thread t).st.slotCode * 2 ^ 29 + hbOf t * 32 + laneOf t
    | none => 0
  if off == 0 then b.wslot + (if b.held then 2 ^ 14 else 0) + if b.hold then 2 ^ 15 else 0
  else if off == 0x008 then 2 ^ 32 * b.wstat
  else if off == 0x010 then b.divc
  else if 0x040 ≤ off ∧ off < 0x080 then
    Path.tableWord b (if off < 0x060 then b.path0 else b.path1) ((off - 0x040) % 32 / 8)
  else if 0x080 ≤ off ∧ off < 0x100 then slotWord ((off - 0x080) / 4) + 2 ^ 32 * slotWord ((off - 0x080) / 4 + 1)
  else
    match b.selected with
    | none => 0
    | some t =>
      let th := u.thread t
      if 0x100 ≤ off ∧ off < 0x180 then
        match th.st with
        | .trapped r => r.windowWord ((off - 0x100) / 8)
        | _ => 0
      else if 0x180 ≤ off ∧ off < 0x200 then th.windowWord u t off
      else if 0x200 ≤ off ∧ off < 0x400 then (u.side (hbOf t) ((off - 0x200) / 8)).toNat
      else if 0x800 ≤ off then
        let r (i : Nat) : Nat := if i < u.nregs then (th.reg i).toNat else 0
        r ((off - 0x800) / 4) + 2 ^ 32 * r ((off - 0x800) / 4 + 1)
      else 0

end Sys2Proof.Machine
end

