-- ==== Sys2Proof/Machine/Firmware.lean ====
section
/-! DEFINITION. Firmware, contexts and containment (R364 to R379): command links, management requests, the killing of a
context, poison, retirement, error counts and quarantine. -/

namespace Sys2Proof.Machine

/-! ### Messages (R364, R365) -/

/-- What the receiver of a message does with it. -/
def State.actOn (s : State) (m : Msg) : State :=
  match m with
  | .preempt us => s.units.foldl (fun s u => if us.contains u.uid then s.preemptWhole u else s) s
  | .place l core bases => s.placeAt l core bases
  | .restore u core => s.restoreAt u core
  | .report r => s.putReport r
  | .fault u r =>
    match s.unit? u with
    | some x => s.recordFault x ((x.first.map (·.1)).getD r)
    | none => s
  | .saved u => s.updUnit u fun x => if x.st == .saved then { x with freed := true } else x
  | .mismatch core at_ =>
    let id := 4 * 2 ^ 24 + core
    let old := ((s.fw.events.find? (·.1 == id)).map (·.2)).getD []
    { s with fw := { s.fw with events := (id, at_ :: old) :: s.fw.events.filter (·.1 != id) } }

/-- FIRMWARE_MESSAGE: the oldest message of a link is acted on, once, and its permit returns; a leaf controller that restarts
acts on none. -/
def execFirmwareMessage (leaf : Nat) (up : Bool) (seq : Nat) (s : State) : Out :=
  match (s.linkDir leaf up).queue with
  | [] => .next s
  | m :: _ =>
    .next (if m.1 == seq && (up || s.leafUp leaf) then (s.updLink leaf up LinkDir.act).actOn m.2 else s)

/-- What a sender sends again when the receiver has stated the last number that it acted on. -/
def LinkDir.resync (l : LinkDir) : LinkDir :=
  { l with queue := l.queue.filter fun m => decide ((m.1 + 65536 - l.acted) % 65536 - 1 < 16) }

/-- CONTROLLER_RESTART: the first step begins a restart, in which a running handler is lost and its trap waits again; the
next one ends it, and both sides send again what the other has not acted on. DEDUCED, log 33. -/
def execControllerRestart (leaf : Nat) (s : State) : Out :=
  if s.leafUp leaf then
    let s : State := { s with fw := { s.fw with restarting := leaf :: s.fw.restarting } }
    match s.handler? leaf with
    | none => .next s
    | some h => .next (s.endHandler h)
  else
    .next ((({ s with fw := { s.fw with restarting := s.fw.restarting.filter (· != leaf) } } : State).updLink leaf true LinkDir.resync).updLink
      leaf false LinkDir.resync)

/-! ### Memory retirement and way quarantine (R375, R376) -/

/-- A 64 KiB unit leaves use: its lines are dropped, their poison with them. -/
def State.retire (s : State) (unit64k : Nat) : State :=
  { s with fw := { s.fw with retired := if s.fw.retired.contains unit64k then s.fw.retired else unit64k :: s.fw.retired }
           lines := s.lines.filter fun x => x.line / 512 != unit64k
           leases := s.leases.filter fun x => x.line / 512 != unit64k }

/-- The same, with a report of the unit's address, in a record of the kind of quarantines. DESIGN CHOICE, log 71. -/
def State.retireTold (s : State) (detail unit64k : Nat) : State :=
  if s.fw.retired.contains unit64k then s else (s.retire unit64k).report { kind := 4, detail := detail, addr := 65536 * unit64k }

/-- A structure is quarantined and reported, once (R378). A way gives up its lines: dirty ones go to HBM, clean ones are
dropped, and other ways serve them from then on (R376). -/
def State.quarantine (s : State) (id : Nat) : State :=
  if s.fw.quars.contains id then s
  else
    let s := (s.addQuar id).report { kind := 4, detail := id }
    { s with lines := s.lines.map fun x =>
        if wayId (sliceOf x.line) x.way == id then { x with inL2 := false, dirty := false } else x }

/-- The way that holds a line. -/
def State.wayOf (s : State) (line : Nat) : Nat := wayId (sliceOf line) (s.lineSt line).way

/-! ### Killing a context (R374, R376, R407) -/

/-- Accesses of a killed context's units that go on: plain global writes of lanes; engine writes are discarded.
DEDUCED, log 35. -/
def survives (gone : List Nat) (o : MemOp) : Bool :=
  !gone.contains o.unit || (o.sp == .global && o.kind.ctr == .s && o.kind.writes && !o.kind.isEngine)

/-- The lowest-numbered enabled queue; a size of 13 to 15 disables one (R322). -/
def Ctx.firstQueue (c : Ctx) : Option Queue :=
  (c.queues.filter fun q => q.en && decide (q.log < 13)).foldl (fun (m : Option Queue) q =>
    match m with
    | some x => if q.q < x.q then some q else some x
    | none => some q) none

/-- The CONTEXT_LOST record, which is written past chead. -/
def State.lostRecord (s : State) (c : Ctx) (code : Nat) : State :=
  match c.firstQueue with
  | none => s
  | some q =>
    let r := (recordWords 0xFF 2 code 0 q.head.toNat s.dt c.energy).set 2 q.rseq
    (s.putFront c.ctx (q.cring.toNat + 32 * (q.ctail.toNat % q.centries)) (bytesOf r)).setQueue c.ctx
      { q with ctail := q.ctail + 1, rseq := q.rseq + 1 }

/-- Steps 1 to 4 of R374. A context that is already being killed stays as it is. -/
def State.evict (s : State) (ctx : Nat) : State :=
  let us := s.units.filter (·.ctx == ctx)
  let gone := us.map (·.uid)
  let s := s.freeze ctx true
  let s := (s.cutClaims ctx 5 fun _ => true).updCtx ctx fun c => { c with live := false, claims := [] }
  let tiles := (us.filter fun u => u.tile && !u.away).map (·.core)
  let job := ((s.ctx? ctx).map fun c => c.desc.fjob.toNat).getD 0
  let s : State := { s with
    units := s.units.filter fun u => u.ctx != ctx
    eng := s.eng.filter fun e => e.ctx != ctx
    ops := s.ops.filter (survives gone)
    cores := s.cores.mapIdx fun i c => if tiles.contains i then { c with te := {} } else c
    issueQ := s.issueQ.filter fun p => !gone.contains p.unit
    fab := { s.fab with flights := s.fab.flights.filter (·.ctx != ctx), far := s.fab.far.filter fun f => f.job != job }
    fw := { s.fw with handlers := s.fw.handlers.filter fun h => !gone.contains h.unit } }
  s.syncCtx ctx

/-- Units of 64 KiB that hold a poisoned line of a context. -/
def State.poisonUnits (s : State) (ctx : Nat) : List Nat :=
  ((s.lines.filter fun (x : LineSt) => x.poison && x.owner == some ctx).map fun (x : LineSt) => x.line / 512).eraseDups

/-- Kills a context (R374): cause code 1 POISON with the line's address, 2 REQUEST. The report names the unit that holds the
line; other units are reported each. -/
def State.killContext (s : State) (ctx code addr : Nat) : State :=
  match s.ctx? ctx with
  | none => s
  | some c =>
    if !c.live then s
    else
      let us := s.poisonUnits ctx
      let s := (us.filter fun x => code != 1 || x != addr / 65536).foldl (fun s x => s.retireTold 0 x) (s.evict ctx)
      let s := if code == 1 then s.retire (addr / 65536) else s
      let s := s.lostRecord ((s.ctx? ctx).getD c) code
      s.report { ctx := ctx, kind := 2, detail := code, addr := addr }

/-! ### Poison (R373, R374) -/

/-- POISON_CONSUME: the owner is killed, or for a line that the tag gives no owner the context whose access fills it; the memory is
retired, the way quarantined. DEDUCED, log 35. -/
def execPoisonConsume (p : Poison) (s : State) : Out :=
  if !(s.lineSt p.line).poison then .next s
  else
    let way := s.wayOf p.line
    let s := match (s.lineSt p.line).owner.or p.by_ with
      | some c => s.killContext c 1 (128 * p.line)
      | none => s
    .next ((s.retireTold 0 (p.line / 512)).quarantine way)

/-! ### Error counts (R377, R378) -/

/-- An event of a structure counts against the sliding window of a row of R377's table, and does `f` at its threshold. -/
def State.countTo (s : State) (id row : Nat) (f : State → State) : State :=
  let old := ((s.fw.events.find? (·.1 == id)).map (·.2)).getD []
  let es := s.dt :: old.filter fun t => s.dt < t + (s.limit row).2
  let s : State := { s with fw := { s.fw with events := (id, es) :: s.fw.events.filter (·.1 != id) } }
  if es.length < (s.limit row).1 then s else f s

/-- The pseudo-channel that serves a line: 48 to a slice, eight slices to a stack (R378, R401). DESIGN CHOICE, log 49. -/
def channelOf (l : Nat) : Nat := sliceOf l * 48 + Config.channelHash (l / 64 % 2 ^ 35) % 48

/-- The structure number of a pseudo-channel (R378). -/
def channelId (ch : Nat) : Nat := 6 * 2 ^ 24 + ch

/-- A bank of a core is disabled: the core goes on with fewer page frames or a smaller L1 (R377). -/
def State.dropBank (s : State) (core bank : Nat) : State :=
  if bank < 16 then s.emptyBank core bank
  else s.updCore (s.l1Of core) fun c => { c with l1 := c.l1.take (s.l1Lines core) }

/-- The pages of a pseudo-channel's rows: those of its events within the window (R377). -/
def State.channelUnits (s : State) (id : Nat) : List Nat :=
  ((s.fw.rows.filter fun x => x.1 == id && decide (s.dt < x.2.1 + (s.limit 6).2)).map (·.2.2)).eraseDups

/-- The numbers under which the banks of a core's register file and accumulators count their events. -/
def coreBankId (core bank : Nat) (acc : Bool) : Nat := 2 ^ 32 + core * 128 + bank + if acc then 64 else 0

/-- A correctable error of a register file or accumulator bank; a lasting fault quarantines the core, whose units move away. -/
def State.coreError (s : State) (core bank : Nat) (acc : Bool) : State :=
  if 128 ≤ core || 64 ≤ bank then s
  else s.countTo (coreBankId core bank acc) 3 fun s => (s.quarantine (3 * 2 ^ 24 + core)).preemptUnits fun u => u.core == core

/-- A line cannot be corrected: it is poisoned, and the way that holds it has an uncorrectable error (R373, R377). -/
def State.poisonLine (s : State) (line : Nat) : State :=
  let x := s.lineSt line
  let s := s.setLine { x with poison := true }
  if x.inL2 then s.countTo (wayId (sliceOf line) x.way) 1 fun s => s.quarantine (wayId (sliceOf line) x.way) else s

/-- ERROR_EVENT, with the defaults of R377. DEDUCED, log 35. -/
def execErrorEvent (e : ErrStruct) (s : State) : Out :=
  match e with
  | .way slice way unc =>
    let id := wayId slice way
    .next (if 64 ≤ slice || 16 ≤ way then s else s.countTo id (if unc then 1 else 0) fun s => s.quarantine id)
  | .bank core bank =>
    let id := 2 * 2 ^ 24 + core * 32 + bank
    .next (if 128 ≤ core || 32 ≤ bank then s else s.countTo id 2 fun s => (s.quarantine id).dropBank core bank)
  | .regfile core bank => .next (s.coreError core bank false)
  | .acc core bank => .next (s.coreError core bank true)
  | .mirror core half => .next (s.mismatch core half)
  | .lane port lane =>
    let id := 5 * 2 ^ 24 + port * 8 + lane
    .next (if 18 ≤ port || 8 ≤ lane then s else s.countTo id 5 fun s =>
      let s := (s.quarantine id).updPort port fun q => { q with gone := if q.gone.contains lane then q.gone else lane :: q.gone }
      if 6 ≤ 8 - ((s.port? port).map (·.gone.length)).getD 0 then s else { s with agenda := .linkLoss port :: s.agenda })
  | .channel line =>
    let id := channelId (channelOf line)
    let s : State := { s with fw := { s.fw with rows := (id, s.dt, line / 512) :: s.fw.rows } }
    .next (s.countTo id 6 fun s => (s.channelUnits id).foldl (fun s x => s.retireTold id x) (s.quarantine id))
  | .package world src dst line again =>
    .next (if world == 0 || !s.portOpen world then s
      else if again then s.poisonLine line else s.countFlow world (src * 128 + dst))

/-- UNCORRECTABLE_ERROR: a sound refetch of a clean line counts as a correctable error of its way; otherwise the line is
poisoned (R373). -/
def execUncorrectableError (line : Nat) (refetchOk : Bool) (s : State) : Out :=
  if refetchOk && !(s.lineSt line).dirty then .next (s.countTo (s.wayOf line) 0 fun s => s.quarantine (s.wayOf line))
  else .next (s.poisonLine line)

/-! ### Context descriptors (R368, R369, R399) -/

def descAligned (d : CtxDesc) : Bool :=
  [d.s1root, d.s2root, d.qtab, d.ctab, d.heap, d.lsa, d.evb, d.save].all fun a => a.toNat % 4096 == 0

/-- The 128 bytes of a context descriptor as CTX_START reads them. -/
def descBytes (d : CtxDesc) : List Byte :=
  leBytes 4 ((if d.mirx then 4 else 0) + (if d.dbg then 8 else 0) + d.part.toNat * 2 ^ 16 + d.world * 2 ^ 24) ++
  leBytes 4 d.hmask.toNat ++
  ([d.s1root, d.s2root, d.qtab, d.ctab, d.heap].foldr (fun (x : DWord) bs => leBytes 8 x.toNat ++ bs) []) ++
  leBytes 4 d.heapsz.toNat ++ leBytes 4 d.fjob.toNat ++
  ([d.lsa, d.evb, d.himg, d.save].foldr (fun (x : DWord) bs => leBytes 8 x.toNat ++ bs) []) ++
  leBytes 8 d.savesz.toNat ++ leBytes 8 d.etab.toNat ++ List.replicate 24 0

/-- The key slot of a world: slot 0 always stands after boot (R381, R384). -/
def State.keyLoaded (s : State) (world : Nat) : Bool :=
  world == 0 || (s.trust.slots.any (·.slot == world) && !s.trust.removing.contains world)

/-- The dies that a context may use: those of its virtual function's partition, when it is started for one (R399). -/
def State.partOk (s : State) (ctx : Nat) (part : BitVec 8) : Bool :=
  match s.power.ctxVf.find? (·.1 == ctx) with
  | none => true
  | some x =>
    (((s.power.vfs.find? (·.1 == x.2)).bind fun y => s.power.parts.find? (·.part == y.2)).map fun (x : Part) =>
      part &&& ~~~x.dies == 0).getD false

/-- A digest's 32 bytes, first byte most significant. -/
def digestBytes (d : BitVec 256) : List Byte := Sha.beBytes 32 d.toNat

/-- Extension: M = SHA-256(M ‖ d) (R391). -/
def extended (m d : BitVec 256) : BitVec 256 := Sha.sha256 (digestBytes m ++ digestBytes d)

def TrustSt.extend (t : TrustSt) (i : Nat) (d : BitVec 256) : TrustSt := { t with meas := t.meas.modify i (extended · d) }

def State.extendReg (s : State) (i : Nat) (d : BitVec 256) : State := { s with trust := s.trust.extend i d }

/-- A context descriptor with dbg set enters the debug state register (R391). DESIGN CHOICE, log 37. -/
def State.measureDebug (s : State) (d : CtxDesc) : State :=
  if d.dbg then s.extendReg 10 (Sha.sha256 (descBytes d)) else s

/-- A started context's descriptor goes into the register of each partition that it names, which is ungated, and into
the function block of its virtual function (R391, R392, R399). -/
def State.measureStart (s : State) (ctx : Nat) (d : CtxDesc) : State :=
  let h := Sha.sha256 (descBytes d)
  let ps := s.power.parts.filter fun p => p.dies &&& d.part != 0
  let s := ps.foldl (fun (s : State) p => s.extendReg (12 + p.part) h) s
  let names := ps.map (·.part)
  let ungate (p : Part) : Part := if names.contains p.part then { p with gated := none } else p
  let s : State := { s with power := { s.power with parts := s.power.parts.map ungate } }
  match s.power.ctxVf.find? (·.1 == ctx) with
  | some x => { s with trust := { s.trust with fblocks := s.trust.fblocks.modify x.2 (extended · h) } }
  | none => s

/-- Enabled queue descriptors of a queue table (R322); reserved bits, for which the spec states no status, have no effect.
DESIGN CHOICE, log 60. -/
def State.readQueues (s : State) (qtab : Nat) : List Queue :=
  (List.range 256).filterMap fun q =>
    let ws := s.physWords (qtab + 64 * q) 12
    let w := wd ws 6
    if flag w 11 then
      some { q := q, ring := BitVec.ofNat 64 (wd64 ws 0), bell := BitVec.ofNat 64 (wd64 ws 2), cring := BitVec.ofNat 64 (wd64 ws 4)
             en := true, prio := bits w 8 3, clog := bits w 4 4, log := bits w 0 4, st := bits (wd ws 7) 0 2
             head := ws.getD 8 0, ctail := ws.getD 9 0, chead := ws.getD 10 0, rseq := ws.getD 11 0, upto := ws.getD 8 0 }
    else none

/-! ### Management requests (R366, R367) -/

/-- The management ring, when a request waits there and boot has started the global scheduler core (R366, R388). -/
def State.reqQueue (s : State) : Option Queue :=
  if decide (2 ≤ s.trust.stage) && s.fw.mq.usable && s.fw.mq.head != s.fw.mq.upto then some s.fw.mq else none

/-- The request that the global scheduler core reads next: its words. -/
def State.headReq (s : State) : Option (List Word) :=
  s.reqQueue.bind fun q => if (s.poisoned (span q.headAt 64)).isSome then none else some (s.physWords q.headAt 16)

/-- The read of a poisoned request consumes the poison (R373). -/
def State.reqPoison (s : State) : State :=
  match s.reqQueue.bind fun q => s.poisoned (span q.headAt 64) with
  | some l => s.consume l none
  | none => s

namespace MReq
def type (ws : List Word) : Nat := bits (wd ws 0) 0 8
def ctx (ws : List Word) : Nat := bits (wd ws 0) 8 10
def qseq (ws : List Word) : Word := ws.getD 1 0
/-- The launch of a PREEMPT, the structure of a QCLEAR. -/
def arg (ws : List Word) : Word := ws.getD 2 0
/-- The field mask of a CTX_UPDATE. -/
def mask (ws : List Word) : DWord := BitVec.ofNat 64 (wd64 ws 2)
end MReq

/-- A request leaves the ring. -/
def State.takeReq (s : State) (ws : List Word) : State :=
  let q := s.fw.mq
  let s := s.setQueue mgmt (({ q with head := q.head + 1 } : Queue).settled false)
  { s with fw := { s.fw with mlast := MReq.qseq ws } }

/-- The report of a request, with status 0 OK, 1 REJECTED, 3 DESC. -/
def State.requestDone (s : State) (ws : List Word) (status : Nat) : State :=
  s.report { ctx := MReq.ctx ws, status := status, kind := 1, qseq := MReq.qseq ws }

/-- Reads the head request when it is the one that the event names, and carries it out; one that names a context which is not
live is rejected, but for CTX_START. The bits that R366's layout leaves out have no effect. DESIGN CHOICE, log 60. -/
def request (type : Nat) (named : List Word → Bool) (f : State → List Word → State) (s : State) : Out :=
  match s.headReq with
  | none => .next s.reqPoison
  | some ws =>
    if MReq.type ws != type || !named ws then .next s
    else if type != 1 && !s.alive (MReq.ctx ws) then .next ((s.takeReq ws).requestDone ws 1)
    else .next (f (s.takeReq ws) ws)

/-- The words of a context's descriptor in the table (R368). -/
def State.descWords (s : State) (ctx : Nat) : List Word := s.physWords (s.fw.ctxTab + 128 * ctx) 32

/-- A context descriptor; its reserved fields, and words that R368 does not list, are to be zero. DESIGN CHOICE, log 60. -/
def ctxDescOf (ws : List Word) : CtxDesc :=
  let q (i : Nat) : DWord := BitVec.ofNat 64 (wd64 ws i)
  { world := bits (wd ws 0) 24 8, part := BitVec.ofNat 8 (bits (wd ws 0) 16 8), dbg := flag (wd ws 0) 3, mirx := flag (wd ws 0) 2
    rsv := bits (wd ws 0) 4 12 != 0 || bits (wd ws 1) 4 28 != 0 || bits (wd ws 13) 16 16 != 0 || wd ws 23 != 0 || !zeroFrom ws 28
    hmask := BitVec.ofNat 4 (wd ws 1), s1root := q 2, s2root := q 4, qtab := q 6, ctab := q 8, heap := q 10, heapsz := ws.getD 12 0
    fjob := BitVec.ofNat 16 (wd ws 13), lsa := q 14, evb := q 16, himg := q 18, save := q 20, savesz := ws.getD 22 0, etab := q 24 }

/-- A context becomes live with a descriptor; one that is frozen goes on with what it holds. -/
def State.startCtx (s : State) (ctx : Nat) (d : CtxDesc) : State :=
  match s.ctx? ctx with
  | some c =>
    if c.live then s.freeze ctx false
    else
      let c' : Ctx := { ctx := ctx, live := true, desc := d, queues := s.readQueues d.qtab.toNat, sliceAt := s.dt, energy := c.energy }
      (s.updCtx ctx fun _ => c').syncCtx ctx
  | none =>
    let c' : Ctx := { ctx := ctx, live := true, desc := d, queues := s.readQueues d.qtab.toNat, sliceAt := s.dt }
    ({ s with ctxs := s.ctxs ++ [c'] } : State).syncCtx ctx

/-- CTX_START with the descriptor that the table holds. -/
def State.ctxStart (s : State) (d : CtxDesc) (ws : List Word) : State :=
  let ctx := MReq.ctx ws
  if d.rsv || !descAligned d || !s.keyLoaded d.world || !s.partOk ctx d.part then s.requestDone ws 3
  else (((s.measureStart ctx d).measureDebug d).startCtx ctx d).requestDone ws 0

def execCtxStart (qseq : Word) (ctx : Nat) (d : CtxDesc) (s : State) : Out :=
  request 1 (fun ws => MReq.qseq ws == qseq && MReq.ctx ws == ctx && ctxDescOf (s.descWords ctx) == d) (·.ctxStart d) s

/-- Fields of the mask: bits 0 to 4 world, part, dbg, mirx, hmask; 5 and 6 the table roots; 14 himg; every other bit names
a field that a live context keeps, or none. DESIGN CHOICE, log 34. -/
def maskOk (mask : Nat) (resident : Bool) : Bool :=
  (mask &&& (0x7F + 2 ^ 14)) == mask && (!resident || mask &&& 0x63 == 0)

/-- The masked fields of a new descriptor in an old one. -/
def maskedDesc (d new : CtxDesc) (mask : Nat) : CtxDesc :=
  let on (i : Nat) : Bool := flag mask i
  { d with
    world := if on 0 then new.world else d.world, part := if on 1 then new.part else d.part
    dbg := if on 2 then new.dbg else d.dbg, mirx := if on 3 then new.mirx else d.mirx
    hmask := if on 4 then new.hmask else d.hmask, s1root := if on 5 then new.s1root else d.s1root
    s2root := if on 6 then new.s2root else d.s2root, himg := if on 14 then new.himg else d.himg }

/-- CTX_UPDATE (R369). -/
def State.ctxUpdate (s : State) (mask : Nat) (new : CtxDesc) (ws : List Word) : State :=
  let ctx := MReq.ctx ws
  if !maskOk mask (s.units.any fun u => u.ctx == ctx && u.st == .resident && u.role != .prologue) then s.requestDone ws 1
  else
    let s := s.updCtx ctx fun c => { c with desc := maskedDesc c.desc new mask }
    let s := if flag mask 2 then s.measureDebug (((s.ctx? ctx).map fun c => c.desc).getD {}) else s
    s.requestDone ws 0

def execCtxUpdate (qseq : Word) (ctx : Nat) (mask : DWord) (new : CtxDesc) (s : State) : Out :=
  request 2 (fun ws => MReq.qseq ws == qseq && MReq.ctx ws == ctx && MReq.mask ws == mask && ctxDescOf (s.descWords ctx) == new)
    (·.ctxUpdate mask.toNat new) s

/-- CTX_STOP: queues frozen, every unit pre-empted; the context can be started again. DEDUCED, log 33. -/
def State.ctxStop (s : State) (ws : List Word) : State :=
  ((s.freeze (MReq.ctx ws) true).preemptUnits fun u => u.ctx == MReq.ctx ws).requestDone ws 0

def execCtxStop (qseq : Word) (ctx : Nat) (s : State) : Out :=
  request 3 (fun ws => MReq.qseq ws == qseq && MReq.ctx ws == ctx) State.ctxStop s

/-- CTX_KILL, with cause REQUEST. -/
def State.ctxKill (s : State) (ws : List Word) : State := (s.killContext (MReq.ctx ws) 2 0).requestDone ws 0

def execCtxKill (qseq : Word) (ctx : Nat) (s : State) : Out :=
  request 4 (fun ws => MReq.qseq ws == qseq && MReq.ctx ws == ctx) State.ctxKill s

/-- PREEMPT of a launch's units, or of all. -/
def State.preemptReq (s : State) (launchId : Word) (ws : List Word) : State :=
  (s.preemptUnits fun u => u.ctx == MReq.ctx ws && (launchId == 0xFFFFFFFF || u.launch == launchId.toNat)).requestDone ws 0

def execPreempt (qseq : Word) (ctx : Nat) (launchId : Word) (s : State) : Out :=
  request 5 (fun ws => MReq.qseq ws == qseq && MReq.ctx ws == ctx && MReq.arg ws == launchId) (·.preemptReq launchId) s

/-- The quarantine of a structure ends and its counts start anew; a tile engine's are its halves', and a lane is in use
again. -/
def State.clearQuar (s : State) (id : Nat) : State :=
  let s : State := { s with fw := { s.fw with quars := s.fw.quars.filter (· != id), events := s.fw.events.filter (·.1 != id) } }
  let core := id % 2 ^ 24
  let s := if id / 2 ^ 24 == 3 then
      { s with fw := { s.fw with events := s.fw.events.filter fun x => !(decide (2 ^ 32 ≤ x.1) && (x.1 - 2 ^ 32) / 128 == core) } } else s
  let s := if id / 2 ^ 24 == 6 then { s with fw := { s.fw with rows := s.fw.rows.filter (·.1 != id) } } else s
  let s := if id / 2 ^ 24 == 4 then s.updCore (id % 2 ^ 24) fun c => { c with mis0 := [], mis1 := [] } else s
  if id / 2 ^ 24 == 5 then s.updPort (id % 2 ^ 24 / 8) fun q => { q with gone := q.gone.filter (· != id % 8) } else s

/-- QCLEAR (R378). -/
def execQclear (qseq structId : Word) (s : State) : Out :=
  request 6 (fun ws => MReq.qseq ws == qseq && MReq.arg ws == structId)
    (fun s ws => (s.clearQuar structId.toNat).requestDone ws 0) s

/-- The management RESYNC: the number of the last request read before it (R367). -/
def execManagementResync (qseq : Word) (s : State) : Out :=
  let last := s.fw.mlast.toNat
  request 7 (fun ws => MReq.qseq ws == qseq)
    (fun s ws => s.report { ctx := MReq.ctx ws, kind := 8, qseq := MReq.qseq ws, detail := last }) s

/-- A request of a reserved type. -/
def execManagementRejected (qseq : Word) (rtype ctx : Nat) (s : State) : Out :=
  match s.headReq with
  | none => .next s.reqPoison
  | some ws =>
    let named := MReq.qseq ws == qseq && MReq.type ws == rtype && MReq.ctx ws == ctx
    .next (if named && (rtype == 0 || decide (7 < rtype)) then (s.takeReq ws).requestDone ws 1 else s)

end Sys2Proof.Machine
end

