-- ==== Sys2Proof/Machine/Integer.lean ====
section
/-! DEFINITION. The integer and logic instructions (R125 to R135), each by every thread of the path with its own
registers (R123). -/

namespace Sys2Proof.Machine

/-- NOP, the all-zero word (R46). -/
def execNop (s : State) : Out := laneP [] (fun _ th => th) s

/-- MOV: A. -/
def execMov (t : Ty) (d a : VReg) (s : State) : Out :=
  laneP [tdst t d, tsrc .a t a] (fun o th => th.putT t d o.a) s

/-- MOVI: the immediate (R35). -/
def execMovi (t : Ty) (d : VReg) (imm : BitVec 34) (s : State) : Out :=
  laneP [tdst t d] (fun _ th => th.putT t d (immT t imm)) s

def addV (t : Ty) (sat : Bool) (a b : BitVec 128) : BitVec 128 := intT t sat fun j => elemI t a j + elemI t b j
def subV (t : Ty) (sat : Bool) (a b : BitVec 128) : BitVec 128 := intT t sat fun j => elemI t a j - elemI t b j
def mulV (t : Ty) (sat : Bool) (a b : BitVec 128) : BitVec 128 := intT t sat fun j => elemI t a j * elemI t b j
def madV (t : Ty) (sat : Bool) (a b c : BitVec 128) : BitVec 128 :=
  intT t sat fun j => elemI t a j * elemI t b j + elemI t c j
/-- floor(A × B ÷ 2^w). -/
def mulhV (t : Ty) (a b : BitVec 128) : BitVec 128 :=
  intT t false fun j => Int.fdiv (elemI t a j * elemI t b j) (2 ^ t.width)

/-- R130: toward zero, with the results at the limits. -/
def divI (sg : Bool) (w : Nat) (a b : Int) : Int :=
  if b == 0 then (if sg then -1 else 2 ^ w - 1)
  else if sg && a == loOf sg w && b == -1 then loOf sg w
  else Int.tdiv a b
def remI (sg : Bool) (w : Nat) (a b : Int) : Int :=
  if b == 0 then a else if sg && a == loOf sg w && b == -1 then 0 else a - b * Int.tdiv a b

def divV (t : Ty) (a b : BitVec 128) : BitVec 128 :=
  intT t false fun j => divI t.isSigned t.width (elemI t a j) (elemI t b j)
def remV (t : Ty) (a b : BitVec 128) : BitVec 128 :=
  intT t false fun j => remI t.isSigned t.width (elemI t a j) (elemI t b j)
def minV (t : Ty) (a b : BitVec 128) : BitVec 128 := intT t false fun j => min (elemI t a j) (elemI t b j)
def maxV (t : Ty) (a b : BitVec 128) : BitVec 128 := intT t false fun j => max (elemI t a j) (elemI t b j)
def absV (t : Ty) (sat : Bool) (a : BitVec 128) : BitVec 128 := intT t sat fun j => (elemI t a j).natAbs
def negV (t : Ty) (sat : Bool) (a : BitVec 128) : BitVec 128 := intT t sat fun j => -(elemI t a j)

def execAdd (t : Ty) (d a b : VReg) (sat : Bool) (s : State) : Out :=
  laneP [tdst t d, tsrc .a t a, tsrc .b t b] (fun o th => th.putT t d (addV t sat o.a o.b)) s

/-- ADDI: A + imm, wrapping. -/
def execAddi (t : Ty) (d a : VReg) (imm : BitVec 34) (s : State) : Out :=
  laneP [tdst t d, tsrc .a t a] (fun o th => th.putT t d (addV t false o.a (immT t imm))) s

def execSub (t : Ty) (d a b : VReg) (sat : Bool) (s : State) : Out :=
  laneP [tdst t d, tsrc .a t a, tsrc .b t b] (fun o th => th.putT t d (subV t sat o.a o.b)) s

def execMul (t : Ty) (d a b : VReg) (sat : Bool) (s : State) : Out :=
  laneP [tdst t d, tsrc .a t a, tsrc .b t b] (fun o th => th.putT t d (mulV t sat o.a o.b)) s

def execMulh (t : Ty) (d a b : VReg) (s : State) : Out :=
  laneP [tdst t d, tsrc .a t a, tsrc .b t b] (fun o th => th.putT t d (mulhV t o.a o.b)) s

def execMad (t : Ty) (d a b c : VReg) (sat : Bool) (s : State) : Out :=
  laneP [tdst t d, tsrc .a t a, tsrc .b t b, tsrc .c t c] (fun o th => th.putT t d (madV t sat o.a o.b o.c)) s

def execDiv (t : Ty) (d a b : VReg) (s : State) : Out :=
  laneP [tdst t d, tsrc .a t a, tsrc .b t b] (fun o th => th.putT t d (divV t o.a o.b)) s

def execRem (t : Ty) (d a b : VReg) (s : State) : Out :=
  laneP [tdst t d, tsrc .a t a, tsrc .b t b] (fun o th => th.putT t d (remV t o.a o.b)) s

def execMin (t : Ty) (d a b : VReg) (s : State) : Out :=
  laneP [tdst t d, tsrc .a t a, tsrc .b t b] (fun o th => th.putT t d (minV t o.a o.b)) s

def execMax (t : Ty) (d a b : VReg) (s : State) : Out :=
  laneP [tdst t d, tsrc .a t a, tsrc .b t b] (fun o th => th.putT t d (maxV t o.a o.b)) s

def execAbs (t : Ty) (d a : VReg) (sat : Bool) (s : State) : Out :=
  laneP [tdst t d, tsrc .a t a] (fun o th => th.putT t d (absV t sat o.a)) s

def execNeg (t : Ty) (d a : VReg) (sat : Bool) (s : State) : Out :=
  laneP [tdst t d, tsrc .a t a] (fun o th => th.putT t d (negV t sat o.a)) s

/-- R131: packed dot product with a 32-bit accumulator. -/
def dp4V (t : Ty) (mix sat : Bool) (a b c : BitVec 128) : BitVec 128 :=
  let x := (List.range t.lanes).foldl
    (fun acc j => acc + elemI t a j * readInt (t.isSigned && !mix) t.width (elemN t.width b j))
    (readInt t.isSigned 32 c.toNat)
  BitVec.ofNat 128 (wrap 32 (if sat then clampTo t.isSigned 32 x else x))

def execDp4 (t : Ty) (d a b c : VReg) (mix sat : Bool) (s : State) : Out :=
  laneP [dst d, src .a a, src .b b, src .c c] (fun o th => th.putN d.toNat 1 (dp4V t mix sat o.a o.b o.c)) s

def execBand (t : Ty) (d a b : VReg) (s : State) : Out :=
  laneP [tdst t d, tsrc .a t a, tsrc .b t b] (fun o th => th.putT t d (o.a &&& o.b)) s

def execBor (t : Ty) (d a b : VReg) (s : State) : Out :=
  laneP [tdst t d, tsrc .a t a, tsrc .b t b] (fun o th => th.putT t d (o.a ||| o.b)) s

def execBxor (t : Ty) (d a b : VReg) (s : State) : Out :=
  laneP [tdst t d, tsrc .a t a, tsrc .b t b] (fun o th => th.putT t d (o.a ^^^ o.b)) s

/-- ANDN: A & ~B. -/
def execBandn (t : Ty) (d a b : VReg) (s : State) : Out :=
  laneP [tdst t d, tsrc .a t a, tsrc .b t b] (fun o th => th.putT t d (o.a &&& ~~~o.b)) s

def execAndi (t : Ty) (d a : VReg) (imm : BitVec 34) (s : State) : Out :=
  laneP [tdst t d, tsrc .a t a] (fun o th => th.putT t d (o.a &&& immT t imm)) s

def execOri (t : Ty) (d a : VReg) (imm : BitVec 34) (s : State) : Out :=
  laneP [tdst t d, tsrc .a t a] (fun o th => th.putT t d (o.a ||| immT t imm)) s

def execXori (t : Ty) (d a : VReg) (imm : BitVec 34) (s : State) : Out :=
  laneP [tdst t d, tsrc .a t a] (fun o th => th.putT t d (o.a ^^^ immT t imm)) s

/-- R132: each bit by the truth table. -/
def lop3V (t : Ty) (table : BitVec 8) (a b c : BitVec 128) : BitVec 128 :=
  BitVec.ofNat 128 (pack 1 ((List.range t.width).map fun i =>
    (if table.getLsbD ((if a.getLsbD i then 4 else 0) + (if b.getLsbD i then 2 else 0) + (if c.getLsbD i then 1 else 0))
      then 1 else 0)))

def execLop3 (t : Ty) (d a b c : VReg) (table : BitVec 8) (s : State) : Out :=
  laneP [tdst t d, tsrc .a t a, tsrc .b t b, tsrc .c t c] (fun o th => th.putT t d (lop3V t table o.a o.b o.c)) s

/-! ### Shifts (R129), on w-bit patterns -/

def shlN (w x n : Nat) : Nat := if n < w then low w (x * 2 ^ n) else 0
def shrN (w x n : Nat) : Nat := if n < w then x / 2 ^ n else 0
def sarN (w x n : Nat) : Nat := wrap w (toSigned w x / 2 ^ (min n (w - 1)))
def rotN (w x n : Nat) : Nat := low w (x * 2 ^ (n % w)) + x / 2 ^ (w - n % w)

def shiftV (f : Nat → Nat → Nat → Nat) (t : Ty) (a : BitVec 128) (n : Nat → Nat) : BitVec 128 :=
  mapT t fun j => f t.width (elemN t.width a j) (n j)

def execShl (t : Ty) (d a b : VReg) (s : State) : Out :=
  laneP [tdst t d, tsrc .a t a, tsrc .b t b] (fun o th => th.putT t d (shiftV shlN t o.a (elemN t.width o.b))) s

def execShr (t : Ty) (d a b : VReg) (s : State) : Out :=
  laneP [tdst t d, tsrc .a t a, tsrc .b t b] (fun o th => th.putT t d (shiftV shrN t o.a (elemN t.width o.b))) s

def execSar (t : Ty) (d a b : VReg) (s : State) : Out :=
  laneP [tdst t d, tsrc .a t a, tsrc .b t b] (fun o th => th.putT t d (shiftV sarN t o.a (elemN t.width o.b))) s

def execRot (t : Ty) (d a b : VReg) (s : State) : Out :=
  laneP [tdst t d, tsrc .a t a, tsrc .b t b] (fun o th => th.putT t d (shiftV rotN t o.a (elemN t.width o.b))) s

def execShli (t : Ty) (d a : VReg) (n : BitVec 6) (s : State) : Out :=
  laneP [tdst t d, tsrc .a t a] (fun o th => th.putT t d (shiftV shlN t o.a fun _ => n.toNat)) s

def execShri (t : Ty) (d a : VReg) (n : BitVec 6) (s : State) : Out :=
  laneP [tdst t d, tsrc .a t a] (fun o th => th.putT t d (shiftV shrN t o.a fun _ => n.toNat)) s

def execSari (t : Ty) (d a : VReg) (n : BitVec 6) (s : State) : Out :=
  laneP [tdst t d, tsrc .a t a] (fun o th => th.putT t d (shiftV sarN t o.a fun _ => n.toNat)) s

/-! ### Bits -/

/-- Leading zeros, w for zero. -/
def clzN (w x : Nat) : Nat := if x == 0 then w else w - 1 - Nat.log2 x
def popcN (w x : Nat) : Nat := (List.range w).foldl (fun acc i => acc + x / 2 ^ i % 2) 0
def brevN (w x : Nat) : Nat := pack 1 ((List.range w).map fun i => x / 2 ^ (w - 1 - i) % 2)

/-- CLZ; d is one register. -/
def execClz (t : Ty) (d a : VReg) (s : State) : Out :=
  laneP [dst d, tsrc .a t a] (fun o th => th.putN d.toNat 1 (BitVec.ofNat 128 (clzN t.width o.a.toNat))) s

/-- POPC; d is one register. -/
def execPopc (t : Ty) (d a : VReg) (s : State) : Out :=
  laneP [dst d, tsrc .a t a] (fun o th => th.putN d.toNat 1 (BitVec.ofNat 128 (popcN t.width o.a.toNat))) s

def execBrev (t : Ty) (d a : VReg) (s : State) : Out :=
  laneP [tdst t d, tsrc .a t a] (fun o th => th.putT t d (BitVec.ofNat 128 (brevN t.width o.a.toNat))) s

/-- R133: the field, extended. -/
def bfxV (t : Ty) (pos len : Nat) (a : BitVec 128) : BitVec 128 :=
  let x := low len (a.toNat / 2 ^ pos)
  BitVec.ofNat 128 (wrap t.width (if t.isSigned then toSigned len x else x))

/-- R133: A with the field replaced. -/
def bfiV (t : Ty) (pos len : Nat) (a b : BitVec 128) : BitVec 128 :=
  let x := a.toNat
  BitVec.ofNat 128 (low t.width (x - low len (x / 2 ^ pos) * 2 ^ pos + low len b.toNat * 2 ^ pos))

def execBfx (t : Ty) (d a : VReg) (pos len1 : BitVec 6) (s : State) : Out :=
  laneP [tdst t d, tsrc .a t a] (fun o th => th.putT t d (bfxV t pos.toNat (len1.toNat + 1) o.a)) s

def execBfi (t : Ty) (d a b : VReg) (pos len1 : BitVec 6) (s : State) : Out :=
  laneP [tdst t d, tsrc .a t a, tsrc .b t b] (fun o th => th.putT t d (bfiV t pos.toNat (len1.toNat + 1) o.a o.b)) s

/-! ### Comparison, selection, addresses, conversion -/

/-- CMP (R134); d is one register. -/
def execCmp (t : Ty) (d a b : VReg) (c : Cond) (s : State) : Out :=
  laneP [dst d, tsrc .a t a, tsrc .b t b]
    (fun o th => th.putN d.toNat 1 (condT t fun j =>
      intCond c t.isSigned t.width (elemN t.width o.a j) (elemN t.width o.b j))) s

/-- CMPI, on 32 bits (R134). -/
def execCmpi (c : Cond) (d a : VReg) (imm : BitVec 34) (s : State) : Out :=
  laneP [dst d, src .a a]
    (fun o th => th.putN d.toNat 1 (condT .i32 fun _ => intCond c true 32 o.a.toNat (imm.setWidth 32).toNat)) s

/-- SEL; c is one register. -/
def execSel (t : Ty) (d a b c : VReg) (s : State) : Out :=
  laneP [tdst t d, tsrc .a t a, tsrc .b t b, src .c c] (fun o th => th.putT t d (if o.c != 0 then o.a else o.b)) s

/-- LEA (R128). -/
def leaV (t : Ty) (sh : Nat) (a b : BitVec 128) : BitVec 128 :=
  let idx : DWord := if t.isSigned then (b.setWidth 32).signExtend 64 else (b.setWidth 32).setWidth 64
  (a.setWidth 64 + idx <<< sh).setWidth 128

def execLea (t : Ty) (d a b : VReg) (sh : BitVec 3) (s : State) : Out :=
  laneP [dst d 2, src .a a 2, src .b b] (fun o th => th.putN d.toNat 2 (leaV t sh.toNat o.a o.b)) s

/-- R135: the converted value as it stands in d. -/
def convV (clamp : Bool) (sty dty : CvtTy) (a : BitVec 128) : BitVec 128 :=
  let x := readInt sty.isSigned sty.width a.toNat
  let y := wrap dty.width (if clamp then clampTo dty.isSigned dty.width x else x)
  BitVec.ofNat 128 (if dty.width < 32 then wrap 32 (readInt dty.isSigned dty.width y) else y)

def execCvti (d a : VReg) (sty dty : CvtTy) (s : State) : Out :=
  laneP [dst d dty.regs, src .a a sty.regs] (fun o th => th.putN d.toNat dty.regs (convV false sty dty o.a)) s

def execSatn (d a : VReg) (sty dty : CvtTy) (s : State) : Out :=
  laneP [dst d dty.regs, src .a a sty.regs] (fun o th => th.putN d.toNat dty.regs (convV true sty dty o.a)) s

end Sys2Proof.Machine
end

