-- ==== Sys2Proof/Machine/Trust.lean ====
section
/-! DEFINITION. The trust core (R380 to R395): keys of worlds and their removal, measured boot, measurement registers and
SPDM. -/

namespace Sys2Proof.Machine

/-! ### Trust requests (R384) -/

def State.trustStatus (s : State) (n : Nat) : State := { s with trust := { s.trust with status := n } }

/-- A request in the trust mailbox: its type and the world or register that it names. -/
def State.asked (s : State) (type arg : Nat) : State := { s with trust := { s.trust with request := (type, arg) } }

/-- A request is outstanding: a removal of keys is in progress. -/
def State.trustBusy (s : State) : Bool := !s.trust.removing.isEmpty

/-- The worlds that key requests name. -/
def keyWorld (world : Nat) : Bool := decide (1 ≤ world) && decide (world ≤ 255)

/-- Bytes of a line become free values: it is read under a key that it was not written under (R386).
DESIGN CHOICE, log 3. -/
def State.scrambleLine (s : State) (line : Nat) : State :=
  let bs := (List.range 16).foldr (fun i bs => leBytes 8 (Config.freeValue (s.fresh + i)).toNat ++ bs) []
  { s with fresh := s.fresh + 16, mem := s.mem.writes (span (128 * line) 128) bs }

/-- Lines of a world. -/
def State.worldLines (s : State) (world : Nat) : List Nat := (s.lines.filter (·.world == world)).map (·.line)

/-- KEY_LOAD. Lines that a retired world left under another memory key read as free values. DEDUCED, log 36. -/
def execKeyLoad (world : Nat) (blobOk : Bool) (net : BitVec 256) (memKey : BitVec 512) (s : State) : Out :=
  let s := s.asked 1 world
  if !keyWorld world then .next (s.trustStatus 3)
  else if s.trustBusy || s.trust.slots.any (·.slot == world) then .next (s.trustStatus 2)
  else if !blobOk then .next (s.trustStatus 1)
  else
    let other := ((s.trust.sealed_.find? (·.1 == world)).map (·.2 != memKey)).getD false
    let s := if other then (s.worldLines world).foldl State.scrambleLine s else s
    let k : KeySlot := { slot := world, net := net, key := memKey }
    .next ({ s with trust := { s.trust with slots := k :: s.trust.slots,
                                            sealed_ := s.trust.sealed_.filter (·.1 != world) } }.trustStatus 0)

/-! ### Removing keys (R385, R386) -/

/-- Live contexts of a world. -/
def State.worldCtxs (s : State) (world : Nat) : List Nat :=
  (s.ctxs.filter fun c => c.live && c.desc.world == world).map (·.ctx)

/-- Units of a world that are still being pre-empted. -/
def State.worldPreempting (s : State) (world : Nat) : Bool :=
  s.units.any fun u => (s.worldCtxs world).contains u.ctx && u.st == .resident && (u.preempt || s.preemptSent u)

/-- Steps 1 and 2 under retire: queues frozen, units pre-empted, claims revoked with cause KEY. -/
def State.beginRetire (s : State) (world : Nat) : State :=
  (s.worldCtxs world).foldl (fun s c =>
    ((s.freeze c true).preemptUnits fun u => u.ctx == c).cutClaims c 4 fun _ => true) s

/-- The world's lines leave every L2 slice, written back (step 4 under retire). -/
def State.dropLines (s : State) (world : Nat) : State :=
  { s with leases := s.leases.filter fun x => (s.lineSt x.line).world != world
           lines := s.lines.map fun x => if x.world == world then { x with inL2 := false, dirty := false } else x }

/-- The reports of kind KEY: one for each claim that the removal has revoked, or one that names the world. DESIGN CHOICE, log 71. -/
def State.keyReports (s : State) (world : Nat) : State :=
  let mine := s.trust.cutKeys.filter fun x => s.ctxWorld x.1 == world
  let s : State := { s with trust := { s.trust with cutKeys := s.trust.cutKeys.filter fun x => s.ctxWorld x.1 != world } }
  if mine.isEmpty then s.report { kind := 6, detail := world }
  else mine.foldl (fun s x => s.report { ctx := x.1, kind := 6, detail := x.2, addr := ((s.claim? x.1 x.2).map (·.node)).getD 0 }) s

/-- Step 5: the slot and its counters are cleared, and the report of kind KEY precedes the status. -/
def State.clearSlot (s : State) (world : Nat) : State :=
  let s : State := { s with trust := { s.trust with slots := s.trust.slots.filter (·.slot != world)
                                                    removing := s.trust.removing.filter (· != world) } }
  (s.keyReports world).trustStatus 0

/-- Steps 3 to 5 under retire, once every unit is saved or has stayed for want of room in its save area. -/
def State.endRetire (s : State) (world : Nat) : State :=
  let key := ((s.trust.slots.find? (·.slot == world)).map (·.key))
  let s : State := match key with
    | some k => { s with trust := { s.trust with sealed_ := (world, k) :: s.trust.sealed_.filter (·.1 != world) } }
    | none => s
  (s.dropLines world).clearSlot world

/-- KEY_RETIRE: the request begins the removal, which goes on by itself. DEDUCED, log 36. -/
def execKeyRetire (k : KeyStep) (s : State) : Out :=
  match k with
  | .request world =>
    let s := s.asked 2 world
    if !keyWorld world then .next (s.trustStatus 3)
    else if s.trustBusy then .next (s.trustStatus 2)
    else
      let s := s.beginRetire world
      .next { s with trust := { s.trust with removing := world :: s.trust.removing }
                     agenda := s.agenda ++ [.keyRetire (.resume world)] }
  | .resume world =>
    if !s.trust.removing.contains world then .next s
    else if s.worldPreempting world then .next { s with agenda := s.agenda ++ [.keyRetire (.resume world)] }
    else .next (s.endRetire world)

/-- A line of a destroyed world: garbage, and poisoned in HBM if it was dirty; no context is its owner any more (R385, R386). -/
def State.destroyLine (s : State) (line : Nat) : State :=
  let x := s.lineSt line
  (s.scrambleLine line).setLine
    { x with poison := x.poison || x.dirty, dirty := false, inL2 := false, owner := none, world := 0, lease := 128 }

/-- KEY_DESTROY: contexts are killed with cause REQUEST, claims revoked, lines dropped unwritten. -/
def execKeyDestroy (world : Nat) (s : State) : Out :=
  let s := s.asked 3 world
  if !keyWorld world then .next (s.trustStatus 3)
  else if s.trustBusy then .next (s.trustStatus 2)
  else
    let s := (s.worldCtxs world).foldl (fun s c => s.killContext c 2 0) s
    let ls := s.worldLines world
    let s : State := { s with leases := s.leases.filter fun x => !ls.contains x.line }
    let s := ls.foldl State.destroyLine s
    let s : State := { s with trust := { s.trust with sealed_ := s.trust.sealed_.filter (·.1 != world) } }
    .next (s.clearSlot world)

/-! ### Version floor and EXTEND (R390, R392) -/

def execSvnRaise (floor : Nat) (sigOk : Bool) (s : State) : Out :=
  let s := s.asked 4 0
  if s.trustBusy then .next (s.trustStatus 2)
  else if !sigOk then .next (s.trustStatus 1)
  else if floor < s.trust.floor then .next (s.trustStatus 4)
  else .next ({ s with trust := { s.trust with floor := floor } }.trustStatus 0)

def execExtend (reg : Nat) (digest : BitVec 256) (s : State) : Out :=
  let s := s.asked 5 reg
  if s.trustBusy then .next (s.trustStatus 2)
  else if 20 ≤ reg ∧ reg ≤ 23 then .next ((s.extendReg reg digest).trustStatus 0)
  else .next (s.trustStatus 3)

/-- A request of another type, or one that names world 0 (R384). -/
def execTrustRequestInvalid (rtype world : Nat) (s : State) : Out :=
  .next ((s.asked rtype world).trustStatus (if s.trustBusy then 2 else 3))

/-! ### Boot (R387 to R391) -/

/-- Fields of the boot word (R389). -/
def bootWord (fb : Bool) (att slot : Nat) : Word := BitVec.ofNat 32 ((if fb then 2 ^ 23 else 0) + att * 2 ^ 16 + slot)

/-- The selection of a slot: the new boot word, and whether both slots have failed. -/
def bootSelect (w : Word) : Word × Bool :=
  let fb := w.getLsbD 23
  let att := bits w.toNat 16 4
  let slot := bits w.toNat 0 1
  if 3 ≤ att then (bootWord true 1 (1 - slot), fb) else (bootWord fb (att + 1) slot, false)

/-- A digest that the spec does not give. DESIGN CHOICE, log 3. -/
def freeDigest (n : Nat) : BitVec 256 :=
  Config.freeValue n ++ Config.freeValue (n + 1) ++ Config.freeValue (n + 2) ++ Config.freeValue (n + 3)

/-- Everything that a reset leaves: the retirement map, the boot word and the version floor stay in flash, and the
fabric's node number and wiring are not the device's to lose. DESIGN CHOICE, log 38. -/
def State.afterReset (s : State) : State :=
  let z := State.reset
  { z with
    fresh := s.fresh + 4
    nextId := s.nextId
    fab := { z.fab with node := s.fab.node, ports := s.fab.ports.map fun q => { port := q.port, nodes := q.nodes, xops := q.xops } }
    fw := { z.fw with retired := s.fw.retired }
    trust := { z.trust with boot := s.trust.boot, floor := s.trust.floor, identity := some (Config.identityKey false, Config.identityKey true) } }

/-- Mask ROM runs: the slot is chosen, and the boot word enters M2 before stage one runs; recovery takes stage one over the host
link (R389). DESIGN CHOICE, log 37. -/
def State.reboot (s : State) : State :=
  let r := bootSelect s.trust.boot
  let s' := s.afterReset
  let t := s'.trust.extend 0 (freeDigest s.fresh)
  if r.2 then { s' with trust := { t with recovery := true, hostUp := true } }
  else
    { s' with trust := { (t.extend 2 (Sha.sha256 (leBytes 4 r.1.toNat))) with boot := r.1 } }

def execDeviceReset (s : State) : Out := .next s.reboot

/-- A watchdog reset leaves att raised and reboots. -/
def execWatchdogReset (s : State) : Out := .next s.reboot

/-- Partitions that configuration records may define: up to eight, of which no two share a number or a die (R399). -/
def partsOk : List PartCfg → Bool
  | [] => true
  | p :: ps => decide (p.part < 8) && ps.all (fun q => q.part != p.part && q.dies &&& p.dies == 0) && partsOk ps

/-- What the configuration records of an image set: the management ring and the descriptor table (R366, R368), the counting
thresholds and windows (R377), partitions with their virtual functions (R399), the power limit (R402), the trust mailbox
(R384). DESIGN CHOICE, log 61. -/
def State.applyRecords (s : State) (r : BootRecs) : State :=
  let s : State := match r.limits with
    | some ls => { s with fw := { s.fw with limits := ls } }
    | none => s
  let s : State := match r.parts with
    | some ps => { s with power := { s.power with parts := ps.map fun p => { part := p.part, dies := p.dies, gated := none } } }
    | none => s
  let s : State := { s with power := { s.power with vfs := r.vfs ++ s.power.vfs, ctxVf := r.ctxVf ++ s.power.ctxVf }
                            trust := { s.trust with mbox := r.mbox.or s.trust.mbox } }
  let s := match r.plimit with
    | some v => s.setPlimit v
    | none => s
  match r.mgmt with
  | some m =>
    let q : Queue := { q := 0, ring := m.ring, bell := m.bell, cring := m.cring, en := true, log := m.log, clog := m.clog }
    { s with fw := { s.fw with mq := q, mdesc := m.desc, ctxTab := m.ctab } }
  | none => s

/-- Where the next image comes from: stage one from the flash slot that the boot word names, in recovery over the host link; the main
image by the link that stage one's records select (R388, R389). -/
def TrustSt.source (t : TrustSt) : BootSrc :=
  if t.stage == 0 then (if t.recovery then .host else .flash (bits t.boot.toNat 0 1)) else t.link

/-- Stage one brings up the host link or a front-end Ethernet port, as its configuration records select (R388). -/
def TrustSt.bringUp (t : TrustSt) (l : BootSrc) : TrustSt :=
  match l with
  | .eth p => { t with link := l, eth := t.eth.set p true }
  | _ => { t with link := .host, hostUp := true }

/-- The digest of the version floor with the key manifest's, and of the retirement map. DESIGN CHOICE, log 37. -/
def TrustSt.manifestDigest (t : TrustSt) (manifest : BitVec 256) : BitVec 256 := Sha.sha256 (digestBytes manifest ++ leBytes 8 t.floor)
def retiredDigest (us : List Nat) : BitVec 256 :=
  Sha.sha256 ((us.mergeSort fun a b => decide (a ≤ b)).foldr (fun u bs => leBytes 8 u ++ bs) [])

/-- Stage one runs: its records and the key manifest with the floor enter M3 and M4, and it brings up its link. -/
def State.runStageOne (s : State) (img : BootImage) : State :=
  let t := (s.trust.extend 3 img.recDig).extend 4 (s.trust.manifestDigest img.manifest)
  { s with trust := t.bringUp img.recs.link }

/-- The main image runs: the firmware of the cores that it starts, its records and the retirement map enter M6 to M9 and M11. -/
def State.runMain (s : State) (img : BootImage) : State :=
  let t := (((s.trust.extend 6 img.gsc).extend 7 img.leaf).extend 8 img.app).extend 9 img.recDig
  { s with trust := t.extend 11 (retiredDigest s.fw.retired) }

/-- BOOT_STAGE_LOAD: an image is verified and measured before it runs; one that fails is a failed attempt, and a
configuration record that fails halts the stage that reads it (R387 to R391). -/
def execBootStageLoad (img : BootImage) (s : State) : Out :=
  let t := s.trust
  if t.halted || decide (2 ≤ t.stage) || img.from_ != t.source then .next s
  else if !img.sigOk || decide (img.svn < t.floor) then .next { s with trust := { t with halted := true } }
  else
    let t' : TrustSt := { t.extend (if t.stage == 0 then 1 else 5) img.digest with stage := t.stage + 1 }
    if !img.recsOk || !partsOk (img.recs.parts.getD []) then .next { s with trust := { t' with halted := true } }
    else
      let s : State := { s with trust := t' }
      .next ((if t.stage == 0 then s.runStageOne img else s.runMain img).applyRecords img.recs)

/-- BOOT_COMPLETE: att and fb are cleared; the keys of slot 0 have been generated. -/
def execBootComplete (s : State) : Out :=
  let t := s.trust
  if t.halted || t.stage != 2 then .next s
  else
    let net := freeDigest s.fresh
    let key : BitVec 512 := freeDigest (s.fresh + 4) ++ freeDigest (s.fresh + 8)
    let slot : Nat := bits t.boot.toNat 0 1
    .next { s with fresh := s.fresh + 12
                   trust := { t with stage := 3, boot := bootWord false 0 slot
                                     slots := { slot := 0, net := net, key := key } :: t.slots.filter (·.slot != 0) } }

/-! ### SPDM (R393 to R395). Codes and the layout of messages are those of SPDM 1.3. PRESUMED, log 39. -/

def State.updSpdm (s : State) (mb : Nat) (f : Spdm → Spdm) : State :=
  { s with trust := { s.trust with spdm := s.trust.spdm.modify mb f } }

/-- The header of a message of version 1.3. -/
def spdmHead (code p1 p2 : Nat) : List Byte := [0x13, BitVec.ofNat 8 code, BitVec.ofNat 8 p1, BitVec.ofNat 8 p2]

/-- An error response, which changes neither state nor transcript. -/
def Spdm.error (r : Spdm) (code : Nat) : Spdm := { r with reply := spdmHead 0x7F code 0, signed := none }

/-- A request in its order and its response: both enter the transcript; `neg` when they belong to the negotiation. -/
def Spdm.answer (r : Spdm) (req resp : List Byte) (phase : Nat) (neg : Bool) : Spdm :=
  let script := r.script ++ req ++ resp
  { phase := phase, script := script, negLen := if neg then script.length else r.negLen, reply := resp, signed := none }

/-- The running SHA-256 of a transcript. -/
def Spdm.hash (r : Spdm) : BitVec 256 := Sha.sha256 r.script

/-- A signed response: the signature of the identity key covers the transcript, which then returns to the negotiation. -/
def Spdm.sign (r : Spdm) (key : BitVec 3072) : Spdm :=
  { r with signed := some r.hash, reply := r.reply ++ Sha.beBytes 384 (Config.signature key r.hash).toNat
           script := r.script.take r.negLen }

/-- A request that must come in a phase; out of it, UnexpectedRequest (0x04). -/
def Spdm.inPhase (r : Spdm) (phase : Nat) (f : Spdm → Spdm) : Spdm := if r.phase == phase then f r else r.error 0x04

/-- Bytes of a response that the spec leaves open, such as a nonce. DESIGN CHOICE, log 3. -/
def freeBytes (at_ n : Nat) : List Byte := (List.range n).map fun i => (Config.freeValue (at_ + i / 8) >>> (8 * (i % 8))).setWidth 8

/-- A request to a mailbox, whose response may take up to eight free values. -/
def State.spdm (s : State) (r : SpdmReq) (f : Nat → Spdm → Spdm) : State :=
  { s.updSpdm r.box (f s.fresh) with fresh := s.fresh + 8 }

/-- VERSION offers version 1.3. -/
def versionResp : List Byte := [0x10, 0x04, 0, 0, 0, 1, 0x00, 0x13]

/-- GET_VERSION may come at any time, and begins afresh. -/
def execGetVersion (r : SpdmReq) (s : State) : Out :=
  .next (s.spdm r fun _ _ => ({} : Spdm).answer r.msg versionResp 1 true)

/-- CAPABILITIES: certificates, challenge, and signed measurements; the timing exponent and sizes are open. -/
def capabilitiesResp (at_ : Nat) : List Byte :=
  spdmHead 0x61 0 0 ++ [0] ++ freeBytes at_ 1 ++ [0, 0] ++ leBytes 4 0x16 ++ freeBytes (at_ + 1) 8

def execGetCapabilities (r : SpdmReq) (s : State) : Out :=
  .next (s.spdm r fun n x => x.inPhase 1 fun x => x.answer r.msg (capabilitiesResp n) 2 true)

/-- ALGORITHMS: DMTF measurements under SHA-256, TPM_ALG_RSASSA_3072 and TPM_ALG_SHA_256 (R393). -/
def algorithmsResp : List Byte :=
  spdmHead 0x63 0 0 ++ leBytes 2 36 ++ [1, 0] ++ leBytes 4 2 ++ leBytes 4 4 ++ leBytes 4 1 ++ List.replicate 16 0

def execNegotiateAlgorithms (r : SpdmReq) (s : State) : Out :=
  .next (s.spdm r fun _ x => x.inPhase 2 fun x => x.answer r.msg algorithmsResp 3 true)

/-- The SHA-256 of the certificate chain of slot 0. -/
def chainDigest : List Byte := digestBytes (Sha.sha256 Config.identityChain)

def execGetDigests (r : SpdmReq) (s : State) : Out :=
  .next (s.spdm r fun _ x => x.inPhase 3 fun x => x.answer r.msg (spdmHead 0x01 1 1 ++ chainDigest) 3 false)

/-- A portion of the identity chain in certificate slot 0 (R393), from the offset and of the length that the request names. -/
def certificateResp (msg : List Byte) : List Byte :=
  let part := ((Config.identityChain).drop (ofLe ((msg.drop 4).take 2))).take (ofLe ((msg.drop 6).take 2))
  let rest := (Config.identityChain).length - ofLe ((msg.drop 4).take 2) - part.length
  spdmHead 0x02 0 0 ++ leBytes 2 part.length ++ leBytes 2 rest ++ part

def execGetCertificate (r : SpdmReq) (s : State) : Out :=
  .next (s.spdm r fun _ x => x.inPhase 3 fun x => x.answer r.msg (certificateResp r.msg) 3 false)

/-- The private identity key. -/
def TrustSt.signKey (t : TrustSt) : BitVec 3072 := (t.identity.map (·.1)).getD 0

/-- CHALLENGE_AUTH, signed: the chain's digest, a nonce, and the requester's context. -/
def challengeResp (at_ : Nat) (msg : List Byte) : List Byte :=
  spdmHead 0x03 0 1 ++ chainDigest ++ freeBytes at_ 32 ++ leBytes 2 0 ++ (msg.drop 36).take 8

def execChallenge (r : SpdmReq) (s : State) : Out :=
  .next (s.spdm r fun n x => x.inPhase 3 fun x => (x.answer r.msg (challengeResp n r.msg) 3 false).sign s.trust.signKey)

/-- A measurement register as it is reported: for a gated partition, its gated-state measurement (R395). -/
def State.measured (s : State) (i : Nat) : BitVec 256 :=
  match (s.power.parts.find? fun p => 12 ≤ i && p.part == i - 12 && p.gated.isSome).bind (·.gated) with
  | some g => g
  | none => s.trust.meas.getD i 0

/-- The values of a measurement index: i + 1 for M_i, 0x40 + v for F_v, 0xFF for all. -/
def State.measurements (s : State) (index : Nat) : List (BitVec 256) :=
  if 1 ≤ index ∧ index ≤ 24 then [s.measured (index - 1)]
  else if 0x40 ≤ index ∧ index < 0x80 then [s.trust.fblocks.getD (index - 0x40) 0]
  else if index == 0xFF then (List.range 24).map s.measured ++ s.trust.fblocks
  else []

/-- A measurement block: its index, and the 32 bytes of a SHA-256 value. -/
def measBlock (index : Nat) (v : BitVec 256) : List Byte :=
  [BitVec.ofNat 8 index, 1] ++ leBytes 2 35 ++ [0] ++ leBytes 2 32 ++ digestBytes v

/-- The indices of the values that a measurement index reports. -/
def measIndices (index : Nat) : List Nat :=
  if index == 0xFF then (List.range 24).map (· + 1) ++ (List.range 64).map (· + 0x40) else [index]

/-- MEASUREMENTS: the blocks of the values, a nonce, and the requester's context. -/
def State.measurementsResp (s : State) (index : Nat) (signed : Bool) (msg : List Byte) : List Byte :=
  let rec_ := (measIndices index |>.zip (s.measurements index)).foldr (fun x bs => measBlock x.1 x.2 ++ bs) []
  spdmHead 0x60 0 0 ++ [BitVec.ofNat 8 (s.measurements index).length] ++ leBytes 3 rec_.length ++ rec_ ++
    freeBytes s.fresh 32 ++ leBytes 2 0 ++ (msg.drop (if signed then 37 else 4)).take 8

def execGetMeasurements (r : SpdmReq) (index : Nat) (signed : Bool) (s : State) : Out :=
  .next (s.spdm r fun _ x => x.inPhase 3 fun x =>
    let x := x.answer r.msg (s.measurementsResp index signed r.msg) 3 false
    if signed then x.sign s.trust.signKey else x)

/-- UnsupportedRequest (0x07). -/
def execSpdmUnsupported (r : SpdmReq) (_code : Nat) (s : State) : Out := .next (s.updSpdm r.box fun x => x.error 0x07)

end Sys2Proof.Machine
end

