-- ==== Sys2Proof/Machine/Outside.lean ====
section
/-! DEFINITION. The host's and the application cores' accesses (R397, R400), partitions (R399), power and energy (R402 to
R404). -/

namespace Sys2Proof.Machine

/-! ### Accesses from outside (R380, R397, R400) -/

/-- The world of a physical page, as some stage 2 maps it, of a context or of a virtual machine; world 0 for a page that none
maps. DEDUCED, log 41. -/
def State.pageWorld (s : State) (pa : Nat) : Nat :=
  ((s.map2.find? fun m => decide (m.pa ≤ pa) && decide (pa < m.pa + m.size)).map (·.world)).getD
    (((s.vmap.find? fun m => decide (m.pa ≤ pa) && decide (pa < m.pa + m.size)).map (·.world)).getD 0)

/-- Whether an agent of a world may reach some bytes: they are device memory (R16, R396), and every page is of that world,
whose keys stand, and in use. -/
def State.mayReach (s : State) (world : Nat) (pas : List Nat) : Bool :=
  s.keyLoaded world && pas.all fun a => decide (a < hbmBytes) && s.pageWorld a == world && !s.fw.retired.contains (a / 65536)

/-- The agents outside: 0 the host, 1 + k application core k. -/
def hostAgent : Nat := 0
def appAgent (core : Nat) : Nat := core + 1

/-- An access of an agent outside, by its number. -/
def MemKind.ofAgent (agent : Nat) : MemKind → Bool
  | .outside a .. | .outAtom a .. => a == agent
  | _ => false

/-- Writes of an agent that have not been performed, the oldest first. -/
def State.ownWrites (s : State) (agent : Nat) : List MemOp := s.ops.filter fun o => o.kind.ofAgent agent && !o.done

/-- An agent stands at a FENCE: its earlier writes are still to be performed (R24, R397, R400). -/
def State.atFence (s : State) (agent : Nat) : Bool := s.fw.fences.contains agent

/-- An access by an agent of a world that stands at no FENCE. A write or RMW reaches its home slices under R85; a read changes
nothing; a FENCE with writes before it that are not performed holds back what the agent does next, until `more` has come. -/
def State.outsideNow (s : State) (agent world : Nat) (a : ExtAccess) (more : Instr) : State :=
  match a with
  | .read .. | .resume => s
  | .fence =>
    if (s.ownWrites agent).isEmpty then s
    else { s with fw := { s.fw with fences := agent :: s.fw.fences }, agenda := s.agenda ++ [more] }
  | .write pa data =>
    let pas := span pa data.length
    if !s.mayReach world pas || data.isEmpty then s else s.postHome s.nextId 128 pas (.outside agent world data)
  | .atom op wide pa x y =>
    let n := if wide then 8 else 4
    if agent == hostAgent || pa % n != 0 || !s.mayReach world (span pa n) then s
    else s.postHome s.nextId 128 (span pa n) (.outAtom agent world op wide x y)

/-- The accesses behind a FENCE are made, in their order, up to the next FENCE that holds them. -/
def State.outsideMore (s : State) (agent : Nat) (more : Instr) : List (Nat × Nat × ExtAccess) → State
  | [] => { s with fw := { s.fw with behind := s.fw.behind.filter (·.1 != agent) } }
  | x :: xs =>
    let s := s.outsideNow agent x.2.1 x.2.2 more
    if s.atFence agent then { s with fw := { s.fw with behind := s.fw.behind.filter (·.1 != agent) ++ xs } }
    else s.outsideMore agent more xs

/-- An access by an agent of a world, at once or behind the FENCE at which the agent stands; `more` is the event by which the agent
looks again whether its earlier writes are performed (R24, R400). -/
def State.outside (s : State) (agent world : Nat) (a : ExtAccess) (more : Instr) : State :=
  if a == .resume then
    if !s.atFence agent then s
    else if !(s.ownWrites agent).isEmpty then { s with agenda := s.agenda ++ [more] }
    else
      State.outsideMore { s with fw := { s.fw with fences := s.fw.fences.filter (· != agent) } } agent more
        (s.fw.behind.filter (·.1 == agent))
  else if s.atFence agent then { s with fw := { s.fw with behind := s.fw.behind ++ [(agent, world, a)] } }
  else s.outsideNow agent world a more

/-- A byte as an agent reads it: as its own writes that are on their way leave it. -/
def State.outsideByte (s : State) (agent a : Nat) : Byte := (s.mem.after (s.ownWrites agent)).read a

/-- What an outside read returns: nothing for a page of another world, nor while the agent stands at a FENCE. -/
def State.outsideRead (s : State) (agent world pa n : Nat) : Option (List Byte) :=
  let pas := span pa n
  if s.mayReach world pas && !s.atFence agent then some (pas.map (s.outsideByte agent)) else none

/-- The host can reach the device: stage one has brought its link up, or the main image runs (R388). DESIGN CHOICE, log 37. -/
def State.hostOpen (s : State) : Bool := s.trust.hostUp || decide (2 ≤ s.trust.stage)

/-- HOST_MEM_ACCESS carries world 0 (R397). -/
def execHostMemAccess (a : ExtAccess) (s : State) : Out :=
  .next (if s.hostOpen then s.outside hostAgent 0 a (.hostMemAccess .resume) else s)

/-- APPLICATION_CORE_ACCESS, by one of the 32 application cores (R15), which the main image has started (R388); it carries the world
of its virtual machine. -/
def execApplicationCoreAccess (who : AppCore) (a : ExtAccess) (s : State) : Out :=
  .next (if who.core < 32 && decide (2 ≤ s.trust.stage) then
      s.outside (appAgent who.core) who.world a (.applicationCoreAccess who .resume)
    else s)

/-! ### Partitions (R395, R399) -/

/-- PARTITION_GATE of a partition with no live context: the gated-state measurement is taken. -/
def execPartitionGate (p : Nat) (s : State) : Out :=
  match s.power.parts.find? (·.part == p) with
  | none => .next s
  | some x =>
    if x.gated.isSome || s.ctxs.any (fun c => c.live && c.desc.part &&& x.dies != 0) then .next s
    else
      let g := Sha.sha256 ([0x47] ++ digestBytes (s.trust.meas.getD (12 + p) 0) ++ leBytes 8 s.dt)
      let gate (y : Part) : Part := if y.part == p then { y with gated := some g } else y
      .next { s with power := { s.power with parts := s.power.parts.map gate } }

/-! ### Power (R402, R403) -/

def execPlimit (v : BitVec 16) (s : State) : Out := .next (s.setPlimit v)

/-- The clock after one comparison, in MHz. -/
def nextFreq (freq pnow plimit : Nat) : Nat :=
  if plimit < pnow then max 1200 (freq - 100)
  else if 100 * pnow < 95 * plimit && decide (freq < 2400) then freq + 100
  else freq

/-- POWER_CONTROL_TICK, once in each 100 µs of DT. -/
def execPowerControlTick (pnow : Nat) (s : State) : Out :=
  if s.dt / 100000 == s.power.tick then .next s
  else
    let p := min pnow 65535
    .next { s with power := { s.power with tick := s.dt / 100000, pnow := BitVec.ofNat 16 p
                                           freq := BitVec.ofNat 16 (nextFreq s.power.freq.toNat p s.power.plimit.toNat) } }

/-! ### Energy (R404) -/

/-- Energy in proportion to weights, rounded down; none when nothing has worked. -/
def splitEnergy (e : Nat) (ws : List (Nat × Nat)) : List (Nat × Nat) :=
  let sum := ws.foldl (fun n w => n + w.2) 0
  if sum == 0 then [] else ws.map fun w => (w.1, e * w.2 / sum)

/-- A unit's work in the interval: its issue cycles, and the cycles for which its engine operations were busy. -/
def energyWork (x : EnergyUse) (u : UnitSt) : Nat × Nat :=
  (u.uid, u.issued + ((x.busy.find? (·.1 == u.uid)).map (·.2)).getD 0)

/-- Units that are resident on a core. -/
def State.working (s : State) : List UnitSt := s.units.filter fun u => u.st == .resident && u.role != .prologue

/-- Shares of the measured energies of cores, by unit. -/
def State.coreShares (s : State) (x : EnergyUse) : List (Nat × Nat) :=
  x.cores.foldr (fun c ys => splitEnergy c.2 ((s.working.filter (·.core == c.1)).map (energyWork x)) ++ ys) []

/-- Shares of the energies of HBM and fabric, by context, as their moved bytes are. -/
def State.ctxShares (s : State) (x : EnergyUse) : List (Nat × Nat) :=
  splitEnergy x.hbm (s.ctxs.map fun c => (c.ctx, c.hbmB)) ++ splitEnergy x.fabric (s.ctxs.map fun c => (c.ctx, c.fabB))

/-- One share of a unit: its own, its launch's and its job's counters rise. -/
def State.unitEnergy (s : State) (x : Nat × Nat) : State :=
  match s.unit? x.1 with
  | none => s
  | some u =>
    let l := s.launchOf u
    let s := s.updUnit u.uid fun u => { u with energy := u.energy + x.2 }
    let s := (s.updLaunch l.lid fun l => { l with energy := l.energy + x.2 }).writeBlock l.lid
    let j := s.job u.ctx l.job
    s.setJob u.ctx { j with energy := j.energy + x.2 }

/-- One share of a context. -/
def State.ctxEnergy (s : State) (x : Nat × Nat) : State := (s.updCtx x.1 fun c => { c with energy := c.energy + x.2 }).syncCtx x.1

/-- A context's share of HBM or fabric energy goes to its resident units as their work in the interval. DESIGN CHOICE, log 73. -/
def State.movedEnergy (s : State) (use : EnergyUse) (x : Nat × Nat) : State :=
  (splitEnergy x.2 ((s.working.filter (·.ctx == x.1)).map (energyWork use))).foldl State.unitEnergy (s.ctxEnergy x)

/-- A unit's share of its core's energy. -/
def State.addEnergy (s : State) (x : Nat × Nat) : State :=
  match s.unit? x.1 with
  | none => s
  | some u => (s.unitEnergy x).ctxEnergy (u.ctx, x.2)

/-- The measured energy that is divided. -/
def energyTotal (x : EnergyUse) : Nat := x.cores.foldl (fun n c => n + c.2) 0 + x.hbm + x.fabric

/-- A new interval begins. -/
def State.newInterval (s : State) : State :=
  { s with units := s.units.map fun u => { u with issued := 0 }
           ctxs := s.ctxs.map fun c => { c with hbmB := 0, fabB := 0 } }

/-- ENERGY_ATTRIBUTION, once in each 100 µs: the device's counter stands at `edev`, and what is divided never exceeds its rise.
DEDUCED, log 40. -/
def execEnergyAttribution (edev : Nat) (use : EnergyUse) (s : State) : Out :=
  if s.dt / 100000 == s.power.share || edev < s.power.edev.toNat + energyTotal use then .next s
  else
    let s' : State := { s with power := { s.power with share := s.dt / 100000, edev := BitVec.ofNat 64 edev } }
    .next (((s.ctxShares use).foldl (fun s x => s.movedEnergy use x) ((s.coreShares use).foldl State.addEnergy s')).newInterval)

end Sys2Proof.Machine
end

