-- ==== Sys2Proof/Machine/Rep.lean ====
section
/-! DEFINITION. REP (R48 to R50): the registers that a repeatable instruction names, the checks of every repetition
before the first, and the beginning of the repetition. -/

namespace Sys2Proof.Machine

/-- The registers that an instruction names, for those that a REP may repeat; those that end a clause are not listed. -/
def usesOf : Instr → List RegUse
  | .mov t d a | .addi t d a _ | .abs t d a _ | .neg t d a _ | .andi t d a _ | .ori t d a _ | .xori t d a _
  | .shli t d a _ | .shri t d a _ | .sari t d a _ | .brev t d a | .bfx t d a _ _ => [tdst t d, tsrc .a t a]
  | .movi t d _ => [tdst t d]
  | .add t d a b _ | .sub t d a b _ | .mul t d a b _ | .mulh t d a b | .div t d a b | .rem t d a b | .min t d a b
  | .max t d a b | .band t d a b | .bor t d a b | .bxor t d a b | .bandn t d a b | .shl t d a b | .shr t d a b
  | .sar t d a b | .rot t d a b | .bfi t d a b _ _ => [tdst t d, tsrc .a t a, tsrc .b t b]
  | .mad t d a b c _ | .lop3 t d a b c _ => [tdst t d, tsrc .a t a, tsrc .b t b, tsrc .c t c]
  | .dp4 _ d a b c _ _ => [dst d, src .a a, src .b b, src .c c]
  | .clz t d a | .popc t d a => [dst d, tsrc .a t a]
  | .cmp t d a b _ => [dst d, tsrc .a t a, tsrc .b t b]
  | .cmpi _ d a _ => [dst d, src .a a]
  | .sel t d a b c => [tdst t d, tsrc .a t a, tsrc .b t b, src .c c]
  | .lea _ d a b _ => [dst d 2, src .a a 2, src .b b]
  | .cvti d a x y | .satn d a x y => [dst d y.regs, src .a a x.regs]
  | .fadd t d a b _ | .fsub t d a b _ | .fmul t d a b _ | .fmin t d a b _ | .fmax t d a b _ | .fdiv t d a b _ =>
    [tdst t d, tsrc .a t a, tsrc .b t b]
  | .ffma t d a b c _ => [tdst t d, tsrc .a t a, tsrc .b t b, tsrc .c t c]
  | .fcmp t d a b _ _ => [dst d, tsrc .a t a, tsrc .b t b]
  | .frcp t d a _ | .frsq t d a _ | .fsqrt t d a _ | .fexp2 t d a _ | .flog2 t d a _ | .fsin t d a _ | .fcos t d a _
  | .ftanh t d a _ | .frnd t d a _ => [tdst t d, tsrc .a t a]
  | .fcvt t dt d a b _ => (if dt.byteFloat then srcDst d else tdst dt d) :: tsrc .a t a ::
      (if dt.packedFloat then [tsrc .b t b] else [])
  | .ftoi t dt d a _ | .itof t dt d a _ => [tdst dt d, tsrc .a t a]
  | .fclass t d a => [dst d, tsrc .a t a]
  | .fscale t d a b _ => [tdst t d, tsrc .a t a, src .b b]
  | .bset _ a => [src .a a 2]
  | .bget d _ => [dst d 2]
  | .badd d a b _ | .bmul d a b _ | .bmax d a b _ => [dst d, src .a a, src .b b]
  | .bfma d a b c _ => [dst d, src .a a, src .b b, src .c c]
  | .bnorm d a _ => [dst d, src .a a]
  | .bqnt d a m => [dst d, src .a a (nbOf m.ty)]
  | .bdeq d a m => [dst d (nbOf m.ty), src .a a]
  | .bcvt d a dt m => [dst d (if nbOf m.ty == 8 && nbOf dt == 4 then 2 else 1), src .a a (if nbOf m.ty == 4 && nbOf dt == 8 then 2 else 1)]
  | .shfl t d a b _ imm _ => tdst t d :: tsrc .a t a :: (if imm then [] else [src .b b])
  | .vote d a _ => [dst d, src .a a]
  | .red t d a _ _ | .scan t d a _ _ _ | .bcast t d a _ _ => [tdst t d, tsrc .a t a]
  | .vmatch t d a _ => [dst d, tsrc .a t a]
  | .elect d a nz => dst d :: (if nz then [src .a a] else [])
  | .drop a => [src .a a]
  | .ld w d m => ldUses d m.base w.regs true
  | .st w d m => stUses d m.base w.regs true
  | .lds w d m | .ldk w d m => ldUses d m.base w.regs false
  | .sts w d m => stUses d m.base w.regs false
  | .ldp w d b _ _ idx => dst d w.regs :: idxUse b idx
  | .stp w d b _ _ idx => src .d d w.regs :: idxUse b idx
  | .pref b _ _ => [base b 2]
  | .atom scr wide op d b _ _ _ => rmwUses d b (atomRegs op wide) (!scr)
  | .lr wide d m => ldUses d m.base (if wide then 2 else 1) true
  | .sc wide d m => rmwUses d m.base (if wide then 2 else 1) true
  | .stb d b _ _ _ _ => stUses d b 1 true
  | .awinit scr d b _ _ _ | .awadd scr d b _ _ _ => stUses d b 1 (!scr)
  | .awget scr d b _ _ _ => ldUses d b 4 (!scr)
  | .sbind d a _ => [dst d, src .a a]
  | .sstart d _ | .sstat d _ => [dst d]
  | .swadd .. | .swmul .. | .swfma .. | .swmax .. | .swmin .. | .swexp .. | .swrcp .. | .swcvt .. | .swqmx .. | .swdmx ..
  | .swred .. | .swcmp .. | .swsel .. | .swcpy .. | .swgat .. | .swtrn .. => []
  | .tgang d a _ | .tzero d a => [dst d, src .a a]
  | .tldb d a b c => [dst d, src .a a, src .b b 2, src .c c]
  | .tldm d a b => [dst d, src .a a, src .b b]
  | .tst d a b _ _ _ _ _ => [dst d, src .a a, src .b b 2]
  | .tstat d _ | .tmir d _ => [dst d]
  | .claim d a | .rlse d a | .cqry d a => [dst d, src .a a]
  | .flow d a b c _ => [dst d, src .a a, src .b b 2, src .c c]
  | .cpin d a b | .cunpin d a b => [dst d, src .a a, src .b b]
  | .puts d a b c _ | .get d a b c _ | .radd d a b c _ | .mcst d a b c _ => [dst d, src .a a, src .b b 2, src .c c]
  | .ratom wide op d a b c =>
    [dst d, src .a a, src .b b, { fld := .c, reg := c, n := atomRegs op wide, src := true, dst := true }]
  | .mcseq d a => [dst d 2, src .a a]
  | .ring d a => [dst d, src .a a]
  | .lset a sel => [src .a a (if lsetInfo sel == some true then 2 else 1)]
  | .evsig d a b _ => [dst d, src .a a, src .b b]
  | .gets d sel => [dst d (selRegs sel)]
  | .sets sel a => [src .a a (selRegs sel)]
  | _ => []

/-- As `usesOf`, with the sweeps' operands. -/
def allUses (i : Instr) : List RegUse := if isSweep i then sweepUses i else usesOf i

/-- Register fields that an instruction uses: sidecar numbers are such fields too (R148). -/
def usedFlds (i : Instr) : List Fld :=
  (allUses i).map (·.fld) ++
  match i with
  | .bset .. => [.d]
  | .bget .. => [.a]
  | _ => []

/-- Register fields that some form of an opcode uses, for a word that is no instruction (R49). -/
def opcodeFlds (op : BitVec 8) : List Fld :=
  let n := op.toNat
  if [0x00, 0x88, 0xAB, 0xB6].contains n then []
  else if [0x02, 0xB5, 0xB7, 0xD6, 0xD7, 0xF0].contains n then [.d]
  else if [0x8B, 0xA7, 0xE8, 0xF1].contains n then [.a]
  else if [0x08, 0x0F, 0x17, 0x2A, 0x43, 0x64, 0xD1, 0xD9].contains n || (0xE0 ≤ n && n < 0xE5) then [.d, .a, .b, .c]
  else if [0x03, 0x05, 0x06, 0x07, 0x09, 0x0A, 0x0B, 0x0C, 0x18, 0x19, 0x1A, 0x1B, 0x24, 0x28, 0x2B, 0x51, 0x55, 0x62, 0x63, 0x65,
      0x70, 0xD2, 0xD5, 0xDC, 0xDD, 0xEC].contains n || (0x10 ≤ n && n < 0x14) || (0x40 ≤ n && n < 0x48) || n / 16 == 0xC then
    [.d, .a, .b]
  else [.d, .a]

/-- The steps of a REP by field. -/
def RepSt.steps (r : RepSt) : List (Fld × Int) := [(.d, r.sd), (.a, r.sa), (.b, r.sb), (.c, r.sc)]

/-- A step that is not zero, of a field outside a list. -/
def RepSt.strays (r : RepSt) (fs : List Fld) : Bool := r.steps.any fun x => x.2 != 0 && !fs.contains x.1

/-- Some stepped field leaves 0 to 511. -/
def RepSt.leaves (r : RepSt) (w : DWord) : Bool :=
  (List.range r.n).any fun k => r.steps.any fun x => x.2 != 0 && (stepField w k x.1 x.2).isNone

/-- The registers named by repetition k. -/
def RepSt.uses (r : RepSt) (w : DWord) (k : Nat) : List RegUse :=
  match decodeWord ({ r with k := k }.word w) with
  | .ok i => allUses i
  | .error _ => []

/-- Whether an instruction is of class 0. -/
def laneWordClass (w : DWord) : Bool := opClass (fld w 56 8) == some 0

/-- R49's checks for one thread: the sub-cause, and whether the failure lies in the REP word itself. -/
def repBad (r : RepSt) (w : DWord) (nregs : Nat) (th : Thread) : Option (Nat × Bool) :=
  let reps := (List.range r.n).map (r.uses w)
  match decodeWord w with
  | .error .unassigned => some (1, false)
  | .error b =>
    if r.strays (opcodeFlds (fld w 56 8)) then some (2, true) else some (badSub b, false)
  | .ok i =>
    if r.strays (usedFlds i) then some (2, true)
    else if reps.any fun us => us.any (th.queueMisuse (laneWordClass w)) then some (3, false)
    else if r.leaves w || reps.any (fun us => us.any (th.regMisuse nregs)) then some (4, false)
    else none

/-- REP: every repetition is checked, then the next word is repeated. -/
def execRep (n1 sd sa sb sc : BitVec 4) (s : State) : Out :=
  match s.view? with
  | none => .next s
  | some v =>
    let r : RepSt := { n := n1.toNat + 1, k := v.p.krep, sd := sd.toInt, sa := sa.toInt, sb := sb.toInt, sc := sc.toInt }
    match s.codeWord v.u.ctx v.p.hdr (v.p.widx + 1) with
    | .miss va => .next (s.missAll v va)
    | .trap t => .next (s.trapAll v t)
    | .word w =>
      let mine := s.wordAt v.u.ctx { hdr := v.p.hdr, widx := v.p.widx }
      let bad (th : Thread) : TRes :=
        match if r.k == 0 then repBad r w v.u.nregs th else none with
        | some (sub, own) => .trap { s.illegal v sub with info := ((if own then mine else w) >>> 32).setWidth 32 }
        | none => .ok th none []
      let setRep (s : State) : State := s.updUnit v.u.uid fun u =>
        match u.bundle? v.b.bid with
        | some b => u.setBundle (b.setPath v.pr.slot ((b.path v.pr.slot).map fun p => { p with rep := some r }))
        | none => u
      thenDo setRep (issue { pro := true } [] (fun _ _ _ _ th _ => bad th) s)

end Sys2Proof.Machine
end

