-- ==== Sys2Proof/Machine/Dispatch.lean ====
section
/-! DEFINITION. The dispatch: one arm per constructor of `Instr`, each one direct call of its meaning. -/

namespace Sys2Proof.Machine

def exec (i : Instr) (s : State) : Host.Outcome State Fault Refusal :=
  match i with
  | .clauseHeader h => Sys2Proof.Machine.execClauseHeader h s
  | .poisonConsume line => Sys2Proof.Machine.execPoisonConsume line s
  | .keyRetire world => Sys2Proof.Machine.execKeyRetire world s
  | .controllerRestart leaf => Sys2Proof.Machine.execControllerRestart leaf s
  | .firmwareMessage leaf up seq => Sys2Proof.Machine.execFirmwareMessage leaf up seq s
  | .applicationCoreAccess who a => Sys2Proof.Machine.execApplicationCoreAccess who a s
  | .hostMemAccess a => Sys2Proof.Machine.execHostMemAccess a s
  | .ctxStart qseq ctx d => Sys2Proof.Machine.execCtxStart qseq ctx d s
  | .ctxUpdate qseq ctx mask new => Sys2Proof.Machine.execCtxUpdate qseq ctx mask new s
  | .ctxStop qseq ctx => Sys2Proof.Machine.execCtxStop qseq ctx s
  | .ctxKill qseq ctx => Sys2Proof.Machine.execCtxKill qseq ctx s
  | .preempt qseq ctx launchId => Sys2Proof.Machine.execPreempt qseq ctx launchId s
  | .qclear qseq structId => Sys2Proof.Machine.execQclear qseq structId s
  | .managementResync qseq => Sys2Proof.Machine.execManagementResync qseq s
  | .managementRejected qseq rtype ctx => Sys2Proof.Machine.execManagementRejected qseq rtype ctx s
  | .cheadWrite ctx q v => Sys2Proof.Machine.execCheadWrite ctx q v s
  | .doorbellWrite ctx q v => Sys2Proof.Machine.execDoorbellWrite ctx q v s
  | .cancel ctx q => Sys2Proof.Machine.execCancel ctx q s
  | .eventWait ctx q => Sys2Proof.Machine.execEventWait ctx q s
  | .eventSignal ctx q => Sys2Proof.Machine.execEventSignal ctx q s
  | .graph ctx q => Sys2Proof.Machine.execGraph ctx q s
  | .guardedLaunch ctx q => Sys2Proof.Machine.execGuardedLaunch ctx q s
  | .launch ctx q => Sys2Proof.Machine.execLaunch ctx q s
  | .prologueTimeout ctx blk => Sys2Proof.Machine.execPrologueTimeout ctx blk s
  | .commandStart ctx cmd => Sys2Proof.Machine.execCommandStart ctx cmd s
  | .commandRejected ctx q => Sys2Proof.Machine.execCommandRejected ctx q s
  | .resync ctx q => Sys2Proof.Machine.execResync ctx q s
  | .powerControlTick pnow => Sys2Proof.Machine.execPowerControlTick pnow s
  | .tilthSlice ctx => Sys2Proof.Machine.execTilthSlice ctx s
  | .l1ModeChange cluster => Sys2Proof.Machine.execL1ModeChange cluster s
  | .mov t d a => Sys2Proof.Machine.execMov t d a s
  | .movi t d imm => Sys2Proof.Machine.execMovi t d imm s
  | .add t d a b sat => Sys2Proof.Machine.execAdd t d a b sat s
  | .addi t d a imm => Sys2Proof.Machine.execAddi t d a imm s
  | .sub t d a b sat => Sys2Proof.Machine.execSub t d a b sat s
  | .mul t d a b sat => Sys2Proof.Machine.execMul t d a b sat s
  | .mulh t d a b => Sys2Proof.Machine.execMulh t d a b s
  | .mad t d a b c sat => Sys2Proof.Machine.execMad t d a b c sat s
  | .div t d a b => Sys2Proof.Machine.execDiv t d a b s
  | .rem t d a b => Sys2Proof.Machine.execRem t d a b s
  | .min t d a b => Sys2Proof.Machine.execMin t d a b s
  | .max t d a b => Sys2Proof.Machine.execMax t d a b s
  | .abs t d a sat => Sys2Proof.Machine.execAbs t d a sat s
  | .neg t d a sat => Sys2Proof.Machine.execNeg t d a sat s
  | .dp4 t d a b c mix sat => Sys2Proof.Machine.execDp4 t d a b c mix sat s
  | .band t d a b => Sys2Proof.Machine.execBand t d a b s
  | .bor t d a b => Sys2Proof.Machine.execBor t d a b s
  | .bxor t d a b => Sys2Proof.Machine.execBxor t d a b s
  | .bandn t d a b => Sys2Proof.Machine.execBandn t d a b s
  | .andi t d a imm => Sys2Proof.Machine.execAndi t d a imm s
  | .ori t d a imm => Sys2Proof.Machine.execOri t d a imm s
  | .xori t d a imm => Sys2Proof.Machine.execXori t d a imm s
  | .lop3 t d a b c table => Sys2Proof.Machine.execLop3 t d a b c table s
  | .shl t d a b => Sys2Proof.Machine.execShl t d a b s
  | .shr t d a b => Sys2Proof.Machine.execShr t d a b s
  | .sar t d a b => Sys2Proof.Machine.execSar t d a b s
  | .rot t d a b => Sys2Proof.Machine.execRot t d a b s
  | .shli t d a n => Sys2Proof.Machine.execShli t d a n s
  | .shri t d a n => Sys2Proof.Machine.execShri t d a n s
  | .sari t d a n => Sys2Proof.Machine.execSari t d a n s
  | .clz t d a => Sys2Proof.Machine.execClz t d a s
  | .popc t d a => Sys2Proof.Machine.execPopc t d a s
  | .brev t d a => Sys2Proof.Machine.execBrev t d a s
  | .bfx t d a pos len1 => Sys2Proof.Machine.execBfx t d a pos len1 s
  | .bfi t d a b pos len1 => Sys2Proof.Machine.execBfi t d a b pos len1 s
  | .cmp t d a b c => Sys2Proof.Machine.execCmp t d a b c s
  | .cmpi c d a imm => Sys2Proof.Machine.execCmpi c d a imm s
  | .sel t d a b c => Sys2Proof.Machine.execSel t d a b c s
  | .lea t d a b sh => Sys2Proof.Machine.execLea t d a b sh s
  | .cvti d a src dst => Sys2Proof.Machine.execCvti d a src dst s
  | .satn d a src dst => Sys2Proof.Machine.execSatn d a src dst s
  | .fadd t d a b m => Sys2Proof.Machine.execFadd t d a b m s
  | .fsub t d a b m => Sys2Proof.Machine.execFsub t d a b m s
  | .fmul t d a b m => Sys2Proof.Machine.execFmul t d a b m s
  | .ffma t d a b c m => Sys2Proof.Machine.execFfma t d a b c m s
  | .fmin t d a b m => Sys2Proof.Machine.execFmin t d a b m s
  | .fmax t d a b m => Sys2Proof.Machine.execFmax t d a b m s
  | .fcmp t d a b c m => Sys2Proof.Machine.execFcmp t d a b c m s
  | .fdiv t d a b m => Sys2Proof.Machine.execFdiv t d a b m s
  | .frcp t d a m => Sys2Proof.Machine.execFrcp t d a m s
  | .frsq t d a m => Sys2Proof.Machine.execFrsq t d a m s
  | .fsqrt t d a m => Sys2Proof.Machine.execFsqrt t d a m s
  | .fexp2 t d a m => Sys2Proof.Machine.execFexp2 t d a m s
  | .flog2 t d a m => Sys2Proof.Machine.execFlog2 t d a m s
  | .fsin t d a m => Sys2Proof.Machine.execFsin t d a m s
  | .fcos t d a m => Sys2Proof.Machine.execFcos t d a m s
  | .ftanh t d a m => Sys2Proof.Machine.execFtanh t d a m s
  | .frnd t d a m => Sys2Proof.Machine.execFrnd t d a m s
  | .fcvt t dst d a b m => Sys2Proof.Machine.execFcvt t dst d a b m s
  | .ftoi t dst d a m => Sys2Proof.Machine.execFtoi t dst d a m s
  | .itof t dst d a m => Sys2Proof.Machine.execItof t dst d a m s
  | .fclass t d a => Sys2Proof.Machine.execFclass t d a s
  | .fscale t d a b m => Sys2Proof.Machine.execFscale t d a b m s
  | .bset d a => Sys2Proof.Machine.execBset d a s
  | .bget d a => Sys2Proof.Machine.execBget d a s
  | .badd d a b m => Sys2Proof.Machine.execBadd d a b m s
  | .bmul d a b m => Sys2Proof.Machine.execBmul d a b m s
  | .bfma d a b c m => Sys2Proof.Machine.execBfma d a b c m s
  | .bmax d a b m => Sys2Proof.Machine.execBmax d a b m s
  | .bnorm d a m => Sys2Proof.Machine.execBnorm d a m s
  | .bqnt d a m => Sys2Proof.Machine.execBqnt d a m s
  | .bdeq d a m => Sys2Proof.Machine.execBdeq d a m s
  | .bcvt d a dty m => Sys2Proof.Machine.execBcvt d a dty m s
  | .shfl t d a b mode imm off => Sys2Proof.Machine.execShfl t d a b mode imm off s
  | .vote d a mode => Sys2Proof.Machine.execVote d a mode s
  | .red t d a op rnd => Sys2Proof.Machine.execRed t d a op rnd s
  | .scan t d a op rnd excl => Sys2Proof.Machine.execScan t d a op rnd excl s
  | .vmatch t d a all => Sys2Proof.Machine.execVmatch t d a all s
  | .elect d a nz => Sys2Proof.Machine.execElect d a nz s
  | .bcast t d a fixed slot => Sys2Proof.Machine.execBcast t d a fixed slot s
  | .br c a off => Sys2Proof.Machine.execBr c a off s
  | .bra off => Sys2Proof.Machine.execBra off s
  | .jmpr a => Sys2Proof.Machine.execJmpr a s
  | .call off => Sys2Proof.Machine.execCall off s
  | .callr a => Sys2Proof.Machine.execCallr a s
  | .join d t => Sys2Proof.Machine.execJoin d t s
  | .joinTimeout unit tid => Sys2Proof.Machine.execJoinTimeout unit tid s
  | .mark off => Sys2Proof.Machine.execMark off s
  | .cut d a n => Sys2Proof.Machine.execCut d a n s
  | .graft a b => Sys2Proof.Machine.execGraft a b s
  | .drop a => Sys2Proof.Machine.execDrop a s
  | .trap code => Sys2Proof.Machine.execTrap code s
  | .brk code => Sys2Proof.Machine.execBrk code s
  | .sleep n => Sys2Proof.Machine.execSleep n s
  | .sleepWake unit tid => Sys2Proof.Machine.execSleepWake unit tid s
  | .rep n1 sd sa sb sc => Sys2Proof.Machine.execRep n1 sd sa sb sc s
  | .ld w d m => Sys2Proof.Machine.execLd w d m s
  | .st w d m => Sys2Proof.Machine.execSt w d m s
  | .lds w d m => Sys2Proof.Machine.execLds w d m s
  | .sts w d m => Sys2Proof.Machine.execSts w d m s
  | .ldp w d base off an idx => Sys2Proof.Machine.execLdp w d base off an idx s
  | .stp w d base off an idx => Sys2Proof.Machine.execStp w d base off an idx s
  | .ldk w d m => Sys2Proof.Machine.execLdk w d m s
  | .pref base off hint => Sys2Proof.Machine.execPref base off hint s
  | .atom scr wide op d base off ord scope => Sys2Proof.Machine.execAtom scr wide op d base off ord scope s
  | .lr wide d m => Sys2Proof.Machine.execLr wide d m s
  | .sc wide d m => Sys2Proof.Machine.execSc wide d m s
  | .fence ord scope => Sys2Proof.Machine.execFence ord scope s
  | .fenceO2e scope => Sys2Proof.Machine.execFenceO2e scope s
  | .fenceE2o scope => Sys2Proof.Machine.execFenceE2o scope s
  | .wait l s0 c t f => Sys2Proof.Machine.execWait l s0 c t f s
  | .stb d base off ord scope k => Sys2Proof.Machine.execStb d base off ord scope k s
  | .bar id arrive count => Sys2Proof.Machine.execBar id arrive count s
  | .awinit scr d base off ord scope => Sys2Proof.Machine.execAwinit scr d base off ord scope s
  | .await scr d base off scope => Sys2Proof.Machine.execAwait scr d base off scope s
  | .awadd scr d base off ord scope => Sys2Proof.Machine.execAwadd scr d base off ord scope s
  | .awget scr d base off ord scope => Sys2Proof.Machine.execAwget scr d base off ord scope s
  | .sbind d a k => Sys2Proof.Machine.execSbind d a k s
  | .sstart d k => Sys2Proof.Machine.execSstart d k s
  | .sstop k => Sys2Proof.Machine.execSstop k s
  | .sstat d k => Sys2Proof.Machine.execSstat d k s
  | .streamElementRead unit tid k => Sys2Proof.Machine.execStreamElementRead unit tid k s
  | .streamElementWrite unit tid k => Sys2Proof.Machine.execStreamElementWrite unit tid k s
  | .swadd f m => Sys2Proof.Machine.execSwadd f m s
  | .swmul f m => Sys2Proof.Machine.execSwmul f m s
  | .swfma f m => Sys2Proof.Machine.execSwfma f m s
  | .swmax f scal => Sys2Proof.Machine.execSwmax f scal s
  | .swmin f scal => Sys2Proof.Machine.execSwmin f scal s
  | .swexp f m => Sys2Proof.Machine.execSwexp f m s
  | .swrcp f m => Sys2Proof.Machine.execSwrcp f m s
  | .swcvt f dst rnd => Sys2Proof.Machine.execSwcvt f dst rnd s
  | .swqmx f mx rnd => Sys2Proof.Machine.execSwqmx f mx rnd s
  | .swdmx f mx rnd => Sys2Proof.Machine.execSwdmx f mx rnd s
  | .swred f op acc rnd => Sys2Proof.Machine.execSwred f op acc rnd s
  | .swcmp f c scal => Sys2Proof.Machine.execSwcmp f c scal s
  | .swsel f scal => Sys2Proof.Machine.execSwsel f scal s
  | .swcpy f scal => Sys2Proof.Machine.execSwcpy f scal s
  | .swgat f n => Sys2Proof.Machine.execSwgat f n s
  | .swtrn f => Sys2Proof.Machine.execSwtrn f s
  | .sweepStart core => Sys2Proof.Machine.execSweepStart core s
  | .sweepComplete core => Sys2Proof.Machine.execSweepComplete core s
  | .scratchPageFill unit page => Sys2Proof.Machine.execScratchPageFill unit page s
  | .tgang d a n => Sys2Proof.Machine.execTgang d a n s
  | .tldb d a b c => Sys2Proof.Machine.execTldb d a b c s
  | .tldm d a b => Sys2Proof.Machine.execTldm d a b s
  | .tmma d a b c => Sys2Proof.Machine.execTmma d a b c s
  | .tzero d a => Sys2Proof.Machine.execTzero d a s
  | .tst d a b clr sat rnd ty bound => Sys2Proof.Machine.execTst d a b clr sat rnd ty bound s
  | .tstat d sel => Sys2Proof.Machine.execTstat d sel s
  | .tmir d on => Sys2Proof.Machine.execTmir d on s
  | .tileOpStart core faults => Sys2Proof.Machine.execTileOpStart core faults s
  | .tileOpComplete core => Sys2Proof.Machine.execTileOpComplete core s
  | .claim d a => Sys2Proof.Machine.execClaim d a s
  | .claimComplete ctx h refused landing => Sys2Proof.Machine.execClaimComplete ctx h refused landing s
  | .flow d a b c noarv => Sys2Proof.Machine.execFlow d a b c noarv s
  | .flowBegin op => Sys2Proof.Machine.execFlowBegin op s
  | .flowEnd op => Sys2Proof.Machine.execFlowEnd op s
  | .rlse d a => Sys2Proof.Machine.execRlse d a s
  | .cqry d a => Sys2Proof.Machine.execCqry d a s
  | .cpin d a b => Sys2Proof.Machine.execCpin d a b s
  | .cunpin d a b => Sys2Proof.Machine.execCunpin d a b s
  | .pageUnmap chg => Sys2Proof.Machine.execPageUnmap chg s
  | .puts d a b c noarv => Sys2Proof.Machine.execPuts d a b c noarv s
  | .get d a b c noarv => Sys2Proof.Machine.execGet d a b c noarv s
  | .radd d a b c noarv => Sys2Proof.Machine.execRadd d a b c noarv s
  | .ratom wide op d a b c => Sys2Proof.Machine.execRatom wide op d a b c s
  | .mcst d a b c noarv => Sys2Proof.Machine.execMcst d a b c noarv s
  | .mcseq d a => Sys2Proof.Machine.execMcseq d a s
  | .ring d a => Sys2Proof.Machine.execRing d a s
  | .engineOpComplete op => Sys2Proof.Machine.execEngineOpComplete op s
  | .fabricAccepted op => Sys2Proof.Machine.execFabricAccepted op s
  | .fabricLanded op => Sys2Proof.Machine.execFabricLanded op s
  | .putPacketRx p => Sys2Proof.Machine.execPutPacketRx p s
  | .getRequestRx p => Sys2Proof.Machine.execGetRequestRx p s
  | .getDataRx p => Sys2Proof.Machine.execGetDataRx p s
  | .ratomRequestRx p => Sys2Proof.Machine.execRatomRequestRx p s
  | .ratomResponseRx p => Sys2Proof.Machine.execRatomResponseRx p s
  | .ratomRetry op => Sys2Proof.Machine.execRatomRetry op s
  | .ratomUnknown op => Sys2Proof.Machine.execRatomUnknown op s
  | .ratomSlotRelease op => Sys2Proof.Machine.execRatomSlotRelease op s
  | .ringChunkRx p => Sys2Proof.Machine.execRingChunkRx p s
  | .mcstStamp p => Sys2Proof.Machine.execMcstStamp p s
  | .mcstPacketRx port p => Sys2Proof.Machine.execMcstPacketRx port p s
  | .mcstNack name => Sys2Proof.Machine.execMcstNack name s
  | .nackRx p => Sys2Proof.Machine.execNackRx p s
  | .mcstAckRx p => Sys2Proof.Machine.execMcstAckRx p s
  | .memberLost name member => Sys2Proof.Machine.execMemberLost name member s
  | .handlerTimeout leaf => Sys2Proof.Machine.execHandlerTimeout leaf s
  | .linkRetrain port ok peerLast => Sys2Proof.Machine.execLinkRetrain port ok peerLast s
  | .linkLoss port => Sys2Proof.Machine.execLinkLoss port s
  | .lset a sel => Sys2Proof.Machine.execLset a sel s
  | .evsig d a b scope => Sys2Proof.Machine.execEvsig d a b scope s
  | .evwait d a b c scope => Sys2Proof.Machine.execEvwait d a b c scope s
  | .evwaitTimeout unit tid => Sys2Proof.Machine.execEvwaitTimeout unit tid s
  | .gcheck a => Sys2Proof.Machine.execGcheck a s
  | .gets d sel => Sys2Proof.Machine.execGets d sel s
  | .sets sel a => Sys2Proof.Machine.execSets sel a s
  | .issueCycle picks => Sys2Proof.Machine.execIssueCycle picks s
  | .elderRule unit bundle => Sys2Proof.Machine.execElderRule unit bundle s
  | .spill unit bundle => Sys2Proof.Machine.execSpill unit bundle s
  | .bundleBuild unit => Sys2Proof.Machine.execBundleBuild unit s
  | .loadReturn op => Sys2Proof.Machine.execLoadReturn op s
  | .gwctReturn op => Sys2Proof.Machine.execGwctReturn op s
  | .leaseExpiry core line => Sys2Proof.Machine.execLeaseExpiry core line s
  | .reservationTimeout unit tid => Sys2Proof.Machine.execReservationTimeout unit tid s
  | .translationResolved unit tid r => Sys2Proof.Machine.execTranslationResolved unit tid r s
  | .placeUnit launch core privBase => Sys2Proof.Machine.execPlaceUnit launch core privBase s
  | .preemptRequest unit => Sys2Proof.Machine.execPreemptRequest unit s
  | .unitSave unit => Sys2Proof.Machine.execUnitSave unit s
  | .restoreUnit unit core => Sys2Proof.Machine.execRestoreUnit unit core s
  | .unitRetire unit => Sys2Proof.Machine.execUnitRetire unit s
  | .handlerDispatch leaf => Sys2Proof.Machine.execHandlerDispatch leaf s
  | .linkPacketRx port seq crcOk tagOk p => Sys2Proof.Machine.execLinkPacketRx port seq crcOk tagOk p s
  | .handlerReturn leaf => Sys2Proof.Machine.execHandlerReturn leaf s
  | .wcmdNone leaf => Sys2Proof.Machine.execWcmdNone leaf s
  | .resume leaf => Sys2Proof.Machine.execResume leaf s
  | .skip leaf => Sys2Proof.Machine.execSkip leaf s
  | .endthread leaf => Sys2Proof.Machine.execEndthread leaf s
  | .endunit leaf => Sys2Proof.Machine.execEndunit leaf s
  | .wcmdReserved leaf code => Sys2Proof.Machine.execWcmdReserved leaf code s
  | .wctl leaf v => Sys2Proof.Machine.execWctl leaf v s
  | .registerWrite t v => Sys2Proof.Machine.execRegisterWrite t v s
  | .tilthPolicyLoad ctx image => Sys2Proof.Machine.execTilthPolicyLoad ctx image s
  | .queueReenable ctx q => Sys2Proof.Machine.execQueueReenable ctx q s
  | .uncorrectableError line refetchOk => Sys2Proof.Machine.execUncorrectableError line refetchOk s
  | .errorEvent e => Sys2Proof.Machine.execErrorEvent e s
  | .keyLoad world blobOk net memKey => Sys2Proof.Machine.execKeyLoad world blobOk net memKey s
  | .keyDestroy world => Sys2Proof.Machine.execKeyDestroy world s
  | .svnRaise floor sigOk => Sys2Proof.Machine.execSvnRaise floor sigOk s
  | .extend reg digest => Sys2Proof.Machine.execExtend reg digest s
  | .trustRequestInvalid rtype world => Sys2Proof.Machine.execTrustRequestInvalid rtype world s
  | .deviceReset => Sys2Proof.Machine.execDeviceReset s
  | .bootStageLoad img => Sys2Proof.Machine.execBootStageLoad img s
  | .watchdogReset => Sys2Proof.Machine.execWatchdogReset s
  | .bootComplete => Sys2Proof.Machine.execBootComplete s
  | .getVersion mb => Sys2Proof.Machine.execGetVersion mb s
  | .getCapabilities mb => Sys2Proof.Machine.execGetCapabilities mb s
  | .negotiateAlgorithms mb => Sys2Proof.Machine.execNegotiateAlgorithms mb s
  | .getDigests mb => Sys2Proof.Machine.execGetDigests mb s
  | .getCertificate mb => Sys2Proof.Machine.execGetCertificate mb s
  | .challenge mb => Sys2Proof.Machine.execChallenge mb s
  | .getMeasurements mb index signed => Sys2Proof.Machine.execGetMeasurements mb index signed s
  | .spdmUnsupported mb code => Sys2Proof.Machine.execSpdmUnsupported mb code s
  | .partitionGate p => Sys2Proof.Machine.execPartitionGate p s
  | .plimit v => Sys2Proof.Machine.execPlimit v s
  | .energyAttribution edev shares => Sys2Proof.Machine.execEnergyAttribution edev shares s
  | .multicastGroupCreate group job members anchor xop next => Sys2Proof.Machine.execMulticastGroupCreate group job members anchor xop next s
  | .energyWindow => Sys2Proof.Machine.execEnergyWindow s
  | .nop => Sys2Proof.Machine.execNop s
  | .ret => Sys2Proof.Machine.execRet s
  | .exit => Sys2Proof.Machine.execExit s
  | .yield => Sys2Proof.Machine.execYield s
  | .fquiet => Sys2Proof.Machine.execFquiet s
  | .lcancel => Sys2Proof.Machine.execLcancel s
  | .lrepeat => Sys2Proof.Machine.execLrepeat s
  | .lend => Sys2Proof.Machine.execLend s

end Sys2Proof.Machine
end

