-- ==== Sys2Proof/Machine/Sched.lean ====
section
/-! DEFINITION. The turn of the machine: the issuing path's next instruction, the head of the agenda, or an event that
the device itself brings about. Which of the enabled events comes next, the spec leaves open (R105 and the rows of the
opcode table that are events); this schedule is one that serves every one of them in turn (log 14). -/

namespace Sys2Proof.Machine

/-! ### Paths -/

/-- The next instruction of the path that issues; one that stalls leaves the threads at its PC to age (R105). A fetch of a poisoned
line consumes the poison, and is made again (R373). -/
def State.runPath (s : State) : Out :=
  match s.view? with
  | none => .next { s with cur := none }
  | some v =>
    match s.codePoison v.u.ctx v.p with
    | some l => .next (s.consume l (some v.u.ctx))
    | none =>
      match s.fetchInstr v with
      | .run i => thenDo (State.ageStalled v) (exec i s)
      | .trap t => .next (s.trapAll v t)
      | .miss va => .next (s.missAll v va)

/-! ### Events that may be due -/

/-- Bundles that may issue, each with its quadrant. -/
def State.pickable (s : State) : List (PickKey × Pick) :=
  (s.units.filter UnitSt.issues).foldl (fun xs u =>
    xs ++ u.bundles.map fun b => (u.keyOf b, { unit := u.uid, bundle := b.bid })) []

/-- One bundle for each quadrant, in rotation. -/
def State.picks (s : State) : List Pick :=
  let xs := s.pickable
  (xs.map (·.1)).eraseDups.filterMap fun k =>
    let ps := (xs.filter (·.1 == k)).map (·.2)
    ps[s.kclk % ps.length]?

/-- Pages that a lane access or the oldest sweep or tile operation of a core waits for. -/
def State.pageWants (s : State) : List Instr :=
  let lanes := s.ops.filter fun o => o.sp == .scratch
  (lanes.foldl (fun is o => is ++ ((o.addrs.map (· / 16384)).eraseDups.map fun p => .scratchPageFill o.unit p)) []) ++
  s.eng.foldl (fun is e => is ++ e.pages.map fun p => .scratchPageFill e.unit p) [] ++
  s.units.foldl (fun is u =>
    match s.tileHead u.core with
    | some (x, e) =>
      if x.uid == u.uid then
        is ++ ((rangePages (s.rangesWith u ((s.core u.core).te.tile.map Tile.key) e)).eraseDups.map fun p => .scratchPageFill u.uid p)
      else is
    | none => is) [] ++
  s.units.foldl (fun is u => is ++ (List.range u.threads.length).foldl (fun is t =>
    let th := u.thread t
    if th.streams.any fun q => q.st == .running || !q.queue.isEmpty then
      is ++ (List.range ((u.nscr + 16383) / 16384)).map fun p => .scratchPageFill u.uid p
    else is) []) []

/-- Events of outstanding lane accesses, the front end's next write, and engine operations. -/
def State.opEvents (s : State) : List Instr :=
  ((s.ops.find? fun o => o.kind.isFront).toList.map fun o => .gwctReturn o.id) ++
  ((s.ops.filter fun o => !o.kind.isEngine).map fun o => if o.kind.ctr == .l then .loadReturn o.id else .gwctReturn o.id) ++
  s.eng.foldl (fun is e => is ++
    match e.ins with
    | .claim .. => [.claimComplete e.ctx (e.claim.getD 4096) false .given]
    | .flow .. => [.flowBegin e.id, .flowEnd e.id]
    | i =>
      if isSweep i then [.sweepStart e.core, .sweepComplete e.core]
      else if isTile i then [.tileOpStart e.core [], .tileOpComplete e.core]
      else
        [.engineOpComplete e.id, .fabricAccepted e.id, .ratomRetry e.id, .ratomUnknown e.id] ++
        (match e.ins, (e.claim.bind fun h => s.claim? e.ctx h) with
        | .mcst .., _ => [.fabricLanded e.id]
        | _, some c => if s.ownRoute c then [.fabricLanded e.id] else []
        | _, none => [])) [] ++
  (s.fab.flights.map fun f => .ratomSlotRelease f.op) ++
  ((s.units.filter fun u => !u.late.isEmpty).map fun u => .sweepComplete u.core)

/-- Events of threads: waits that end, reservations, streams. -/
def threadEvents (uid t : Nat) (th : Thread) : List Instr :=
  (match th.st with
  | .waiting (.join ..) => [.joinTimeout uid t]
  | .waiting (.sleep _) => [.sleepWake uid t]
  | .waiting (.event ..) => [.evwaitTimeout uid t]
  | _ => []) ++
  (if th.resv.isSome then [.reservationTimeout uid t] else []) ++
  (List.range 8).foldl (fun is k =>
    let q := th.stream k
    if q.st == .running && !q.pat.dir then is ++ [.streamElementRead uid t k]
    else if q.pat.dir && !q.queue.isEmpty then is ++ [.streamElementWrite uid t k]
    else is) []

/-- Events of units. -/
def State.unitEvents (s : State) : List Instr :=
  s.units.foldl (fun is u => is ++
    (List.range u.threads.length).foldl (fun is t => is ++ threadEvents u.uid t (u.thread t)) [] ++
    (if u.threads.any fun th => th.st == .spilling then u.bundles.map fun b => .spill u.uid b.bid else []) ++
    (if u.threads.any Thread.inSilt then [.bundleBuild u.uid] else []) ++
    (match u.st with
    | .draining => [.unitRetire u.uid]
    | .saved =>
      ((((s.ctx? u.ctx).map Ctx.coresOf).getD []).find? (s.mayRestore u)).toList.map fun c => .restoreUnit u.uid c
    | _ => if u.preempt then [.unitSave u.uid] else [])) []

/-- Private bases of a launch's next `n` home bundles: the lowest places that they may take, one after another (R81).
DESIGN CHOICE, log 14. -/
def State.privBases (s : State) (ctx npriv : Nat) : Nat → List DWord → List DWord
  | 0, bs => bs
  | n + 1, bs =>
    let step := (npriv * 128 + 127) / 128 * 128
    let start (m : Map1) : Nat := (m.va + 127) / 128 * 128
    let regions := s.map1.filter fun m => m.root == s.root1 ctx && !m.user && !m.silt
    let tries := regions.foldl (fun xs m => xs ++ (List.range ((m.va + m.size - start m) / max 1 step)).map fun i => start m + i * step) []
    match tries.find? fun a => s.basesOk ctx npriv (bs.length + 1) (bs ++ [BitVec.ofNat 64 a]) with
    | some a => s.privBases ctx npriv n (bs ++ [BitVec.ofNat 64 a])
    | none => bs ++ List.replicate (n + 1) 0

/-- The placement of a launch's next unit on the first core with room. -/
def State.placement (s : State) (l : Launch) : List Instr :=
  match s.ctx? l.ctx, l.nextUnit with
  | some c, some x =>
    let d := l.kernel x.2
    let n := if l.cores && l.redo.isEmpty && l.placed == 0 then l.units else 1
    ((c.coresOf.find? fun k => s.hasRoom l.ctx k d.hbs d.regs d.tile d.fl1).toList).map fun k =>
      .placeUnit l.lid k (if d.priv == 0 then List.replicate (d.hbs * n) 0 else s.privBases l.ctx d.priv (d.hbs * n) [])
  | _, _ => []

/-- Clusters whose mode the front end may change (R356). -/
def State.modeEvents (s : State) : List Instr :=
  ((List.range 32).filter fun k => s.changing.contains k || s.mayChange k).map .l1ModeChange

/-- The event that reads the head of a queue. -/
def readEvent (ctx q : Nat) (ws : List Word) : Instr :=
  if (cmdBad ws).isSome then .commandRejected ctx q
  else
    match CW.type ws with
    | 1 => .launch ctx q
    | 2 => .guardedLaunch ctx q
    | 3 => .graph ctx q
    | 4 => .eventSignal ctx q
    | 5 => .eventWait ctx q
    | 6 => .cancel ctx q
    | _ => .resync ctx q

/-- Events of the launch engine. -/
def State.launchEvents (s : State) : List Instr :=
  s.ctxs.foldl (fun is c => is ++ .tilthSlice c.ctx ::
    (c.queues.filterMap fun x => (s.headQueue c.ctx x.q).map fun _ =>
      ((s.headCmd c.ctx x.q).map fun y => readEvent c.ctx x.q y.2).getD (.commandRejected c.ctx x.q))) [] ++
  (s.nextCmd.toList.map fun c => .commandStart c.ctx c.cid) ++
  s.launches.foldl (fun is l => is ++
    (if l.st == .prologue then [.prologueTimeout l.ctx l.blk] else []) ++ s.placement l) []

/-- The event that reads the head of the management ring. -/
def State.requestEvents (s : State) : List Instr :=
  match s.headReq with
  | none => if s.reqQueue.isSome then [.managementResync 0] else []
  | some ws =>
    let n := MReq.qseq ws
    let ctx := MReq.ctx ws
    let d := ctxDescOf (s.descWords ctx)
    match MReq.type ws with
    | 1 => [.ctxStart n ctx d]
    | 2 => [.ctxUpdate n ctx (MReq.mask ws) d]
    | 3 => [.ctxStop n ctx]
    | 4 => [.ctxKill n ctx]
    | 5 => [.preempt n ctx (MReq.arg ws)]
    | 6 => [.qclear n (MReq.arg ws)]
    | 7 => [.managementResync n]
    | t => [.managementRejected n t ctx]

/-- Events of firmware, memory lines, power and groups. -/
def State.otherEvents (s : State) : List Instr :=
  (s.leases.map fun x => .leaseExpiry x.core x.line) ++
  (List.range 32).foldl (fun is k => is ++
    (if s.leafUp k then [] else [.controllerRestart k]) ++
    [false, true].foldl (fun js up => js ++ ((s.linkDir k up).queue.take 1).map fun m => .firmwareMessage k up m.1) []) [] ++
  s.requestEvents ++
  ((List.range 32).filterMap fun k => if (s.dueAt k).isEmpty || (s.handler? k).isSome then none else some (.handlerDispatch k)) ++
  (s.fw.handlers.map fun h => .handlerTimeout h.leaf) ++
  s.modeEvents ++
  (if s.dt / 1000000 == s.power.window then [] else [.energyWindow]) ++
  (if s.dt / 100000 == s.power.tick then [] else [.powerControlTick s.power.pnow.toNat]) ++
  s.fab.groups.foldl (fun is g => is ++ .mcstNack ⟨g.job, g.group⟩ ::
    (if s.anchors g then (g.amembers.filter (s.isLost g)).map fun m => .memberLost ⟨g.job, g.group⟩ m else [])) []

/-- The event whose turn it is among those that may be due, an issue cycle last. DESIGN CHOICE, log 14. -/
def State.dueEvent (s : State) : Instr :=
  let is := s.pageWants ++ s.opEvents ++ s.unitEvents ++ s.launchEvents ++ s.otherEvents
  (is[s.rot / 2 % (is.length + 1)]?).getD (.issueCycle s.picks)

/-! ### The turn -/

/-- One step of the machine. -/
def State.turnOf (s : State) : Out :=
  match s.issueQ with
  | pr :: rest => State.runPath { s with issueQ := rest, cur := some pr }
  | [] =>
    let s : State := { s with cur := none, rot := s.rot + 1 }
    match s.agenda with
    | i :: is => if s.rot % 2 == 0 then exec s.dueEvent s else exec i { s with agenda := is }
    | [] => exec s.dueEvent s

/-! ### A state whose next step runs a given word -/

/-- The context, core and unit of the placed word: identity mappings of the first page. -/
def placedUnit (s : State) : UnitSt :=
  { uid := s.nextId, ctx := 0, launch := 0, nregs := 512, nscr := 65536
    threads := (List.range 32).map fun _ => { regs := List.replicate 512 0, pos := { widx := 1, cnt := 15 }, st := .inPath }
    bundles := [{ bid := 0, quad := 0, slots := (List.range 32).map some
                  path0 := some { tids := List.range 32, hdr := 0, widx := 1, cnt := 15, cls := 0 } }]
    zs := [List.replicate 64 0x7F7F7F7F7F7F7F7F], frames := [0, 1, 2, 3] }

/-- The word stands behind a clause header at address 0 of context 0, and a path of one unit has come to it.
DESIGN CHOICE, log 15. -/
def State.placeWord (s : State) (w : Nat) : State :=
  let m1 : Map1 := { root := 0, va := 0, size := 4096, ipa := 0, r := true, w := true, x := true, user := true }
  let m2 : Map2 := { root := 0, ipa := 0, size := 4096, pa := 0, r := true, w := true, x := true, world := 0 }
  { s with mem := s.mem.writes (span 8 8) (leBytes 8 w), map1 := m1 :: s.map1, map2 := m2 :: s.map2
           ctxs := { ctx := 0, live := true } :: s.ctxs, units := placedUnit s :: s.units, nextId := s.nextId + 1
           agenda := [], issueQ := [{ unit := s.nextId, bundle := 0, slot := false }] }

end Sys2Proof.Machine
end

