-- ==== Sys2Proof/Safety.lean ====
section
/-! DEFINITION. What a safe run is: no step of it stops, and the states it reaches keep what every state of the machine
must keep: memories in canonical form, a path's threads within their unit. -/

namespace Sys2Proof

namespace Machine

/-- Global memory and every scratchpad window are in canonical form. -/
def State.memOk (s : State) : Prop := s.mem.wf = true ∧ ∀ u ∈ s.units, Memory.wf u.scr = true

/-- One step leads from a state to another. -/
def StepTo (s t : State) : Prop := step s = .next t

/-- States that a run from `s` reaches. -/
inductive Reaches (s : State) : State → Prop where
  | refl : Reaches s s
  | next {t u : State} : Reaches s t → StepTo t u → Reaches s u

/-! ### What the statements speak of: a path that issues, its operands, and what an issue leaves unchanged -/

/-- A path stands before its next word: its threads are of its unit and in the path, each once, and its header is a
header address (R26, R103). -/
structure View.Open (s : State) (v : View) : Prop where
  view  : s.view? = some v
  tids  : v.p.tids.Nodup
  inside : ∀ t ∈ v.p.tids, t < v.u.threads.length ∧ (v.u.thread t).st = .inPath
  hdr   : v.p.hdr.toNat % 8 = 0

/-- Thread `t` may use the register fields `us`: they are legal (R41 to R43, R186), no outstanding operation has yet to
write one of them (R33), and reading them leaves the thread `th` with the operands `o`. -/
structure View.Reads (s : State) (v : View) (lane : Bool) (us : List RegUse) (t : Nat) (th : Thread) (o : Opnds) : Prop where
  legal : (v.u.thread t).useBad v.u.nregs lane us = none
  free  : ∀ x ∈ us, s.pending v.u.uid t x.reg.toNat x.n = false
  gives : (v.u.thread t).fetch us = .ok th o

/-- Every thread of the path reads its operands. -/
def View.AllRead (s : State) (v : View) (lane : Bool) (us : List RegUse) (ops : Nat → Thread × Opnds) : Prop :=
  ∀ t ∈ v.p.tids, View.Reads s v lane us t (ops t).1 (ops t).2

/-- The threads of the path with what they have read. -/
def View.parts (v : View) (ops : Nat → Thread × Opnds) : Parts := v.p.tids.map fun t => (t, (ops t).1, (ops t).2)

/-- A thread after a word that leaves it as `th`: behind the last word of a clause it stands at the next header, or at
the header `next` that the word transfers to (R28); in a draining unit it then ends (R116). -/
def View.after (v : View) (th : Thread) (next : Option DWord) : Thread :=
  if v.p.advance.isNone then
    let th := { th with pos := { hdr := (next.getD v.p.nextHeader).setWidth 56 }
                        st := if th.st == .inPath then .ready else th.st }
    if v.u.st == .draining then th.stop else th
  else th

/-- The path after its word, whose threads are then as `g` says: at the next repetition or word with the threads that are
still in the path; none when the clause has ended or no thread is left (R30, R103). -/
def View.nextPath (v : View) (g : Nat → Thread) : Option Path :=
  v.p.advance.bind fun p =>
    let ts := p.tids.filter fun t => (g t).st == .inPath
    if ts.isEmpty then none else some { p with tids := ts }

/-- The unit `u` with the issuing path's slot as its word leaves it; the end of the clause passes on its yield hint (R31).
Every other field of the bundle, its other slot among them, and every other bundle is as in `u`. -/
def View.moved (v : View) (u : UnitSt) (g : Nat → Thread) : UnitSt :=
  let b := (u.bundle? v.b.bid).getD v.b
  u.setBundle { b.setPath v.pr.slot (v.nextPath g) with hint := b.hint || (v.p.advance.isNone && v.p.hint) }

/-- `s'` is `s` but for the unit of the issuing path, which is `u0` with the path's threads as `g` says and the path moved
on: every other thread, the unit's other paths and bundles, every other unit, all memory, every outstanding operation and
all else is as in `s`. -/
structure View.Effect (s s' : State) (v : View) (u0 : UnitSt) (g : Nat → Thread) : Prop where
  unit   : ∃ u', s'.unit? v.u.uid = some u' ∧ { u' with threads := u0.threads } = v.moved u0 g ∧
    u'.threads.length = u0.threads.length ∧
    ∀ t, u'.thread t = if t ∈ v.p.tids then g t else u0.thread t
  others : ∀ n, n ≠ v.u.uid → s'.unit? n = s.unit? n
  rest   : { s' with units := s.units } = s

/-! ### How instructions complete -/

/-- The words that a launch prologue may use (R334). -/
def inProSet : Instr → Bool
  | .nop | .mov .. | .movi .. | .add .. | .addi .. | .sub .. | .mul .. | .mulh .. | .mad .. | .div .. | .rem .. | .min .. | .max ..
  | .abs .. | .neg .. | .dp4 .. | .band .. | .bor .. | .bxor .. | .bandn .. | .andi .. | .ori .. | .xori .. | .lop3 .. | .shl ..
  | .shr .. | .sar .. | .rot .. | .shli .. | .shri .. | .sari .. | .clz .. | .popc .. | .brev .. | .bfx .. | .bfi .. | .cmp ..
  | .cmpi .. | .sel .. | .lea .. | .cvti .. | .satn .. | .br .. | .bra .. | .ldk .. | .rep .. | .lset .. | .lcancel | .lrepeat
  | .lend => true
  | .ld _ _ m => m.ord == .plain || m.ord == .acq
  | .gets _ sel => prologueSel sel.toNat
  | _ => false

/-- The loads among them, which have a limit of their own (R334). -/
def isProLoad : Instr → Bool
  | .ld .. | .ldk .. => true
  | _ => false

/-- The path may issue `i`: outside a launch prologue any word, in one a word of its set within its limits (R334). -/
def View.MayIssue (s : State) (v : View) (i : Instr) : Prop :=
  v.u.role ≠ .prologue ∨ (inProSet i = true ∧ ∃ l, s.launch? v.u.launch = some l ∧ l.pinsn < 1024 ∧
    (isProLoad i = true → l.ploads < 128))

/-- A launch prologue's launch counts the word (R334). -/
def State.counted (s : State) (v : View) (i : Instr) : State :=
  if v.u.role == .prologue then
    s.updLaunch v.u.launch fun l => { l with pinsn := l.pinsn + 1, ploads := l.ploads + (if isProLoad i then 1 else 0) }
  else s

/-- `i` completes in every path that may issue it whose threads read the fields `us`: after its reads each thread is
as `f` says of its operands, at the next word. Nothing else changes. -/
def Computes (i : Instr) (us : List RegUse) (f : Opnds → Thread → Thread) : Prop :=
  ∀ s v ops, View.Open s v → View.MayIssue s v i → View.AllRead s v true us ops →
    ∃ s', exec i s = .next s' ∧ View.Effect (s.counted v i) s' v v.u fun t => v.after (f (ops t).2 (ops t).1) none

/-- As `Computes`, where a thread's result depends on the whole path: `f` sees the path, the operands of all its threads,
and the thread's own. -/
def PathComputes (i : Instr) (us : List RegUse) (f : View → Parts → Nat → Thread → Opnds → Thread) : Prop :=
  ∀ s v ops, View.Open s v → v.u.role ≠ .prologue → View.AllRead s v true us ops →
    ∃ s', exec i s = .next s' ∧
      View.Effect s s' v v.u fun t => v.after (f v (v.parts ops) t (ops t).1 (ops t).2) none

/-- A block-scaled instruction completes on every path that is one whole home bundle `hb` (R144): `regs` gives each
lane's thread, `side` the unit's sidecars. Nothing else changes. -/
def BundleDoes (i : Instr) (us : List RegUse) (regs : View → Nat → Parts → Nat → Thread → Thread)
    (side : View → Nat → Parts → UnitSt → UnitSt) : Prop :=
  ∀ s v ops hb, View.Open s v → v.u.role ≠ .prologue → View.AllRead s v true us ops → v.wholeBundle = some hb →
    ∃ s', exec i s = .next s' ∧
      View.Effect s s' v (side v hb (v.parts ops) v.u) fun t => v.after (regs v hb (v.parts ops) t (ops t).1) none

/-- As `BundleDoes`, for an instruction whose result blocks go to scaled register `d`: each lane's word, its generator
stepped once for each of its elements under SR, and the sidecar. -/
def BlockComputes (i : Instr) (us : List RegUse) (ty : BTy) (rnd : Rnd) (d : VReg)
    (blocks : View → Nat → Parts → List (Nat × List Nat)) : Prop :=
  BundleDoes i us
    (fun v hb ps t th => (stepLane rnd (nbOf ty) th).put d.toNat (laneWord ty (laneOf t) (blocks v hb ps)))
    fun v hb ps u => u.setSide hb d.toNat (sideWord (blocks v hb ps))

/-- As `PathComputes`, in a state and with threads that meet `pre`; `nx` gives the header that a thread transfers to. -/
def Proceeds (i : Instr) (us : List RegUse) (pre : State → View → Nat → Thread → Opnds → Prop)
    (f : State → View → Nat → Thread → Opnds → Thread) (nx : View → Thread → Opnds → Option DWord) : Prop :=
  ∀ s v ops, View.Open s v → View.MayIssue s v i → View.AllRead s v true us ops →
    (∀ t ∈ v.p.tids, pre s v t (ops t).1 (ops t).2) →
    (∀ t ∈ v.p.tids, ∀ x, nx v (ops t).1 (ops t).2 = some x → v.p.advance = none ∧ x.toNat < 2 ^ 56 ∧ x.toNat % 8 = 0) →
    ∃ s', exec i s = .next s' ∧
      View.Effect (s.counted v i) s' v v.u fun t => v.after (f s v t (ops t).1 (ops t).2) (nx v (ops t).1 (ops t).2)

/-- As `Proceeds`, for an instruction after which joins, barriers and the end of its unit are settled: the unit is as `u0`
says beside the threads of the path before that. -/
def SettlesTo (i : Instr) (us : List RegUse) (pre : State → View → Prop) (f : State → View → Nat → Thread → Thread)
    (u0 : State → View → UnitSt) : Prop :=
  ∀ s v ops, View.Open s v → v.u.role ≠ .prologue → View.AllRead s v true us ops → pre s v →
    ∃ s1, exec i s = .next (s1.settleUnit v.u.uid) ∧ View.Effect s s1 v (u0 s v) fun t => v.after (f s v t (ops t).1) none

/-- A counter raised for an access; an access that waited at a translation miss has raised it already (R32, R199). -/
def Thread.charge (th : Thread) (k : CtrKind) : Thread :=
  if th.replay == some k then { th with replay := none } else th.raise k

/-- The state with an access of every thread of the path outstanding, in slot order; `th` gives the threads that make
them. -/
def State.posted (s : State) (v : View) (th : Nat → Thread) (p : Nat → Post) : State :=
  v.p.tids.foldl (fun s t => s.post (v.u.setThread t (th t)) t v.p.pos [p t]) s

/-- The physical addresses of the bytes that an access reaches (R78). -/
def State.bytesAt (s : State) (c : Nat) (va : DWord) (acc : Acc) (n : Nat) : List Nat :=
  match s.reach c va acc n with
  | .ok pas => pas
  | _ => []

/-- `i` completes in every path that may issue it whose threads read `us`, meet `pre`, and have room in the counter
`k`: each thread has its access `p` outstanding and its counter raised, at the next word. Nothing else changes. (A
surrogate's write to a line it does not hold yet is another statement's.) -/
def PostsAccess (i : Instr) (us : List RegUse) (k : CtrKind) (pre : State → View → Thread → Opnds → Prop)
    (p : State → View → Thread → Opnds → Post) : Prop :=
  ∀ s v ops, View.Open s v → View.MayIssue s v i → View.AllRead s v true us ops →
    (∀ t ∈ v.p.tids, (ops t).1.full k = false ∧ pre s v (ops t).1 (ops t).2 ∧
      newGuardLines v.u [p s v (ops t).1 (ops t).2] = []) →
    ∃ s', exec i s = .next s' ∧
      View.Effect ((s.counted v i).posted v (fun t => (ops t).1) fun t => p s v (ops t).1 (ops t).2) s' v v.u fun t => v.after ((ops t).1.charge k) none

/-- The threads of the path trap with the trap that `tr` gives each: thread `t` is TRAPPED at the word, with its record. -/
def Traps (i : Instr) (lane : Bool) (us : List RegUse) (pre : State → View → Nat → Thread → Opnds → Prop)
    (tr : State → View → Thread → Opnds → Trap) : Prop :=
  ∀ s v ops, View.Open s v → v.u.role ≠ .prologue → View.AllRead s v lane us ops →
    (∀ t ∈ v.p.tids, pre s v t (ops t).1 (ops t).2) → v.p.tids ≠ [] →
    ∃ s' u', exec i s = .next s' ∧ s'.unit? v.u.uid = some u' ∧ ∀ t ∈ v.p.tids,
      (u'.thread t).pos = v.p.pos ∧ (u'.thread t).st = .trapped (trapRec s v.u.ctx v.p.pos (tr s v (ops t).1 (ops t).2)) ∧
      (u'.thread t).regs = (v.u.thread t).regs

/-- The register fields that a word names (R41 to R43). -/
def namedBy : Instr → List RegUse
  | .br _ a _ | .gcheck a => [src .a a]
  | .jmpr a | .callr a => [src .a a 2]
  | .join d _ => [dst d]
  | .cut d a n => dst d :: carried a n.toNat
  | .graft a b => [src .a a, src .b b]
  | .await scr d b _ _ => rmwUses d b 1 (!scr)
  | .tmma d a b c => tmmaUses d a b c
  | .evwait d a b c _ => [dst d, src .a a, src .b b 2, src .c c]
  | i => allUses i

/-- Words of class 0, which may name queue registers (R43, R186). -/
def onLanes (i : Instr) : Bool :=
  !isSweep i &&
  match i with
  | .tgang .. | .tldb .. | .tldm .. | .tmma .. | .tzero .. | .tst .. | .tstat .. | .tmir .. | .claim .. | .flow .. | .rlse ..
  | .cqry .. | .cpin .. | .cunpin .. | .puts .. | .get .. | .radd .. | .ratom .. | .mcst .. | .mcseq .. | .ring .. | .fquiet
  | .lset .. | .lcancel | .lrepeat | .lend | .gcheck .. | .evsig .. | .evwait .. | .gets .. | .sets .. => false
  | _ => true

/-- What a word settles after it: joins, barriers and the end of a unit (R115, R159, R179), the launches (R334), or a gang's
meeting (R287). -/
def followed (i : Instr) (v : View) (s : State) : State :=
  match i with
  | .join .. | .exit | .bar .. | .gcheck .. => s.settleUnit v.u.uid
  | .lset .. | .lcancel | .lend | .lrepeat => s.settleLaunches
  | .tmma .. => s.settleLatch v.u.uid
  | _ => s

/-- Some thread's registers of a word are still to be written by an operation that is outstanding (R33). -/
def View.Pends (s : State) (v : View) (i : Instr) : Prop :=
  ∃ t ∈ v.p.tids, ∃ x ∈ namedBy i, s.pending v.u.uid t x.reg.toNat x.n = true

/-- A word, other than a header and a REP, which are checked by their own rules. -/
def isPlainWord (i : Instr) : Bool :=
  (encode i).isSome && (match i with | .clauseHeader _ | .rep .. => false | _ => true)

/-- The threads of the path transfer to targets that are no header addresses: each is TRAPPED at its target with
ILLEGAL_CLAUSE, sub-cause 7 (R28, R157). -/
def TransfersTrap (i : Instr) (us : List RegUse) (pre : State → View → Nat → Thread → Opnds → Prop)
    (target : View → Thread → Opnds → DWord) : Prop :=
  ∀ s v ops, View.Open s v → v.u.role ≠ .prologue → View.AllRead s v true us ops → v.p.tids ≠ [] → v.p.advance = none →
    (∀ t ∈ v.p.tids, pre s v t (ops t).1 (ops t).2 ∧
      ¬ ((target v (ops t).1 (ops t).2).toNat < 2 ^ 56 ∧ (target v (ops t).1 (ops t).2).toNat % 8 = 0)) →
    ∃ s' u', exec i s = .next s' ∧ s'.unit? v.u.uid = some u' ∧ ∀ t ∈ v.p.tids, ∃ r,
      (u'.thread t).st = .trapped r ∧ r.trap.cause = .illegalClause ∧ r.trap.sub = 7 ∧ r.fatal = true ∧
      r.trap.addr = target v (ops t).1 (ops t).2 ∧ r.pc = target v (ops t).1 (ops t).2

/-- An access of a thread whose counter `k` stands at 62 or more stalls the path, which stays as it is (R32). -/
def FullStalls (i : Instr) (lane : Bool) (us : List RegUse) (k : CtrKind) (pre : State → View → Thread → Opnds → Prop) : Prop :=
  ∀ s v ops, View.Open s v → v.u.role ≠ .prologue → View.AllRead s v lane us ops →
    (∃ t ∈ v.p.tids, 62 ≤ ((ops t).1.ctrs.get k).toNat ∧ (ops t).1.replay = none ∧ pre s v (ops t).1 (ops t).2) →
    exec i s = .next s

/-- The same of an engine instruction, where the counter of any thread of the path has no room. -/
def EngineStalls (i : Instr) (us : List RegUse) (k : CtrKind) (pre : State → View → Opnds → Prop) : Prop :=
  ∀ s v o th, View.Open s v → v.u.role ≠ .prologue →
    (∀ t ∈ v.p.tids, (v.u.thread t).useBad v.u.nregs false us = none ∧
      ∀ x ∈ us, s.pending v.u.uid t x.reg.toNat x.n = false) →
    (v.u.thread v.p.elected).fetch us = .ok th o → pre s v o →
    (∃ t ∈ v.p.tids, 62 ≤ ((v.u.thread t).ctrs.get k).toNat) → exec i s = .next s

/-- Every register field of the path's threads that `i` names is reserved with sub-cause `sub`. -/
def View.Misnamed (v : View) (i : Instr) (sub : Nat) : Prop :=
  ∀ t ∈ v.p.tids, (v.u.thread t).useBad v.u.nregs (onLanes i) (namedBy i) = some sub

/-- The frames below a thread's fp: the base of the `k`-th (R113, R166). -/
def Thread.frame (th : Thread) : Nat → Word
  | 0 => th.fp
  | k + 1 => th.frame k + th.pw (th.frame k - 2)

/-- A block-scaled instruction on a path that is not one whole home bundle traps its threads (R144). -/
def IncompleteTraps (i : Instr) (us : List RegUse) : Prop :=
  Traps i true us (fun _ v _ _ _ => v.wholeBundle = none) fun _ v _ _ => { cause := .blockIncomplete, info := v.mask }

/-- The operation that a path enters into an engine (R18, R19): numbered, with the elected lane's operands and copies of
its rounding words, and the register `d` of every thread of the path for its result. -/
def View.engOp (v : View) (s : State) (i : Instr) (k : CtrKind) (d : VReg) (wd : Nat) (o : Opnds) : EngOp :=
  { id := s.nextId, unit := v.u.uid, ctx := v.u.ctx, core := v.u.core, tids := v.p.tids.map fun t => (t, d), ins := i
    o := o, g := (v.u.thread v.p.elected).rng, rmode := (v.u.thread v.p.elected).rmode
    pos := { hdr := v.p.hdr, widx := v.p.widx }, ctr := k, wd := wd, mir := v.u.mirror }

/-- The conditions on a path for an engine instruction: its register fields are legal in every thread, none of them is
still to be written, there is room in the counter, and the elected lane reads the operands `o`. -/
structure View.EngReads (s : State) (v : View) (us : List RegUse) (k : CtrKind) (o : Opnds) : Prop where
  some_  : v.p.tids ≠ []
  legal : ∀ t ∈ v.p.tids, (v.u.thread t).useBad v.u.nregs false us = none
  free  : ∀ t ∈ v.p.tids, ∀ x ∈ us, s.pending v.u.uid t x.reg.toNat x.n = false
  room  : ∀ t ∈ v.p.tids, (v.u.thread t).full k = false
  gives : ∃ th, (v.u.thread v.p.elected).fetch us = .ok th o

/-- `i` is accepted in every path, outside a prologue, that may issue it and meets `pre`: the engine holds one more
operation `e`, the counter `k` of every thread of the path is raised, and the path goes on. `eff` is what else issuing
does; nothing beside it changes. -/
def Accepts (i : Instr) (us : List RegUse) (k : CtrKind) (pre : State → View → Opnds → Prop)
    (e : State → View → Opnds → EngOp) (eff : State → View → Opnds → State) : Prop :=
  ∀ s v o, View.Open s v → v.u.role ≠ .prologue → View.EngReads s v us k o → pre s v o →
    ∃ s' u0, exec i s = .next s' ∧ (eff s v o).unit? v.u.uid = some u0 ∧
      View.Effect { eff s v o with nextId := s.nextId + 1, eng := s.eng ++ [e s v o] } s' v u0
        fun t => v.after ((u0.thread t).raise k) none

/-- `i` completes at its issue in every path, outside a prologue, that may issue it and meets `pre`: the state becomes
`eff`, in which the path goes on. -/
def CompletesAtOnce (i : Instr) (us : List RegUse) (k : CtrKind) (pre : State → View → Opnds → Prop)
    (eff : State → View → Opnds → State) : Prop :=
  ∀ s v o, View.Open s v → v.u.role ≠ .prologue → View.EngReads s v us k o → pre s v o →
    ∃ s' u0, exec i s = .next s' ∧ (eff s v o).unit? v.u.uid = some u0 ∧
      View.Effect (eff s v o) s' v u0 fun t => v.after (u0.thread t) none

/-- `i` completes in a launch prologue below the instruction limit, in a launch that meets `pre`: the launch counts the
instruction, `f` is its effect on the launch engine, the prologue's thread goes on if the unit is still there, and launches
are settled. -/
def PrologueDoes (i : Instr) (us : List RegUse) (pre : State → Launch → Prop) (f : State → Launch → Parts → State) : Prop :=
  ∀ s v ops l, View.Open s v → v.p.tids ≠ [] → v.u.role = .prologue → s.launch? v.u.launch = some l → l.pinsn < 1024 →
    View.AllRead s v false us ops → pre s l →
    ∃ s' s1 l1, exec i s = .next s'.settleLaunches ∧ s1 = s.updLaunch l.lid (fun l => { l with pinsn := l.pinsn + 1 }) ∧
      s1.launch? l.lid = some l1 ∧
      s' = (f s1 l1 (v.parts ops)).finish v (v.p.tids.map fun t => (t, .ok (ops t).1 none []))

/-! ### Events -/

/-- `s'` is `s` but for the unit numbered `u.uid`, which is now `u`. -/
structure OnlyUnit (s s' : State) (u : UnitSt) : Prop where
  unit   : s'.unit? u.uid = some u
  others : ∀ n, n ≠ u.uid → s'.unit? n = s.unit? n
  rest   : { s' with units := s.units } = s

/-- What an outstanding global write needs to be performed at once: it is whole, no write of its core is before it on its
way, its memory is in use and not poisoned, its world has keys, no lease stands on its lines, and no write that has arrived there
waits (R85, R87, R373, R385). -/
structure Performs (s : State) (o : MemOp) (u : UnitSt) : Prop where
  entered : s.entered = s
  op      : s.op? o.id = some o
  unit    : s.unit? o.unit = some u
  plain   : u.role ≠ .surrogate
  tid     : o.tid < u.threads.length
  global  : o.sp = .global
  fresh   : o.arrived = false ∧ o.done = false ∧ o.ret = false
  whole   : s.sibling o = none
  first   : s.mayArrive o = true
  good    : s.inRetired o.addrs = false ∧ s.poisoned o.addrs = none ∧ s.refuses o = false
  free    : ∀ l ∈ linesOf o.addrs, s.liveLeases l = [] ∧ s.waitingOn l = []

/-- The home slices perform a packet's write at once: its number is new, and no lease stands on its lines and no write waits
there (R85). -/
structure Clear (s : State) (pas : List Nat) : Prop where
  ids  : (∀ o ∈ s.ops, o.id ≠ s.nextId) ∧ s.unit? s.nextId = none
  free : ∀ l ∈ linesOf pas, s.liveLeases l = [] ∧ s.waitingOn l = []

/-- `n` segments of `len` bytes at `d` are apart from each other. -/
def SegsApart (n : Nat) (d : Nat → Int) (len : Nat) : Prop :=
  ∀ i < n, 0 ≤ d i ∧ ∀ k < i, d k + len ≤ d i ∨ d i + len ≤ d k

/-- Segment `i` of `n` at `a` is apart from the segments at `d` that are written before it is read. -/
def ReadBefore (n : Nat) (a : Nat → Int) (la : Nat) (d : Nat → Int) (ld : Nat) (before : Nat → Nat → Prop) : Prop :=
  ∀ i < n, 0 ≤ a i ∧ ∀ k < n, before k i → a i + la ≤ d k ∨ d k + ld ≤ a i

/-- What a sweep or a TST leaves: element `j` of segment `i` at `d` is the code `c i j`, as the slot `b` passes it on; the slot's
violations are counted; every other byte is as before; and the bytes written are those that the operation gives out. -/
structure SweptTo (x y : Sw) (b : Option BoundE) (t : STy) (n m : Nat) (d : Nat → Int) (c : Nat → Nat → Nat) : Prop where
  elems : ∀ i < n, ∀ j < m, y.scr.at_ ((d i).toNat + j * t.bytes) t.bytes = (passSlot b t (c i j)).1 % 2 ^ (8 * t.bytes)
  count : y.viol = x.viol + ((List.range (n * m)).filter fun k => (passSlot b t (c (k / m) (k % m))).2).length
  rest  : ∀ a, (∀ i < n, a < (d i).toNat ∨ (d i).toNat + m * t.bytes ≤ a) → y.scr.read a = x.scr.read a
  out   : ∃ cells, y.out = x.out ++ cells ∧ ∀ a, y.scr.read a = (x.scr.writeCells cells).read a

/-- The management request with these words is read, and one report with its number ends it (R366, R367). -/
def Reported (s s' : State) (ws : List Word) (status : Nat) : Prop :=
  ∃ s1 : State, s1.fw.mq.head = s.fw.mq.head + 1 ∧ s1.fw.mlast = MReq.qseq ws ∧
    s' = s1.report { ctx := MReq.ctx ws, status := status, kind := 1, qseq := MReq.qseq ws }

end Machine

/-- No state that a run from `s` reaches stops the machine. -/
def Safe (s : Machine.State) : Prop := ∀ t, Machine.Reaches s t → ∃ u, Machine.StepTo t u

end Sys2Proof
end

