-- ==== Sys2Proof/Certificates/Slice0/Obligations.lean ====
section
/-! DEFINITION. The statements. Each says which rules of spec/ it formalises; Sys2Proof/Safety.lean holds the vocabulary
that they share: a path that issues (View.Open), its operands (View.AllRead), and what is left unchanged (View.Effect). -/

section

open Sys2Proof Sys2Proof.Machine

/-! ### Integer, logic, shift and bit instructions (R123 to R135) -/

/-- MOV, MOVI, ADD, ADDI, SUB, MUL, MULH, MAD, ABS, NEG, MIN, MAX and DP4 complete: every thread of the path writes,
element by element, the exact result of R126 by T's signedness, wrapped or clamped (R127), DP4 its 32-bit accumulator
(R131), and nothing else changes. Each element of a result is the exact value modulo 2^w or clamped to the type's
range, and no bit stands above the elements. -/
def Obligations.IntegerArithmeticComputes : Prop :=
  ((∀ t d a, Computes (.mov t d a) [tdst t d, tsrc .a t a] fun o th => th.putT t d o.a) ∧
    (∀ t d imm, Computes (.movi t d imm) [tdst t d] fun _ th => th.putT t d (immT t imm)) ∧
    (∀ t d a b sat, Computes (.add t d a b sat) [tdst t d, tsrc .a t a, tsrc .b t b]
      fun o th => th.putT t d (intT t sat fun j => elemI t o.a j + elemI t o.b j)) ∧
    (∀ t d a imm, Computes (.addi t d a imm) [tdst t d, tsrc .a t a]
      fun o th => th.putT t d (intT t false fun j => elemI t o.a j + elemI t (immT t imm) j)) ∧
    (∀ t d a b sat, Computes (.sub t d a b sat) [tdst t d, tsrc .a t a, tsrc .b t b]
      fun o th => th.putT t d (intT t sat fun j => elemI t o.a j - elemI t o.b j)) ∧
    (∀ t d a b sat, Computes (.mul t d a b sat) [tdst t d, tsrc .a t a, tsrc .b t b]
      fun o th => th.putT t d (intT t sat fun j => elemI t o.a j * elemI t o.b j)) ∧
    (∀ t d a b, Computes (.mulh t d a b) [tdst t d, tsrc .a t a, tsrc .b t b]
      fun o th => th.putT t d (intT t false fun j => Int.fdiv (elemI t o.a j * elemI t o.b j) (2 ^ t.width))) ∧
    (∀ t d a b c sat, Computes (.mad t d a b c sat) [tdst t d, tsrc .a t a, tsrc .b t b, tsrc .c t c]
      fun o th => th.putT t d (intT t sat fun j => elemI t o.a j * elemI t o.b j + elemI t o.c j)) ∧
    (∀ t d a sat, Computes (.abs t d a sat) [tdst t d, tsrc .a t a]
      fun o th => th.putT t d (intT t sat fun j => (elemI t o.a j).natAbs)) ∧
    (∀ t d a sat, Computes (.neg t d a sat) [tdst t d, tsrc .a t a]
      fun o th => th.putT t d (intT t sat fun j => -elemI t o.a j)) ∧
    (∀ t d a b, Computes (.min t d a b) [tdst t d, tsrc .a t a, tsrc .b t b]
      fun o th => th.putT t d (intT t false fun j => min (elemI t o.a j) (elemI t o.b j))) ∧
    (∀ t d a b, Computes (.max t d a b) [tdst t d, tsrc .a t a, tsrc .b t b]
      fun o th => th.putT t d (intT t false fun j => max (elemI t o.a j) (elemI t o.b j)))) ∧
  (∀ t d a b c mix sat, Computes (.dp4 t d a b c mix sat) [dst d, src .a a, src .b b, src .c c]
      fun o th => th.put d.toNat (BitVec.ofNat 32 (wrap 32 (
        let x := readInt t.isSigned 32 o.c.toNat +
          ((List.range t.lanes).map fun j =>
            elemI t o.a j * readInt (t.isSigned && !mix) t.width (elemN t.width o.b j)).sum
        if sat then clampTo t.isSigned 32 x else x)))) ∧
  (∀ (t : Ty) (sat : Bool) (f : Nat → Int),
      (∀ j, j < t.lanes → (elemN t.width (intT t sat f) j : Int) =
        (if sat then max (if t.isSigned then -(2 ^ (t.width - 1)) else 0)
          (min (if t.isSigned then 2 ^ (t.width - 1) - 1 else 2 ^ t.width - 1) (f j)) else f j) % 2 ^ t.width) ∧
      (intT t sat f).toNat < 2 ^ (t.width * t.lanes))

/-- R130: DIV and REM complete in every thread, whatever the operands. DIV rounds the quotient toward zero; REM gives
A − B × DIV(A, B), with the sign of A; and the results at the limits. -/
def Obligations.DivisionResults : Prop :=
  (∀ t d a b, Computes (.div t d a b) [tdst t d, tsrc .a t a, tsrc .b t b]
    fun o th => th.putT t d (intT t false fun j => divI t.isSigned t.width (elemI t o.a j) (elemI t o.b j))) ∧
  (∀ t d a b, Computes (.rem t d a b) [tdst t d, tsrc .a t a, tsrc .b t b]
    fun o th => th.putT t d (intT t false fun j => remI t.isSigned t.width (elemI t o.a j) (elemI t o.b j))) ∧
  (∀ (sg : Bool) (w : Nat) (a b : Int),
    (b = 0 → divI sg w a b = (if sg then -1 else 2 ^ w - 1) ∧ remI sg w a b = a) ∧
    (sg = true → a = -(2 ^ (w - 1)) → b = -1 → divI sg w a b = a ∧ remI sg w a b = 0) ∧
    (b ≠ 0 → ¬ (sg = true ∧ a = -(2 ^ (w - 1)) ∧ b = -1) →
      divI sg w a b = Int.tdiv a b ∧ remI sg w a b = a - b * Int.tdiv a b ∧ (remI sg w a b).natAbs < b.natAbs ∧
        (remI sg w a b = 0 ∨ (remI sg w a b < 0 ↔ a < 0))))

/-- The logic instructions, SEL, CLZ, POPC, BREV, BFX and BFI complete (R126, R133), and what CLZ, POPC, BREV, BFX and
BFI give, bit by bit. -/
def Obligations.LogicAndBitsComplete : Prop :=
  ((∀ t d a b, Computes (.band t d a b) [tdst t d, tsrc .a t a, tsrc .b t b] fun o th => th.putT t d (o.a &&& o.b)) ∧
    (∀ t d a b, Computes (.bor t d a b) [tdst t d, tsrc .a t a, tsrc .b t b] fun o th => th.putT t d (o.a ||| o.b)) ∧
    (∀ t d a b, Computes (.bxor t d a b) [tdst t d, tsrc .a t a, tsrc .b t b] fun o th => th.putT t d (o.a ^^^ o.b)) ∧
    (∀ t d a b, Computes (.bandn t d a b) [tdst t d, tsrc .a t a, tsrc .b t b] fun o th => th.putT t d (o.a &&& ~~~o.b)) ∧
    (∀ t d a imm, Computes (.andi t d a imm) [tdst t d, tsrc .a t a] fun o th => th.putT t d (o.a &&& immT t imm)) ∧
    (∀ t d a imm, Computes (.ori t d a imm) [tdst t d, tsrc .a t a] fun o th => th.putT t d (o.a ||| immT t imm)) ∧
    (∀ t d a imm, Computes (.xori t d a imm) [tdst t d, tsrc .a t a] fun o th => th.putT t d (o.a ^^^ immT t imm)) ∧
    (∀ t d a b c, Computes (.sel t d a b c) [tdst t d, tsrc .a t a, tsrc .b t b, src .c c]
      fun o th => th.putT t d (if o.c = 0 then o.b else o.a))) ∧
  ((∀ t d a, Computes (.clz t d a) [dst d, tsrc .a t a] fun o th => th.put d.toNat (BitVec.ofNat 32 (clzN t.width o.a.toNat))) ∧
    (∀ t d a, Computes (.popc t d a) [dst d, tsrc .a t a] fun o th => th.put d.toNat (BitVec.ofNat 32 (popcN t.width o.a.toNat))) ∧
    (∀ t d a, Computes (.brev t d a) [tdst t d, tsrc .a t a] fun o th => th.putT t d (BitVec.ofNat 128 (brevN t.width o.a.toNat))) ∧
    (∀ t d a pos len1, Computes (.bfx t d a pos len1) [tdst t d, tsrc .a t a]
      fun o th => th.putT t d (bfxV t pos.toNat (len1.toNat + 1) o.a)) ∧
    (∀ t d a b pos len1, Computes (.bfi t d a b pos len1) [tdst t d, tsrc .a t a, tsrc .b t b]
      fun o th => th.putT t d (bfiV t pos.toNat (len1.toNat + 1) o.a o.b))) ∧
  ((∀ w x : Nat, x < 2 ^ w → clzN w x ≤ w ∧ x < 2 ^ (w - clzN w x) ∧ (clzN w x < w → x.testBit (w - 1 - clzN w x) = true)) ∧
    (∀ w x : Nat, popcN w x = ((List.range w).filter fun i => x.testBit i).length) ∧
    (∀ w x i : Nat, i < w → (brevN w x).testBit i = x.testBit (w - 1 - i)) ∧
    (∀ (t : Ty) (pos len i : Nat) (a b : BitVec 128), pos + len ≤ t.width → t.width ≤ 64 → i < t.width →
      (bfiV t pos len a b).getLsbD i = (if pos ≤ i ∧ i < pos + len then b.getLsbD (i - pos) else a.getLsbD i)) ∧
    (∀ (t : Ty) (pos len i : Nat) (a : BitVec 128), 0 < len → pos + len ≤ t.width → t.width ≤ 64 → i < t.width →
      (bfxV t pos len a).getLsbD i = (if i < len then a.getLsbD (pos + i) else t.isSigned && a.getLsbD (pos + len - 1))))

/-- R132: LOP3 completes; bit i of its result is the bit of the table that bits i of a, b and c select; table 0x96
gives a ^ b ^ c and 0xE8 the majority; mod bits 15:8 are reserved. -/
def Obligations.Lop3Bits : Prop :=
  (∀ t d a b c table, Computes (.lop3 t d a b c table) [tdst t d, tsrc .a t a, tsrc .b t b, tsrc .c t c]
    fun o th => th.putT t d (lop3V t table o.a o.b o.c)) ∧
  (∀ (t : Ty) (table : BitVec 8) (a b c : BitVec 128) (i : Nat), i < t.width → t.width ≤ 128 →
    (lop3V t table a b c).getLsbD i =
      table.getLsbD ((a.getLsbD i).toNat * 4 + (b.getLsbD i).toNat * 2 + (c.getLsbD i).toNat) ∧
    (lop3V t 0x96 a b c).getLsbD i = (a ^^^ b ^^^ c).getLsbD i ∧
    (lop3V t 0xE8 a b c).getLsbD i = ((a &&& b) ||| (a &&& c) ||| (b &&& c)).getLsbD i) ∧
  (∀ (fn : BitVec 4) (d a b c : VReg) (x table : BitVec 8), x ≠ 0 →
    decodeWord (fr 0x17 fn d a b c (x ++ table)) = .error .reservedField)

/-- R129: the shifts complete, in each element by the count of the corresponding element of V(b), or by the immediate;
their results on a w-bit value, bit by bit, for every count; an immediate of 32 or more for code 0, and of 64 or more
for code 2, is reserved. -/
def Obligations.ShiftResults : Prop :=
  ((∀ t d a b, Computes (.shl t d a b) [tdst t d, tsrc .a t a, tsrc .b t b]
      fun o th => th.putT t d (mapT t fun j => shlN t.width (elemN t.width o.a j) (elemN t.width o.b j))) ∧
    (∀ t d a b, Computes (.shr t d a b) [tdst t d, tsrc .a t a, tsrc .b t b]
      fun o th => th.putT t d (mapT t fun j => shrN t.width (elemN t.width o.a j) (elemN t.width o.b j))) ∧
    (∀ t d a b, Computes (.sar t d a b) [tdst t d, tsrc .a t a, tsrc .b t b]
      fun o th => th.putT t d (mapT t fun j => sarN t.width (elemN t.width o.a j) (elemN t.width o.b j))) ∧
    (∀ t d a b, Computes (.rot t d a b) [tdst t d, tsrc .a t a, tsrc .b t b]
      fun o th => th.putT t d (mapT t fun j => rotN t.width (elemN t.width o.a j) (elemN t.width o.b j))) ∧
    (∀ t d a n, Computes (.shli t d a n) [tdst t d, tsrc .a t a]
      fun o th => th.putT t d (mapT t fun j => shlN t.width (elemN t.width o.a j) n.toNat)) ∧
    (∀ t d a n, Computes (.shri t d a n) [tdst t d, tsrc .a t a]
      fun o th => th.putT t d (mapT t fun j => shrN t.width (elemN t.width o.a j) n.toNat)) ∧
    (∀ t d a n, Computes (.sari t d a n) [tdst t d, tsrc .a t a]
      fun o th => th.putT t d (mapT t fun j => sarN t.width (elemN t.width o.a j) n.toNat))) ∧
  ((∀ (w x n i : Nat), 0 < w → x < 2 ^ w → i < w →
      (shlN w x n).testBit i = (decide (n ≤ i) && x.testBit (i - n)) ∧
      (shrN w x n).testBit i = (decide (i + n < w) && x.testBit (i + n)) ∧
      (sarN w x n).testBit i = x.testBit (min (i + n) (w - 1)) ∧
      (rotN w x n).testBit i = x.testBit ((i + w - n % w) % w)) ∧
    (∀ (d a : VReg) (imm : BitVec 34), ∀ op ∈ [0x1C#8, 0x1D#8, 0x1E#8],
      (32 ≤ imm.toNat → decodeWord (fi op 0 d a imm) = .error .reservedValue) ∧
      (64 ≤ imm.toNat → decodeWord (fi op 2 d a imm) = .error .reservedValue)))

/-- CMP, CMPI, LEA, CVTI and SATN complete (R128, R134, R135). -/
def Obligations.CompareAndConvertComplete : Prop :=
  (∀ t d a b c, Computes (.cmp t d a b c) [dst d, tsrc .a t a, tsrc .b t b]
    fun o th => th.put d.toNat ((condT t fun j =>
      intCond c t.isSigned t.width (elemN t.width o.a j) (elemN t.width o.b j)).setWidth 32)) ∧
  (∀ c d a imm, Computes (.cmpi c d a imm) [dst d, src .a a]
    fun o th => th.put d.toNat (if intCond c true 32 o.a.toNat (imm.setWidth 32).toNat then 1 else 0)) ∧
  (∀ t d a b sh, Computes (.lea t d a b sh) [dst d 2, src .a a 2, src .b b]
    fun o th => th.put64 d.toNat (o.a.setWidth 64 +
      (if t.isSigned then (o.b.setWidth 32).signExtend 64 else (o.b.setWidth 32).setWidth 64) <<< sh.toNat)) ∧
  (∀ d a x y, Computes (.cvti d a x y) [dst d y.regs, src .a a x.regs]
    fun o th => th.putN d.toNat y.regs (convV false x y o.a)) ∧
  (∀ d a x y, Computes (.satn d a x y) [dst d y.regs, src .a a x.regs]
    fun o th => th.putN d.toNat y.regs (convV true x y o.a))

/-- R134: the integer conditions on w-bit values, and what a scalar or packed comparison writes. R135: a conversion
keeps the low bits or clamps, and a narrow result is extended to 32 bits. -/
def Obligations.ConditionAndConversionResults : Prop :=
  ((∀ (sg : Bool) (w a b : Nat), a < 2 ^ w → b < 2 ^ w →
      intCond .eq sg w a b = decide (a = b) ∧ intCond .ne sg w a b = decide (a ≠ b) ∧
      intCond .lt sg w a b = decide (readInt sg w a < readInt sg w b) ∧
      intCond .le sg w a b = decide (readInt sg w a ≤ readInt sg w b) ∧
      intCond .gt sg w a b = decide (readInt sg w a > readInt sg w b) ∧
      intCond .ge sg w a b = decide (readInt sg w a ≥ readInt sg w b) ∧
      intCond .ltu sg w a b = decide (a < b) ∧ intCond .leu sg w a b = decide (a ≤ b) ∧
      intCond .gtu sg w a b = decide (a > b) ∧ intCond .geu sg w a b = decide (a ≥ b)) ∧
    (∀ (w : Nat) (x : BitVec w), 0 < w → readInt true w x.toNat = x.toInt ∧ readInt false w x.toNat = (x.toNat : Int)) ∧
    (∀ (a b : Val),
      (floatCond .uno a b = (a.isNan || b.isNan)) ∧ (floatCond .ord a b = !(a.isNan || b.isNan)) ∧
      (floatCond .ne a b = !(floatCond .eq a b)) ∧
      ((a.isNan || b.isNan) = true → ∀ c ∈ [Cond.eq, .lt, .le, .gt, .ge], floatCond c a b = false) ∧
      floatCond .eq (.fin true 0 0) (.fin false 0 0) = true) ∧
    (∀ (t : Ty) (f : Nat → Bool), t.lanes = 1 → condT t f = if f 0 then 1 else 0) ∧
    (∀ (t : Ty) (f : Nat → Bool) (j : Nat), 1 < t.lanes → j < t.lanes →
      elemN t.width (condT t f) j = if f j then 2 ^ t.width - 1 else 0)) ∧
  (∀ (clamp : Bool) (x y : CvtTy) (a : BitVec 128),
      let v := readInt x.isSigned x.width a.toNat
      let r := (convV clamp x y a).toNat
      (readInt y.isSigned y.width r =
        if clamp then clampTo y.isSigned y.width v
        else readInt y.isSigned y.width (wrap y.width v)) ∧
      (y.width < 32 → r < 2 ^ 32 ∧ readInt y.isSigned 32 r = readInt y.isSigned y.width r) ∧
      (32 ≤ y.width → r < 2 ^ y.width))

/-! ### Floating point (R56 to R65, R136 to R143) -/

/-- The exact floating-point instructions complete: each element's operands under the modifiers, one exact result,
rounded once (R137, R138). The approximated functions and the conversions complete; FCVT also steps the thread's
generator once for each element that it converts under SR (R65, R139 to R143). Rests on the model's own readings and
choices in log entries 11 and 21. -/
def Obligations.FloatInstructionsComplete : Prop :=
  ((∀ t d a b m, Computes (.fadd t d a b m) [tdst t d, tsrc .a t a, tsrc .b t b]
      fun o th => th.putT t d (floatT t m th fun rm j => Val.add rm (fopA t m th o j) (fopB t m th o j))) ∧
    (∀ t d a b m, Computes (.fsub t d a b m) [tdst t d, tsrc .a t a, tsrc .b t b]
      fun o th => th.putT t d (floatT t m th fun rm j => Val.add rm (fopA t m th o j) (fopB t m th o j).neg)) ∧
    (∀ t d a b m, Computes (.fmul t d a b m) [tdst t d, tsrc .a t a, tsrc .b t b]
      fun o th => th.putT t d (floatT t m th fun _ j => Val.mul (fopA t m th o j) (fopB t m th o j))) ∧
    (∀ t d a b c m, Computes (.ffma t d a b c m) [tdst t d, tsrc .a t a, tsrc .b t b, tsrc .c t c]
      fun o th => th.putT t d (floatT t m th fun rm j =>
        Val.add rm (Val.mul (fopA t m th o j) (fopB t m th o j)) (fopC t m th o j))) ∧
    (∀ t d a b m, Computes (.fdiv t d a b m) [tdst t d, tsrc .a t a, tsrc .b t b]
      fun o th => th.putT t d (floatT t m th fun _ j => Val.div (fopA t m th o j) (fopB t m th o j))) ∧
    (∀ t d a m, Computes (.fsqrt t d a m) [tdst t d, tsrc .a t a]
      fun o th => th.putT t d (floatT t m th fun _ j => Val.sqrt (fopA t m th o j))) ∧
    (∀ t d a b m, Computes (.fmin t d a b m) [tdst t d, tsrc .a t a, tsrc .b t b]
      fun o th => th.putT t d (floatT t m th fun _ j => Val.min2 (fopA t m th o j) (fopB t m th o j))) ∧
    (∀ t d a b m, Computes (.fmax t d a b m) [tdst t d, tsrc .a t a, tsrc .b t b]
      fun o th => th.putT t d (floatT t m th fun _ j => Val.max2 (fopA t m th o j) (fopB t m th o j))) ∧
    (∀ t d a b c m, Computes (.fcmp t d a b c m) [dst d, tsrc .a t a, tsrc .b t b]
      fun o th => th.put d.toNat ((condT t fun j => floatCond c (fopA t m th o j) (fopB t m th o j)).setWidth 32)) ∧
    (∀ t d a m, Computes (.frnd t d a m) [tdst t d, tsrc .a t a]
      fun o th => th.putT t d (floatT t m th fun rm j => Val.roundInt rm (fopA t m th o j)))) ∧
  ((∀ t d a m, Computes (.frcp t d a m) [tdst t d, tsrc .a t a] fun o th => th.putT t d (frcpV t m th o)) ∧
    (∀ t d a m, Computes (.frsq t d a m) [tdst t d, tsrc .a t a] fun o th => th.putT t d (approxV t m approxRsq th o)) ∧
    (∀ t d a m, Computes (.fexp2 t d a m) [tdst t d, tsrc .a t a] fun o th => th.putT t d (approxV t m approxExp2 th o)) ∧
    (∀ t d a m, Computes (.flog2 t d a m) [tdst t d, tsrc .a t a] fun o th => th.putT t d (approxV t m approxLog2 th o)) ∧
    (∀ t d a m, Computes (.fsin t d a m) [tdst t d, tsrc .a t a]
      fun o th => th.putT t d (approxV t m (fun f _ => approxSin f) th o)) ∧
    (∀ t d a m, Computes (.fcos t d a m) [tdst t d, tsrc .a t a]
      fun o th => th.putT t d (approxV t m (fun f _ => approxCos f) th o)) ∧
    (∀ t d a m, Computes (.ftanh t d a m) [tdst t d, tsrc .a t a]
      fun o th => th.putT t d (approxV t m (fun f _ => approxTanh f) th o)) ∧
    (∀ t d a b m, Computes (.fscale t d a b m) [tdst t d, tsrc .a t a, src .b b]
      fun o th => th.putT t d (fscaleV t m th o)) ∧
    (∀ t x d a b m, Computes (.fcvt t x d a b m)
      ((if x.byteFloat then srcDst d else tdst x d) :: tsrc .a t a :: (if x.packedFloat then [tsrc .b t b] else []))
      fun o th => ({ th with rng := lfsrSteps (if m.rnd == .sr then (if x.packedFloat then 2 else 1) else 0) th.rng } : Thread).putT
        x d (fcvtV t x m th o).1) ∧
    (∀ t x d a m, Computes (.ftoi t x d a m) [tdst x d, tsrc .a t a] fun o th => th.putT x d (ftoiV t x m th o)) ∧
    (∀ t x d a m, Computes (.itof t x d a m) [tdst x d, tsrc .a t a] fun o th => th.putT x d (itofV t x m th o)) ∧
    (∀ t d a, Computes (.fclass t d a) [dst d, tsrc .a t a]
      fun o th => th.put d.toNat ((mapT t fun j => classMask (fmtOf t) (elemN t.width o.a j)).setWidth 32)))

/-- R62: what infinities, NaNs and signed zeros become in each format, under every rounding, with and without
saturation; in a block-scaled result the block's scale carries a NaN or an infinity. -/
def Obligations.SpecialOperandsConverted : Prop :=
  (∀ (f : Fmt), f ∈ [fp64, fp32, fp16, bf16, fE5m2] → ∀ (rm : RM) (neg : Bool),
    f.dec (f.round rm false (.inf neg)) = .inf neg ∧
    f.round rm true (.inf neg) = f.signed neg f.maxCode) ∧
  (∀ (f : Fmt), f ∈ [fE4m3, fE3m2, fE2m3, fE2m1] → ∀ (rm : RM) (sat neg : Bool),
    f.round rm sat (.inf neg) = f.signed neg f.maxCode) ∧
  (∀ (rm : RM) (sat : Bool), fp64.round rm sat .nan = 0x7FF8000000000000 ∧ fp32.round rm sat .nan = 0x7FC00000 ∧
    fp16.round rm sat .nan = 0x7E00 ∧ bf16.round rm sat .nan = 0x7FC0 ∧ fE5m2.round rm sat .nan = 0x7E ∧
    fE4m3.round rm sat .nan = 0x7F ∧ fE3m2.round rm sat .nan = 0 ∧ fE2m3.round rm sat .nan = 0 ∧ fE2m1.round rm sat .nan = 0) ∧
  (∀ (f : Fmt) (rm : RM) (sat neg : Bool) (e : Int), f.round rm sat (.fin neg 0 e) = if neg then 2 ^ f.signPos else 0) ∧
  (∀ (t : BTy) (xs : List (Val × RM)), (∃ x ∈ xs, x.1.isNan = true ∨ x.1.isInf = true) →
    renormalise t xs = (255, xs.map fun _ => 0))

/-- R61: a code of a format stands for a value that rounds to that code, under every rounding and either saturation.
R61's table of overflow, for a result of at least twice the largest finite value. R138: FMIN and FMAX choose an
operand; −0 is below +0; a NaN gives way to the other operand. R63: a conversion to an integer clamps; NaN gives 0,
the infinities the limits. -/
def Obligations.RoundingTable : Prop :=
  (∀ (f : Fmt), f ∈ [fp64, fp32, fp16, bf16, fE4m3, fE5m2, fE3m2, fE2m3, fE2m1] →
      ∀ (rm : RM) (sat neg : Bool) (x m : Nat) (e : Int), x < 2 ^ (f.signPos + 1) → f.dec x = .fin neg m e → f.round rm sat (f.dec x) = x) ∧
  (∀ (f : Fmt), f ∈ [fp64, fp32, fp16, bf16, fE4m3, fE5m2, fE3m2, fE2m3, fE2m1] →
      ∀ (rm : RM) (sat neg : Bool) (m : Nat) (e : Int), 0 < m →
        (2 ^ f.expBits - (f.bias : Int) ≤ (Nat.log2 m : Int) + e) →
        f.round rm sat (.fin neg m e) =
          if f.kind = .ieee ∧ sat = false ∧ (rm = .rne ∨ (rm = .rup ∧ neg = false) ∨ (rm = .rdn ∧ neg = true))
          then f.signed neg f.infCode else f.signed neg f.maxCode) ∧
  (∀ (a b : Val),
      (a.isNan = true → Val.min2 a b = b ∧ Val.max2 a b = b) ∧
      (b.isNan = true → Val.min2 a b = a ∧ Val.max2 a b = a) ∧
      (Val.min2 a b = a ∨ Val.min2 a b = b) ∧ (Val.max2 a b = a ∨ Val.max2 a b = b) ∧
      (a.isNan = false → b.isNan = false → a.below (Val.min2 a b) = false ∧ b.below (Val.min2 a b) = false ∧
        (Val.max2 a b).below a = false ∧ (Val.max2 a b).below b = false) ∧
      (∀ e g, Val.min2 (.fin true 0 e) (.fin false 0 g) = .fin true 0 e ∧ Val.min2 (.fin false 0 e) (.fin true 0 g) = .fin true 0 g ∧
        Val.max2 (.fin true 0 e) (.fin false 0 g) = .fin false 0 g ∧ Val.max2 (.fin false 0 e) (.fin true 0 g) = .fin false 0 e)) ∧
  (∀ (rm : RM) (lo hi : Int), lo ≤ 0 → 0 ≤ hi →
      Val.toInt rm lo hi .nan = 0 ∧ Val.toInt rm lo hi (.inf false) = hi ∧ Val.toInt rm lo hi (.inf true) = lo ∧
      (∀ v, lo ≤ Val.toInt rm lo hi v ∧ Val.toInt rm lo hi v ≤ hi) ∧
      (∀ neg m, Val.toInt rm lo hi (.fin neg m 0) = max lo (min hi (if neg then -(m : Int) else m))))

/-- R64: the rounding generator: GETS reads it, SETS writes it and stores 1 for 0; its value at thread creation; its
step. It is never zero once it is not. -/
def Obligations.RoundingGenerator : Prop :=
  (∀ s v t th, getsValue s v t th 0x052 = th.rng.toNat) ∧
  (∀ (th : Thread) (x : Word), (th.setSel 0x052 x).rng = if x = 0 then 1 else x) ∧
  (∀ (seed : BitVec 32) (lin tid : Nat),
    let g := seed ^^^ BitVec.ofNat 32 ((lin * 1024 + tid) * 0x9E3779B9 % 2 ^ 32)
    seedG seed lin tid = if g = 0 then 1 else g) ∧
  (∀ (s : State) (n : Nat) (l : Launch) exact lin core bs (t : Nat), t < (l.kernel exact).thr →
    ((s.newUnit n l exact lin core bs).thread t).rng = seedG l.seed lin t) ∧
  (∀ g : BitVec 32, lfsr g = if g.toNat % 2 = 1 then (g >>> 1) ^^^ 0x80200003#32 else g >>> 1) ∧
  (∀ g : BitVec 32, g ≠ 0 → lfsr g ≠ 0)

/-! ### Block-scaled and cross-lane instructions (R144 to R156) -/

/-- The block-scaled instructions complete on a path that is one whole home bundle: every lane's registers and the
bundle's sidecars take the renormalised blocks, and nothing else changes (R146 to R150). R144: a block-scaled
instruction on a path that is not one whole home bundle traps every thread of the path with BLOCK_INCOMPLETE, whose
info word is the path's slot mask. Rests on the model's own readings and choices in log entries 59 and 65. -/
def Obligations.BlockInstructions : Prop :=
  ((∀ d a b m, BlockComputes (.badd d a b m) [dst d, src .a a, src .b b] m.ty m.rnd d
      (wiseBlocks m a b 0 fun rm x y _ => Val.add rm x y)) ∧
    (∀ d a b m, BlockComputes (.bmul d a b m) [dst d, src .a a, src .b b] m.ty m.rnd d
      (wiseBlocks m a b 0 fun _ x y _ => Val.mul x y)) ∧
    (∀ d a b c m, BlockComputes (.bfma d a b c m) [dst d, src .a a, src .b b, src .c c] m.ty m.rnd d
      (wiseBlocks m a b c fun rm x y z => Val.add rm (Val.mul x y) z)) ∧
    (∀ d a b m, BlockComputes (.bmax d a b m) [dst d, src .a a, src .b b] m.ty m.rnd d
      (wiseBlocks m a b 0 fun _ x y _ => if x.isNan || y.isNan then .nan else Val.max2 x y)) ∧
    (∀ d a m, BlockComputes (.bnorm d a m) [dst d, src .a a] m.ty m.rnd d (wiseBlocks m a 0 0 fun _ x _ _ => x)) ∧
    (∀ d a m, BlockComputes (.bqnt d a m) [dst d, src .a a (nbOf m.ty)] m.ty m.rnd d
      fun _ _ ps => bqntBlocks m a ps) ∧
    (∀ d a, BundleDoes (.bset d a) [src .a a 2] (fun _ _ _ _ th => th)
      fun _ hb ps u => u.setSide hb d.toNat ((ps.headD (0, { regs := [] }, {})).2.2.a.setWidth 64)) ∧
    (∀ d a, BundleDoes (.bget d a) [dst d 2] (fun v hb _ _ th => th.put64 d.toNat (v.u.side hb a.toNat)) fun _ _ _ u => u) ∧
    (∀ d a m, BundleDoes (.bdeq d a m) [dst d (nbOf m.ty), src .a a]
      (fun v hb ps t th => (List.range (nbOf m.ty)).foldl (fun th s =>
        th.put (d.toNat + s) (BitVec.ofNat 32 (fp32.round (laneRM ps m.rnd th 0) false
          (negIf m.nega (blockVal v.u hb ps m.ty a.toNat s (laneOf t)))))) th) fun _ _ _ u => u) ∧
    (∀ d a x m, (nbOf m.ty = 8 ∧ nbOf x = 4) → BundleDoes (.bcvt d a x m) [dst d 2, src .a a]
      (fun v hb ps t th =>
        ((stepLane m.rnd 8 th).put d.toNat (laneWord x (laneOf t) ((bcvtBlocks m x a v hb ps).take 4))).put (d.toNat + 1)
          (laneWord x (laneOf t) ((bcvtBlocks m x a v hb ps).drop 4)))
      fun v hb ps u => (u.setSide hb d.toNat (sideWord ((bcvtBlocks m x a v hb ps).take 4))).setSide hb (d.toNat + 1)
        (sideWord ((bcvtBlocks m x a v hb ps).drop 4))) ∧
    (∀ d a x m, ¬ (nbOf m.ty = 8 ∧ nbOf x = 4) →
      BundleDoes (.bcvt d a x m) [dst d, src .a a (if nbOf m.ty == 4 && nbOf x == 8 then 2 else 1)]
        (fun v hb ps t th => (stepLane m.rnd (max (nbOf m.ty) (nbOf x)) th).put d.toNat
          (laneWord x (laneOf t) (bcvtBlocks m x a v hb ps)))
        fun v hb ps u => u.setSide hb d.toNat (sideWord (bcvtBlocks m x a v hb ps)))) ∧
  ((∀ d a, IncompleteTraps (.bset d a) [src .a a 2]) ∧ (∀ d a, IncompleteTraps (.bget d a) [dst d 2]) ∧
    (∀ d a b m, IncompleteTraps (.badd d a b m) [dst d, src .a a, src .b b]) ∧
    (∀ d a b m, IncompleteTraps (.bmul d a b m) [dst d, src .a a, src .b b]) ∧
    (∀ d a b c m, IncompleteTraps (.bfma d a b c m) [dst d, src .a a, src .b b, src .c c]) ∧
    (∀ d a b m, IncompleteTraps (.bmax d a b m) [dst d, src .a a, src .b b]) ∧
    (∀ d a m, IncompleteTraps (.bnorm d a m) [dst d, src .a a]) ∧
    (∀ d a m, IncompleteTraps (.bqnt d a m) [dst d, src .a a (nbOf m.ty)]) ∧
    (∀ d a m, IncompleteTraps (.bdeq d a m) [dst d (nbOf m.ty), src .a a]) ∧
    (∀ d a x m, IncompleteTraps (.bcvt d a x m)
      [dst d (if nbOf m.ty == 8 && nbOf x == 4 then 2 else 1), src .a a (if nbOf m.ty == 4 && nbOf x == 8 then 2 else 1)]))

/-- R71: a result block's scale and elements: 0xFF and +0 for a block with a NaN or an infinity; 0 and signed zeros
for a block of zeros; otherwise the scale is the binade of the greatest magnitude less the type's largest, biased by
127 and clamped to 0 to 254, and each element is its value over that scale, rounded, saturating at the largest finite
value. -/
def Obligations.RenormalisedScale : Prop :=
  (∀ (t : BTy) (xs : List (Val × RM)),
    ((∃ x ∈ xs, x.1.isNan = true ∨ x.1.isInf = true) → renormalise t xs = (255, xs.map fun _ => 0)) ∧
    ((∀ x ∈ xs, x.1.isZero = true) → renormalise t xs = (0, xs.map fun x => zeroElem t x.1)) ∧
    (∀ neg m e rm, (.fin neg m e, rm) ∈ xs → 0 < m → (∀ x ∈ xs, x.1.isNan = false ∧ x.1.isInf = false ∧
        (Val.fin neg m e).abs.lt x.1.abs = false) →
      let c : Int := min (max ((Nat.log2 m : Int) + e - emaxOf t + 127) 0) 254
      renormalise t xs = (c.toNat, xs.map fun x => elemOf t x.2 (x.1.scale (127 - c))))) ∧
  (emaxOf .e4m3 = 8 ∧ emaxOf .e5m2 = 15 ∧ emaxOf .e3m2 = 4 ∧ emaxOf .e2m3 = 2 ∧ emaxOf .e2m1 = 2 ∧ emaxOf .int8 = 0) ∧
  (∀ t f rm v, bfmt? t = some f → elemOf t rm v = f.round rm true v ∧ zeroElem t v = if v.isNeg then 2 ^ f.signPos else 0) ∧
  (∀ (rm : RM) (neg : Bool) (m k : Nat) v, zeroElem .int8 v = 0 ∧
    elemOf .int8 rm (.fin neg m (k - 6)) = if neg then (256 - min 127 (m * 2 ^ k)) % 256 else min 127 (m * 2 ^ k))

/-- The cross-lane instructions complete: each thread's result comes from the operands of the path's threads, by slot
(R152 to R156). R153: the source slot of SHFL in each mode, and none outside 0 to 31. R155: an integer RED adds every
slot's element exactly modulo 2^w, whatever the tree's order, and slots outside the path count as zero. Rests on the
model's own readings and choices in log entries 21, 59 and 65. -/
def Obligations.CrossLaneComputes : Prop :=
  ((∀ t d a b mode imm off, PathComputes (.shfl t d a b mode imm off) (tdst t d :: tsrc .a t a :: (if imm then [] else [src .b b]))
      fun v ps i th o => th.putT t d
        (((shflSlot mode (v.b.slotOf i) (if imm then off.toNat else o.b.toNat)).bind (slotVal v ps)).getD o.a)) ∧
    (∀ d a mode, PathComputes (.vote d a mode) [dst d, src .a a]
      fun v ps _ th _ => th.put d.toNat ((BitVec.ofNat 128 (voteV mode (slotA v ps))).setWidth 32)) ∧
    (∀ t d a op rnd, PathComputes (.red t d a op rnd) [tdst t d, tsrc .a t a]
      fun v ps _ th _ => th.putT t d (BitVec.ofNat 128 (redV t op rnd v ps))) ∧
    (∀ t d a op rnd excl, PathComputes (.scan t d a op rnd excl) [tdst t d, tsrc .a t a]
      fun v ps i th _ => th.putT t d (BitVec.ofNat 128 (scanV t op rnd excl v ps (v.b.slotOf i)))) ∧
    (∀ t d a, PathComputes (.vmatch t d a false) [dst d, tsrc .a t a]
      fun v ps _ th o => th.put d.toNat ((BitVec.ofNat 128 (slotMask (slotA v ps) (· == o.a))).setWidth 32)) ∧
    (∀ t d a, PathComputes (.vmatch t d a true) [dst d, tsrc .a t a]
      fun v ps _ th o => th.put d.toNat (if (slotA v ps).all (·.2 == o.a) then 1 else 0)) ∧
    (∀ d a, PathComputes (.elect d a false) [dst d]
      fun v ps i th _ => th.put d.toNat (if (slotA v ps).head?.map (·.1) = some (v.b.slotOf i) then 1 else 0)) ∧
    (∀ d a, PathComputes (.elect d a true) [dst d, src .a a]
      fun v ps i th _ => th.put d.toNat
        (if ((slotA v ps).find? (·.2 != 0)).map (·.1) = some (v.b.slotOf i) then 1 else 0)) ∧
    (∀ t d a slot, PathComputes (.bcast t d a true slot) [tdst t d, tsrc .a t a]
      fun v ps _ th o => th.putT t d ((slotVal v ps slot.toNat).getD o.a)) ∧
    (∀ t d a slot, PathComputes (.bcast t d a false slot) [tdst t d, tsrc .a t a]
      fun v ps _ th o => th.putT t d (((slotA v ps).head?.map (·.2)).getD o.a))) ∧
  (∀ (i n : Nat), i < 32 →
      shflSlot .idx i n = (if n < 32 then some n else none) ∧
      (∀ j, shflSlot .up i n = some j ↔ j + n = i) ∧
      (∀ j, shflSlot .down i n = some j ↔ j = i + n ∧ j < 32) ∧
      (∀ j, shflSlot .xor i n = some j ↔ j = i ^^^ n ∧ n < 32)) ∧
  (∀ (t : Ty) (v : View) (ps : Parts) (rnd : Rnd), t.float = false → 0 < t.width →
      redV t .add rnd v ps =
        ((List.range 32).map fun j => match slotVal v ps j with | some x => x.toNat % 2 ^ t.width | none => 0).sum % 2 ^ t.width)

/-! ### Control, waiting, slices and traps (R26 to R37, R112 to R116, R157 to R168, R177, R179) -/

/-- The control transfers complete: each thread goes to the next word, or, at the end of its clause, to its target
header; CALL and CALLR push a frame record and RET pops one (R37, R157, R158). R158: a frame record's four words, what
a push leaves alone, and that a return from it restores sp and fp and finds the return header. -/
def Obligations.ControlTransfers : Prop :=
  ((∀ c a off, Proceeds (.br c a off) [src .a a] (fun _ _ _ _ _ => True) (fun _ _ _ th _ => th)
      fun v _ o => if brTaken c (o.a.setWidth 32) then some (branchTarget v.p off) else none) ∧
    (∀ off, Proceeds (.bra off) [] (fun _ _ _ _ _ => True) (fun _ _ _ th _ => th) fun v _ _ => some (branchTarget v.p off)) ∧
    (∀ a, Proceeds (.jmpr a) [src .a a 2] (fun _ _ _ _ _ => True) (fun _ _ _ th _ => th) fun _ _ o => some (o.a.setWidth 64)) ∧
    (∀ off, Proceeds (.call off) [] (fun _ v _ th _ => ∀ k < 4, (th.sp + BitVec.ofNat 32 k).toNat < v.u.npriv)
      (fun _ v _ th _ => th.push v.p.nextHeader 0) fun v _ _ => some (branchTarget v.p off)) ∧
    (∀ a, Proceeds (.callr a) [src .a a 2] (fun _ v _ th _ => ∀ k < 4, (th.sp + BitVec.ofNat 32 k).toNat < v.u.npriv)
      (fun _ v _ th _ => th.push v.p.nextHeader 0) fun _ _ o => some (o.a.setWidth 64)) ∧
    Proceeds .ret [] (fun _ v _ th _ => ∀ k < 4, (th.fp - 4 + BitVec.ofNat 32 k).toNat < v.u.npriv)
      (fun _ _ _ th _ => { th with sp := th.fp - 4, fp := th.fp + th.pw (th.fp - 2) })
      (fun _ th _ => some (th.retPc th.fp)) ∧
    (∀ (p : Path) off, branchTarget p off = p.hdr.setWidth 64 + 8 * off.signExtend 64) ∧
    ∀ (th : Thread) f, th.retPc f = ((th.pw (f - 3)).setWidth 24 ++ th.pw (f - 4) : Pc).setWidth 64) ∧
  (∀ (th : Thread) (ret : DWord) (mark : Word),
      let q := th.push ret mark
      q.sp = th.sp + 4 ∧ q.fp = th.sp + 4 ∧
      q.pw th.sp = ret.setWidth 32 ∧ q.pw (th.sp + 1) = ((ret >>> 32).setWidth 24).setWidth 32 ∧
      q.pw (th.sp + 2) = th.fp - (th.sp + 4) ∧ q.pw (th.sp + 3) = mark ∧
      (∀ i, i ∉ [th.sp, th.sp + 1, th.sp + 2, th.sp + 3] → q.pw i = th.pw i) ∧
      q.retPc q.fp = (ret.setWidth 56).setWidth 64 ∧ q.fp - 4 = th.sp ∧ q.fp + q.pw (q.fp - 2) = th.fp ∧
      q.regs = th.regs ∧ q.ctrs = th.ctrs)

/-- R162 and R195: TRAP, and BRK under debug, trap every thread of the path with the code. R157 and R28: a taken BR,
BRA, JMPR, CALL, CALLR or RET to an address that is no header address traps the thread at its target with
ILLEGAL_CLAUSE, sub-cause 7; a CALL, CALLR, MARK or RET whose frame record has a word at or beyond the private limit
traps at the instruction with its first such word, and pushes or pops nothing. The reserved register fields of R41 to
R43, R163 and R186 trap before anything is read: for every word, a path in each of whose threads the fields that it
names are reserved is TRAPPED with ILLEGAL_INSTR and the sub-cause of R46, 3 for a queue register misused or a carried
range beyond the declared count, else 4 for a register beyond the count or a misaligned group. Rests on the model's
own readings and choices in log entries 16 and 19. -/
def Obligations.TrapsTaken : Prop :=
  ((∀ code, Traps (.trap code) true [] (fun _ _ _ _ _ => True) fun _ _ _ _ => { cause := .software, info := code.setWidth 32 }) ∧
    (∀ code, Traps (.brk code) true [] (fun s v _ _ _ => s.debugOn v.u.ctx = true)
      fun _ _ _ _ => { cause := .breakpoint, info := code.setWidth 32 })) ∧
  ((∀ c a off, TransfersTrap (.br c a off) [src .a a] (fun _ _ _ _ o => brTaken c (o.a.setWidth 32) = true)
      fun v _ _ => branchTarget v.p off) ∧
    (∀ off, TransfersTrap (.bra off) [] (fun _ _ _ _ _ => True) fun v _ _ => branchTarget v.p off) ∧
    (∀ a, TransfersTrap (.jmpr a) [src .a a 2] (fun _ _ _ _ _ => True) fun _ _ o => o.a.setWidth 64) ∧
    (∀ off, TransfersTrap (.call off) [] (fun _ v _ th _ => privBad v.u.npriv th.sp 4 = none) fun v _ _ => branchTarget v.p off) ∧
    (∀ a, TransfersTrap (.callr a) [src .a a 2] (fun _ v _ th _ => privBad v.u.npriv th.sp 4 = none) fun _ _ o => o.a.setWidth 64) ∧
    TransfersTrap .ret [] (fun _ v _ th _ => privBad v.u.npriv (th.fp - 4) 4 = none) (fun _ th _ => th.retPc th.fp) ∧
    (∀ x, (∀ off, Traps (.call off) true [] (fun _ v _ th _ => privBad v.u.npriv th.sp 4 = some x)
        fun _ v _ _ => { cause := .privateLimit, info := BitVec.ofNat 32 v.u.npriv, addr := x.setWidth 64 }) ∧
      (∀ a, Traps (.callr a) true [src .a a 2] (fun _ v _ th _ => privBad v.u.npriv th.sp 4 = some x)
        fun _ v _ _ => { cause := .privateLimit, info := BitVec.ofNat 32 v.u.npriv, addr := x.setWidth 64 }) ∧
      (∀ off, Traps (.mark off) true [] (fun _ v _ th _ => privBad v.u.npriv th.sp 4 = some x)
        fun _ v _ _ => { cause := .privateLimit, info := BitVec.ofNat 32 v.u.npriv, addr := x.setWidth 64 }) ∧
      Traps .ret true [] (fun _ v _ th _ => privBad v.u.npriv (th.fp - 4) 4 = some x)
        fun _ v _ _ => { cause := .privateLimit, info := BitVec.ofNat 32 v.u.npriv, addr := x.setWidth 64 }) ∧
    (∀ p i n, privBad p i n = none ↔ ∀ k < n, (i + BitVec.ofNat 32 k).toNat < p) ∧
    ∀ p i n x, privBad p i n = some x →
      ∃ k < n, x = i + BitVec.ofNat 32 k ∧ p ≤ x.toNat ∧ ∀ j < k, (i + BitVec.ofNat 32 j).toNat < p) ∧
  ((∀ i s v sub, isPlainWord i = true → View.Open s v → v.u.role ≠ .prologue → v.p.tids ≠ [] → View.Misnamed v i sub →
      ∃ s0 u', (exec i s = .next s0 ∨ exec i s = .next (followed i v s0)) ∧ s0.unit? v.u.uid = some u' ∧ ∀ t ∈ v.p.tids,
        (u'.thread t).pos = v.p.pos ∧ (u'.thread t).st = .trapped (trapRec s v.u.ctx v.p.pos (s.illegal v sub)) ∧
        (u'.thread t).regs = (v.u.thread t).regs) ∧
    (∀ (s : State) (v : View) sub, (s.illegal v sub).cause = .illegalInstr ∧ (s.illegal v sub).sub = sub ∧ (s.illegal v sub).addr = v.p.pos.addr) ∧
    ∀ (th : Thread) nregs lane us, th.useBad nregs lane us =
      if ∃ x ∈ us, (x.range = true ∧ nregs < x.reg.toNat + x.n) ∨ ∃ i < x.n, ∃ k, th.queue? (x.reg.toNat + i) = some k ∧
          (x.n ≠ 1 ∨ x.base = true ∨ x.range = true ∨ lane = false ∨ (x.src = true ∧ (th.stream k).pat.dir = true) ∨
            (x.dst = true ∧ (th.stream k).pat.dir = false)) then some 3
      else if ∃ x ∈ us, x.range = false ∧ ¬ (x.n = 1 ∧ (th.queue? x.reg.toNat).isSome) ∧
          (nregs < x.reg.toNat + x.n ∨ x.reg.toNat % x.n ≠ 0) then some 4
      else none)

/-- NOP, YIELD, SLEEP, MARK, BRK and WAIT complete: a thread goes on, sleeps until its device time, pushes a
delimiter, or waits with its path for the counters (R161, R162, R164, R177). JOIN, EXIT and BAR complete: the threads
wait or have exited, and the joins, barriers and the end of the unit that this brings about follow at once (R115,
R159, R160, R179). A `.sync` thread that the phase it arrives at lets go on takes over what happens before the phase's
arrivals (R89). -/
def Obligations.WaitingInstructionsComplete : Prop :=
  (Computes .nop [] (fun _ th => th) ∧
    Proceeds .yield [] (fun _ _ _ _ _ => True) (fun _ _ _ th _ => th) (fun _ _ _ => none) ∧
    (∀ n, Proceeds (.sleep n) [] (fun _ _ _ _ _ => True)
      (fun s _ _ th _ => { th with st := .waiting (.sleep (s.dt + n.toNat)) }) fun _ _ _ => none) ∧
    (∀ off, Proceeds (.mark off) [] (fun _ v _ th _ => ∀ k < 4, (th.sp + BitVec.ofNat 32 k).toNat < v.u.npriv)
      (fun _ v _ th _ => th.push ((v.p.hdr + 8 * off.signExtend 56 : Pc).setWidth 64) 1) fun _ _ _ => none) ∧
    (∀ code, Proceeds (.brk code) [] (fun s v _ _ _ => s.debugOn v.u.ctx = false) (fun _ _ _ th _ => th) fun _ _ _ => none) ∧
    (∀ l sl c t f, Proceeds (.wait l sl c t f) []
      (fun _ v _ th _ => th.owed = [] ∧ ∀ i ∈ v.p.tids, withinLimits l sl c t f (v.u.thread i).ctrs = true)
      (fun _ _ _ th _ => th) fun _ _ _ => none) ∧
    (∀ l sl c t f, Proceeds (.wait l sl c t f) []
      (fun _ v _ _ _ => ∃ i ∈ v.p.tids, withinLimits l sl c t f (v.u.thread i).ctrs = false)
      (fun _ v _ th _ => { th with st := .waiting (.limits l sl c t f v.p.tids v.p.pos) }) fun _ _ _ => none)) ∧
  ((∀ d n, SettlesTo (.join d n) [dst d] (fun _ _ => True)
      (fun s _ _ th => { th with st := .waiting (.join d (s.kclk + n.toNat)) }) fun _ v => v.u) ∧
    SettlesTo .exit [] (fun _ _ => True)
      (fun _ _ _ th => { th with st := .exited, resv := none, streams := th.streams.map fun q => if q.pat.dir then q else {} })
      (fun _ v => v.u) ∧
    (∀ id arrive count, SettlesTo (.bar id arrive count) []
      (fun s v => ∀ t ∈ v.p.tids, s.released v.u.uid t .unit s.nextId = true)
      (fun s v t th =>
        let r := barAll (s.known v.u.uid) id.toNat count.toNat v.u v.p.tids
        if arrive then th
        else if r.2.1.contains t then { th with st := .waiting (.bar id.toNat) } else { th with seen := r.2.2 ++ th.seen })
      fun s v => (barAll (s.known v.u.uid) id.toNat count.toNat v.u v.p.tids).1))

/-- R179 and R192: a barrier phase whose arrivals reach its count is complete: its state is cleared, and every thread
that waits at it goes on; before that each arrival is kept. A phase of count 0 is complete when every thread that has
not exited has arrived; a TRAPPED one has not. -/
def Obligations.BarrierPhase : Prop :=
  ∀ (know : Nat → List Nat) (u : UnitSt) (id count t : Nat), id < 16 → u.bars.length = 16 →
    let b := u.bars.getD id {}
    let need := if b.arrived.isEmpty then count else b.need
    let r := barArrive know id count (u, [], []) t
    let full := if need = 0 then ∀ i ∈ u.living, i ∈ b.arrived ++ [t] ∧ (u.thread i).isTrapped = false else need ≤ b.arrived.length + 1
    (full → r.2.1 = [] ∧ r.1.bars.getD id {} = {} ∧
      ∀ i, i < u.threads.length → (u.thread i).st = .waiting (.bar id) → (r.1.thread i).st = .ready) ∧
    (¬ full → r.2.1 = [t] ∧ r.1.threads = u.threads ∧
      r.1.bars.getD id {} = { arrived := b.arrived ++ [t], need := need, deps := know t ++ b.deps })

/-- R193, R194 and R196: the trap record's position, and which causes end the unit: all but the four resumable ones,
and those where the context has no handler for them. R116, R194: the first user-fatal trap of an ordinary unit puts it
into DRAINING with its waiting threads stopped, and its record into the launch's fault record, whose code is 1 unless
the launch has failed before. Rests on the model's own readings and choices in log entries 19 and 69. -/
def Obligations.TrapRecordAndEnd : Prop :=
  ((∀ s c p t, (trapRec s c p t).trap = t ∧ (trapRec s c p t).dt = s.dt ∧ (trapRec s c p t).widx = p.widx ∧
      (trapRec s c p t).repk = p.rep ∧ (trapRec s c p t).header = p.hdr.setWidth 64 ∧
      (trapRec s c p t).pc = ((p.hdr + BitVec.ofNat 56 (8 * p.widx)).setWidth 64)) ∧
    (∀ s c cause, cause ∉ [Cause.streamEnd, .streamDead, .software, .breakpoint] → State.isFatal s c cause = true) ∧
    (∀ s c x, s.ctx? c = some x → State.isFatal s c .streamEnd = !x.desc.hmask.getLsbD 0 ∧
      State.isFatal s c .streamDead = !x.desc.hmask.getLsbD 1 ∧ State.isFatal s c .software = !x.desc.hmask.getLsbD 2 ∧
      State.isFatal s c .breakpoint = !x.desc.hmask.getLsbD 3)) ∧
  (∀ (s : State) (u : UnitSt) (r : TrapRec), s.unit? u.uid = some u → u.faulted = false → (u.role = .plain ∨ u.role = .exact) →
      ∃ u', (s.endUnit u r).unit? u.uid = some u' ∧ u'.st = .draining ∧ u'.faulted = true ∧
        (∀ t, t < u.threads.length → (u'.thread t).st = .inPath ∨ (∃ q, (u'.thread t).st = .trapped q) ∨ (u'.thread t).st = .exited) ∧
        (∀ t, t < u.threads.length → (u.thread t).st = .inPath → u'.thread t = u.thread t) ∧
        (∀ l, s.launch? u.launch = some l → (s.endUnit u r).launch? u.launch =
          some (if l.code = 0 then { l with code := 1, fault := some r } else l)) ∧
        (∀ n, n ≠ u.uid → (s.endUnit u r).unit? n = s.unit? n) ∧ (s.endUnit u r).mem = s.mem)

/-- R334: in a launch prologue every word outside the prologue's set, whose register fields are legal, traps with
ILLEGAL_INSTR sub-cause 5 and fails the launch with PINSTR (code 3) at its address; every word of the set fails it
with PLIMIT (code 4) once 1,024 instructions have been executed, and every load also once 128 loads have. Within its
limits a word of the set has its effect, and the launch counts it. R47: outside a prologue its instructions are
illegal, and so is GCHECK outside a surrogate. -/
def Obligations.PrologueInstructionSet : Prop :=
  ((∀ i s v l, isPlainWord i = true → inProSet i = false → View.Open s v → v.u.role = .prologue → v.p.tids ≠ [] →
      (∀ t ∈ v.p.tids, (v.u.thread t).useBad v.u.nregs (onLanes i) (namedBy i) = none) → v.u.faulted = false →
      s.launch? v.u.launch = some l → l.code = 0 →
      ∃ s0 u' l' r, (exec i s = .next s0 ∨ exec i s = .next (followed i v s0)) ∧ s0.unit? v.u.uid = some u' ∧
        (∀ t ∈ v.p.tids, ∃ r, (u'.thread t).st = .trapped r ∧ r.trap.cause = .illegalInstr ∧ r.trap.sub = 5) ∧
        s0.launch? v.u.launch = some l' ∧ l'.code = 3 ∧ l'.fault = some r ∧ r.trap.cause = .illegalInstr ∧ r.trap.addr = v.p.pos.addr) ∧
    (∀ i s v l, isPlainWord i = true → inProSet i = true → View.Open s v → v.u.role = .prologue → s.launch? v.u.launch = some l →
      l.code = 0 → (1024 ≤ l.pinsn ∨ (isProLoad i = true ∧ 128 ≤ l.ploads)) →
      ∃ s0 l', (exec i s = .next s0 ∨ exec i s = .next (followed i v s0)) ∧ s0.launch? v.u.launch = some l' ∧ l'.code = 4) ∧
    (∀ s v ops l t d a b, View.Open s v → v.u.role = .prologue → s.launch? v.u.launch = some l → l.pinsn < 1024 →
      View.AllRead s v true [tdst t d, tsrc .a t a, tsrc .b t b] ops →
      ∃ s', exec (.band t d a b) s = .next s' ∧
        View.Effect (s.updLaunch v.u.launch fun l => { l with pinsn := l.pinsn + 1 }) s' v v.u
          fun x => v.after ((ops x).1.putT t d ((ops x).2.a &&& (ops x).2.b)) none) ∧
    (∀ i, isPlainWord i = true → ∀ w, encode i = some w →
      let op := (fld w 56 8 : BitVec 8).toNat
      inProSet i = true ↔ op ≤ 0x2D ∨ op ∈ [0x80, 0x81, 0xA6, 0xE8, 0xE9, 0xEA, 0xEB] ∨
        (∃ w d m, i = .ld w d m ∧ (m.ord = .plain ∨ m.ord = .acq)) ∨
        ∃ d sel, i = .gets d sel ∧ sel.toNat ∈ [0x010, 0x011, 0x012, 0x020]) ∧
    (∀ d sel s v ops, View.Open s v → View.MayIssue s v (.gets d sel) → View.AllRead s v false [dst d (selRegs sel)] ops →
      ∃ s', exec (.gets d sel) s = .next s' ∧ View.Effect (s.counted v (.gets d sel)) s' v v.u fun t =>
        v.after ((ops t).1.putN d.toNat (selRegs sel) (BitVec.ofNat 128 (getsValue s v t (ops t).1 sel.toNat))) none)) ∧
  (∀ i us, ((∃ a sel, i = .lset a sel ∧ us = [src .a a (if lsetInfo sel == some true then 2 else 1)]) ∨ (i = .lcancel ∧ us = []) ∨
        (i = .lend ∧ us = []) ∨ (i = .lrepeat ∧ us = []) ∨ ∃ a, i = .gcheck a ∧ us = [src .a a]) →
      ∀ s v ops, View.Open s v → v.u.role ≠ .prologue → v.u.role ≠ .surrogate → v.p.tids ≠ [] → View.AllRead s v false us ops →
        ∃ s0 f, exec i s = .next (f s0) ∧ (f = State.settleLaunches ∨ f = State.settleUnit v.u.uid) ∧
          ∃ u0, s0.unit? v.u.uid = some u0 ∧ ∀ t ∈ v.p.tids, ∃ r, (u0.thread t).st = .trapped r ∧
            r.trap.cause = .illegalInstr ∧ r.trap.sub = 5)

/-- CUT, GRAFT and DROP complete for a path whose threads, one after another, cut, graft or drop without a fault.
R166: what a thread's CUT leaves: a slice of its private words from the delimiter's record to sp, and the carried
registers, in a free slot of the heap; the delimiter's link and return header; the handle in d. The walk stops at the
first frame with its mark set. A thread without one, or a heap without room, takes the slice fault, with no effect.
R166 to R168: what a thread's GRAFT leaves (its words, sp, fp, the carried registers and the resume header), and what
DROP does to the heap. Rests on the model's own readings and choices in log entry 57. -/
def Obligations.SliceInstructions : Prop :=
  ((∀ d a n s v ops c (g : Nat → Thread) (nx : Nat → DWord), View.Open s v → v.u.role ≠ .prologue → View.AllRead s v true (dst d :: carried a n.toNat) ops →
      s.ctx? v.u.ctx = some c →
      (sliceFold (fun c th _ => cutOne v d a n.toNat c th) c (v.parts ops)).2 = v.p.tids.map (fun t => (t, .ok (g t) (some (nx t)) [])) →
      (∀ t ∈ v.p.tids, v.p.advance = none ∧ (nx t).toNat < 2 ^ 56 ∧ (nx t).toNat % 8 = 0) →
      ∃ s', exec (.cut d a n) s = .next s' ∧
        View.Effect (s.updCtx v.u.ctx fun c => (sliceFold (fun c th _ => cutOne v d a n.toNat c th) c (v.parts ops)).1) s' v v.u
          fun t => v.after (g t) (some (nx t))) ∧
    (∀ a s v ops c, View.Open s v → v.u.role ≠ .prologue → View.AllRead s v true [src .a a] ops →
      s.ctx? v.u.ctx = some c →
      (sliceFold (fun c th o => dropOne c th o) c (v.parts ops)).2 = v.p.tids.map (fun t => (t, .ok (ops t).1 none [])) →
      ∃ s', exec (.drop a) s = .next s' ∧
        View.Effect (s.updCtx v.u.ctx fun c => (sliceFold (fun c th o => dropOne c th o) c (v.parts ops)).1) s' v v.u
          fun t => v.after (ops t).1 none) ∧
    (∀ a b s v ops c (g : Nat → Thread) (nx : Nat → DWord), View.Open s v → v.u.role ≠ .prologue → View.AllRead s v true [src .a a, src .b b] ops →
      s.ctx? v.u.ctx = some c →
      (∀ t ∈ v.p.tids, graftStall s v t (ops t).2 = false ∧ graftOne v c (ops t).1 (ops t).2 = .ok (g t) (some (nx t)) [] ∧
        v.p.advance = none ∧ (nx t).toNat < 2 ^ 56 ∧ (nx t).toNat % 8 = 0) →
      ∃ s', exec (.graft a b) s = .next s' ∧ View.Effect s s' v v.u fun t => v.after (g t) (some (nx t)))) ∧
  ((∀ (v : View) (d a : VReg) (n : Nat) (c : Ctx) (th : Thread) (k slot : Nat),
      let f := th.frame k
      let x : Slice :=
        { slot := slot, words := (List.range (th.sp.toNat - (f.toNat - 4))).map fun j => th.pw (BitVec.ofNat 32 (f.toNat - 4 + j))
          fpOff := (th.fp - (f - 4)).toNat, resume := v.p.nextHeader.setWidth 56, dreg := d, a0 := a
          carried := (List.range n).map fun j => th.reg (a.toNat + j) }
      k < v.u.npriv → (∀ j ≤ k, 4 ≤ (th.frame j).toNat ∧ (th.frame j).toNat ≤ v.u.npriv) →
      (∀ j < k, (th.pw (th.frame j - 1)).getLsbD 0 = false) → (th.pw (f - 1)).getLsbD 0 = true →
      f.toNat ≤ th.sp.toNat → th.sp.toNat ≤ v.u.npriv → c.freeSlot = some slot → c.heapFits x.bytes = true →
      cutOne v d a n c th = ({ c with slices := c.slices ++ [x], nextSlot := (slot + 1) % 1024 },
        .ok ({ th with sp := f - 4, fp := f + th.pw (f - 2) }.put d.toNat
          (BitVec.ofNat 10 c.ctx ++ BitVec.ofNat 10 slot ++ c.genOf slot : Word)) (some (th.retPc f)) [])) ∧
    (∀ (c : Ctx) (slot : Nat), c.freeSlot = some slot → slot < 1024 ∧ ∀ x ∈ c.slices, x.slot ≠ slot) ∧
    (∀ (v : View) (d a : VReg) (n : Nat) (c : Ctx) (th : Thread), th.fp.toNat < 4 →
      cutOne v d a n c th = (c, .trap { cause := .slice, sub := 1 })) ∧
    (∀ (v : View) (d a : VReg) (n : Nat) (c : Ctx) (th : Thread), 4 ≤ th.fp.toNat → th.fp.toNat ≤ v.u.npriv →
      (th.pw (th.fp - 1)).getLsbD 0 = true →
      (th.sp.toNat < th.fp.toNat → cutOne v d a n c th = (c, .trap { cause := .slice, sub := 1 })) ∧
      (th.fp.toNat ≤ th.sp.toNat → v.u.npriv < th.sp.toNat → cutOne v d a n c th =
        (c, .trap { cause := .privateLimit, info := BitVec.ofNat 32 v.u.npriv, addr := (BitVec.ofNat 32 v.u.npriv).setWidth 64 })) ∧
      (th.fp.toNat ≤ th.sp.toNat → th.sp.toNat ≤ v.u.npriv → c.freeSlot = none →
        cutOne v d a n c th = (c, .trap { cause := .slice, sub := 2 })))) ∧
  ((∀ (v : View) (c : Ctx) (th : Thread) (o : Opnds) (x : Slice), c.slice? (o.a.setWidth 32) = .ok x →
      x.dreg.toNat < v.u.nregs → x.a0.toNat + x.carried.length ≤ v.u.nregs → th.sp.toNat + x.words.length ≤ v.u.npriv →
      v.u.npriv ≤ 65536 → 4 ≤ x.words.length → th.regs.length = v.u.nregs →
      ∃ th', graftOne v c th o = .ok th' (some (x.resume.setWidth 64)) [] ∧
        th'.sp = th.sp + BitVec.ofNat 32 x.words.length ∧ th'.fp = th.sp + BitVec.ofNat 32 x.fpOff ∧
        (∀ k, 3 ≤ k → k < x.words.length → th'.pw (th.sp + BitVec.ofNat 32 k) = x.words.getD k 0) ∧
        th'.retPc (th.sp + 4) = (v.p.nextHeader.setWidth 56).setWidth 64 ∧ th.sp + 4 + th'.pw (th.sp + 2) = th.fp ∧
        (∀ k, k < x.carried.length → x.a0.toNat + k ≠ x.dreg.toNat → th'.reg (x.a0.toNat + k) = x.carried.getD k 0) ∧
        th'.reg x.dreg.toNat = o.b.setWidth 32) ∧
    (∀ (c : Ctx) (th : Thread) (o : Opnds) (x : Slice), c.slice? (o.a.setWidth 32) = .ok x →
      (dropOne c th o).2 = .ok th none [] ∧ (dropOne c th o).1.slices = c.slices.filter (·.slot != x.slot) ∧
      (dropOne c th o).1.genOf x.slot = c.genOf x.slot + 1) ∧
    (∀ (v : View) (c : Ctx) (th : Thread) (o : Opnds) (sub : Nat), c.slice? (o.a.setWidth 32) = .error sub →
      graftOne v c th o = .trap { cause := .slice, sub := sub, info := o.a.setWidth 32 } ∧
      dropOne c th o = (c, .trap { cause := .slice, sub := sub, info := o.a.setWidth 32 })))

/-- The fences complete once what they wait for has come (R89, R92, R93, R176); FENCE.e2o stalls until the engine's
writes of its thread are visible everywhere. Rests on the model's own readings and choices in log entries 22 and
50. -/
def Obligations.FencesComplete : Prop :=
  (∀ ord scope, Proceeds (.fence ord scope) []
    (fun s v t _ _ => s.readsBack v.u.uid t = true ∧ (ord.isRel = true → s.released v.u.uid t scope s.nextId = true))
    (fun s v t th _ => s.fenced ord scope v.u.uid t th) fun _ _ _ => none) ∧
  (∀ s v i ord scope, View.Open s v → v.u.role ≠ .prologue → i = Instr.fence ord scope →
    (∃ t ∈ v.p.tids, s.readsBack v.u.uid t = false ∨ (ord.isRel = true ∧ s.released v.u.uid t scope s.nextId = false)) →
    exec i s = .next s) ∧
  (∀ scope, Proceeds (.fenceO2e scope) []
    (fun s v t _ _ => s.readsBack v.u.uid t = true ∧
      s.released v.u.uid t (if scope.beyondCore then scope else .dev) s.nextId = true)
    (fun _ _ _ th _ => th) fun _ _ _ => none) ∧
  (∀ scope s v, View.Open s v → v.u.role ≠ .prologue →
    (∀ t ∈ v.p.tids, (v.u.thread t).egwct = 0 ∨ (v.u.thread t).egwct.toNat < s.dt) →
    ∃ s', exec (.fenceE2o scope) s = .next s' ∧ View.Effect s s' v v.u.land fun t => v.after (v.u.thread t) none) ∧
  (∀ u : UnitSt, u.late = [] → u.land = u) ∧
  (∀ scope s v t, View.Open s v → v.u.role ≠ .prologue → t ∈ v.p.tids → (v.u.thread t).egwct ≠ 0 →
    s.dt ≤ (v.u.thread t).egwct.toNat → exec (.fenceE2o scope) s = .next s)

/-! ### Memory instructions (R36, R78 to R82, R169 to R182) -/

/-- R78: what one byte's translation needs at both stages, and that an address with bits above 55 is never translated.
Rests on the model's own readings and choices in log entry 6. -/
def Obligations.TranslationStages : Prop :=
  (∀ s c va acc pa, State.walk s c va acc = .ok pa → va < 2 ^ 56 ∧ ∃ m ∈ s.map1, ∃ m2 ∈ s.map2,
    m.root = s.root1 c ∧ m.va ≤ va ∧ va < m.va + m.size ∧ m.user = true ∧ m.allows acc = true ∧
    m2.root = s.root2 c ∧ m2.ipa ≤ m.ipa + (va - m.va) ∧ m.ipa + (va - m.va) < m2.ipa + m2.size ∧ m2.allows acc = true ∧
    m2.world = s.ctxWorld c ∧ s.portOpen m2.world = true ∧ pa / 65536 ∉ s.fw.retired ∧ pa = m2.pa + (m.ipa + (va - m.va) - m2.ipa)) ∧
  (∀ s c acc n (va : DWord), 2 ^ 56 ≤ va.toNat →
    State.reach s c va acc (n + 1) = .trap { cause := .unresolved, sub := 1, addr := va }) ∧
  (∀ s c va acc n pas, State.reach s c va acc n = .ok pas → pas.length = n ∧
    ∀ k, k < n → State.walk s c (va + BitVec.ofNat 64 k).toNat acc = .ok (pas.getD k 0))

/-- Loads and stores complete: every thread of the path has its access outstanding, at the bytes its address reaches,
and its counter raised (R32, R36, R80, R82, R169). Rests on the model's own readings and choices in log entries 12 and
22. -/
def Obligations.LoadsAndStoresPost : Prop :=
  (∀ w d m, PostsAccess (.ld w d m) [dst d w.regs, base m.base 2] .l
    (fun s v _ o => ∃ pas, s.reach v.u.ctx (gaddr o m.off) .r w.bytes = .ok pas)
    fun s v _ o => { sp := .global, addrs := s.bytesAt v.u.ctx (gaddr o m.off) .r w.bytes, va := gaddr o m.off
                     kind := .load d w, ord := m.ord, scope := m.scope }) ∧
  (∀ w d m, PostsAccess (.st w d m) [src .d d w.regs, base m.base 2] .s
    (fun s v _ o => ∃ pas, s.reach v.u.ctx (gaddr o m.off) .w w.bytes = .ok pas)
    fun s v _ o => { sp := .global, addrs := s.bytesAt v.u.ctx (gaddr o m.off) .w w.bytes, va := gaddr o m.off
                     kind := .store (leBytes w.bytes o.d.toNat), ord := m.ord, scope := m.scope }) ∧
  (∀ w d m, PostsAccess (.lds w d m) [dst d w.regs, base m.base 1] .l
    (fun _ v _ o => (saddr o m.off).toNat + w.bytes ≤ v.u.nscr)
    fun _ _ _ o => { sp := .scratch, addrs := span (saddr o m.off).toNat w.bytes, kind := .load d w, ord := m.ord }) ∧
  (∀ w d m, PostsAccess (.sts w d m) [src .d d w.regs, base m.base 1] .s
    (fun _ v _ o => (saddr o m.off).toNat + w.bytes ≤ v.u.nscr)
    fun _ _ _ o => { sp := .scratch, addrs := span (saddr o m.off).toNat w.bytes
                     kind := .store (leBytes w.bytes o.d.toNat), ord := m.ord }) ∧
  (∀ w d m, PostsAccess (.ldk w d m) [dst d w.regs, base m.base 1] .l
    (fun _ _ _ o => (saddr o m.off).toNat + w.bytes ≤ 4096)
    fun s v _ o => { sp := .scratch, addrs := [], kind := .fixed d w (w.extend
      ((s.launchOf v.u).consts.readN (span (saddr o m.off).toNat w.bytes))) })

/-- Atomics, LR, SC and the arrival-word instructions complete: at aligned addresses that they may reach, each posts
its access (R174, R175, R182). Rests on the model's own readings and choices in log entries 12 and 22. -/
def Obligations.AtomicsPost : Prop :=
  (∀ wide op d b off ord scope, PostsAccess (.atom false wide op d b off ord scope) [srcDst d (atomRegs op wide), base b 2] .s
    (fun s v _ o => (gaddr o off).toNat % (if wide then 8 else 4) = 0 ∧
      (∃ pas, s.reach v.u.ctx (gaddr o off) .r (if wide then 8 else 4) = .ok pas) ∧
      ∃ pas, s.reach v.u.ctx (gaddr o off) .w (if wide then 8 else 4) = .ok pas)
    fun s v _ o => { sp := .global, addrs := s.bytesAt v.u.ctx (gaddr o off) .r (if wide then 8 else 4), va := gaddr o off
                     kind := .atom op wide d (atomX wide o.d) (atomY wide o.d), ord := ord, scope := scope }) ∧
  (∀ wide op d b off ord scope, PostsAccess (.atom true wide op d b off ord scope) [srcDst d (atomRegs op wide), base b 1] .s
    (fun _ v _ o => (saddr o off).toNat % (if wide then 8 else 4) = 0 ∧
      (saddr o off).toNat + (if wide then 8 else 4) ≤ v.u.nscr)
    fun _ _ _ o => { sp := .scratch, addrs := span (saddr o off).toNat (if wide then 8 else 4)
                     kind := .atom op wide d (atomX wide o.d) (atomY wide o.d), ord := ord }) ∧
  (∀ wide d m, PostsAccess (.lr wide d m) [dst d (if wide then 2 else 1), base m.base 2] .l
    (fun s v _ o => (gaddr o m.off).toNat % (if wide then 8 else 4) = 0 ∧
      ∃ pas, s.reach v.u.ctx (gaddr o m.off) .r (if wide then 8 else 4) = .ok pas)
    fun s v _ o => { sp := .global, addrs := s.bytesAt v.u.ctx (gaddr o m.off) .r (if wide then 8 else 4), va := gaddr o m.off
                     kind := .lr d wide, ord := m.ord, scope := m.scope }) ∧
  (∀ wide d m, PostsAccess (.sc wide d m) [srcDst d (if wide then 2 else 1), base m.base 2] .s
    (fun s v _ o => (gaddr o m.off).toNat % (if wide then 8 else 4) = 0 ∧
      ∃ pas, s.reach v.u.ctx (gaddr o m.off) .w (if wide then 8 else 4) = .ok pas)
    fun s v _ o => { sp := .global, addrs := s.bytesAt v.u.ctx (gaddr o m.off) .w (if wide then 8 else 4), va := gaddr o m.off
                     kind := .sc d wide (atomX wide o.d), ord := m.ord, scope := m.scope }) ∧
  (∀ d b off ord scope, PostsAccess (.awinit true d b off ord scope) [src .d d 1, base b 1] .s
    (fun _ v _ o => (saddr o off).toNat % 16 = 0 ∧ (saddr o off).toNat + 16 ≤ v.u.nscr)
    fun _ _ _ o => { sp := .scratch, addrs := span (saddr o off).toNat 16, kind := .awinit (o.d.setWidth 32)
                     ord := ord, scope := scope }) ∧
  (∀ d b off ord scope, PostsAccess (.awadd true d b off ord scope) [src .d d 1, base b 1] .s
    (fun _ v _ o => (saddr o off).toNat % 16 = 0 ∧ (saddr o off).toNat + 16 ≤ v.u.nscr)
    fun _ _ _ o => { sp := .scratch, addrs := span (saddr o off).toNat 16, kind := .awadd (o.d.setWidth 32)
                     ord := ord, scope := scope }) ∧
  (∀ d b off ord scope, PostsAccess (.awget true d b off ord scope) [dst d 4, base b 1] .l
    (fun _ v _ o => (saddr o off).toNat % 16 = 0 ∧ (saddr o off).toNat + 16 ≤ v.u.nscr)
    fun _ _ _ o => { sp := .scratch, addrs := span (saddr o off).toNat 16, kind := .awget d, ord := ord, scope := scope }) ∧
  (∀ d b off ord scope, PostsAccess (.awadd false d b off ord scope) [src .d d 1, base b 2] .s
    (fun s v _ o => (gaddr o off).toNat % 16 = 0 ∧ (∃ pas, s.reach v.u.ctx (gaddr o off) .r 16 = .ok pas) ∧
      ∃ pas, s.reach v.u.ctx (gaddr o off) .w 16 = .ok pas)
    fun s v _ o => { sp := .global, addrs := s.bytesAt v.u.ctx (gaddr o off) .r 16, va := gaddr o off
                     kind := .awadd (o.d.setWidth 32), ord := ord, scope := scope }) ∧
  (∀ d b off ord scope, PostsAccess (.awinit false d b off ord scope) [src .d d 1, base b 2] .s
    (fun s v _ o => (gaddr o off).toNat % 16 = 0 ∧ (∃ pas, s.reach v.u.ctx (gaddr o off) .r 16 = .ok pas) ∧
      ∃ pas, s.reach v.u.ctx (gaddr o off) .w 16 = .ok pas)
    fun s v _ o => { sp := .global, addrs := s.bytesAt v.u.ctx (gaddr o off) .r 16, va := gaddr o off
                     kind := .awinit (o.d.setWidth 32), ord := ord, scope := scope }) ∧
  (∀ d b off ord scope, PostsAccess (.awget false d b off ord scope) [dst d 4, base b 2] .l
    (fun s v _ o => (gaddr o off).toNat % 16 = 0 ∧ ∃ pas, s.reach v.u.ctx (gaddr o off) .r 16 = .ok pas)
    fun s v _ o => { sp := .global, addrs := s.bytesAt v.u.ctx (gaddr o off) .r 16, va := gaddr o off
                     kind := .awget d, ord := ord, scope := scope })

/-- STB completes: through a slot that is not bound it stores the word; through a slot that does not trap, what the
slot makes of it, marked for the slot's count when it violates (R178, R220). R220: what a slot makes of an FP32 value:
a value in range passes; action 1 only counts; actions 2 and 3 replace a value out of range with a code in the slot's
range. -/
def Obligations.BoundedStores : Prop :=
  ((∀ d b off ord scope (k : BitVec 6), k ≠ 0 → PostsAccess (.stb d b off ord scope k) [src .d d 1, base b 2] .s
      (fun s v _ o => s.boundOf v.u k.toNat = none ∧ (gaddr o off).toNat % 4 = 0 ∧ ∃ pas, s.reach v.u.ctx (gaddr o off) .w 4 = .ok pas)
      fun s v _ o => { sp := .global, addrs := s.bytesAt v.u.ctx (gaddr o off) .w 4, va := gaddr o off
                       kind := .stb (o.d.setWidth 32) 0, ord := ord, scope := scope }) ∧
    (∀ d b off ord scope k x, PostsAccess (.stb d b off ord scope k) [src .d d 1, base b 2] .s
      (fun s v _ o => s.boundOf v.u k.toNat = some x ∧ x.action ≠ 3 ∧ (gaddr o off).toNat % 4 = 0 ∧
        ∃ pas, s.reach v.u.ctx (gaddr o off) .w 4 = .ok pas)
      fun s v _ o => { sp := .global, addrs := s.bytesAt v.u.ctx (gaddr o off) .w 4, va := gaddr o off
                       kind := .stb (BitVec.ofNat 32 (x.passF fp32 (o.d.setWidth 32 : Word).toNat).1)
                         (if x.violates (fp32.dec (o.d.setWidth 32 : Word).toNat) then k.toNat else 0)
                       ord := ord, scope := scope }) ∧
    (∀ d b off ord scope k x, Traps (.stb d b off ord scope k) true [src .d d 1, base b 2]
      (fun s v _ th o => s.boundOf v.u k.toNat = some x ∧ x.action = 3 ∧ th.full .s = false ∧
        x.violates (fp32.dec (o.d.setWidth 32 : Word).toNat) = true ∧ (gaddr o off).toNat % 4 = 0 ∧
        ∃ pas, s.reach v.u.ctx (gaddr o off) .w 4 = .ok pas)
      fun _ _ _ o => { cause := .bound, sub := k.toNat, info := o.d.setWidth 32, addr := gaddr o off })) ∧
  (∀ (b : BoundE) (x : Nat), x < 2 ^ 32 →
      (b.violates (fp32.dec x) = false → b.passF fp32 x = (x, false)) ∧
      (b.violates (fp32.dec x) = true → b.action = 1 → b.passF fp32 x = (x, true)) ∧
      (b.violates (fp32.dec x) = true → b.action ≠ 1 → (b.passF fp32 x).2 = true ∧
        (b.passF fp32 x).1 = (if (fp32.dec x).isNan = true ∨ (fp32.dec x).lt b.loV = true then fp32.round .rup false b.loV
          else fp32.round .rdn false b.hiV)) ∧
      (b.violates (fp32.dec x) = true → b.action ≠ 0 ∧ b.loV.isNan = false ∧ b.hiV.isNan = false))

/-- LDP and STP complete within the private limit: LDP's words are the thread's own when it issues, STP writes them at
once (R36, R112, R172); AWAIT goes on with the generation or waits for it (R182); PREF takes leases and nothing else
(R173). -/
def Obligations.PrivateAwaitPrefetchComplete : Prop :=
  (∀ w d b off an idx, PostsAccess (.ldp w d b off an idx) (dst d w.regs :: (if idx then [base b 1] else [])) .l
    (fun _ v th o => privBad v.u.npriv (privIndex th o off an idx) w.regs = none)
    fun _ _ th o => { sp := .scratch, addrs := [], kind := .fixed d w (groupOf (th.pws (privIndex th o off an idx) w.regs)) }) ∧
  (∀ w d b off an idx, Proceeds (.stp w d b off an idx) (src .d d w.regs :: (if idx then [base b 1] else []))
    (fun _ v _ th o => privBad v.u.npriv (privIndex th o off an idx) w.regs = none)
    (fun _ _ _ th o => th.setPws (privIndex th o off an idx) (groupWords o.d w.regs)) fun _ _ _ => none) ∧
  (∀ d b off scope (g : Nat → Word) s v ops, View.Open s v → v.u.role ≠ .prologue → v.p.tids ≠ [] → View.AllRead s v true [srcDst d 1, base b 1] ops →
    (∀ t ∈ v.p.tids, (saddr (ops t).2 off).toNat % 16 = 0 ∧ (saddr (ops t).2 off).toNat + 16 ≤ v.u.nscr ∧
      s.busyBytes v.u.uid t .scratch (span (saddr (ops t).2 off).toNat 16) = false ∧
      s.genOf v.u .scratch ((saddr (ops t).2 off).setWidth 64) = some (g t) ∧ g t ≠ (ops t).2.d.setWidth 32) →
    ∃ s', exec (.await true d b off scope) s = .next s' ∧ View.Effect (if scope = .sys then s.observed else s) s' v v.u fun t =>
      v.after ((ops t).1.endAwait d (g t) (s.awaitDeps v.u .scratch ((saddr (ops t).2 off).setWidth 64)) (scope == .sys)) none) ∧
  (∀ d b off scope, Proceeds (.await true d b off scope) [srcDst d 1, base b 1]
    (fun s v t _ o => (saddr o off).toNat % 16 = 0 ∧ (saddr o off).toNat + 16 ≤ v.u.nscr ∧
      s.busyBytes v.u.uid t .scratch (span (saddr o off).toNat 16) = false ∧
      s.genOf v.u .scratch ((saddr o off).setWidth 64) = some (o.d.setWidth 32))
    (fun _ _ _ th o =>
      { th with st := .waiting (.await .scratch ((saddr o off).setWidth 64) d (o.d.setWidth 32) (scope == .sys)) })
    fun _ _ _ => none) ∧
  (∀ d b off scope (g : Nat → Word) (pas : Nat → List Nat) s v ops, View.Open s v → v.u.role ≠ .prologue → v.p.tids ≠ [] →
    View.AllRead s v true [srcDst d 1, base b 2] ops →
    (∀ t ∈ v.p.tids, (gaddr (ops t).2 off).toNat % 16 = 0 ∧ s.reach v.u.ctx (gaddr (ops t).2 off) .r 16 = .ok (pas t) ∧
      s.poisoned (pas t) = none ∧ s.busyBytes v.u.uid t .global (pas t) = false ∧
      s.genOf v.u .global (gaddr (ops t).2 off) = some (g t) ∧ g t ≠ (ops t).2.d.setWidth 32) →
    ∃ s', exec (.await false d b off scope) s = .next s' ∧ View.Effect (if scope = .sys then s.observed else s) s' v v.u fun t =>
      v.after ((ops t).1.endAwait d (g t) (s.awaitDeps v.u .global (gaddr (ops t).2 off)) (scope == .sys)) none) ∧
  (∀ d b off scope, Proceeds (.await false d b off scope) [srcDst d 1, base b 2]
    (fun s v t _ o => (gaddr o off).toNat % 16 = 0 ∧ ∃ pas, s.reach v.u.ctx (gaddr o off) .r 16 = .ok pas ∧
      s.poisoned pas = none ∧ s.busyBytes v.u.uid t .global pas = false ∧
      s.genOf v.u .global (gaddr o off) = some (o.d.setWidth 32))
    (fun _ _ _ th o => { th with st := .waiting (.await .global (gaddr o off) d (o.d.setWidth 32) (scope == .sys)) })
    fun _ _ _ => none) ∧
  (∀ (th : Thread) (d : VReg) g deps sys, th.st = .inPath → d.toNat < 504 → (th.endAwait d g deps sys).regs = th.regs.set d.toNat g) ∧
  (∀ b off hint s v ops, View.Open s v → v.u.role ≠ .prologue → View.AllRead s v true [base b 2] ops →
    ∃ s', exec (.pref b off hint) s = .next s' ∧
      View.Effect (v.p.tids.foldl (fun s t =>
        match s.reach v.u.ctx (gaddr (ops t).2 off) .r 1 with
        | .ok pas => s.fetchLines v.u.ctx v.u.core pas (linesOf pas)
        | _ => s) s) s' v v.u fun t => v.after (ops t).1 none)

/-- R170: ATOM, LR, SC, STB and the arrival-word instructions at a misaligned address take the space-range fault with
cause ALIGN, in global memory and in the window; its info is the window's size there, else 0. R80, R82, R112 and R78:
an access that leaves the scratchpad window or the launch constants, a private access with a word at or beyond the
limit and a global access that is not permitted trap precisely; a translation miss of a load or a store makes the
thread wait with its counter raised (R199). Rests on the model's own readings and choices in log entries 19 and 20. -/
def Obligations.AccessTraps : Prop :=
  ((∀ wide op d b off ord scope, Traps (.atom false wide op d b off ord scope) true [srcDst d (atomRegs op wide), base b 2]
      (fun _ _ _ _ o => (gaddr o off).toNat % (if wide then 8 else 4) ≠ 0)
      fun _ _ _ o => { cause := .spaceRange, sub := 3, addr := gaddr o off }) ∧
    (∀ wide op d b off ord scope, Traps (.atom true wide op d b off ord scope) true [srcDst d (atomRegs op wide), base b 1]
      (fun _ _ _ _ o => (saddr o off).toNat % (if wide then 8 else 4) ≠ 0)
      fun _ v _ o => { cause := .spaceRange, sub := 3, info := BitVec.ofNat 32 v.u.nscr, addr := (saddr o off).setWidth 64 }) ∧
    (∀ wide d m, Traps (.lr wide d m) true [dst d (if wide then 2 else 1), base m.base 2]
      (fun _ _ _ _ o => (gaddr o m.off).toNat % (if wide then 8 else 4) ≠ 0)
      fun _ _ _ o => { cause := .spaceRange, sub := 3, addr := gaddr o m.off }) ∧
    (∀ wide d m, Traps (.sc wide d m) true [srcDst d (if wide then 2 else 1), base m.base 2]
      (fun _ _ _ _ o => (gaddr o m.off).toNat % (if wide then 8 else 4) ≠ 0)
      fun _ _ _ o => { cause := .spaceRange, sub := 3, addr := gaddr o m.off }) ∧
    (∀ d b off ord scope k, Traps (.stb d b off ord scope k) true [src .d d 1, base b 2]
      (fun _ _ _ _ o => (gaddr o off).toNat % 4 ≠ 0) fun _ _ _ o => { cause := .spaceRange, sub := 3, addr := gaddr o off }) ∧
    (∀ i us d b off ord scope, ((i = Instr.awinit false d b off ord scope ∨ i = .awadd false d b off ord scope) ∧ us = [src .d d 1, base b 2]) ∨
        (i = .awget false d b off ord scope ∧ us = [dst d 4, base b 2]) ∨ (i = .await false d b off scope ∧ us = [srcDst d 1, base b 2]) →
      Traps i true us (fun _ _ _ _ o => (gaddr o off).toNat % 16 ≠ 0)
        fun _ _ _ o => { cause := .spaceRange, sub := 3, addr := gaddr o off }) ∧
    (∀ i us d b off ord scope, ((i = Instr.awinit true d b off ord scope ∨ i = .awadd true d b off ord scope) ∧ us = [src .d d 1, base b 1]) ∨
        (i = .awget true d b off ord scope ∧ us = [dst d 4, base b 1]) ∨ (i = .await true d b off scope ∧ us = [srcDst d 1, base b 1]) →
      Traps i true us (fun _ _ _ _ o => (saddr o off).toNat % 16 ≠ 0)
        fun _ v _ o => { cause := .spaceRange, sub := 3, info := BitVec.ofNat 32 v.u.nscr, addr := (saddr o off).setWidth 64 })) ∧
  ((∀ i us w d m, (i = Instr.lds w d m ∧ us = [dst d w.regs, base m.base 1]) ∨ (i = .sts w d m ∧ us = [src .d d w.regs, base m.base 1]) →
      Traps i true us (fun _ v _ _ o => v.u.nscr < (saddr o m.off).toNat + w.bytes)
        fun _ v _ o => { cause := .spaceRange, sub := 1, info := BitVec.ofNat 32 v.u.nscr, addr := (saddr o m.off).setWidth 64 }) ∧
    (∀ wide op d b off ord scope, Traps (.atom true wide op d b off ord scope) true [srcDst d (atomRegs op wide), base b 1]
      (fun _ v _ _ o => (saddr o off).toNat % (if wide then 8 else 4) = 0 ∧ v.u.nscr < (saddr o off).toNat + (if wide then 8 else 4))
      fun _ v _ o => { cause := .spaceRange, sub := 1, info := BitVec.ofNat 32 v.u.nscr, addr := (saddr o off).setWidth 64 }) ∧
    (∀ i us d b off ord scope, ((i = Instr.awinit true d b off ord scope ∨ i = .awadd true d b off ord scope) ∧ us = [src .d d 1, base b 1]) ∨
        (i = .awget true d b off ord scope ∧ us = [dst d 4, base b 1]) ∨ (i = .await true d b off scope ∧ us = [srcDst d 1, base b 1]) →
      Traps i true us (fun _ v _ _ o => (saddr o off).toNat % 16 = 0 ∧ v.u.nscr < (saddr o off).toNat + 16)
        fun _ v _ o => { cause := .spaceRange, sub := 1, info := BitVec.ofNat 32 v.u.nscr, addr := (saddr o off).setWidth 64 }) ∧
    (∀ w d m, Traps (.ldk w d m) true [dst d w.regs, base m.base 1]
      (fun _ _ _ _ o => 4096 < (saddr o m.off).toNat + w.bytes)
      fun _ _ _ o => { cause := .spaceRange, sub := 2, info := 4096, addr := (saddr o m.off).setWidth 64 }) ∧
    (∀ i us w d b off an idx x, (i = Instr.ldp w d b off an idx ∧ us = dst d w.regs :: (if idx then [base b 1] else [])) ∨
        (i = .stp w d b off an idx ∧ us = src .d d w.regs :: (if idx then [base b 1] else [])) →
      Traps i true us (fun _ v _ th o => privBad v.u.npriv (privIndex th o off an idx) w.regs = some x)
        fun _ v _ _ => { cause := .privateLimit, info := BitVec.ofNat 32 v.u.npriv, addr := x.setWidth 64 }) ∧
    (∀ w d m, Traps (.ld w d m) true [dst d w.regs, base m.base 2]
      (fun s v _ th o => th.full .l = false ∧ State.walk s v.u.ctx (gaddr o m.off).toNat .r = .perm 1)
      fun _ _ _ o => { cause := .permission, sub := 1, addr := gaddr o m.off }) ∧
    (∀ w d m, Traps (.st w d m) true [src .d d w.regs, base m.base 2]
      (fun s v _ th o => th.full .s = false ∧ State.walk s v.u.ctx (gaddr o m.off).toNat .w = .perm 2)
      fun _ _ _ o => { cause := .permission, sub := 2, addr := gaddr o m.off }) ∧
    (∀ i us w d m acc k s v ops,
      (i = Instr.ld w d m ∧ us = [dst d w.regs, base m.base 2] ∧ acc = Acc.r ∧ k = CtrKind.l) ∨
        (i = .st w d m ∧ us = [src .d d w.regs, base m.base 2] ∧ acc = .w ∧ k = .s) →
      View.Open s v → v.u.role ≠ .prologue → View.AllRead s v true us ops →
      (∀ t ∈ v.p.tids, (ops t).1.full k = false ∧ (v.u.thread t).replay = none ∧
        s.reach v.u.ctx (gaddr (ops t).2 m.off) acc w.bytes = .miss (gaddr (ops t).2 m.off)) →
      ∃ s' u', exec i s = .next s' ∧ s'.unit? v.u.uid = some u' ∧ s'.ops = s.ops ∧ s'.mem = s.mem ∧
        ∀ t ∈ v.p.tids, (u'.thread t).st = .missing (gaddr (ops t).2 m.off) ∧ (u'.thread t).pos = v.p.pos ∧
          (u'.thread t).regs = (v.u.thread t).regs ∧ (u'.thread t).ctrs = ((v.u.thread t).raise k).ctrs))

/-- R32: every access and every engine operation whose counter stands at 62 or more in a thread of the path stalls its
path, which stays as it is: L for loads, S for stores, atomics and event additions, T for sweeps and tile operations,
C for copy and F for fabric operations. R33: every word that names a register which an outstanding operation has yet
to write, in a path whose register fields are legal, stalls: no thread of the path does anything. -/
def Obligations.AccessStalls : Prop :=
  ((∀ w d m, FullStalls (.ld w d m) true [dst d w.regs, base m.base 2] .l fun _ _ _ _ => True) ∧
    (∀ w d m, FullStalls (.st w d m) true [src .d d w.regs, base m.base 2] .s fun _ _ _ _ => True) ∧
    (∀ w d m, FullStalls (.lds w d m) true [dst d w.regs, base m.base 1] .l fun _ v _ o => (saddr o m.off).toNat + w.bytes ≤ v.u.nscr) ∧
    (∀ w d m, FullStalls (.sts w d m) true [src .d d w.regs, base m.base 1] .s fun _ v _ o => (saddr o m.off).toNat + w.bytes ≤ v.u.nscr) ∧
    (∀ w d b off an idx, FullStalls (.ldp w d b off an idx) true (dst d w.regs :: (if idx then [base b 1] else [])) .l
      fun _ v th o => privBad v.u.npriv (privIndex th o off an idx) w.regs = none) ∧
    (∀ w d m, FullStalls (.ldk w d m) true [dst d w.regs, base m.base 1] .l fun _ _ _ o => (saddr o m.off).toNat + w.bytes ≤ 4096) ∧
    (∀ scr wide op d b off ord scope, FullStalls (.atom scr wide op d b off ord scope) true
      [srcDst d (atomRegs op wide), base b (if scr then 1 else 2)] .s fun _ v _ o =>
        let n := if wide then 8 else 4
        if scr then (saddr o off).toNat % n = 0 ∧ (saddr o off).toNat + n ≤ v.u.nscr else (gaddr o off).toNat % n = 0) ∧
    (∀ wide d m, FullStalls (.lr wide d m) true [dst d (if wide then 2 else 1), base m.base 2] .l
      fun _ _ _ o => (gaddr o m.off).toNat % (if wide then 8 else 4) = 0) ∧
    (∀ wide d m, FullStalls (.sc wide d m) true [srcDst d (if wide then 2 else 1), base m.base 2] .s
      fun _ _ _ o => (gaddr o m.off).toNat % (if wide then 8 else 4) = 0) ∧
    (∀ d b off ord scope k, FullStalls (.stb d b off ord scope k) true [src .d d 1, base b 2] .s
      fun _ _ _ o => (gaddr o off).toNat % 4 = 0) ∧
    (∀ i us k scr d b off ord scope,
      ((i = Instr.awinit scr d b off ord scope ∨ i = .awadd scr d b off ord scope) ∧ us = [src .d d 1, base b (if scr then 1 else 2)] ∧ k = .s) ∨
        (i = .awget scr d b off ord scope ∧ us = [dst d 4, base b (if scr then 1 else 2)] ∧ k = .l) →
      FullStalls i true us k fun _ v _ o =>
        if scr then (saddr o off).toNat % 16 = 0 ∧ (saddr o off).toNat + 16 ≤ v.u.nscr else (gaddr o off).toNat % 16 = 0) ∧
    (∀ d a b scope, FullStalls (.evsig d a b scope) false [dst d, src .a a, src .b b] .s fun _ _ _ o => o.a.toNat < 65536) ∧
    (∀ i, isSweep i = true → EngineStalls i (sweepUses i) .t fun s v o => (sweepF i).count = 0 ∨
      rangesBad v.u.nscr (sweepRanges i o ++ arvRange (s.boundOf v.u (sweepF i).bound.toNat)) = none) ∧
    (∀ i us d, (∃ a b c, (i = .tldb d a b c ∨ i = .tmma d a b c) ∧ us = [dst d, src .a a, src .b b 2, src .c c]) ∨
        (∃ a b, i = .tldm d a b ∧ us = [dst d, src .a a, src .b b]) ∨ (∃ a, i = .tzero d a ∧ us = [dst d, src .a a]) ∨
        (∃ a b clr sat rnd ty k, i = .tst d a b clr sat rnd ty k ∧ us = [dst d, src .a a, src .b b 2]) ∨
        (∃ sel, i = .tstat d sel ∧ us = [dst d]) ∨ (∃ on, i = .tmir d on ∧ us = [dst d]) ∨ (∃ a n, i = .tgang d a n ∧ us = [dst d, src .a a]) →
      EngineStalls i us .t fun s v o => rangesBad v.u.nscr (s.tileRanges v.u { v.engOp s i .t d 1 o with id := 0 }) = none ∧
        ((∃ a b c, i = .tmma d a b c) → v.u.gang = 0 ∧ v.u.latch = none ∧
          ∀ x ∈ us, x.fld = .c → ∀ t ∈ v.p.tids, (v.u.thread t).reg x.reg.toNat = o.c.setWidth 32)) ∧
    (∀ i us d, (∃ a, (i = Instr.claim d a ∨ i = .rlse d a ∨ i = .cqry d a) ∧ us = [dst d, src .a a]) ∨
        (∃ a b, (i = .cpin d a b ∨ i = .cunpin d a b) ∧ us = [dst d, src .a a, src .b b]) ∨
        (∃ a b c n, i = .flow d a b c n ∧ us = [dst d, src .a a, src .b b 2, src .c c]) →
      EngineStalls i us .c fun _ v o => (∃ a, i = .claim d a) → scrCheck v.u o.a.toNat 64 64 = none) ∧
    (∀ i us d, (∃ a b c n, (i = Instr.puts d a b c n ∨ i = .get d a b c n ∨ i = .radd d a b c n ∨ i = .mcst d a b c n) ∧
          us = [dst d, src .a a, src .b b 2, src .c c]) ∨
        (∃ a, (i = .ring d a ∧ us = [dst d, src .a a]) ∨ (i = .mcseq d a ∧ us = [dst d 2, src .a a])) ∨
        (∃ wide op a b c, i = .ratom wide op d a b c ∧
          us = [dst d, src .a a, src .b b, { fld := .c, reg := c, n := atomRegs op wide, src := true, dst := true }]) →
      EngineStalls i us .f fun _ v _ => v.u.role ≠ .surrogate)) ∧
  (∀ i s v, isPlainWord i = true → View.Open s v → v.u.role ≠ .prologue →
      (∀ t ∈ v.p.tids, (v.u.thread t).useBad v.u.nregs (onLanes i) (namedBy i) = none) → View.Pends s v i →
      exec i s = .next s ∨ exec i s = .next (followed i v s))

/-- R352: a surrogate unit's store adds the lines it did not hold; at the limit of 8,192 lines it traps with GUARD
instead. -/
def Obligations.SurrogateGuardLines : Prop :=
  (∀ w d m s v th o t pas, View.Open s v → v.u.role = .surrogate → v.p.tids = [t] →
    View.Reads s v true [src .d d w.regs, base m.base 2] t th o → th.full .s = false →
    s.reach v.u.ctx (gaddr o m.off) .w w.bytes = .ok pas →
    v.u.glines.length + ((linesOf pas).filter fun l => !v.u.glines.contains l).length ≤ 8192 →
    ∃ s' u' ps, exec (.st w d m) s = .next s' ∧ s'.unit? v.u.uid = some u' ∧
      u'.glines = v.u.glines ++ ((linesOf pas).filter fun l => !v.u.glines.contains l) ∧ s'.mem = s.mem ∧
      s'.nextId = s.nextId + ps.length ∧ s'.ops = s.ops ++ ps ∧ (ps.map (·.addrs)).flatten = pas ∧
      (ps.map fun p => p.kind.bytes?.getD []).flatten = leBytes w.bytes o.d.toNat) ∧
  (∀ w d m s v th o t pas, View.Open s v → v.u.role = .surrogate → v.p.tids = [t] →
    View.Reads s v true [src .d d w.regs, base m.base 2] t th o → th.full .s = false →
    s.reach v.u.ctx (gaddr o m.off) .w w.bytes = .ok pas →
    v.u.glines.length ≤ 8192 → 8192 < v.u.glines.length + ((linesOf pas).filter fun l => !v.u.glines.contains l).length →
    ∃ s' u' r, exec (.st w d m) s = .next s' ∧ s'.unit? v.u.uid = some u' ∧ (u'.thread t).st = .trapped r ∧
      r.trap.cause = .guard ∧ r.trap.sub = 1 ∧ s'.ops = s.ops ∧ u'.glines = v.u.glines)

/-! ### Streams and special state (R183 to R190) -/

/-- The stream instructions complete, each with its result in d (R185). R186: reading a bound load queue takes its
oldest element, in order; writing a bound store queue appends the low bits. -/
def Obligations.StreamInstructions : Prop :=
  ((∀ d a k, Proceeds (.sbind d a k) [dst d, src .a a] (fun _ _ _ th _ => (th.stream k.toNat).st ≠ .unbound)
      (fun _ _ _ th _ => th.put d.toNat 1) fun _ _ _ => none) ∧
    (∀ d a k, Proceeds (.sbind d a k) [dst d, src .a a]
      (fun s v t th o => (th.stream k.toNat).st = .unbound ∧ scrCheck v.u o.a.toNat 64 64 = none ∧
        s.scrBusy v.u.uid t (span o.a.toNat 64) = false ∧
        patternOf (wordsOf ((span o.a.toNat 64).map v.u.scr.read)) = none)
      (fun _ _ _ th _ => th.put d.toNat 2) fun _ _ _ => none) ∧
    (∀ d a k p, Proceeds (.sbind d a k) [dst d, src .a a]
      (fun s v t th o => (th.stream k.toNat).st = .unbound ∧ scrCheck v.u o.a.toNat 64 64 = none ∧
        s.scrBusy v.u.uid t (span o.a.toNat 64) = false ∧
        patternOf (wordsOf ((span o.a.toNat 64).map v.u.scr.read)) = some p)
      (fun _ _ _ th _ => (th.put d.toNat 0).setStream k.toNat { st := .bound, pat := p }) fun _ _ _ => none) ∧
    (∀ d k, Proceeds (.sstart d k) [dst d] (fun _ _ _ th _ => (th.stream k.toNat).st = .bound)
      (fun s _ _ th _ => (th.put d.toNat 0).setStream k.toNat { th.stream k.toNat with st := .running, start := s.nextId, snap := th.snap })
      fun _ _ _ => none) ∧
    (∀ d k, Proceeds (.sstart d k) [dst d] (fun _ _ _ th _ => (th.stream k.toNat).st ≠ .bound)
      (fun _ _ _ th _ => th.put d.toNat 1) fun _ _ _ => none) ∧
    (∀ k s v ops, View.Open s v → v.u.role ≠ .prologue → View.AllRead s v true [] ops →
      (∀ t ∈ v.p.tids, ((ops t).1.stream k.toNat).pat.dir = false ∨ ((ops t).1.stream k.toNat).st = .unbound ∨
        (((ops t).1.stream k.toNat).queue = [] ∧ s.enqueuing v.u.uid t k.toNat = false ∧ s.elemsOut v.u.uid t k.toNat = false ∧
          (((ops t).1.stream k.toNat).pat.space = true ∨ (ops t).1.gwct = 0 ∨ (ops t).1.gwct.toNat < s.dt))) →
      ∃ s', exec (.sstop k) s = .next s' ∧
        View.Effect (s.forgetSnaps v.u.uid v.p.tids k.toNat) s' v v.u fun t => v.after ((ops t).1.forget k.toNat) none) ∧
    (∀ (th : Thread) k, k < th.streams.length → (th.forget k).stream k = {} ∧ (th.forget k).regs = th.regs ∧
      ∀ j, j ≠ k → ((th.forget k).stream j).queue = (th.stream j).queue ∧ ((th.forget k).stream j).st = (th.stream j).st) ∧
    (∀ d k, Proceeds (.sstat d k) [dst d] (fun _ _ _ _ _ => True) (fun _ _ _ th _ => th.put d.toNat (th.stream k.toNat).word)
      fun _ _ _ => none)) ∧
  (∀ (th : Thread) (k : Nat) (r : VReg), k < 8 → r.toNat = 504 + k → th.streams.length = 8 → (th.stream k).st ≠ .unbound →
      (∀ v rest f, (th.stream k).st ≠ .bound → (th.stream k).queue = v :: rest →
        ∃ th' o, th.fetch [src f r] = .ok th' o ∧ (th'.stream k).queue = rest ∧ th'.regs = th.regs ∧
          o = ({} : Opnds).set f (v.setWidth 128)) ∧
      (∀ f, (th.stream k).st = .running → (th.stream k).queue = [] → th.fetch [src f r] = .stall) ∧
      (∀ f, (th.stream k).st = .ended → (th.stream k).queue = [] →
        ∃ tr, th.fetch [src f r] = .trap tr ∧ tr.cause = .streamEnd ∧ tr.sub = k) ∧
      (∀ f, (th.stream k).st = .dead → (th.stream k).queue = [] →
        ∃ tr, th.fetch [src f r] = .trap tr ∧ tr.cause = .streamDead ∧ tr.sub = k) ∧
      (∀ v : Word, ((th.put r.toNat v).stream k).queue =
        (th.stream k).queue ++ [v &&& BitVec.ofNat 32 (2 ^ (8 * (th.stream k).pat.bytes) - 1)] ∧ (th.put r.toNat v).regs = th.regs))

/-- GETS and SETS complete for every selector (R189, R190); a SETS of a sidecar writes the home bundle's. What the
selectors of R190 read: the thread's place and its own state, its unit's coordinates and sizes, its launch's extents
and identifier, its context's number, world and energy, its core, time, the claims and the gang of its unit, and its
home bundle's sidecars; and what SETS writes. -/
def Obligations.SpecialStateAccess : Prop :=
  ((∀ d sel s v ops, View.Open s v → v.u.role ≠ .prologue → View.AllRead s v false [dst d (selRegs sel)] ops →
      ∃ s', exec (.gets d sel) s = .next s' ∧ View.Effect s s' v v.u fun t =>
        v.after ((ops t).1.putN d.toNat (selRegs sel) (BitVec.ofNat 128 (getsValue s v t (ops t).1 sel.toNat))) none) ∧
    (∀ sel a s v ops, View.Open s v → v.u.role ≠ .prologue → View.AllRead s v false [src .a a (selRegs sel)] ops →
      sel.toNat < 0x100 →
      ∃ s', exec (.sets sel a) s = .next s' ∧ View.Effect s s' v v.u fun t =>
        v.after ((ops t).1.setSel sel.toNat ((ops t).2.a.setWidth 32)) none) ∧
    (∀ sel a s v ops, View.Open s v → v.u.role ≠ .prologue → View.AllRead s v false [src .a a (selRegs sel)] ops →
      0x100 ≤ sel.toNat →
      ∃ s', exec (.sets sel a) s = .next s' ∧ View.Effect s s' v (setSides (sel.toNat - 0x100) (v.parts ops) v.u) fun t =>
        v.after (ops t).1 none)) ∧
  ((∀ s v t th, getsValue s v t th 0x000 = t ∧ getsValue s v t th 0x001 = t / 32 ∧ getsValue s v t th 0x002 = t % 32 ∧
      (∀ k, v.b.slots.findIdx? (· == some t) = some k → getsValue s v t th 0x003 = k) ∧
      getsValue s v t th 0x004 = v.u.x ∧ getsValue s v t th 0x005 = v.u.y ∧ getsValue s v t th 0x006 = v.u.z ∧
      getsValue s v t th 0x007 = v.u.lin ∧
      (∀ l, s.launch? v.u.launch = some l → getsValue s v t th 0x008 = l.dimx ∧ getsValue s v t th 0x009 = l.dimy ∧
        getsValue s v t th 0x00A = l.dimz) ∧
      getsValue s v t th 0x00B = v.u.threads.length ∧
      getsValue s v t th 0x010 = v.u.launch ∧ getsValue s v t th 0x011 = v.u.ctx ∧ getsValue s v t th 0x013 = v.u.core ∧
      (∀ c, s.ctx? v.u.ctx = some c → getsValue s v t th 0x012 = c.desc.world ∧ getsValue s v t th 0x040 = c.energy ∧
        getsValue s v t th 0x060 = (c.claims.filter (·.unit == v.u.uid)).length) ∧
      getsValue s v t th 0x020 = s.dt ∧ getsValue s v t th 0x021 = s.kclk ∧
      getsValue s v t th 0x022 = th.gwct.toNat ∧ getsValue s v t th 0x023 = th.egwct.toNat ∧
      getsValue s v t th 0x024 = th.ctrs.word.toNat ∧ getsValue s v t th 0x030 = th.sp.toNat ∧
      getsValue s v t th 0x031 = th.fp.toNat ∧ getsValue s v t th 0x032 = v.u.npriv ∧
      getsValue s v t th 0x050 = th.rmode.toNat ∧ getsValue s v t th 0x051 = th.fmode.toNat ∧
      getsValue s v t th 0x052 = th.rng.toNat ∧ getsValue s v t th 0x070 = v.u.gang.toNat ∧
      ∀ n, n < 64 → getsValue s v t th (0x100 + n) = (v.u.side (t / 32) n).toNat) ∧
    (∀ (th : Thread) (x : Word), (th.setSel 0x030 x).sp = x ∧ (th.setSel 0x031 x).fp = x ∧ (th.setSel 0x050 x).rmode = x &&& 3 ∧
      (th.setSel 0x051 x).fmode = x &&& 3 ∧ (th.setSel 0x052 x).rng = (if x = 0 then 1 else x) ∧
      ∀ sel, (th.setSel sel x).regs = th.regs ∧ (th.setSel sel x).ctrs = th.ctrs) ∧
    (∀ c : Ctrs, c.word.toNat = c.f.toNat + 2 ^ 6 * c.t.toNat + 2 ^ 12 * c.c.toNat + 2 ^ 18 * c.s.toNat + 2 ^ 24 * c.l.toNat))

/-! ### Sweeps, tiles, claims and fabric: issue (R17 to R21, R203, R233, R271, R297) -/

/-- The sweeps (SWADD, SWMUL, SWFMA, SWMAX, SWMIN, SWEXP, SWRCP, SWCVT, SWQMX, SWDMX, SWRED, SWCMP, SWSEL, SWCPY,
SWGAT, SWTRN) enter the sweep engine: with a count that is not 0 and ranges inside the window the operation is
accepted, T of every thread raised, and the elected lane's generator stepped when SR is selected; with a count of 0 it
completes at once; a range outside the window traps every thread (R18, R65, R203, R204). R65: the step of the elected
lane's generator at the issue of an operation that selects SR. What the sweeps compute, on segments of which none is
written before it is read (R201, R207 to R219): the element-wise ones, conversions, MX quantisation and
dequantisation, the reduction in increasing order of segments, gather and transpose; every stored element through the
bound slot (R220, R221), the roundings in the order of the elements (R65). Rests on the model's own readings and
choices in log entry 20. -/
def Obligations.SweepsEnterTheEngine : Prop :=
  (∀ i, isSweep i = true →
      Accepts i (sweepUses i) .t
        (fun s v o => (sweepF i).count ≠ 0 ∧
          rangesBad v.u.nscr (sweepRanges i o ++ arvRange (s.boundOf v.u (sweepF i).bound.toNat)) = none)
        (fun s v o => { v.engOp s i .t 0 0 o with pages := (rangePages (sweepRanges i o)).eraseDups })
          (fun s v _ => s.stepG v (sweepRnd i)) ∧
      CompletesAtOnce i (sweepUses i) .t (fun _ _ _ => (sweepF i).count = 0) (fun s v _ => s.stepG v (sweepRnd i)) ∧
      ∀ s v o tr, View.Open s v → v.u.role ≠ .prologue → View.EngReads s v (sweepUses i) .t o → (sweepF i).count ≠ 0 →
        rangesBad v.u.nscr (sweepRanges i o ++ arvRange (s.boundOf v.u (sweepF i).bound.toNat)) = some tr →
        ∃ s' u', exec i s = .next s' ∧ s'.unit? v.u.uid = some u' ∧ s'.eng = s.eng ∧ ∀ t ∈ v.p.tids,
          (u'.thread t).st = .trapped (trapRec s v.u.ctx v.p.pos tr) ∧ (u'.thread t).regs = (v.u.thread t).regs) ∧
  (∀ s v, View.Open s v → v.p.tids ≠ [] →
      (∀ rnd, rnd ≠ .sr → State.stepG v rnd s = s) ∧
      ∃ u', (State.stepG v .sr s).unit? v.u.uid = some u' ∧ (u'.thread v.p.elected).rng = lfsr (v.u.thread v.p.elected).rng ∧
        (∀ t, t ≠ v.p.elected → u'.thread t = v.u.thread t) ∧ { State.stepG v .sr s with units := s.units } = s) ∧
  (∀ (f : SwF) (o : Opnds) (b : Option BoundE) (x : Sw), x.scr.wf = true →
      let t := f.ty
      let w := 8 * t.bytes
      let n := f.count.toNat
      let m := perSeg t
      let sd := (cursor o.d).seg
      let sa := (cursor o.a).seg
      let sb := (cursor o.b).seg
      let int (c : Nat) : Int := toSigned w c
      let val (c : Nat) : Val := if t.isInt then Val.ofInt (int c) else (sfmt t).dec c
      let fit (rm : RM) (sat : Bool) (z : Int) (v : Val) : Nat :=
        if t.isInt then wrap w (if sat then clampTo true w z else z) else (sfmt t).round rm sat v
      let rnd (k m : Nat) : RM := (stepped x.rm k).getD m .rne
      let elem (t : STy) (a : Int) (j : Nat) : Nat := x.scr.at_ (a.toNat + j * t.bytes) t.bytes
      let earlier (k i : Nat) : Prop := k < i
      let ew (i : Instr) (scal useA : Bool) (slot : Option BoundE) (op : RM → Nat → Nat → Nat → Nat) : Prop :=
        SegsApart n sd 128 → (useA = true → ReadBefore n sa 128 sd 128 earlier) →
        (scal = false → ReadBefore n sb 128 sd 128 earlier) →
        SweptTo x (sweepRun i o b x) slot t n m sd fun i j =>
          op (rnd (n * m) (i * m + j)) (elem t (sa i) j) (if scal then o.b.toNat % 2 ^ w else elem t (sb i) j) (elem t (sd i) j)
      (∀ mo : SwM,
        ew (.swadd f mo) mo.scal true b (fun rm a c _ => fit rm mo.sat (int a + int c) (Val.add rm (val a) (val c))) ∧
        ew (.swmul f mo) mo.scal true b (fun rm a c _ => fit rm mo.sat (int a * int c) (Val.mul (val a) (val c))) ∧
        ew (.swfma f mo) mo.scal true b
          (fun rm a c d => fit rm mo.sat (int a * int c + int d) (Val.add rm (Val.mul (val a) (val c)) (val d))) ∧
        ew (.swexp f mo) mo.scal true b (fun rm a c _ => sweepExp t rm mo.sat a c) ∧
        ew (.swrcp f mo) true true b (fun rm a _ _ => sweepRcp t rm mo.sat a)) ∧
      (∀ sc,
        ew (.swmax f sc) sc true b (fun _ a c _ =>
          if t.isInt then wrap w (max (int a) (int c)) else (sfmt t).round .rne false (Val.max2 (val a) (val c))) ∧
        ew (.swmin f sc) sc true b (fun _ a c _ =>
          if t.isInt then wrap w (min (int a) (int c)) else (sfmt t).round .rne false (Val.min2 (val a) (val c))) ∧
        (∀ c, ew (.swcmp f c sc) sc true none (fun _ a y _ =>
          if (if t.isInt then intCond c true w a y else floatCond c (val a) (val y)) then 2 ^ w - 1 else 0)) ∧
        ew (.swsel f sc) sc true b (fun _ a c d => if d ≠ 0 then a else c)) ∧
      ew (.swcpy f false) true true b (fun _ a _ _ => a) ∧
      ew (.swcpy f true) true false b (fun _ _ c _ => c) ∧
      (∀ dt rm', let m := cvtLanes t dt
        SegsApart n sd (m * dt.bytes) → ReadBefore n sa (m * t.bytes) sd (m * dt.bytes) earlier →
        SweptTo x (sweepRun (.swcvt f dt rm') o b x) b dt n m sd fun i j =>
          let c := elem t (sa i) j
          let rm := rnd (n * m) (i * m + j)
          if dt.isInt = false then (sfmt dt).round rm false (val c)
          else if t.isInt then wrap (8 * dt.bytes) (clampTo true (8 * dt.bytes) (int c))
          else wrap (8 * dt.bytes) (Val.toInt rm (loOf true (8 * dt.bytes)) (hiOf true (8 * dt.bytes)) (val c))) ∧
      (∀ mx rm', SegsApart n sd 128 → ReadBefore n (fun i => (cursor o.a).addr + i * mxSize mx) (mxSize mx) sd 128 earlier →
        SweptTo x (sweepRun (.swdmx f mx rm') o b x) b .f32 n 32 sd fun i j =>
          fp32.round x.rm false ((mxRead mx (x.scr.at_ ((cursor o.a).addr + i * mxSize mx) (mxSize mx))).getD j .nan)) ∧
      (∀ mx rm', let d (i : Nat) : Nat := (cursor o.d).addr + i * mxSize mx
        ReadBefore n sa 128 (fun i => (d i : Int)) (mxSize mx) earlier →
        let y := sweepRun (.swqmx f mx rm') o b x
        let src (i j : Nat) : Nat := elem .f32 (sa i) j
        (∀ i < n, y.scr.at_ (d i) (mxSize mx) = mxWord mx (renormalise (mxElem mx) ((List.range 32).map fun j =>
          (fp32.dec (passSlot b .f32 (src i j)).1, rnd (n * 32) (i * 32 + j)))) % 2 ^ (8 * mxSize mx)) ∧
        y.viol = x.viol + ((List.range (n * 32)).filter fun k => (passSlot b .f32 (src (k / 32) (k % 32))).2).length ∧
        ∀ a, a < (cursor o.d).addr ∨ (cursor o.d).addr + n * mxSize mx ≤ a → y.scr.read a = x.scr.read a) ∧
      (∀ fop acc rm', 0 < n →
        let step (rm : RM) (a c : Nat) : Nat := match fop with
          | .add => fit rm false (int a + int c) (Val.add rm (val a) (val c))
          | .max => if t.isInt then wrap w (max (int a) (int c)) else (sfmt t).round .rne false (Val.max2 (val a) (val c))
          | .min => if t.isInt then wrap w (min (int a) (int c)) else (sfmt t).round .rne false (Val.min2 (val a) (val c))
        SweptTo x (sweepRun (.swred f fop acc rm') o b x) b t 1 m (fun _ => (cursor o.d).addr) fun _ j =>
          let k := if acc then n else n - 1
          (List.range k).foldl (fun y i => step (rnd (k * m) (i * m + j)) y (elem t (sa (if acc then i else i + 1)) j))
            (elem t (if acc then (cursor o.d).addr else sa 0) j)) ∧
      (∀ k : BitVec 5, SegsApart n sd 128 → ReadBefore n (fun _ => (cursor o.a).addr) (2 ^ k.toNat * t.bytes) sd 128 earlier →
        ReadBefore n sb 128 sd 128 earlier →
        SweptTo x (sweepRun (.swgat f k) o b x) b t n m sd fun i j => elem t (cursor o.a).addr (elem t (sb i) j % 2 ^ k.toNat)) ∧
      (SegsApart n sd 128 → ReadBefore n sa 128 sd 128 (fun k i => k / 32 < i / 32) → n % 32 = 0 →
        SweptTo x (sweepRun (.swtrn f) o b x) b t n m sd fun i j =>
          let k := i % 32 * m + j
          elem t (sa (32 * (i / 32) + k % 32)) (k / 32)))

/-- The tile operations enter the tile engine when their ranges lie in the window (R18, R271, R274): TGANG's valid
mask goes into the gang register at once, an invalid one gives status 6; TMIR off without the context's grant gives
status 5. R281 and R285: TSTAT completes at its issue, with the word of its selector in d of every thread. R263 and
R280: a TMMA whose threads name different format words traps with FORMAT_DIVERGENCE; under a gang each thread arrives
at the latch, which holds the gang register's value. What the tile operations leave (R258 to R262, R278 to R283): TLDB
the loaded tile, with the blocks of its columns; TLDM the side store, or status 4 and nothing when a pair of indices
is not ascending; TMMA in every cell of its region the FP32 sums of its K blocks in order (R73, R280), every other
cell as before; TST the rounded cells of its region at its rows, and with clr the cells at +0. Each ends with its
status in d and T lowered. Rests on the model's own readings and choices in log entries 3, 26 and 70. -/
def Obligations.TileInstructions : Prop :=
  ((∀ d a b c, Accepts (.tldb d a b c) [dst d, src .a a, src .b b 2, src .c c] .t
      (fun s v o => rangesBad v.u.nscr (s.tileRanges v.u { v.engOp s (.tldb d a b c) .t d 1 o with id := 0 }) = none)
      (fun s v o => v.engOp s (.tldb d a b c) .t d 1 o) fun s _ _ => s) ∧
    (∀ d a b, Accepts (.tldm d a b) [dst d, src .a a, src .b b] .t
      (fun s v o => rangesBad v.u.nscr (s.tileRanges v.u { v.engOp s (.tldm d a b) .t d 1 o with id := 0 }) = none)
      (fun s v o => v.engOp s (.tldm d a b) .t d 1 o) fun s _ _ => s) ∧
    (∀ d a, Accepts (.tzero d a) [dst d, src .a a] .t
      (fun s v o => rangesBad v.u.nscr (s.tileRanges v.u { v.engOp s (.tzero d a) .t d 1 o with id := 0 }) = none)
      (fun s v o => v.engOp s (.tzero d a) .t d 1 o) fun s _ _ => s) ∧
    (∀ d a b clr sat rnd ty k, Accepts (.tst d a b clr sat rnd ty k) [dst d, src .a a, src .b b 2] .t
      (fun s v o => rangesBad v.u.nscr (s.tileRanges v.u { v.engOp s (.tst d a b clr sat rnd ty k) .t d 1 o with id := 0 }) = none)
      (fun s v o => v.engOp s (.tst d a b clr sat rnd ty k) .t d 1 o) fun s v _ => s.stepG v rnd) ∧
    (∀ d on, Accepts (.tmir d on) [dst d] .t (fun _ _ _ => True)
      (fun s v o => { v.engOp s (.tmir d on) .t d 1 o with
        status := if on = true ∨ ((s.ctx? v.u.ctx).map fun (x : Ctx) => x.desc.mirx) = some true then 0 else 5 })
      fun s _ _ => s) ∧
    (∀ d a n m, Accepts (.tgang d a n) [dst d, src .a a] .t
      (fun _ v o => gangMask v.u.hbs n.toNat (o.a.toNat % 2 ^ 32) = some m)
      (fun s v o => v.engOp s (.tgang d a n) .t d 1 o)
      fun s v _ => s.updUnit v.u.uid fun u => { u with gang := BitVec.ofNat 32 m }) ∧
    (∀ d a n, Accepts (.tgang d a n) [dst d, src .a a] .t
      (fun _ v o => gangMask v.u.hbs n.toNat (o.a.toNat % 2 ^ 32) = none)
      (fun s v o => { v.engOp s (.tgang d a n) .t d 1 o with status := 6 }) fun s _ _ => s) ∧
    (∀ d a b c, Accepts (.tmma d a b c) [dst d, src .a a, src .b b 2, src .c c] .t
      (fun s v o => v.u.gang = 0 ∧ v.u.latch = none ∧ (∀ t ∈ v.p.tids, (v.u.thread t).reg c.toNat = o.c.setWidth 32) ∧
        rangesBad v.u.nscr (s.tileRanges v.u { v.engOp s (.tmma d a b c) .t d 1 o with id := 0 }) = none)
      (fun s v o => v.engOp s (.tmma d a b c) .t d 1 o) fun s _ _ => s)) ∧
  (∀ d sel, CompletesAtOnce (.tstat d sel) [dst d] .t (fun _ _ _ => True)
      fun s v o =>
        let s1 := if sel = .prog then (match s.running v.u.uid with | some r => s.mmaSome r | none => s) else s
        s1.writeD (v.engOp s (.tstat d sel) .t d 1 o) (BitVec.ofNat 128 (s1.tstatWord v.u sel))) ∧
  ((∀ d a b c s v o, View.Open s v → v.u.role ≠ .prologue → v.u.gang = 0 → v.u.latch = none →
      View.EngReads s v [dst d, src .a a, src .b b 2, src .c c] .t o →
      (∃ t ∈ v.p.tids, (v.u.thread t).reg c.toNat ≠ o.c.setWidth 32) →
      ∃ s' u', exec (.tmma d a b c) s = .next s' ∧ s'.unit? v.u.uid = some u' ∧ s'.eng = s.eng ∧ ∀ t ∈ v.p.tids, ∃ r,
        (u'.thread t).st = .trapped r ∧ r.trap.cause = .formatDivergence ∧ r.trap.info = 0) ∧
    (∀ d a b c s v ops, View.Open s v → v.u.role ≠ .prologue → v.p.tids ≠ [] → (v.u.gang ≠ 0 ∨ v.u.latch ≠ none) →
      View.AllRead s v false [dst d, src .a a, src .b b 2, src .c c] ops →
      ∃ s1, exec (.tmma d a b c) s = .next (s1.settleLatch v.u.uid) ∧
        View.Effect s s1 v { v.u with latch := some (v.u.latch.getD v.u.gang) } fun t => v.after { (ops t).1 with
          st := .waiting (.latch d ((ops t).2.a.setWidth 32) ((ops t).2.b.setWidth 32) (((ops t).2.b >>> 32).setWidth 32)
            ((ops t).2.c.setWidth 32) v.p.pos) } none)) ∧
  ((∀ core s u e, s.tileHead core = some (u, e) → e.phase = .begun → e.unit = u.uid → s.unit? u.uid = some u → core < s.cores.length →
      let te := (s.core core).te
      let ends (s' : State) (st : Nat) : Prop := ∃ u', s'.unit? u.uid = some u' ∧ s'.engOp? e.id = none ∧ s'.mem = s.mem ∧
        u'.threads = (u.complete e (BitVec.ofNat 128 st)).threads
      (∀ d a b c kb nb fm, e.ins = .tldb d a b c → dimsOf e.word1 = some (kb, nb) → bFmtOf (fwB e.fw) = some fm →
        let sp := flag e.fw 13
        let cols := (List.range nb).map fun c => fm.blocks 8 .rne (-127) (if sp then 16 else 32) kb
          fun i => u.engScr.read (e.base + c * e.pitch + i)
        let x : Tile := { kb := kb, nb := nb, bfmt := bits e.fw 8 4, sparse := sp, mcopy := !sp && decide (nb ≤ 256), cols := cols }
        ∃ s', exec (.tileOpComplete core) s = .next s' ∧ ends s' 0 ∧ (s'.core core).te = { te with tile := some x }) ∧
      (∀ d a b kb nb, e.ins = .tldm d a b → dimsOf e.pitch = some (kb, nb) →
        let idx := (List.range nb).map fun c => (List.range kb).map fun k =>
          (u.engScr.read (e.base + (c * 512 + k) / 4)).toNat / 4 ^ ((c * 512 + k) % 4) % 4
        let ok := ∀ c ∈ idx, ∀ k, 2 * k + 1 < kb → c.getD (2 * k) 0 < c.getD (2 * k + 1) 0
        ∃ s', exec (.tileOpComplete core) s = .next s' ∧
          (ok → ends s' 0 ∧ (s'.core core).te = { te with side := some { kb := kb, nb := nb, idx := idx } }) ∧
          (¬ ok → ends s' 4 ∧ (s'.core core).te = te)) ∧
      (∀ d a b c sh t, e.ins = .tmma d a b c → shapeOf e.word1 = some sh → te.tile = some t → 0 < t.kb → e.prog = 0 → e.row = none →
        let side := (te.side.map (·.idx)).getD []
        let none_ : TBlk := { e := 0, xs := [] }
        let prod (r c k : Nat) : Val :=
          let x := (aRow u.engScr e t.k r).getD k none_
          let y := (t.cols.getD c []).getD k none_
          blockProd x.e y.e (x.xs ++ List.replicate (32 - x.xs.length) (.fin 0 0))
            (if t.sparse then y.expand ((side.getD c []).drop (16 * k)) else y.xs ++ List.replicate (32 - y.xs.length) (.fin 0 0))
        ∃ s', exec (.tileOpComplete core) s = .next s' ∧ ends s' 0 ∧ (s'.core core).te.tile = te.tile ∧ (s'.core core).te.side = te.side ∧
          ∀ r c, c < 512 → (s'.core core).te.cell r c = if sh.af ≤ r ∧ r < sh.af + sh.m ∧ c < sh.n then
              (List.range ((t.k + 31) / 32)).foldl (fun (y : Word) k =>
                BitVec.ofNat 32 (fp32.round .rne false (Val.add .rne (fp32.dec y.toNat) (prod (r - sh.af) c k))))
                (if flag e.fw 15 then te.cell r c else 0)
            else te.cell r c) ∧
      (∀ d a b clr sat rnd ty sh t, e.ins = .tst d a b clr sat rnd ty 0 → shapeOf e.word1 = some sh → tstTy ty = .ok t →
        u.engScr.wf = true → (sh.m = 1 ∨ sh.n * t.bytes ≤ e.pitch) →
        let rm := resolve e.rmode e.g rnd
        ∃ s' u' y, exec (.tileOpComplete core) s = .next s' ∧ ends s' 0 ∧ s'.unit? u.uid = some u' ∧ u'.scr = u.scr ∧
          u'.late = u.late ++ [y.out] ∧
          SweptTo { scr := u.engScr, rm := rm } y none t sh.m sh.n (fun r => (e.base + r * e.pitch : Nat))
            (fun r c => (sfmt t).round ((stepped rm (sh.m * sh.n)).getD (r * sh.n + c) .rne) sat (fp32.dec (te.cell (sh.af + r) c).toNat)) ∧
          (s'.core core).te = if clr then te.clear sh else te)) ∧
    (∀ (te : TileSt) sh r c, c < 512 → sh.n ≤ 512 →
      (te.clear sh).cell r c = if sh.af ≤ r ∧ r < sh.af + sh.m ∧ c < sh.n then 0 else te.cell r c) ∧
    (∀ ea eb (ns ms : List Int), ns.length = ms.length → let sgn (n : Int) : Int := if n < 0 then -1 else if n = 0 then 0 else 1
      blockProd ea eb (ns.map fun n => .fin n (sgn n)) (ms.map fun n => .fin n (sgn n)) =
        fp32.dec (fp32.round .rne false (Val.ofUnits ((ns.zip ms).map fun p => p.1 * p.2).sum (ea + eb) false))))

/-- The copy instructions enter the copy engine (R18, R233, R238 to R242): CLAIM with the record it read and the entry
it takes, the others with their operands. Rests on the model's own readings and choices in log entry 20. -/
def Obligations.CopyOperationsEnter : Prop :=
  (∀ d a h, Accepts (.claim d a) [dst d, src .a a] .c
    (fun s v o => scrCheck v.u o.a.toNat 64 64 = none ∧ s.scrBusy v.u.uid v.p.elected (span o.a.toNat 64) = false ∧
      (s.ctx? v.u.ctx).bind Ctx.nextFree = some h)
    (fun s v o => { v.engOp s (.claim d a) .c d 1 o with
      recd := wordsOf ((span o.a.toNat 64).map v.u.scr.read), claim := some h })
    fun s v o => s.updCtx v.u.ctx fun x =>
      { x with claims := x.claims ++ [
                 { h := h, unit := v.u.uid, op := s.nextId
                   kind := bits (wd (wordsOf ((span o.a.toNat 64).map v.u.scr.read)) 0) 0 4 }]
               lastClaim := h }) ∧
  (∀ d a, Accepts (.claim d a) [dst d, src .a a] .c
    (fun s v o => scrCheck v.u o.a.toNat 64 64 = none ∧ s.scrBusy v.u.uid v.p.elected (span o.a.toNat 64) = false ∧
      (s.ctx? v.u.ctx).bind Ctx.nextFree = none)
    (fun s v o => { v.engOp s (.claim d a) .c d 1 o with
      recd := wordsOf ((span o.a.toNat 64).map v.u.scr.read), claim := none }) fun s _ _ => s) ∧
  (∀ d a b c n, Accepts (.flow d a b c n) [dst d, src .a a, src .b b 2, src .c c] .c (fun _ _ _ => True)
    (fun s v o => v.engOp s (.flow d a b c n) .c d 1 o) fun s _ _ => s) ∧
  (∀ d a, Accepts (.rlse d a) [dst d, src .a a] .c (fun _ _ _ => True)
    (fun s v o => v.engOp s (.rlse d a) .c d 1 o) fun s _ _ => s) ∧
  (∀ d a, Accepts (.cqry d a) [dst d, src .a a] .c (fun _ _ _ => True)
    (fun s v o => { v.engOp s (.cqry d a) .c d 1 o with status := s.queryWord v.u.ctx v.u.uid o.a.toNat }) fun s _ _ => s) ∧
  (∀ d a b, Accepts (.cpin d a b) [dst d, src .a a, src .b b] .c (fun _ _ _ => True)
    (fun s v o => v.engOp s (.cpin d a b) .c d 1 o) fun s _ _ => s) ∧
  (∀ d a b, Accepts (.cunpin d a b) [dst d, src .a a, src .b b] .c (fun _ _ _ => True)
    (fun s v o => v.engOp s (.cunpin d a b) .c d 1 o) fun s _ _ => s)

/-- The fabric instructions enter their engine with F raised (R297); an RATOM also needs a free slot of its claim
(R303); FQUIET goes on once its path has nothing outstanding, and waits before that (R313). A surrogate's takes GUARD
(R352). Rests on the model's own readings and choices in log entry 27. -/
def Obligations.FabricOperationsEnter : Prop :=
  (∀ d a b c n, Accepts (.puts d a b c n) [dst d, src .a a, src .b b 2, src .c c] .f (fun _ v _ => v.u.role ≠ .surrogate)
    (fun s v o => v.engOp s (.puts d a b c n) .f d 1 o) fun s _ _ => s) ∧
  (∀ d a b c n, Accepts (.get d a b c n) [dst d, src .a a, src .b b 2, src .c c] .f (fun _ v _ => v.u.role ≠ .surrogate)
    (fun s v o => v.engOp s (.get d a b c n) .f d 1 o) fun s _ _ => s) ∧
  (∀ d a b c n, Accepts (.radd d a b c n) [dst d, src .a a, src .b b 2, src .c c] .f (fun _ v _ => v.u.role ≠ .surrogate)
    (fun s v o => v.engOp s (.radd d a b c n) .f d 1 o) fun s _ _ => s) ∧
  (∀ d a b c n, Accepts (.mcst d a b c n) [dst d, src .a a, src .b b 2, src .c c] .f (fun _ v _ => v.u.role ≠ .surrogate)
    (fun s v o => v.engOp s (.mcst d a b c n) .f d 1 o) fun s _ _ => s) ∧
  (∀ d a, Accepts (.mcseq d a) [dst d 2, src .a a] .f (fun _ v _ => v.u.role ≠ .surrogate)
    (fun s v o => { v.engOp s (.mcseq d a) .f d 2 o with
      recd := wordsOf (leBytes 8 (s.mcseqWord v.u.ctx o.a.toNat).toNat) }) fun s _ _ => s) ∧
  (∀ d a, Accepts (.ring d a) [dst d, src .a a] .f (fun _ v _ => v.u.role ≠ .surrogate)
    (fun s v o => v.engOp s (.ring d a) .f d 1 o) fun s _ _ => s) ∧
  (∀ wide op d a b c, Accepts (.ratom wide op d a b c)
    [dst d, src .a a, src .b b, { fld := .c, reg := c, n := atomRegs op wide, src := true, dst := true }] .f
    (fun s v o => v.u.role ≠ .surrogate ∧ s.noSlot v o = false)
    (fun s v o => { v.engOp s (.ratom wide op d a b c) .f d 1 o with wc := some (c, atomRegs op wide) }) fun s _ _ => s) ∧
  (∀ s v ops, View.Open s v → v.u.role ≠ .prologue → v.u.role ≠ .surrogate → View.AllRead s v false [] ops →
    (∀ t ∈ v.p.tids, s.fabricOut v.u.uid t = false) →
    ∃ s', exec .fquiet s = .next s' ∧ View.Effect s s' v v.u fun t => v.after (ops t).1 none) ∧
  (∀ s v ops, View.Open s v → v.u.role ≠ .prologue → v.u.role ≠ .surrogate → View.AllRead s v false [] ops →
    (∃ t ∈ v.p.tids, s.fabricOut v.u.uid t = true) →
    ∃ s', exec .fquiet s = .next s' ∧
      View.Effect s s' v v.u fun t => v.after { (ops t).1 with st := .waiting (.quiet v.p.tids) } none) ∧
  (Traps .fquiet false [] (fun _ v _ _ _ => v.u.role = .surrogate)
    fun _ v _ _ => { cause := .guard, sub := 2, info := BitVec.ofNat 32 v.u.glines.length })

/-! ### Launched code, clauses and repetition (R26 to R32, R47 to R50, R335, R336, R349, R350, R353) -/

/-- The prologue's instructions complete in a prologue: LSET's value goes into the launch, or ends it with LSETV;
LCANCEL, LEND and LREPEAT hand the launch over, and the launch engine goes on from there (R335, R336). R335: LSET's
values, and the ones out of range. Rests on the model's own readings and choices in log entry 32. -/
def Obligations.PrologueInstructionsComplete : Prop :=
  ((∀ a sel, PrologueDoes (.lset a sel) [src .a a (if lsetInfo sel == some true then 2 else 1)] (fun _ _ => True)
      fun s l ps =>
        match l.setParam sel.toNat ((ps.head?.map (·.2.2.a)).getD 0) with
        | some l' => s.updLaunch l.lid fun _ => l'
        | none => s.faultLaunch l.lid 6 0) ∧
    PrologueDoes .lcancel [] (fun _ _ => True)
      (fun s l _ => (s.updLaunch l.lid fun l => { l with cancel := true }).completeLaunch l.lid) ∧
    PrologueDoes .lend [] (fun s l => s.descsWait l = false) (fun s l _ => (s.lend l.lid false).getD s) ∧
    PrologueDoes .lrepeat [] (fun s l => s.descsWait l = false ∧ l.iter ≠ 65535) (fun s l _ => (s.lend l.lid true).getD s) ∧
    PrologueDoes .lrepeat [] (fun s l => s.descsWait l = false ∧ l.iter = 65535) (fun s l _ => s.faultLaunch l.lid 10 0)) ∧
  (∀ (l : Launch) (v : BitVec 128), let x := v.toNat % 2 ^ 32
      (x ≤ 65535 → l.setParam 0 v = some { l with dimx := x } ∧ l.setParam 1 v = some { l with dimy := x } ∧
        l.setParam 2 v = some { l with dimz := x }) ∧
      (65535 < x → l.setParam 0 v = none ∧ l.setParam 1 v = none ∧ l.setParam 2 v = none) ∧
      (l.setParam 3 v = if 16 ≤ x ∧ x ≤ 1024 then some { l with spill := x } else none) ∧
      (l.setParam 4 v = some { l with seed := BitVec.ofNat 32 x }) ∧
      (v.toNat < 2 ^ 64 → l.setParam 8 v = if v.toNat % 64 = 0 then some { l with kdesc := BitVec.ofNat 64 v.toNat } else none) ∧
      (∀ k, k < 1024 → ∃ l', l.setParam (0x400 + k) v = some l' ∧ ∀ a, l'.consts.read a =
        if 4 * k ≤ a ∧ a < 4 * k + 4 then BitVec.ofNat 8 (x / 2 ^ (8 * (a - 4 * k))) else l.consts.read a))

/-- GCHECK completes in a surrogate: the thread exits, and the unit keeps the greatest residual of its checks (R353).
EVSIG posts its addition and EVWAIT goes on, waits to its deadline, or refuses a bad name (R349, R350). -/
def Obligations.LaunchedInstructionsComplete : Prop :=
  (∀ a s v ops, View.Open s v → v.u.role = .surrogate → v.p.tids ≠ [] → View.AllRead s v false [src .a a] ops →
      ∃ s1, exec (.gcheck a) s = .next (s1.settleUnit v.u.uid) ∧
        View.Effect s s1 v { v.u with checked := v.u.checked + 1
                                      residual := some (maxResidual v.u.residual ((ops v.p.elected).2.a.setWidth 32)) }
          fun t => v.after (ops t).1.exit none) ∧
  ((∀ d a b scope s v ops, View.Open s v → v.u.role ≠ .prologue → View.AllRead s v false [dst d, src .a a, src .b b] ops →
      (∀ t ∈ v.p.tids, (ops t).2.a.toNat < 65536 ∧ (ops t).1.full .s = false) →
      ∃ s', exec (.evsig d a b scope) s = .next s' ∧
        View.Effect (s.posted v (fun t => (ops t).1) fun t =>
          { sp := .global, addrs := [], ord := .rel, scope := scope
            kind := .evsig (scope == .sys) d (ops t).2.a.toNat ((ops t).2.b.setWidth 64) }) s' v v.u
          fun t => v.after ((ops t).1.charge .s) none) ∧
    (∀ d a b scope s v ops, View.Open s v → v.u.role ≠ .prologue → View.AllRead s v false [dst d, src .a a, src .b b] ops →
      (∀ t ∈ v.p.tids, 65536 ≤ (ops t).2.a.toNat) →
      ∃ s', exec (.evsig d a b scope) s = .next s' ∧ View.Effect s s' v v.u fun t => v.after ((ops t).1.put d.toNat 1) none) ∧
    (∀ d a b c scope s v ops, View.Open s v → v.u.role ≠ .prologue →
      View.AllRead s v false [dst d, src .a a, src .b b 2, src .c c] ops →
      ∃ s', exec (.evwait d a b c scope) s = .next s' ∧ View.Effect ((v.parts ops).foldl (fun s x =>
          if s.mustWait v.u.ctx x.2.2 then s.fetchEvent v.u.ctx x.2.2.a.toNat else s) s) s' v v.u fun t =>
        v.after (if 65536 ≤ (ops t).2.a.toNat then (ops t).1.put d.toNat 2
          else if (ops t).2.b.toNat ≤ s.event v.u.ctx (ops t).2.a.toNat then (ops t).1.put d.toNat 0
          else { (ops t).1 with st := .waiting (.event (scope == .sys) (ops t).2.a.toNat ((ops t).2.b.setWidth 64) d
                  (if (ops t).2.c.toNat = 0 then none else some (s.dt + 1000 * (ops t).2.c.toNat))
                  (s.overflows v.u.ctx ((v.parts ops).takeWhile (·.1 != t)) (ops t).2.a.toNat)) }) none))

/-- A clause header, TRAP, STB, GETS and SETS complete (R29, R32, R162, R178, R189, R190): a header whose clause
passes every check, and whose wait fields the counters meet, puts its path before the first word; TRAP takes its trap
in every thread; STB posts its store whatever slot it names, unless the slot traps; GETS writes d and SETS the state
it names, for every selector, and GETS of the selectors that a prologue may read completes there too. Rests on the
model's own readings and choices in log entry 18. -/
def Obligations.HeaderTrapBoundedSpecialComplete : Prop :=
  (∀ h s v, View.Open s v → s.checkClause v.u.ctx v.p.hdr h = .ok →
    (∀ t ∈ v.p.tids, headerMet h (v.u.thread t).ctrs = true) →
    ∃ s' u' b', exec (.clauseHeader h) s = .next s' ∧ s'.issueQ = v.pr :: s.issueQ ∧
      OnlyUnit { s with issueQ := s'.issueQ } s' u' ∧ u'.uid = v.u.uid ∧ u'.threads = v.u.threads ∧ u'.bundle? v.b.bid = some b' ∧
      b'.path v.pr.slot = some { v.p with widx := 1, cnt := h.cnt.toNat + 1, cls := h.cls.toNat, hint := h.yld == 1 }) ∧
  (∀ (code : BitVec 16) s v, View.Open s v → v.u.role ≠ .prologue → v.p.tids ≠ [] →
    ∃ s' u', exec (.trap code) s = .next s' ∧ s'.unit? v.u.uid = some u' ∧ ∀ t ∈ v.p.tids,
      (u'.thread t).pos = v.p.pos ∧ (u'.thread t).regs = (v.u.thread t).regs ∧
      (u'.thread t).st = .trapped (trapRec s v.u.ctx v.p.pos { cause := .software, info := code.setWidth 32 })) ∧
  (∀ d b off ord scope (k : BitVec 6) s v ops, View.Open s v → v.u.role ≠ .prologue →
    View.AllRead s v true [src .d d 1, base b 2] ops →
    let w (t : Nat) : Word := (ops t).2.d.setWidth 32
    let bad (t : Nat) : Bool := ((s.boundOf v.u k.toNat).map fun x => x.violates (fp32.dec (w t).toNat)).getD false
    let p (t : Nat) : Post :=
      { sp := .global, addrs := s.bytesAt v.u.ctx (gaddr (ops t).2 off) .w 4, va := gaddr (ops t).2 off
        kind := .stb (((s.boundOf v.u k.toNat).map fun x => BitVec.ofNat 32 (x.passF fp32 (w t).toNat).1).getD (w t))
          (if bad t then k.toNat else 0)
        ord := ord, scope := scope }
    (∀ t ∈ v.p.tids, (ops t).1.full .s = false ∧ (gaddr (ops t).2 off).toNat % 4 = 0 ∧
      (∃ pas, s.reach v.u.ctx (gaddr (ops t).2 off) .w 4 = .ok pas) ∧ newGuardLines v.u [p t] = [] ∧
      ∀ x, s.boundOf v.u k.toNat = some x → x.action = 3 → bad t = false) →
    ∃ s', exec (.stb d b off ord scope k) s = .next s' ∧
      View.Effect (s.posted v (fun t => (ops t).1) p) s' v v.u fun t => v.after ((ops t).1.charge .s) none) ∧
  (∀ d sel s v ops, View.Open s v → View.AllRead s v false [dst d (selRegs sel)] ops →
    let f (t : Nat) : Thread :=
      v.after ((ops t).1.putN d.toNat (selRegs sel) (BitVec.ofNat 128 (getsValue s v t (ops t).1 sel.toNat))) none
    (v.u.role ≠ .prologue → ∃ s', exec (.gets d sel) s = .next s' ∧ View.Effect s s' v v.u f) ∧
    (∀ l, v.u.role = .prologue → sel.toNat ∈ [0x010, 0x011, 0x012, 0x020] → s.launch? v.u.launch = some l → l.pinsn < 1024 →
      ∃ s', exec (.gets d sel) s = .next s' ∧
        View.Effect (s.updLaunch v.u.launch fun l => { l with pinsn := l.pinsn + 1 }) s' v v.u f)) ∧
  (∀ sel a s v ops, View.Open s v → v.u.role ≠ .prologue → View.AllRead s v false [src .a a (selRegs sel)] ops →
    ∃ s', exec (.sets sel a) s = .next s' ∧
      View.Effect s s' v (if 0x100 ≤ sel.toNat then setSides (sel.toNat - 0x100) (v.parts ops) v.u else v.u) fun t =>
        v.after ((ops t).1.setSel sel.toNat ((ops t).2.a.setWidth 32)) none)

/-- A clause header whose clause is well formed opens the clause once every thread's counters meet its wait fields,
and stalls before that; a malformed header or clause traps every thread with ILLEGAL_CLAUSE and R29's first failing
check: its signature (sub-cause 1), class (2), reserved bits (3), a word of another class (4), a clause-ending word
that is not last (5), a REP that is last or before a REP or a clause-ending word (6); a clause whose words miss their
translation makes its threads wait (R29, R32, R199). Rests on the model's own readings and choices in log entry 18. -/
def Obligations.ClauseHeaderOpens : Prop :=
  (∀ h s v, View.Open s v → s.checkClause v.u.ctx v.p.hdr h = .ok → (∀ t ∈ v.p.tids, headerMet h (v.u.thread t).ctrs = true) →
    exec (.clauseHeader h) s = .next
      { s.putPath v { v.p with widx := 1, cnt := h.cnt.toNat + 1, cls := h.cls.toNat, hint := h.yld == 1 } with
        issueQ := v.pr :: s.issueQ }) ∧
  (∀ h s v t, View.Open s v → s.checkClause v.u.ctx v.p.hdr h = .ok → t ∈ v.p.tids → headerMet h (v.u.thread t).ctrs = false →
    exec (.clauseHeader h) s = .next s) ∧
  (∀ h s v tr, View.Open s v → v.p.tids ≠ [] → s.checkClause v.u.ctx v.p.hdr h = .trap tr →
    ∃ s' u', exec (.clauseHeader h) s = .next s' ∧ s'.unit? v.u.uid = some u' ∧ ∀ t ∈ v.p.tids,
      (u'.thread t).st = .trapped (trapRec s v.u.ctx v.p.pos tr) ∧ (u'.thread t).regs = (v.u.thread t).regs) ∧
  (∀ h s v va, View.Open s v → v.p.tids ≠ [] → s.checkClause v.u.ctx v.p.hdr h = .miss va →
    ∃ s' u', exec (.clauseHeader h) s = .next s' ∧ s'.unit? v.u.uid = some u' ∧ ∀ t ∈ v.p.tids,
      (u'.thread t).st = .missing va ∧ (u'.thread t).pos = v.p.pos ∧ (u'.thread t).regs = (v.u.thread t).regs) ∧
  (∀ (s : State) c hdr (h : Header),
    let bad (sub : Nat) : Checked := .trap (badClause h hdr sub)
    (h.sig ≠ 0b1010#4 → s.checkClause c hdr h = bad 1) ∧
    (h.sig = 0b1010#4 → 7 ≤ h.cls.toNat → s.checkClause c hdr h = bad 2) ∧
    (h.sig = 0b1010#4 → h.cls.toNat < 7 → h.rsv ≠ 0 → s.checkClause c hdr h = bad 3) ∧
    (∀ ws : List DWord, h.sig = 0b1010#4 → h.cls.toNat < 7 → h.rsv = 0 →
      s.clauseWords c hdr 1 (h.cnt.toNat + 1) = .ok ws →
      let other (w : DWord) : Prop := w ≠ 0 ∧ ∃ k, opClass (fld w 56 8) = some k ∧ k ≠ 15 ∧ k ≠ h.cls.toNat
      let early : Prop := ∃ k, k + 1 < ws.length ∧ opEnds (fld (ws.getD k 0) 56 8) = true
      let rep (k : Nat) : Prop := k < ws.length ∧ fld (ws.getD k 0) 56 8 = (0x9E : BitVec 8)
      let lost : Prop := ∃ k, rep k ∧ (k + 1 = ws.length ∨ rep (k + 1) ∨ opEnds (fld (ws.getD (k + 1) 0) 56 8) = true)
      ((∃ w ∈ ws, other w) → s.checkClause c hdr h = bad 4) ∧
      ((∀ w ∈ ws, ¬ other w) → early → s.checkClause c hdr h = bad 5) ∧
      ((∀ w ∈ ws, ¬ other w) → ¬ early → lost → s.checkClause c hdr h = bad 6) ∧
      ((∀ w ∈ ws, ¬ other w) → ¬ early → ¬ lost → s.checkClause c hdr h = .ok))) ∧
  (∀ h hdr sub, (badClause h hdr sub).cause = .illegalClause ∧ (badClause h hdr sub).sub = sub ∧
    (badClause h hdr sub).addr = hdr.setWidth 64)

/-- A REP before a repeatable word, whose every repetition is legal in every thread, begins: the path stays at the
next word with its steps, at the repetition with which it was left, and nothing else changes; a step or a register
that is not legal in a thread traps it with the sub-cause of R49 (R48 to R50). R48: repetition k names each stepped
register at its first number plus k times the field's signed step. -/
def Obligations.RepetitionSteps : Prop :=
  ((∀ n1 sd sa sb sc s v w p', View.Open s v → View.MayIssue s v (.rep n1 sd sa sb sc) → v.p.tids ≠ [] → v.p.advance = some p' →
      s.codeWord v.u.ctx v.p.hdr (v.p.widx + 1) = .word w →
      let r : RepSt := { n := n1.toNat + 1, k := v.p.krep, sd := sd.toInt, sa := sa.toInt, sb := sb.toInt, sc := sc.toInt }
      (v.p.krep = 0 → ∀ t ∈ v.p.tids, repBad r w v.u.nregs (v.u.thread t) = none) →
      ∃ s' u', exec (.rep n1 sd sa sb sc) s = .next s' ∧ OnlyUnit (s.counted v (.rep n1 sd sa sb sc)) s' u' ∧
        u' = v.u.setBundle (((v.u.bundle? v.b.bid).getD v.b).setPath v.pr.slot (some { p' with rep := some r }))) ∧
    (∀ n1 sd sa sb sc s v w sub, View.Open s v → v.u.role ≠ .prologue → v.p.tids ≠ [] → v.p.krep = 0 →
      s.codeWord v.u.ctx v.p.hdr (v.p.widx + 1) = .word w →
      (∀ t ∈ v.p.tids, ∃ own, repBad { n := n1.toNat + 1, k := 0, sd := sd.toInt, sa := sa.toInt, sb := sb.toInt, sc := sc.toInt } w
        v.u.nregs (v.u.thread t) = some (sub, own)) →
      ∃ s' u', exec (.rep n1 sd sa sb sc) s = .next s' ∧ s'.unit? v.u.uid = some u' ∧ ∀ t ∈ v.p.tids, ∃ r,
        (u'.thread t).st = .trapped r ∧ r.trap.cause = .illegalInstr ∧ r.trap.sub = sub)) ∧
  (∀ (r : RepSt) (w : DWord), opClass (fld w 56 8) = some 0 → fld w 56 8 ≠ (0x80 : BitVec 8) → (fld w 56 8 : BitVec 8).toNat / 16 ≠ 0xC →
      (∀ f ∈ [(43, r.sd), (34, r.sa), (25, r.sb), (16, r.sc)],
        0 ≤ ((fld w f.1 9 : VReg).toNat : Int) + r.k * f.2 ∧ ((fld w f.1 9 : VReg).toNat : Int) + r.k * f.2 < 512) →
      (∀ f ∈ [(43, r.sd), (34, r.sa), (25, r.sb), (16, r.sc)],
        (((fld (r.word w) f.1 9 : VReg).toNat : Int) = (fld w f.1 9 : VReg).toNat + r.k * f.2)) ∧
      (fld (r.word w) 52 12 : BitVec 12) = fld w 52 12 ∧ (fld (r.word w) 0 16 : BitVec 16) = fld w 0 16)

/-! ### Device events: threads, accesses, units (R84 to R87, R98, R103 to R122, R175, R184, R195 to R199, R354) -/

/-- The lane engine's events: an issue cycle counts one kclk, lets the picked bundle's ready threads into a path and
issues from it (R5, R103, R104); ELDER_RULE admits a group that has reached 256 kclk (R105); SPILL and BUNDLE_BUILD
move threads to the silt pool and into a new bundle (R107 to R109); waits end at their times (R159, R161, R350), and
so does a reservation (R175). Rests on the model's own readings and choices in log entries 2, 51 and 62. -/
def Obligations.LaneEngineEventsComplete : Prop :=
  (∀ (p : Pick) s u b g, State.firstDue { s with kclk := s.kclk + 1, time := s.time + 1000 * tick / s.power.freq.toNat } = none →
    s.clock.settleAll s.dt = s.clock → s.unit? p.unit = some u → u.bundle? p.bundle = some b →
    u.st = .resident → u.away = false → u.preempt = false → b.hold = false → b.yields = false → b.path0 = none → b.path1 = none →
    s.clock.groups u b = [g] →
    ∃ s' u' b' q, exec (.issueCycle [p]) s = .next s' ∧ s'.kclk = s.kclk + 1 ∧
      s'.time = s.time + 1000 * tick / s.power.freq.toNat ∧
      s'.issueQ = s.issueQ ++ [{ unit := p.unit, bundle := p.bundle, slot := false }] ∧ s'.mem = s.mem ∧ s'.ops = s.ops ∧
      s'.unit? p.unit = some u' ∧ u'.bundle? p.bundle = some b' ∧ b'.path0 = some q ∧ q.tids = g.tids ∧
      q.hdr = g.pos.hdr ∧ q.widx = g.pos.widx ∧ ∀ t ∈ g.tids, t < u.threads.length → (u'.thread t).st = .inPath) ∧
  (∀ n k s u b g, s.unit? n = some u → u.bundle? k = some b → u.st = .resident → u.away = false → u.preempt = false → b.hold = false →
    b.yld = false → b.path0 = none → b.path1 = none → s.groups u b = [g] →
    (g.age < 256 → exec (.elderRule n k) s = .next s) ∧
    (256 ≤ g.age → ∃ s' u' b' q, exec (.elderRule n k) s = .next s' ∧ OnlyUnit s s' u' ∧ u'.uid = n ∧
      u'.bundle? k = some b' ∧ b'.path0 = some q ∧ q.tids = g.tids ∧ q.hdr = g.pos.hdr ∧ q.widx = g.pos.widx)) ∧
  (∀ n k s u b, s.unit? n = some u → u.bundle? k = some b → b.yld = true → exec (.elderRule n k) s = .next s) ∧
  (∀ n k s u b, s.unit? n = some u → u.bundle? k = some b →
    ∃ s1 u', exec (.spill n k) s = .next ((b.tids.filter (s.spillDone u)).foldl (fun s t => s.writeSilt u t) s1) ∧
      OnlyUnit s s1 u' ∧ u'.uid = n ∧ ∀ t, t < u.threads.length → u'.thread t =
        if t ∈ b.tids ∧ s.spillDone u t = true then { u.thread t with st := .spilled s.kclk, resv := none } else u.thread t) ∧
  (∀ n s u ts, s.unit? n = some u → u.st = .resident → s.dueGroup u = some ts →
    ∃ s' u' b, exec (.bundleBuild n) s = .next s' ∧ OnlyUnit s s' u' ∧ u'.uid = n ∧ u'.bundles = u.bundles ++ [b] ∧
      b.built = true ∧ b.quad = u.quadOf (hbOf (ts.headD 0)) ∧ b.slots = ts.map some ++ List.replicate (32 - ts.length) none ∧
      ∀ t, t < u.threads.length → u'.thread t = if t ∈ ts then { u.thread t with st := .ready } else u.thread t) ∧
  (∀ n t s u d dl, s.unit? n = some u → u.st = .resident → t < u.threads.length → (u.thread t).st = .waiting (.join d dl) →
    dl < s.kclk → ∃ s', exec (.joinTimeout n t) s = .next s' ∧
      OnlyUnit s s' (u.setThread t { (u.thread t).put d.toNat 0 with st := .ready })) ∧
  (∀ n t s u dl, s.unit? n = some u → u.st = .resident → t < u.threads.length → (u.thread t).st = .waiting (.sleep dl) →
    dl ≤ s.dt → ∃ s', exec (.sleepWake n t) s = .next s' ∧ OnlyUnit s s' (u.setThread t { u.thread t with st := .ready })) ∧
  (∀ n t s u sy ev target d dl, s.unit? n = some u → u.st = .resident → t < u.threads.length →
    (u.thread t).st = .waiting (.event sy ev target d (some dl) false) → dl ≤ s.dtBefore →
    ∃ s', exec (.evwaitTimeout n t) s = .next s' ∧
      OnlyUnit s s' (u.setThread t { (u.thread t).put d.toNat 1 with st := .ready })) ∧
  (∀ n t s u r, s.unit? n = some u → t < u.threads.length → (u.thread t).resv = some r → r.since + 1024 ≤ s.kclk →
    ∃ s', exec (.reservationTimeout n t) s = .next s' ∧ OnlyUnit s s' (u.setThread t { u.thread t with resv := none }))

/-- The events of outstanding accesses: a load's data goes to its registers with L lowered (R32, R86); a store and an
atomic are performed at the home slice, with S lowered and the thread's gwct raised (R32, R85, R174); a lease ends
(R84); a resolved miss lets the thread go on, a refused one traps it (R199); streams move one element (R184, R186).
Rests on the model's own readings and choices in log entries 22, 23, 49 and 66. -/
def Obligations.MemoryEventsComplete : Prop :=
  (∀ op s o u, s.entered = s → s.op? op = some o → s.unit? o.unit = some u → o.tid < u.threads.length → o.kind.ctr = .l →
    s.opReady o = true → s.portOpen (s.opWorld o) = true → (o.sp = .scratch → u.paged o.addrs = true) →
    (o.sp = .global → s.inRetired o.addrs = false ∧ s.poisoned o.addrs = none ∧
      (o.ord.isAcq = true → o.scope.beyondCore = true → s.coreStores o.unit (linesOf o.addrs) = false)) →
    (s.sibling o = none →
      ∃ s' u', exec (.loadReturn op) s = .next s' ∧ s'.unit? o.unit = some u' ∧ (∀ n, n ≠ o.unit → s'.unit? n = s.unit? n) ∧
        s'.ops = s.ops.filter (·.id != op) ∧ s'.mem = s.mem ∧ s'.eng = s.eng ∧
        (∀ t, t ≠ o.tid → u'.thread t = u.thread t) ∧
        u'.thread o.tid =
          let x := o.value (s.loadBytes u o)
          let th := { ((u.thread o.tid).result o x.1 x.2).lower .l with
            seen := (u'.thread o.tid).seen, heard := (u'.thread o.tid).heard }
          if o.kind.isLr then { th with resv := s.reserve o } else th) ∧
    (∀ p, s.sibling o = some p → ∃ s' u', exec (.loadReturn op) s = .next s' ∧ s'.mem = s.mem ∧ s'.unit? o.unit = some u' ∧
      (∀ n, n ≠ o.unit → s'.unit? n = s.unit? n) ∧
      (∀ t, u'.thread t = { u.thread t with seen := (u'.thread t).seen, heard := (u'.thread t).heard }) ∧
      s'.ops = (s.ops.map fun q => if q.id == p.id then { q with got := q.got ++ s.loadBytes u o } else q).filter
        (·.id != op))) ∧
  (∀ s o u bs, Performs s o u → o.kind = .store bs →
    ∃ s' u', exec (.gwctReturn o.id) s = .next s' ∧ s'.mem = s.mem.writes o.addrs bs ∧ s'.op? o.id = none ∧
      s'.unit? o.unit = some u' ∧ (u'.thread o.tid).regs = (u.thread o.tid).regs ∧
      (u'.thread o.tid).ctrs = ((u.thread o.tid).lower .s).ctrs ∧
      (u'.thread o.tid).gwct =
        if o.toHost then (u.thread o.tid).gwct else BitVec.ofNat 64 (max (u.thread o.tid).gwct.toNat s.dt)) ∧
  (∀ s o u op wide d x y, Performs s o u → o.kind = .atom op wide d x y →
    let n := if wide then 8 else 4
    let old := s.mem.readN o.addrs
    ∃ s' u', exec (.gwctReturn o.id) s = .next s' ∧
      s'.mem = s.mem.writes o.addrs (leBytes n (atomNew op (8 * n) old x.toNat y.toNat)) ∧ s'.op? o.id = none ∧
      s'.unit? o.unit = some u' ∧
      (u'.thread o.tid).regs = ((u.thread o.tid).result o (if wide then 2 else 1) (BitVec.ofNat 128 old)).regs ∧
      (u'.thread o.tid).ctrs = ((u.thread o.tid).lower .s).ctrs) ∧
  (∀ core line s, (∃ x ∈ s.leases, x.core = core ∧ x.line = line ∧ x.till ≤ s.dt) →
    ∃ s', exec (.leaseExpiry core line) s = .next s' ∧
      s'.leases = s.leases.filter (fun x => !(x.line == line && decide (x.till ≤ s.dt))) ∧
      (s'.lineSt line).lease = (s.leases.filter fun x => x.line == line && decide (x.till ≤ s.dt)).foldl
        (fun n x => if x.waited then n else min 2048 (2 * n)) (s.lineSt line).lease ∧
      { s' with leases := s.leases, lines := s.lines } = s) ∧
  (∀ core line s, (∀ x ∈ s.leases, x.core = core → x.line = line → s.dt < x.till) →
    exec (.leaseExpiry core line) s = .next s) ∧
  (∀ n t s u va, s.unit? n = some u → t < u.threads.length → (u.thread t).st = .missing va →
    (∃ s', exec (.translationResolved n t .mapped) s = .next s' ∧
      OnlyUnit s s' (u.setThread t { u.thread t with st := .ready })) ∧
    ∃ s' u' r, exec (.translationResolved n t .refused) s = .next s' ∧ s'.unit? n = some u' ∧ (u'.thread t).st = .trapped r ∧
      s'.mem = s.mem ∧
      r.trap = if u.role = .prologue ∧ (u.thread t).replay = none then { cause := .permission, sub := 3, addr := va }
        else { cause := .unresolved, sub := 2, addr := va }) ∧
  (∀ n t k s u a pl x, s.unit? n = some u → u.st = .resident → s.streamHeld u t ((u.thread t).stream k) = false →
    s.poisonedPlace (s.indexAt u ((u.thread t).stream k).pat ((u.thread t).stream k).next) = none → t < u.threads.length → k < 8 →
    (u.thread t).streams.length = 8 → ((u.thread t).stream k).st = .running → ((u.thread t).stream k).pat.dir = false →
    ((u.thread t).stream k).queue.length < 4 →
    s.elemAddr u ((u.thread t).stream k).pat ((u.thread t).stream k).next = .at_ a →
    s.place u ((u.thread t).stream k).pat.space a ((u.thread t).stream k).pat.bytes .r = pl →
    s.poisonedPlace pl = none → s.placeRead u pl = some x →
    ∃ s' u', exec (.streamElementRead n t k) s = .next s' ∧ s'.mem = s.mem ∧ s'.ops = s.ops ∧ s'.unit? n = some u' ∧
      (∀ i, i ≠ t → u'.thread i = u.thread i) ∧ (∀ i, i ≠ n → s'.unit? i = s.unit? i) ∧
      (u'.thread t).regs = (u.thread t).regs ∧ (u'.thread t).ctrs = (u.thread t).ctrs ∧
      (u'.thread t).streams = (u.thread t).streams.set k
        (let q := (u.thread t).stream k
         { q with queue := q.queue ++ [q.pat.value x], next := q.next + 1
                  st := if q.next + 1 == q.pat.total then .ended else q.st })) ∧
  (∀ n t k s u a v rest, s.unit? n = some u →
    s.poisonedPlace (s.indexAt u ((u.thread t).stream k).pat ((u.thread t).stream k).done) = none → t < u.threads.length → k < 8 → (u.thread t).streams.length = 8 →
    ((u.thread t).stream k).pat.dir = true → ((u.thread t).stream k).queue = v :: rest →
    s.elemAddr u ((u.thread t).stream k).pat ((u.thread t).stream k).done = .at_ a →
    let q := (u.thread t).stream k
    let o (sp : Space) (as : List Nat) : MemOp :=
      { id := s.nextId, unit := n, tid := t, core := u.core, sp := sp, addrs := as, grp := s.nextId
        kind := .elem (leBytes q.pat.bytes v.toNat) k q.done }
    let written (u' : UnitSt) : Prop := (∀ i, i ≠ t → u'.thread i = u.thread i) ∧
      (u'.thread t).regs = (u.thread t).regs ∧ (u'.thread t).ctrs = (u.thread t).ctrs ∧
      (u'.thread t).streams = (u.thread t).streams.set k { q with queue := rest, done := q.done + 1 }
    (∀ as, s.place u q.pat.space a q.pat.bytes .w = .scr as → u.paged as = true →
      s.heldBack (o .scratch as) = false →
      ∃ s' u', exec (.streamElementWrite n t k) s = .next s' ∧ s'.unit? n = some u' ∧ written u' ∧
        u'.scr = u.scr.writes as (leBytes q.pat.bytes v.toNat) ∧ s'.mem = s.mem ∧ s'.ops = s.ops) ∧
    (∀ pas, s.place u q.pat.space a q.pat.bytes .w = .glob pas → u.role ≠ .surrogate →
      ∃ s' u', exec (.streamElementWrite n t k) s = .next s' ∧ s'.unit? n = some u' ∧ written u' ∧ u'.scr = u.scr ∧
        s'.mem = s.mem ∧ s'.ops = s.ops ++ [o .global pas]))

/-- The events of a unit's life: placement makes the launch's next unit (R98, R111); a pre-emption is asked for, the
unit's state goes into the save area and comes back to a core (R120, R121); the launch counts a unit that has drained,
a surrogate's by its verdict (R116, R354). Rests on the model's own readings and choices in log entries 24, 46, 54, 62
and 63. -/
def Obligations.UnitEventsComplete : Prop :=
  (∀ lid core bs s l lin exact back silt, s.linkFree (clusterOf core) = true →
    (l.kernel exact).entry.toNat < 2 ^ 56 → (l.kernel exact).entry.toNat % 8 = 0 → s.launch? lid = some l → l.cores = false →
    l.nextUnit = some (lin, exact) →
    s.hasRoom l.ctx core (l.kernel exact).hbs (l.kernel exact).regs (l.kernel exact).tile (l.kernel exact).fl1 = true →
    s.allowed l exact = true → s.basesOk l.ctx (l.kernel exact).priv (l.kernel exact).hbs bs = true →
    firstFit (s.saveSize l.ctx) (1024 * (l.kernel exact).scr) (s.saveUsed l.ctx) = some back → s.siltPlace l = some silt →
    ∃ s', exec (.placeUnit lid core bs) s = .next s' ∧
      s'.units = s.units ++ [{ s.newUnit s.nextId l exact lin core bs with back := back, silt := silt }] ∧
      ((l.kernel exact).tile = true → core < s.cores.length → (s'.core core).te = {}) ∧
      s'.nextId = s.nextId + 1 ∧ s'.mem = s.mem ∧ s'.ops = s.ops ∧
      s'.launch? lid = some (if exact then { l with redo := l.redo.drop 1 } else { l with placed := l.placed + 1 })) ∧
  (∀ lid core bs s, s.linkFree (clusterOf core) = false →
    exec (.placeUnit lid core bs) s = .next (s.tellDown (clusterOf core) (.place lid core bs))) ∧
  (∀ (s : State) n l exact lin core bs t, t < (l.kernel exact).thr →
    let u := s.newUnit n l exact lin core bs
    let entry := (l.kernel exact).entry
    u.st = .resident ∧ u.core = core ∧ u.lin = lin ∧ u.threads.length = (l.kernel exact).thr ∧
    u.x + l.dimx * (u.y + l.dimy * u.z) = lin ∧ (0 < l.dimx → u.x < l.dimx) ∧ (0 < l.dimy → u.y < l.dimy) ∧
    (u.thread t).regs = List.replicate (l.kernel exact).regs 0 ∧ (u.thread t).rng = seedG l.seed lin t ∧
    (u.thread t).ctrs = {} ∧ (u.thread t).sp = 0 ∧ (u.thread t).fp = 0 ∧
    (u.thread t).pos = { hdr := entry.setWidth 56 } ∧
    (entry.toNat < 2 ^ 56 ∧ entry.toNat % 8 = 0 → (u.thread t).st = .ready) ∧
    (¬ (entry.toNat < 2 ^ 56 ∧ entry.toNat % 8 = 0) → ∃ r, (u.thread t).st = .trapped r ∧ r.fatal = true ∧
      r.trap = { cause := .illegalClause, sub := 7, addr := entry })) ∧
  (∀ n s u, s.unit? n = some u → s.leafUp (clusterOf u.core) = true → u.st = .resident → u.role ≠ .prologue →
    (s.launchOf u).cores = false →
    ∃ s', exec (.preemptRequest n) s = .next s' ∧ OnlyUnit s s' { u with preempt := true }) ∧
  (∀ n s u l, s.unit? n = some u → s.leafUp (clusterOf u.core) = true → s.launch? u.launch = some l → l.cores = true →
    ∃ s', exec (.preemptRequest n) s = .next s' ∧ { s' with units := s.units } = s ∧
      s'.units = s.units.map fun x => if x.st = .resident ∧ x.role ≠ .prologue ∧ (x.uid = n ∨ x.launch = u.launch)
        then { x with preempt := true } else x) ∧
  (∀ n s u, s.unit? n = some u → s.leafUp (clusterOf u.core) = true → s.mayStop u = true → s.running n = none →
    (s.launchOf u).cores = false →
    (s.saveFits u.ctx (s.saveUsed u.ctx) [u] = true → ∃ s' u', exec (.unitSave n) s = .next s' ∧ s'.unit? n = some u' ∧
      u'.st = .saved ∧ u'.away = true ∧ u'.preempt = false ∧ u'.freed = false ∧
      (u.npriv = 0 → ∀ at_, firstFit (s.saveSize u.ctx) (s.saveBytes u) (s.saveUsed u.ctx) = some at_ →
        ∀ a, (a < s.saveBase u.ctx + at_ ∨ s.saveBase u.ctx + at_ + s.saveBytes u ≤ a) → s'.mem.read a = s.mem.read a) ∧
      ((.saved n) ∈ (s'.linkDir (clusterOf u.core) true).waiting ∨ s.fw.links.length ≤ clusterOf u.core) ∧ u'.bundles = [] ∧ u'.scr = u.scr ∧ s'.ops = s.ops ∧
      ∀ t, t < u.threads.length → u'.thread t = { u.thread t with resv := none, age := 0 }) ∧
    (s.saveFits u.ctx (s.saveUsed u.ctx) [u] = false → ∃ s1, OnlyUnit s s1 { u with preempt := false } ∧
      exec (.unitSave n) s = .next (s1.tellUp u.core
        (.report { ctx := u.ctx, status := 2, kind := 1, detail := u.launch, addr := u.lin, dt := s.dt })))) ∧
  (∀ n core s u, s.linkFree (clusterOf core) = true → s.unit? n = some u → s.mayRestore u core = true →
    s.claimsOf u = [] → s.pinnedOf u = [] →
    ∃ s' u', exec (.restoreUnit n core) s = .next s' ∧ s'.unit? n = some u' ∧ u'.st = .resident ∧ u'.core = core ∧
      u'.away = false ∧ u'.freed = false ∧ u'.bundles = u.rehome ∧ (u.tile = true → core < s.cores.length → (s'.core core).te = u.tsave) ∧ u'.scr = u.scr ∧ (u.core = core → s'.mem = s.mem) ∧
      ∀ t, t < u.threads.length → (u.thread t).st = .ready → u'.thread t = u.thread t) ∧
  (∀ n s u l, s.unit? n = some u → u.commit = none → s.drained u = true → s.launch? u.launch = some l →
    (u.role ≠ .prologue → (u.role = .surrogate → u.passes l.tol = true ∧ u.guard = []) →
      l.retired + 1 ≠ l.units → l.cancel = false →
      ∃ s1 : State, exec (.unitRetire n) s = .next s1.settleLaunches ∧ s1.unit? n = none ∧
        s1.launch? u.launch = some { l with
          retired := l.retired + 1
          exact := if u.role = .exact then l.exact + 1 else l.exact
          gcommit := if u.role = .surrogate then l.gcommit + 1 else l.gcommit }) ∧
    (u.role = .surrogate → u.passes l.tol = false → l.cancel = false →
      ∃ s', exec (.unitRetire n) s = .next s' ∧ s'.unit? n = none ∧
        s'.launch? u.launch = some { l with gfail := l.gfail + 1, redo := l.redo ++ [u.lin] }))

/-- The handler's events (R195 to R198): the first waiting trap of a cluster is dispatched; a handler that returns or
runs out of time, or returns without having dealt with its trap, ends the unit; the commands act on the selected
trapped thread. Rests on the model's own readings and choices in log entries 42 and 69. -/
def Obligations.HandlerEventsComplete : Prop :=
  (∀ leaf s d, s.handler? leaf = none → s.leafUp leaf = true → firstDue (s.dueAt leaf) = some d →
    ∃ s' h, exec (.handlerDispatch leaf) s = .next s' ∧ s'.mem = s.mem ∧ s'.handler? leaf = some h ∧
      { h with cause := 0 } = { leaf := leaf, unit := d.unit, bundle := d.bid, tid := d.tid, since := s.dt } ∧
      ∀ u r, s.unit? d.unit = some u → (u.thread d.tid).st = .trapped r → r.fatal = false → h.cause = r.trap.cause.code) ∧
  (∀ leaf s, s.leafUp leaf = false → exec (.handlerDispatch leaf) s = .next s) ∧
  (∀ ds d, firstDue ds = some d → d ∈ ds ∧ ∀ x ∈ ds, x.before d = false) ∧
  (∀ leaf s h u, s.handler? leaf = some h → s.unit? h.unit = some u → u.faulted = false →
    (s.stillTrapped h = false → s.overTime h = false → ∃ s' u', exec (.handlerReturn leaf) s = .next s' ∧ s'.handler? leaf = none ∧
      s'.unit? h.unit = some u' ∧ u'.threads = u.threads ∧ u'.st = u.st ∧ ∀ b, u'.bundle? h.bundle = some b → b.hold = false) ∧
    (s.stillTrapped h = true ∨ s.overTime h = true → ∃ s' u', exec (.handlerReturn leaf) s = .next s' ∧ s'.handler? leaf = none ∧
      s'.unit? h.unit = some u' ∧ u'.st = .draining ∧ u'.faulted = true) ∧
    (h.since + 100000 < s.dt → ∃ s' u', exec (.handlerTimeout leaf) s = .next s' ∧ s'.handler? leaf = none ∧
      s'.unit? h.unit = some u' ∧ u'.st = .draining ∧ u'.faulted = true) ∧
    (s.dt ≤ h.since + 100000 → exec (.handlerTimeout leaf) s = .next s)) ∧
  (∀ leaf s h u b, s.handler? leaf = some h → s.unit? h.unit = some u → u.st = .resident → u.bundle? h.bundle = some b →
    (∃ s' u', exec (.wcmdNone leaf) s = .next s' ∧ OnlyUnit s s' u' ∧ u'.uid = h.unit ∧ u'.threads = u.threads ∧
      u'.bundle? h.bundle = some { b with wstat := 0 }) ∧
    (∀ code, ∃ s' u', exec (.wcmdReserved leaf code) s = .next s' ∧ OnlyUnit s s' u' ∧ u'.uid = h.unit ∧ u'.threads = u.threads ∧
      u'.bundle? h.bundle = some { b with wstat := 2 }) ∧
    (∀ v, ∃ s' u', exec (.wctl leaf v) s = .next s' ∧ OnlyUnit s s' u' ∧ u'.uid = h.unit ∧ u'.threads = u.threads ∧
      u'.bundle? h.bundle = some { b with hold := v.getLsbD 15, wslot := v.toNat % 32 }) ∧
    (∀ t r, b.selected = some t → t < u.threads.length → (u.thread t).st = .trapped r → r.fatal = false →
      (∀ p, s.resumePos u.ctx (u.thread t).pos ((u.thread t).windowPc r) = some p →
        ∃ s' u', exec (.resume leaf) s = .next s' ∧ s'.unit? h.unit = some u' ∧ s'.mem = s.mem ∧ s'.ops = s.ops ∧
          u'.bundle? h.bundle = some { b with wstat := 0 } ∧
          u'.threads = u.threads.set t { u.thread t with pos := p, st := .ready, age := 0, wpc := none }) ∧
      (s.resumePos u.ctx (u.thread t).pos ((u.thread t).windowPc r) = none →
        ∃ s' u', exec (.resume leaf) s = .next s' ∧ OnlyUnit s s' u' ∧ u'.uid = h.unit ∧ u'.threads = u.threads ∧
          u'.bundle? h.bundle = some { b with wstat := 2 }) ∧
      (∃ s' u', exec (.skip leaf) s = .next s' ∧ s'.unit? h.unit = some u' ∧ s'.mem = s.mem ∧ s'.ops = s.ops ∧
        u'.bundle? h.bundle = some { b with wstat := 0 } ∧
        u'.threads = u.threads.set t { u.thread t with
          pos := if (u.thread t).pos.widx < (u.thread t).pos.cnt
            then { (u.thread t).pos with widx := (u.thread t).pos.widx + 1, rep := 0 }
            else { hdr := (u.thread t).pos.hdr + BitVec.ofNat 56 (8 * ((u.thread t).pos.cnt + 1)) }
          st := .ready, age := 0, wpc := none }) ∧
      (u.latch = none → ∃ s' u', exec (.endthread leaf) s = .next s' ∧ s'.unit? h.unit = some u' ∧ s'.mem = s.mem ∧
        (u'.thread t).st = .exited ∧ (u'.thread t).resv = none) ∧
      (u.faulted = false → ∃ s' u', exec (.endunit leaf) s = .next s' ∧ s'.unit? h.unit = some u' ∧ s'.mem = s.mem ∧
        u'.st = .draining ∧ u'.faulted = true) ∧
      (∀ i v, i < u.nregs → u.nregs ≤ 512 → ∃ s' u', exec (.registerWrite (.window leaf (0x800 + 4 * i) false) v) s = .next s' ∧
        OnlyUnit s s' u' ∧ u'.uid = h.unit ∧ u'.bundles = u.bundles ∧
        u'.threads = u.threads.set t { u.thread t with regs := (u.thread t).regs.set i (v.setWidth 32) }))) ∧
  (∀ v s, exec (.registerWrite (.power 0) v) s = .next (s.setPlimit (v.setWidth 16)))

/-! ### Device events: engines, fabric, links (R204, R224 to R247, R274, R298 to R321) -/

/-- The events of the sweep, tile and copy engines: a sweep begins with its pages in frames and ends with its bytes
written and T lowered (R205, R224); a page comes into a frame (R205); tile operations begin and end (R271 to R283);
CLAIM ends with its entry held or freed and the result in d (R231, R233); a flow moves its bytes (R238, R247); RLSE
and CQRY complete (R240, R241); an unmapped range is no longer reached, and claims that pin it are revoked (R236,
R243). Rests on the model's own readings and choices in log entries 3, 6, 13, 23, 25, 50 and 70. -/
def Obligations.EngineEventsComplete : Prop :=
  (∀ core s e u, (s.sweeps core).head? = some e → s.unit? e.unit = some u → e.phase = .accepted →
    (∀ p ∈ e.pages, p ∈ u.frames) →
    ∃ s' e', exec (.sweepStart core) s = .next s' ∧ s'.engOp? e.id = some e' ∧ e'.phase = .begun ∧
      e'.out = (sweepRun e.ins e.o (s.boundOf u (sweepF e.ins).bound.toNat)
        { scr := u.engScr, rm := resolve e.rmode e.g (sweepRnd e.ins) }).out ∧ { s' with eng := s.eng, cores := s.cores } = s) ∧
  (∀ core s e u, (s.sweeps core).head? = some e → s.unit? e.unit = some u → e.phase = .begun → (sweepF e.ins).bound = 0 →
    ∃ s' u', exec (.sweepComplete core) s = .next s' ∧ OnlyUnit { s with eng := s.eng.filter (·.id != e.id) } s' u' ∧
      u'.uid = e.unit ∧ u'.late = u.late ++ [e.out] ∧ u'.scr = u.scr ∧ u'.threads = (u.complete e 0).threads) ∧
  (∀ core s u, s.sweeps core = [] → (s.units.find? fun u => u.core == core && !u.late.isEmpty) = some u →
    exec (.sweepComplete core) s = .next (s.setUnit u.landOne)) ∧
  (∀ n p s u, s.unit? n = some u → 16384 * p < u.nscr → p ∉ u.frames → u.st ≠ .saved →
    s.framesUsed u.core < s.frameCount u.core →
    ∃ s', exec (.scratchPageFill n p) s = .next s' ∧ s'.unit? n = some { u with frames := u.frames ++ [p] } ∧
      (∀ m, m ≠ n → s'.unit? m = s.unit? m) ∧ { s' with units := s.units, cores := s.cores } = s) ∧
  (∀ core faults s u e, s.tileHead core = some (u, e) → e.phase = .accepted →
    (s.turnStatus u e ≠ 0 → ∃ s', exec (.tileOpStart core faults) s = .next s' ∧
      s'.eng = s.eng.filter (·.id != e.id) ∧ s'.mem = s.mem ∧ s'.cores = s.cores) ∧
    (s.turnStatus u e = 0 → isTmma e.ins = false →
      (∀ p ∈ rangePages (s.rangesWith u ((s.core core).te.tile.map Tile.key) e), p ∈ u.frames) →
      ∃ s' e', exec (.tileOpStart core faults) s = .next s' ∧ s'.engOp? e.id = some e' ∧ e'.phase = .begun ∧
        { s' with eng := s.eng, cores := s.cores } = s ∧ (s'.core core).te = (s.core core).te)) ∧
  (∀ core s u e, s.tileHead core = some (u, e) → e.phase = .begun → e.unit = u.uid → s.unit? u.uid = some u →
    (∀ d on, e.ins = .tmir d on → ∃ s' u', exec (.tileOpComplete core) s = .next s' ∧
      OnlyUnit { s with eng := s.eng.filter (·.id != e.id) } s' u' ∧ u'.uid = u.uid ∧ u'.mirror = on ∧
      u'.threads = (u.complete e 0).threads) ∧
    (∀ d a sh, e.ins = .tzero d a → shapeOf e.base = some sh → core < s.cores.length →
      ∃ s' u', exec (.tileOpComplete core) s = .next s' ∧ s'.unit? u.uid = some u' ∧
        u'.threads = (u.complete e 0).threads ∧ s'.engOp? e.id = none ∧ (s'.core core).te = (s.core core).te.clear sh)) ∧
  (let answered (u : UnitSt) (e : EngOp) (result raddr : Nat) : Memory :=
    u.scr.writes (span (e.o.a.toNat + 0x30) 16) (leBytes 4 result ++ leBytes 4 0 ++ leBytes 8 raddr)
  ∀ ctx h refused landing s e u c, h < 4096 → (∀ f, landing ≠ .far f) →
    s.eng.find? (fun e => e.ctx == ctx && isClaim e.ins && e.claim == some h) = some e →
    s.unit? e.unit = some u → claimOf h e.unit e.id e.recd = some c → c.isFabric = false →
    (s.chkCopy u refused c = .ok → u.st ≠ .saved → (s.claim? ctx h).isSome = true →
      ∃ s' u', exec (.claimComplete ctx h refused landing) s = .next s' ∧ s'.claim? ctx h = some { c with st := .held } ∧
        s'.engOp? e.id = none ∧ s'.unit? e.unit = some u' ∧
        u'.threads = (u.complete e (BitVec.ofNat 128 h)).threads ∧ u'.scr = answered u e h 0 ∧
        ((∀ p ∈ c.scrPages, p ∈ u.frames) → s'.mem = s.mem)) ∧
    (∀ st addr, s.chkCopy u refused c = .fail st addr →
      ∃ s' u', exec (.claimComplete ctx h refused landing) s = .next s' ∧ s'.claim? ctx h = none ∧ s'.engOp? e.id = none ∧
        s'.unit? e.unit = some u' ∧
        u'.threads = (u.complete e (BitVec.ofNat 128 (0x80000000 + st))).threads ∧
        u'.scr = answered u e (0x80000000 + st) addr.toNat ∧ s'.mem = s.mem)) ∧
  (∀ op s e u c, s.engOp? op = some e → isFlowOp e.ins = true → s.unit? e.unit = some u → s.claim? e.ctx e.handle = some c →
    (e.phase = .accepted → s.turn e usesClaim = true → u.stopping = false →
      (s.flowStatus e = 0 → e.o.c ≠ 0 →
        ∃ s' u' e', exec (.flowBegin op) s = .next s' ∧ s'.engOp? op = some e' ∧ e'.phase = .begun ∧
          s'.claim? e.ctx e.handle = some { c with st := .flowing } ∧ s'.unit? e.unit = some u' ∧
          { u' with threads := u.threads } = u ∧ { s' with units := s.units, eng := s.eng, ctxs := s.ctxs } = s) ∧
      (s.flowStatus e ≠ 0 →
        ∃ s' u', exec (.flowBegin op) s = .next s' ∧ s'.engOp? op = none ∧ s'.unit? e.unit = some u' ∧
          u'.threads = (u.complete e (BitVec.ofNat 128 (s.flowStatus e))).threads ∧ s'.mem = s.mem)) ∧
    (e.phase = .begun →
      let arrives := c.arv && !flowNoarv e.ins
      let n := e.o.c.toNat
      let src := s.side u .r c.srcScr c.src (e.o.b.toNat % 2 ^ 32) n
      let dst := s.side u .w c.dstScr c.dst (e.o.b.toNat / 2 ^ 32 % 2 ^ 32) n
      let bs := s.readSide u src
      src ≠ .lost → s.engineBusy u.uid src = false → s.poisonedSide src = none →
      (∀ as, arrives = false → dst = .scr as → ∃ s' u', exec (.flowEnd op) s = .next s' ∧ s'.engOp? op = none ∧
        s'.unit? e.unit = some u' ∧ u'.scr = u.scr ∧ u'.late = u.late ++ [as.zip bs] ∧
        u'.threads = (u.complete e 0).threads ∧ s'.mem = s.mem) ∧
      (∀ as, arrives = true → c.aws = true → dst = .scr as → u.st = .resident → ∃ s' u', exec (.flowEnd op) s = .next s' ∧
        s'.engOp? op = none ∧ s'.unit? e.unit = some u' ∧ s'.mem = s.mem ∧
        (let m := u.scr.writeCells (as.zip bs)
         u'.scr = m.writes (span c.aw.toNat 16) (leBytes 16 (arrive (m.at_ c.aw.toNat 16) n))) ∧
        ∀ t, (u'.thread t).ctrs = ((u.complete e 0).thread t).ctrs) ∧
      (∀ pas, dst = .glob pas → pas ≠ [] → u.role ≠ .surrogate → Clear s pas → (∀ o ∈ s.ops, o.id < s.nextId) →
        s.portOpen (s.ctxWorld u.ctx) = true →
        (arrives = false → ∃ s' u', exec (.flowEnd op) s = .next s' ∧ s'.engOp? op = none ∧ s'.unit? e.unit = some u' ∧
          u'.scr = u.scr ∧ s'.mem = s.mem.writes pas bs ∧ ∀ t, t < u.threads.length → u'.thread t =
            if e.tids.any (·.1 == t) then { (u.complete e 0).thread t with
              egwct := BitVec.ofNat 64 (max (u.thread t).egwct.toNat s.dt) } else u.thread t) ∧
        (∀ ws, arrives = true → c.aws = false → s.reach e.ctx c.aw .w 16 = .ok ws → u.ctx = e.ctx → Clear s ws →
          ∃ s' u', exec (.flowEnd op) s = .next s' ∧ s'.engOp? op = none ∧ s'.unit? e.unit = some u' ∧ u'.scr = u.scr ∧
            (let m := s.mem.writes pas bs
             s'.mem = m.writes ws (leBytes 16 (arrive (m.readN ws) n))) ∧
            ∀ t, (u'.thread t).ctrs = ((u.complete e 0).thread t).ctrs)))) ∧
  (∀ op s e u, s.engOp? op = some e → s.unit? e.unit = some u →
    (∀ d a, e.ins = .cqry d a → ∃ s' u', exec (.engineOpComplete op) s = .next s' ∧
      OnlyUnit { s with eng := s.eng.filter (·.id != op) } s' u' ∧ u'.uid = e.unit ∧
      u'.threads = (u.complete e (BitVec.ofNat 128 e.status)).threads) ∧
    (∀ d a c, e.ins = .rlse d a → s.turn e usesClaim = true → s.claim? e.ctx e.handle = some c → c.st ≠ .claiming →
      c.unit = e.unit → ∃ s' u', exec (.engineOpComplete op) s = .next s' ∧ s'.claim? e.ctx e.handle = none ∧
        s'.engOp? op = none ∧ s'.unit? e.unit = some u' ∧ u'.threads = (u.complete e 0).threads)) ∧
  (∀ c va n s, va.toNat % 4096 = 0 → n % 4096 = 0 → s.engineWrites = false → s.farPinned (.unmap c va n) = false →
    s.pageHits (.unmap c va n) = [] →
    ∃ s1 : State, exec (.pageUnmap (.unmap c va n)) s = .next s1.settleLaunches ∧ { s1 with map1 := s.map1 } = s ∧
      ∀ k a acc, s1.walk k a acc = if s.root1 k = s.root1 c ∧ va.toNat ≤ a ∧ a < va.toNat + n ∧ a < 2 ^ 56 then .miss else s.walk k a acc) ∧
  (∀ c va n s x, va.toNat % 4096 = 0 → n % 4096 = 0 → s.engineWrites = false → s.farPinned (.unmap c va n) = false →
    s.pageHits (.unmap c va n) = [(c, 1, x)] → s.claim? c x.h = some x → x.st = .held →
    s.inProgress c x.h = false →
    ∃ s1 : State, exec (.pageUnmap (.unmap c va n)) s = .next s1.settleLaunches ∧
      s1.claim? c x.h = some { x with st := .revoked, cause := 1 } ∧ s1.mem = s.mem)

/-- The events of fabric operations and of packets at this node: acceptance and landing (R298), a put and a radd
performed in the target context (R299, R300), a GET's request and data (R299), a remote atomic performed once,
answered again, and its end at the requester (R303), ring chunks (R306, R307). Rests on the model's own readings and
choices in log entries 25, 27 and 29. -/
def Obligations.FabricEventsComplete : Prop :=
  (∀ op s e u, s.engOp? op = some e → s.unit? e.unit = some u → hasLanding e.ins = true →
    (e.phase = .begun → s.isAccepted e = true → ((e.claim.bind fun h => s.claim? e.ctx h).map Claim.wfl).getD false = false →
      ∃ s' u' e', exec (.fabricAccepted op) s = .next s' ∧ s'.engOp? op = some e' ∧ e'.phase = .fabAccepted ∧ e'.fell = true ∧
        s'.unit? e.unit = some u' ∧ { s' with units := s.units, eng := s.eng } = s ∧ ∀ t, t < u.threads.length →
          u'.thread t = if t ∈ e.tids.map (·.1) then (u.thread t).lower .f else u.thread t) ∧
    (e.phase = .fabAccepted → s.mayLand e = true →
      ∃ s', exec (.fabricLanded op) s = .next s' ∧ s'.engOp? op = none ∧ s'.flight? op = none ∧ s'.mem = s.mem)) ∧
  (∀ (p : Packet) s t pas, s.jobCtx p.job = some t → s.reach t.ctx p.va .w p.data.length = .ok pas → p.aw = none →
    p.held = [] → Clear s pas → s.portOpen (s.ctxWorld t.ctx) = true →
    (p.ptype = 1 → ∃ s', exec (.putPacketRx p) s = .next s' ∧ s'.mem = s.mem.writes pas p.data ∧ s'.eng = s.eng) ∧
    (p.ptype = 4 → s.poisoned pas = none → ∃ s', exec (.putPacketRx p) s = .next s' ∧
      s'.mem = s.mem.writes pas (raddBytes p.sub (pas.map s.mem.read) p.data) ∧ s'.eng = s.eng)) ∧
  (∀ (p : Packet) s t pas, s.jobCtx p.job = some t → s.reach t.ctx p.va .r p.arrive = .ok pas → s.poisoned pas = none →
    0 < p.arrive → p.arrive ≤ 4096 → p.srcN = s.fab.node →
    ∃ s', exec (.getRequestRx p) s = .next s' ∧ { s' with agenda := s.agenda } = s ∧
      s'.agenda = s.agenda ++ [.getDataRx { ptype := 3, dstN := p.srcN, srcN := s.fab.node, job := p.job, claim := p.claim
                                            handle := p.handle, opId := p.opId, doff := 0, data := pas.map s.mem.read, last := true, ctype := p.ctype
                                            at_ := s.dt }]) ∧
  (∀ (p : Packet) s e f d a b c n, s.engOp? p.opId = some e → e.ins = .get d a b c n → e.phase = .begun →
    s.flight? p.opId = some f → f.got.length + p.data.length < e.len →
    ∃ s', exec (.getDataRx p) s = .next s' ∧ { s' with fab := s.fab } = s ∧ s'.flight? p.opId = some { f with
      got := f.got ++ (p.data.mapIdx fun i b => (p.doff + i, b)).filter fun x => !(f.got.any (·.1 == x.1)) }) ∧
  (∀ (p : Packet) s x, p.held = [] → s.fab.cache.find? (fun x => x.src == p.srcN && x.claim == p.claim && x.tag == p.tag) = some x →
    ∃ s', exec (.ratomRequestRx p) s = .next s' ∧ s'.mem = s.mem ∧ s'.fab.cache = s.fab.cache) ∧
  (∀ (p : Packet) s t op pas, p.held = [] → s.fab.cache.find? (fun x => x.src == p.srcN && x.claim == p.claim && x.tag == p.tag) = none →
    p.ageNow s.dt ≤ 5000 → s.jobCtx p.job = some t → AtomOp.ofCode (BitVec.ofNat 4 p.sub) = some op →
    s.reach t.ctx p.va .w (if p.wide then 8 else 4) = .ok pas → Clear s pas → s.poisoned pas = none →
    s.portOpen (s.ctxWorld t.ctx) = true →
    let n := if p.wide then 8 else 4
    let o := BitVec.ofNat 128 (ofLe p.data)
    ∃ s', exec (.ratomRequestRx p) s = .next s' ∧
      s'.mem = s.mem.writes pas (leBytes n
        (atomNew op (8 * n) (s.mem.readN pas) (atomX p.wide o).toNat (atomY p.wide o).toNat)) ∧
      s'.fab.cache.head? = some { src := p.srcN, claim := p.claim, tag := p.tag
                                  result := BitVec.ofNat 64 (s.mem.readN pas), at_ := s.dt }) ∧
  (∀ (p : Packet) s e u f wide aop d a b c, s.engOp? p.opId = some e → e.ins = .ratom wide aop d a b c → e.phase = .begun →
    e.wd = 1 → e.fell = false → s.unit? e.unit = some u → s.flight? p.opId = some f → f.tag = p.tag →
    ∃ s' u', exec (.ratomResponseRx p) s = .next s' ∧ s'.engOp? p.opId = none ∧ s'.mem = s.mem ∧
      s'.flight? p.opId = some { f with done := some s.dt } ∧ s'.unit? e.unit = some u' ∧
      ∀ t r, t < u.threads.length → e.tids.find? (·.1 == t) = some (t, r) → ∃ g, u'.thread t =
        { (((u.thread t).putN c.toNat (if wide then 2 else 1) (BitVec.ofNat 128 (ofLe (p.data.take 8)))).setN r.toNat 1 0).lower
            e.ctr with egwct := g }) ∧
  (∀ op s e f c, s.engOp? op = some e → isRatom e.ins = true → e.phase = .begun → s.flight? op = some f →
    e.claim.bind (fun h => s.claim? e.ctx h) = some c →
    (f.sent + 20000 ≤ s.dt → s.dt < f.first + 500000 →
      ∃ s' port, exec (.ratomRetry op) s = .next s' ∧ s'.flight? op = some { f with sent := s.dt, port := port } ∧
        s'.mem = s.mem ∧ s'.eng = s.eng ∧ s'.units = s.units) ∧
    (f.first + 520000 ≤ s.dt → e.wd = 1 → e.fell = false → ∀ u, s.unit? e.unit = some u →
      ∃ s' u', exec (.ratomUnknown op) s = .next s' ∧ s'.engOp? op = none ∧ s'.mem = s.mem ∧
        s'.flight? op = some { f with done := some s.dt } ∧ s'.unit? e.unit = some u' ∧
        ∀ t r, t < u.threads.length → e.tids.find? (·.1 == t) = some (t, r) → ∃ g, u'.thread t =
          { ((u.thread t).setN r.toNat 1 21).lower e.ctr with egwct := g })) ∧
  (∀ op s f t, s.flight? op = some f → f.done = some t → t + 1000000 ≤ s.dt → s.engOp? op = none →
    ∃ s', exec (.ratomSlotRelease op) s = .next s' ∧ s'.flight? op = none ∧ { s' with fab := s.fab } = s) ∧
  (∀ (p : Packet) s, s.ringOf p = none → s.noCredit p = false →
    ∃ s', exec (.ringChunkRx p) s = .next s' ∧ s'.fab.chunks = s.fab.chunks ++ [p] ∧ { s' with fab := s.fab } = s) ∧
  (∀ (p : Packet) s c e u, s.ringOf p = some (c, e) → s.unit? e.unit = some u → p.sub ≠ 1 → p.view + 1 < c.ringN →
    s.poisonedSide (s.side u .r c.srcScr c.src (p.seq * c.ringSeg + p.doff) p.data.length) = none →
    exec (.ringChunkRx p) s = .next (s.ringSend e c [s.ringPacket e c p.tag p.seq p.doff false (p.view + 1)
      (raddBytes c.ringType p.data (s.ringOwn u c p.seq p.doff p.data.length))]))

/-- The events of links and of ordered multicast: numbering in order, failures, retraining and loss (R317), stamps,
views, acknowledgements and NACKs at the anchor (R308, R310, R311, R406), application in order at a member (R309,
R320). Rests on the model's own readings and choices in log entries 28 and 72. -/
def Obligations.LinkAndGroupEventsComplete : Prop :=
  (∀ port seq s q (p : Packet) i, s.port? port = some q → q.up = true → p.ptype ≠ 13 →
    seq = (q.rxLast + 1) % 2 ^ 32 → p.chunk = [] → s.noCredit p = false →
    ({ p with held := [], at_ := s.dt } : Packet).rx port = some i →
    ∃ s', exec (.linkPacketRx port seq true true p) s = .next s' ∧ s'.agenda = s.agenda ++ [i] ∧
      s'.port? port = some { q with rxLast := seq, fails := 0, ctl := some (0, seq) } ∧
      { s' with agenda := s.agenda, fab := s.fab, ctxs := s.ctxs } = s) ∧
  (∀ port seq s q p crc tag, s.port? port = some q → q.up = true → (crc = false ∨ tag = false) →
    ∃ s', exec (.linkPacketRx port seq crc tag p) s = .next s' ∧
      s'.port? port = some { q with fails := q.fails + 1, errors := q.errors + 1, ctl := some (1, (q.rxLast + 1) % 2 ^ 32) } ∧
      s'.agenda = (if q.fails + 1 < 3 then s.agenda else .linkLoss port :: s.agenda) ∧ s'.mem = s.mem) ∧
  (∀ port s q n, s.port? port = some q →
    (∃ s' q', exec (.linkRetrain port true n) s = .next s' ∧ s'.port? port = some q' ∧ q'.up = true ∧ q'.downAt = none ∧
      q'.fails = 0 ∧ q'.rxLast = q.rxLast ∧ q'.txSeq = q.txSeq ∧ s'.mem = s.mem) ∧
    (q.downAt = none → ∃ s', exec (.linkRetrain port false n) s = .next s' ∧
      s'.port? port = some { q with downAt := some s.dt } ∧ { s' with fab := s.fab } = s)) ∧
  (∀ port s q, s.port? port = some q → q.up = true → (∀ x ∈ s.ctxs, ∀ c ∈ x.claims, c.isFabric = true → c.port ≠ port) →
    let s1 := (s.updPort port fun q => { q with up := false, unacked := [], fails := 0, downAt := none }).report
      { kind := 5, detail := port, addr := q.nodes.headD 0 }
    exec (.linkLoss port) s = .next { s1 with agenda := s1.agenda ++ s1.lostMembers }) ∧
  (∀ k job ms anchor xop next s, s.group? job k = none →
    ∃ s' g, exec (.multicastGroupCreate k job ms anchor xop next) s = .next s' ∧ s'.group? job k = some g ∧ g.members = ms ∧
      g.amembers = ms ∧ g.view = 0 ∧ g.aview = 0 ∧ g.want = next ∧ g.next = next ∧ g.waiting = [] ∧ g.hist = [] ∧
      { s' with fab := s.fab } = s) ∧
  (∀ (p : Packet) s g, s.group? p.job p.group = some g → s.anchors g = true → p.srcN ∈ g.amembers →
    (∀ x, g.hist.find? (fun x => x.p.ptype == 8 && x.p.srcN == p.srcN && x.p.claim == p.claim && x.p.tag == p.tag) = some x →
      ∃ s', exec (.mcstStamp p) s = .next s' ∧ s'.group? p.job p.group = some g ∧ s'.mem = s.mem) ∧
    (g.hist.find? (fun x => x.p.ptype == 8 && x.p.srcN == p.srcN && x.p.claim == p.claim && x.p.tag == p.tag) = none →
      ∃ s', exec (.mcstStamp p) s = .next s' ∧ s'.mem = s.mem ∧ s'.group? p.job p.group = some { g with
        next := g.next + 1
        hist := ({ seq := g.next, at_ := s.dt, p := { p with view := g.aview } } :: g.hist).take 65536
        stamps := g.stamps ++ [(g.next, s.dt)]
        aloft := if p.ptype = 8 then g.aloft ++ [(g.next, p.srcN, p.opId)] else g.aloft }) ∧
    ((g.hist.map (·.seq)).foldl min g.next ≤ p.seq →
      ∃ s', exec (.nackRx p) s = .next s' ∧ s'.group? p.job p.group = some g ∧ s'.mem = s.mem)) ∧
  (∀ (p : Packet) s f, p.sub = 1 → s.flight? p.opId = some f → f.stamp = none →
    ∃ s', exec (.mcstAckRx p) s = .next s' ∧ s'.flight? p.opId = some { f with stamp := some p.seq } ∧
      { s' with fab := s.fab } = s) ∧
  (∀ s g m, s.group? g.job g.group = some g → s.anchors g = true → s.isLost g m = true → m ≠ s.fab.node →
    ∃ s' g', exec (.memberLost ⟨g.job, g.group⟩ m) s = .next s' ∧ s'.group? g.job g.group = some g' ∧ g'.aview = g.aview + 1 ∧
      g'.amembers = g.amembers.filter (· != m) ∧ g'.next = g.next + 1 ∧ s'.mem = s.mem) ∧
  (∀ port (p : Packet) s g, s.group? p.job p.group = some g → g.waiting = [] →
    (p.seq < g.want → exec (.mcstPacketRx port p) s = .next s) ∧
    (g.want < p.seq → Group.settling s.fab.groups port + p.data.length ≤ 262144 →
      ∃ s', exec (.mcstPacketRx port p) s = .next s' ∧ { s' with fab := s.fab } = s ∧
        s'.group? p.job p.group = some { g with waiting := [{ port := port, at_ := s.dt, p := p }] }) ∧
    (∀ c u, p.seq = g.want → p.held = [] → s.serving g = some (c, u) →
      (p.ptype = 12 → ∃ s', exec (.mcstPacketRx port p) s = .next s' ∧ s'.mem = s.mem ∧
        s'.group? p.job p.group = some { g with want := g.want + 1, view := p.view, members := p.members }) ∧
      (∀ pas, p.ptype ≠ 12 → c.arv = false → s.reach u.ctx (applyBase c p) .w p.data.length = .ok pas → Clear s pas →
        s.portOpen (s.ctxWorld u.ctx) = true → ∃ s', exec (.mcstPacketRx port p) s = .next s' ∧ s'.mem = s.mem.writes pas p.data ∧
          s'.group? p.job p.group = some { g with want := g.want + 1 }))) ∧
  (∀ s g w, s.group? g.job g.group = some g → g.waiting = [w] → g.want < w.p.seq →
    w.at_ + 10000 ≤ s.dt → g.nacked = 0 → (s.serving g).isSome = true →
    ∃ s', exec (.mcstNack ⟨g.job, g.group⟩) s = .next s' ∧ s'.group? g.job g.group = some { g with nacked := s.dt } ∧ s'.mem = s.mem)

/-! ### Device events: launch engine, power, firmware, trust (R322 to R360, R364 to R404) -/

/-- The launch engine's events: doorbells and chead (R323, R325); the head command is read and leaves its ring (R324);
a launch claims its block, a GRAPH takes its nodes, the others complete or start when nothing holds them back (R333,
R340, R348, R351); an event's addition (R346); the prologue's time limit (R334). Rests on the model's own readings and
choices in log entries 30, 31, 45, 61 and 66. -/
def Obligations.LaunchEventsComplete : Prop :=
  (∀ k q (v : DWord) (s : State) x, s.queue? k q = some x → x.usable = true →
    ((v >>> 32) = 0 → ((v.setWidth 32 : Word) - x.head).toNat ≤ x.entries →
      ∃ s', exec (.doorbellWrite k q v) s = .next s' ∧ s'.mem = s.mem ∧ s'.queue? k q = some { x with
        upto := v.setWidth 32, st := if x.st = 2 then 2 else if (v.setWidth 32 : Word) = x.head then 0 else 1 }) ∧
    ((v >>> 32) ≠ 0 ∨ x.entries < ((v.setWidth 32 : Word) - x.head).toNat →
      ∃ s' y, exec (.doorbellWrite k q v) s = .next s' ∧ s'.queue? k q = some y ∧ y.st = 3 ∧ y.upto = x.head ∧ y.head = x.head)) ∧
  (∀ k q (v : DWord) (s : State) x, s.queue? k q = some x → x.usable = false → exec (.doorbellWrite k q v) s = .next s) ∧
  (∀ k q (s : State) x, s.queue? k q = some x → x.st = 3 →
    ∃ s', exec (.queueReenable k q) s = .next s' ∧ s'.queue? k q = some { x with
      upto := x.head, st := if ((s.ctx? k).map fun (c : Ctx) => c.frz).getD false then 2 else 0 }) ∧
  (∀ k q v (s : State) x, s.queue? k q = some x → x.held = [] →
    ∃ s', exec (.cheadWrite k q v) s = .next s' ∧ s'.queue? k q = some { x with chead := v }) ∧
  (∀ k q (s : State) x l, s.headQueue k q = some x → s.poisoned (span (x.ring.toNat + 64 * (x.head.toNat % x.entries)) 64) = some l →
    exec (.launch k q) s = .next (s.consume l (some k))) ∧
  (∀ k q (s : State) x ws, k < 1024 → s.headCmd k q = some (x, ws) → ∃ c y, (s.takeCmd k x ws).2 = c ∧ c ∈ (s.takeCmd k x ws).1.cmds ∧
    c.words = ws ∧ c.st = .ready ∧ c.ctx = k ∧ c.q = q ∧ (s.takeCmd k x ws).1.queue? k q = some y ∧ y.head = x.head + 1 ∧
    y.lastCseq = CW.cseq ws ∧ (s.takeCmd k x ws).1.launches = s.launches) ∧
  (∀ k q (s : State) x ws, s.headCmd k q = some (x, ws) →
    (∀ why, cmdBad ws = some why → exec (.commandRejected k q) s =
      .next (((s.takeCmd k x ws).1.reject (s.takeCmd k x ws).2 why).settleLaunches)) ∧
    (cmdBad ws = none → s.phasePast k ws = false →
      (∀ i, (i = .launch k q ∧ CW.type ws = 1) ∨ (i = .guardedLaunch k q ∧ CW.type ws = 2) →
        s.blockBusy (k * 4096 + CW.blk ws) = false →
        ∃ (s1 : State) (l : Launch), exec i s = .next s1.settleLaunches ∧ s1.launch? (k * 4096 + CW.blk ws) = some l ∧
          l.st = .queued ∧ l.ctx = k ∧ l.body = ws ∧ l.guarded = decide (CW.type ws = 2) ∧
          l.dimx = bits (wd ws 12) 0 16 ∧ l.dimy = bits (wd ws 12) 16 16 ∧ l.dimz = bits (wd ws 13) 0 16) ∧
      (∀ bs ns, CW.type ws = 3 → (if bits (wd ws 6) 0 16 = 0 then .ok []
          else s.readVa k (wd64 ws 4) (128 * bits (wd ws 6) 0 16) : Read) = .ok bs →
        nodesOf (bits (wd ws 6) 0 16) (bits (wd ws 6) 0 16) bs = some ns → acyclic (bits (wd ws 6) 0 16) ns = true →
        ∃ (s1 : State), exec (.graph k q) s = .next s1.settleLaunches ∧
          ∃ c ∈ s1.cmds, c.words = ws ∧ c.nodes = withCounters ns) ∧
      (CW.type ws = 3 → bits (wd ws 6) 0 16 ≠ 0 →
        (s.readVa k (wd64 ws 4) (128 * bits (wd ws 6) 0 16) = .miss → exec (.graph k q) s = .next s) ∧
        (∀ l, s.readVa k (wd64 ws 4) (128 * bits (wd ws 6) 0 16) = .poison l → exec (.graph k q) s = .next (s.consume l (some k)))) ∧
      (∀ i, (i = .eventSignal k q ∧ CW.type ws = 4) ∨ (i = .eventWait k q ∧ CW.type ws = 5) →
        (s.takeCmd k x ws).1.ungranted (s.takeCmd k x ws).2 = true →
        exec i s = .next (((s.takeCmd k x ws).1.reject (s.takeCmd k x ws).2 6).settleLaunches)) ∧
      (CW.type ws = 4 → (s.takeCmd k x ws).1.ungranted (s.takeCmd k x ws).2 = false → exec (.eventSignal k q) s =
        .next (((s.takeCmd k x ws).1.tryStart (s.takeCmd k x ws).2).settleLaunches)) ∧
      (CW.type ws = 5 → (s.takeCmd k x ws).1.ungranted (s.takeCmd k x ws).2 = false → exec (.eventWait k q) s =
        .next (((s.takeCmd k x ws).1.tryStart (s.takeCmd k x ws).2).settleLaunches)) ∧
      (CW.type ws = 6 → exec (.cancel k q) s = .next (((s.takeCmd k x ws).1.tryStart (s.takeCmd k x ws).2).settleLaunches)) ∧
      (CW.type ws = 7 → exec (.resync k q) s = .next (((s.takeCmd k x ws).1.completeCmd (s.takeCmd k x ws).2.cid 0 0
        (x.head + 1).toNat x.lastCseq.toNat).settleLaunches)))) ∧
  (∀ (s : State) c, s.nextCmd = some c → exec (.commandStart c.ctx c.cid) s = .next (s.startCmd c).settleLaunches ∧
    (CW.type c.words = 4 → CW.evs c.words = false → (s.ctx? (bits (wd c.words 6) 0 10)).isSome = true →
      s.hasEntry (bits (wd c.words 6) 0 10) (bits (wd c.words 6) 16 16) = true ∨ s.entries < eventEntries →
      (s.startCmd c).event (bits (wd c.words 6) 0 10) (bits (wd c.words 6) 16 16) =
        min (s.event (bits (wd c.words 6) 0 10) (bits (wd c.words 6) 16 16) + wd64 c.words 4) (2 ^ 64 - 1)) ∧
    (CW.type c.words = 4 → (s.ctx? (bits (wd c.words 6) 0 10)).isSome = true →
      s.canEnter (bits (wd c.words 6) 0 10) (bits (wd c.words 6) 16 16) = false →
      ∃ o ∈ (s.startCmd c).ops, o.kind = .frontAdd (bits (wd c.words 6) 0 10) (wd64 c.words 4) ∧
        ∀ y, s.ctx? (bits (wd c.words 6) 0 10) = some y → o.addrs = span (y.eventWord (bits (wd c.words 6) 16 16)) 8) ∧
    (CW.type c.words ∈ [1, 2, 3, 5] → ∃ d ∈ (s.startCmd c).cmds, d.cid = c.cid ∧ d.st = .started)) ∧
  (∀ k b (s : State) l, s.launch? (k * 4096 + b) = some l → s.alive k = true → l.st = .prologue → l.code = 0 → l.cancel = false → l.pstart + 100000 ≤ s.dt →
    ∃ (s1 : State) (l' : Launch), exec (.prologueTimeout k b) s = .next s1.settleLaunches ∧ s1.launch? (k * 4096 + b) = some l' ∧
      l'.code = 4 ∧ l'.st = .faulted ∧ ∀ u ∈ s1.units, ¬ (u.launch = l.lid ∧ u.role = .prologue))

/-- The events of policies, modes, power, energy and of agents outside the device (R356 to R360, R380, R397 to R404).
Rests on the model's own readings and choices in log entries 7, 37, 40, 41 and 73. -/
def Obligations.PowerEventsComplete : Prop :=
  (∀ k image (s : State), (∀ p c, tilthVerify image = .ok p → s.ctx? k = some c → ∃ s', exec (.tilthPolicyLoad k image) s = .next s' ∧
      s'.ctx? k = some { c with policy := some p } ∧ s'.fw.polRej = 0 ∧ s'.mem = s.mem) ∧
    (∀ why, tilthVerify image = .error why → ∃ s', exec (.tilthPolicyLoad k image) s = .next s' ∧ s'.fw.polRej = why ∧
      s'.ctxs = s.ctxs)) ∧
  (∀ k (s : State) c, s.ctx? k = some c → c.policy = none → c.sliceAt + c.slice10 * 10000 ≤ s.dt →
    (∃ u ∈ s.units, u.ctx ≠ k ∧ u.st = .saved) ∨ (∃ l ∈ s.launches, l.ctx ≠ k ∧ l.hasWaiting = true) →
    ∃ s', exec (.tilthSlice k) s = .next s' ∧ s'.ctx? k = some { c with slice10 := 200, sliceAt := s.dt } ∧
      { s' with ctxs := s.ctxs } = s) ∧
  (∀ cl (s : State), (s.changing.contains cl = false → exec (.l1ModeChange cl) s = .next
      (if s.mayChange cl then { s with changing := cl :: s.changing } else s)) ∧
    (s.changing.contains cl = true → s.clusterHolds cl (s.fused.contains cl) = false → s.dirtyL1 cl = false →
      ∃ s', exec (.l1ModeChange cl) s = .next s' ∧ s'.fused.contains cl = !(s.fused.contains cl) ∧
        s'.changing.contains cl = false ∧ (∀ x ∈ s'.leases, clusterOf x.core ≠ cl) ∧
        (∀ k, k < s.cores.length → clusterOf k = cl → (s'.core k).l1 = []) ∧ s'.mem = s.mem)) ∧
  (∀ (s : State) k c j, s.dt / 1000000 ≠ s.power.window → s.ctx? k = some c → c.job? j.job = some j →
    ∃ s' c' j', exec .energyWindow s = .next s' ∧ s'.power.window = s.dt / 1000000 ∧ s'.ctx? k = some c' ∧
      c'.job? j.job = some j' ∧ j'.energy = 0 ∧ j'.placed = 0 ∧
      j'.excess = (if s.allowance k j.job = 0 then 0 else j.energy + j.excess - 1000 * s.allowance k j.job) ∧ s'.mem = s.mem) ∧
  (∀ pnow (s : State), s.dt / 100000 ≠ s.power.tick → ∃ s', exec (.powerControlTick pnow) s = .next s' ∧
    { s' with power := s.power } = s ∧ s'.power.tick = s.dt / 100000 ∧ s'.power.pnow.toNat = min pnow 65535 ∧
    s'.power.freq.toNat = (if s.power.plimit.toNat < min pnow 65535 then max 1200 (s.power.freq.toNat - 100)
      else if 100 * min pnow 65535 < 95 * s.power.plimit.toNat ∧ s.power.freq.toNat < 2400 then s.power.freq.toNat + 100
      else s.power.freq.toNat)) ∧
  (∀ (v : BitVec 16) (s : State), (1000 ≤ v.toNat ∧ v.toNat ≤ 3200 →
      exec (.plimit v) s = .next { s with power := { s.power with plimit := v } }) ∧
    (v.toNat < 1000 ∨ 3200 < v.toNat → exec (.plimit v) s = .next { s with power := { s.power with bad := true } })) ∧
  (∀ p (s : State) x, s.power.parts.find? (·.part == p) = some x → x.gated = none →
    (∀ c ∈ s.ctxs, c.live = true → c.desc.part &&& x.dies = 0) →
    ∃ s' y, exec (.partitionGate p) s = .next s' ∧ s'.power.parts.find? (·.part == p) = some y ∧ y.dies = x.dies ∧
      y.gated = some (Sha.sha256 ([0x47] ++ digestBytes (s.trust.meas.getD (12 + p) 0) ++ leBytes 8 s.dt)) ∧
      { s' with power := s.power } = s) ∧
  (∀ edev (use : EnergyUse) (s : State), s.dt / 100000 ≠ s.power.share →
    s.power.edev.toNat + ((use.cores.map (·.2)).sum + use.hbm + use.fabric) ≤ edev → edev < 2 ^ 64 →
    (s.units.map (·.uid)).Nodup → (s.ctxs.map (·.ctx)).Nodup →
    let work (u : UnitSt) : Nat := u.issued + ((use.busy.find? (·.1 == u.uid)).map (·.2)).getD 0
    let on (k : Nat) : List UnitSt := s.units.filter fun u => u.st == .resident && u.role != .prologue && u.core == k
    ∃ s', exec (.energyAttribution edev use) s = .next s' ∧ s'.power.edev.toNat = edev ∧ s'.mem = s.mem ∧
      (∀ k e, use.cores = [(k, e)] → use.hbm = 0 → use.fabric = 0 → ∀ u ∈ s.units, ∃ u', s'.unit? u.uid = some u' ∧ u'.issued = 0 ∧
        u'.energy = u.energy + if u ∈ on k then e * work u / ((on k).map work).sum else 0) ∧
      (use.cores = [] → ∀ c ∈ s.ctxs, ∃ c', s'.ctx? c.ctx = some c' ∧ c'.hbmB = 0 ∧ c'.fabB = 0 ∧
        c'.energy = c.energy + use.hbm * c.hbmB / (s.ctxs.map (·.hbmB)).sum + use.fabric * c.fabB / (s.ctxs.map (·.fabB)).sum)) ∧
  (∀ edev (use : EnergyUse) (s : State), s.dt / 100000 = s.power.share ∨ edev < s.power.edev.toNat + ((use.cores.map (·.2)).sum + use.hbm + use.fabric) →
    exec (.energyAttribution edev use) s = .next s) ∧
  (∀ a (s : State), s.hostOpen = false → exec (.hostMemAccess a) s = .next s) ∧
  (∀ a k w (s : State), s.trust.stage < 2 → exec (.applicationCoreAccess ⟨k, w⟩ a) s = .next s) ∧
  (∀ a (s : State) i more agent w, (i = .hostMemAccess a ∧ more = .hostMemAccess .resume ∧ s.hostOpen = true ∧ agent = 0 ∧ w = 0) ∨
      (∃ k, k < 32 ∧ 2 ≤ s.trust.stage ∧ i = .applicationCoreAccess ⟨k, w⟩ a ∧ more = .applicationCoreAccess ⟨k, w⟩ .resume ∧ agent = k + 1) →
    (s.atFence agent = true → a ≠ .resume → exec i s = .next { s with fw := { s.fw with behind := s.fw.behind ++ [(agent, w, a)] } }) ∧
    (s.atFence agent = false → a = .resume → exec i s = .next s) ∧
    (s.atFence agent = true → a = .resume → s.ownWrites agent ≠ [] → exec i s = .next { s with agenda := s.agenda ++ [more] }) ∧
    (s.atFence agent = true → a = .resume → s.ownWrites agent = [] → (∀ x ∈ s.fw.behind, x.1 ≠ agent) →
      ∃ s', exec i s = .next s' ∧ { s' with fw := s.fw } = s ∧ s'.atFence agent = false) ∧
    (∀ p1 d1 p2 d2, s.atFence agent = true → a = .resume → s.ownWrites agent = [] →
      s.fw.behind.filter (·.1 == agent) = [(agent, w, .write p1 d1), (agent, w, .fence), (agent, w, .write p2 d2)] → d1 ≠ [] → d2 ≠ [] →
      s.mayReach w (span p1 d1.length) = true → s.mayReach w (span p2 d2.length) = true →
      (∀ o ∈ s.ops, o.id < s.nextId) → (∀ u ∈ s.units, u.uid < s.nextId) →
      (∀ l ∈ linesOf (span p1 d1.length) ++ linesOf (span p2 d2.length), s.liveLeases l = [] ∧ s.waitingOn l = []) →
      ∃ s', exec i s = .next s' ∧ s'.atFence agent = false ∧ s'.ops = s.ops ∧
        s'.mem = (s.mem.writes (span p1 d1.length) d1).writes (span p2 d2.length) d2) ∧
    (∀ op wide pa x y, s.atFence agent = false → a = .atom op wide pa x y →
      let n := if wide then 8 else 4
      (agent = 0 ∨ pa % n ≠ 0 ∨ s.mayReach w (span pa n) = false → exec i s = .next s) ∧
      (agent ≠ 0 → pa % n = 0 → s.mayReach w (span pa n) = true → Clear s (span pa n) → ∃ s', exec i s = .next s' ∧
        s'.mem = s.mem.writes (span pa n) (leBytes n (atomNew op (8 * n) (s.mem.readN (span pa n)) x.toNat y.toNat)) ∧
        s'.ops = s.ops)) ∧
    (∀ pa data, s.atFence agent = false → a = .write pa data → data ≠ [] →
      (s.mayReach w (span pa data.length) = true → Clear s (span pa data.length) →
        ∃ s', exec i s = .next s' ∧ s'.mem = s.mem.writes (span pa data.length) data ∧ s'.ops = s.ops) ∧
      (s.mayReach w (span pa data.length) = false → exec i s = .next s)) ∧
    (∀ pa n, s.atFence agent = false → a = .read pa n → exec i s = .next s) ∧
    (s.atFence agent = false → a = .fence →
      (s.ownWrites agent = [] → exec i s = .next s) ∧
      (s.ownWrites agent ≠ [] → exec i s = .next
        { s with fw := { s.fw with fences := agent :: s.fw.fences }, agenda := s.agenda ++ [more] })))

/-- The firmware's events (R364 to R379): a link's oldest message is acted on once; a restart loses the running
handler; every report is a record of the report ring; requests of the management ring; errors and poison. Rests on the
model's own readings and choices in log entries 33, 34, 35, 49, 60, 61 and 71. -/
def Obligations.FirmwareEventsComplete : Prop :=
  (∀ leaf up seq (s : State) m ms, (s.linkDir leaf up).queue = (seq, m) :: ms →
    (up = true ∨ s.leafUp leaf = true → (s.linkDir leaf up).held = [] →
      ∃ s1 : State, exec (.firmwareMessage leaf up seq) s = .next (s1.actOn m) ∧ { s1 with fw := s.fw } = s ∧
        s1.linkDir leaf up = { s.linkDir leaf up with acted := seq, permits := (s.linkDir leaf up).permits + 1, queue := ms }) ∧
    (∀ n, n ≠ seq → exec (.firmwareMessage leaf up n) s = .next s) ∧
    (up = false → s.leafUp leaf = false → exec (.firmwareMessage leaf up seq) s = .next s)) ∧
  (∀ leaf (s : State), (s.leafUp leaf = true → ∃ s', exec (.controllerRestart leaf) s = .next s' ∧ s'.leafUp leaf = false ∧
      s'.handler? leaf = none ∧ s'.mem = s.mem ∧
      ∀ h u, s.handler? leaf = some h → s.unit? h.unit = some u → ∃ u', s'.unit? h.unit = some u' ∧ u'.threads = u.threads) ∧
    (s.leafUp leaf = false → ∃ s', exec (.controllerRestart leaf) s = .next s' ∧ s'.leafUp leaf = true ∧
      { s' with fw := s.fw } = s)) ∧
  (∀ r (s : State), s.fw.mq.held = [] → s.fw.mq.room = true → s.report r =
    (s.putFront mgmt (s.fw.mq.cring.toNat + 32 * (s.fw.mq.ctail.toNat % s.fw.mq.centries))
      (bytesOf (({ r with dt := s.dt } : Report).words.set 2 s.fw.mq.rseq))).setQueue mgmt
        { s.fw.mq with ctail := s.fw.mq.ctail + 1, rseq := s.fw.mq.rseq + 1, held := [] }) ∧
  (∀ (s : State) ws, s.headReq = some ws → let n := MReq.qseq ws
    let ctx := MReq.ctx ws
    let d := ctxDescOf (s.descWords ctx)
    (MReq.type ws = 1 →
      (d.rsv = true ∨ descAligned d = false ∨ s.keyLoaded d.world = false ∨ s.partOk ctx d.part = false →
        ∃ s', exec (.ctxStart n ctx d) s = .next s' ∧ Reported s s' ws 3 ∧ s'.ctxs = s.ctxs) ∧
      (d.rsv = false → descAligned d = true → s.keyLoaded d.world = true → s.partOk ctx d.part = true →
        s.ctx? ctx = none → ∃ s' c, exec (.ctxStart n ctx d) s = .next s' ∧ Reported s s' ws 0 ∧
          s'.ctx? ctx = some c ∧ c.live = true ∧ c.frz = false ∧ c.desc = d ∧ c.claims = [] ∧
          c.queues = (s.takeReq ws).readQueues d.qtab.toNat ∧
          ∀ m, d.dbg = true → s.trust.meas[10]? = some m → s'.trust.meas[10]? = some (extended m (Sha.sha256 (descBytes d))))) ∧
    (∀ i k, (i, k) ∈ [(Instr.ctxUpdate n ctx (MReq.mask ws) d, 2), (.ctxStop n ctx, 3), (.ctxKill n ctx, 4),
        (.preempt n ctx (MReq.arg ws), 5), (.qclear n (MReq.arg ws), 6), (.managementResync n, 7)] →
      MReq.type ws = k → s.alive ctx = false →
      ∃ s', exec i s = .next s' ∧ Reported s s' ws 1 ∧ s'.ctxs = s.ctxs ∧ s'.units = s.units) ∧
    (MReq.type ws = 0 ∨ 7 < MReq.type ws →
      ∃ s', exec (.managementRejected n (MReq.type ws) ctx) s = .next s' ∧ Reported s s' ws 1 ∧ s'.ctxs = s.ctxs ∧ s'.units = s.units) ∧
    (∀ c, s.ctx? ctx = some c → c.live = true →
      (MReq.type ws = 2 → let on (i : Nat) : Bool := (MReq.mask ws).getLsbD i
        (∀ i, on i = true → i ∈ [0, 1, 2, 3, 4, 5, 6, 14]) →
        (∀ u ∈ s.units, u.ctx = ctx → u.st = .resident → u.role ≠ .prologue → ∀ i ∈ [0, 1, 5, 6], on i = false) →
        ∃ s', exec (.ctxUpdate n ctx (MReq.mask ws) d) s = .next s' ∧ Reported s s' ws 0 ∧ s'.units = s.units ∧
          s'.ctx? ctx = some { c with desc := { c.desc with
            world := if on 0 then d.world else c.desc.world
            part := if on 1 then d.part else c.desc.part
            dbg := if on 2 then d.dbg else c.desc.dbg
            mirx := if on 3 then d.mirx else c.desc.mirx
            hmask := if on 4 then d.hmask else c.desc.hmask
            s1root := if on 5 then d.s1root else c.desc.s1root
            s2root := if on 6 then d.s2root else c.desc.s2root
            himg := if on 14 then d.himg else c.desc.himg } }) ∧
      (MReq.type ws = 3 → ∃ s' c', exec (.ctxStop n ctx) s = .next s' ∧ Reported s s' ws 0 ∧ s'.units = s.units ∧
        s'.ctx? ctx = some c' ∧ c'.live = true ∧ c'.frz = true ∧ (∀ q ∈ c'.queues, q.st = 2 ∨ q.st = 3) ∧
        ∀ u ∈ s.units, u.ctx = ctx → u.st = .resident → u.role ≠ .prologue → clusterOf u.core < s.fw.links.length →
          s'.preemptSent u = true) ∧
      (MReq.type ws = 5 → ∃ s', exec (.preempt n ctx (MReq.arg ws)) s = .next s' ∧ Reported s s' ws 0 ∧ s'.units = s.units ∧ s'.ctxs = s.ctxs ∧
        ∀ u ∈ s.units, u.ctx = ctx → u.st = .resident → u.role ≠ .prologue → clusterOf u.core < s.fw.links.length →
          (MReq.arg ws = 0xFFFFFFFF ∨ u.launch = (MReq.arg ws).toNat) → s'.preemptSent u = true) ∧
      (MReq.type ws = 4 → ∃ s' c', exec (.ctxKill n ctx) s = .next s' ∧ Reported s s' ws 0 ∧ s'.ctx? ctx = some c' ∧
        c'.live = false ∧ c'.claims = [] ∧ (∀ u ∈ s'.units, u.ctx ≠ ctx) ∧ ∀ e ∈ s'.eng, e.ctx ≠ ctx) ∧
      (MReq.type ws = 6 → ∃ s', exec (.qclear n (MReq.arg ws)) s = .next s' ∧ Reported s s' ws 0 ∧
        s'.fw.quars = s.fw.quars.filter (· != (MReq.arg ws).toNat) ∧ (∀ e ∈ s'.fw.events, e.1 ≠ (MReq.arg ws).toNat) ∧
        s'.ctxs = s.ctxs ∧ s'.units = s.units) ∧
      (MReq.type ws = 7 → exec (.managementResync n) s = .next ((s.takeReq ws).report
        { ctx := ctx, kind := 8, qseq := MReq.qseq ws, detail := s.fw.mlast.toNat })))) ∧
  (∀ line ok (s : State), ok = false ∨ (s.lineSt line).dirty = true →
    ((s.lineSt line).inL2 = false → ∃ s', exec (.uncorrectableError line ok) s = .next s' ∧ { s' with lines := s.lines } = s ∧
      s'.lineSt line = { s.lineSt line with poison := true } ∧ ∀ l, l ≠ line → s'.lineSt l = s.lineSt l) ∧
    ((s.lineSt line).inL2 = true → ∃ s', exec (.uncorrectableError line ok) s = .next s' ∧ (s'.lineSt line).poison = true ∧
      s'.mem = s.mem ∧ s'.units = s.units ∧ ((s.limit 1).1 ≤ 1 → s'.fw.quars.contains (s.wayOf line) = true))) ∧
  (∀ line (s : State), (s.lineSt line).dirty = false → ∃ s', exec (.uncorrectableError line true) s = .next s' ∧
    (∀ l, (s'.lineSt l).poison = (s.lineSt l).poison) ∧ s'.mem = s.mem ∧ s'.units = s.units) ∧
  (∀ slice way (s : State), slice < 64 → way < 16 → (s.limit 1).1 ≤ 1 → ∃ s', exec (.errorEvent (.way slice way true)) s = .next s' ∧
    s'.fw.quars.contains (wayId slice way) = true ∧ s'.ctxs = s.ctxs ∧ s'.units = s.units) ∧
  (∀ line by_ (s : State), (s.lineSt line).poison = true → ∃ s', exec (.poisonConsume { line := line, by_ := by_ }) s = .next s' ∧
    s'.fw.retired.contains (line / 512) = true ∧ s'.fw.quars.contains (s.wayOf line) = true ∧
    ∀ k c, (s.lineSt line).owner.or by_ = some k → s.ctx? k = some c → c.live = true → ∃ c', s'.ctx? k = some c' ∧ c'.live = false)

/-- The trust core's events (R384 to R395): keys, the version floor, EXTEND, boot and SPDM. Rests on the model's own
readings and choices in log entries 36, 37, 38, 39, 61 and 71. -/
def Obligations.TrustEventsComplete : Prop :=
  (∀ rtype w (s : State), exec (.trustRequestInvalid rtype w) s =
    .next { s with trust := { s.trust with request := (rtype, w), status := if s.trust.removing = [] then 3 else 2 } }) ∧
  (∀ i t w (s : State), w = 0 ∨ 255 < w → (∃ ok net key, i = .keyLoad w ok net key ∧ t = 1) ∨ (i = .keyRetire (.request w) ∧ t = 2) ∨
      (i = .keyDestroy w ∧ t = 3) →
    exec i s = .next { s with trust := { s.trust with request := (t, w), status := 3 } }) ∧
  (∀ w net key (s : State), 1 ≤ w → w ≤ 255 →
    (∀ ok, s.trust.removing ≠ [] ∨ (∃ k ∈ s.trust.slots, k.slot = w) → exec (.keyLoad w ok net key) s =
      .next { s with trust := { s.trust with request := (1, w), status := 2 } }) ∧
    (s.trust.removing = [] → (∀ k ∈ s.trust.slots, k.slot ≠ w) →
      exec (.keyLoad w false net key) s = .next { s with trust := { s.trust with request := (1, w), status := 1 } } ∧
      ((∀ x ∈ s.trust.sealed_, x.1 = w → x.2 = key) → exec (.keyLoad w true net key) s = .next { s with trust := { s.trust with
        slots := { slot := w, net := net, key := key } :: s.trust.slots, sealed_ := s.trust.sealed_.filter (·.1 != w)
        request := (1, w), status := 0 } }) ∧
      (∃ s', exec (.keyLoad w true net key) s = .next s' ∧ s'.trust.status = 0 ∧
        s'.trust.slots = { slot := w, net := net, key := key } :: s.trust.slots ∧
        ∀ a, a / 128 ∉ s.worldLines w → s'.mem.read a = s.mem.read a))) ∧
  (∀ i t w (s : State), 1 ≤ w → w ≤ 255 → s.trust.removing ≠ [] → (i = .keyRetire (.request w) ∧ t = 2) ∨ (i = .keyDestroy w ∧ t = 3) →
    exec i s = .next { s with trust := { s.trust with request := (t, w), status := 2 } }) ∧
  (∀ w (s : State), 1 ≤ w → w ≤ 255 → s.trust.removing = [] →
    (∃ s', exec (.keyRetire (.request w)) s = .next s' ∧ s'.trust.removing = [w] ∧ s'.trust.slots = s.trust.slots ∧
      s'.agenda.getLast? = some (.keyRetire (.resume w)) ∧ s'.mem = s.mem ∧
      ∀ k ∈ s.worldCtxs w, ∃ c, s'.ctx? k = some c ∧ c.frz = true) ∧
    (∃ s', exec (.keyDestroy w) s = .next s' ∧ s'.trust.status = 0 ∧ s'.trust.slots = s.trust.slots.filter (·.slot != w) ∧
      (∀ k ∈ s.worldCtxs w, ∃ c, s'.ctx? k = some c ∧ c.live = false) ∧
      ∀ a, a / 128 ∉ s.worldLines w → s'.mem.read a = s.mem.read a)) ∧
  (∀ w (s : State), (s.trust.removing.contains w = false → exec (.keyRetire (.resume w)) s = .next s) ∧
    (s.trust.removing.contains w = true → s.worldPreempting w = true →
      exec (.keyRetire (.resume w)) s = .next { s with agenda := s.agenda ++ [.keyRetire (.resume w)] }) ∧
    (s.trust.removing.contains w = true → s.worldPreempting w = false → ∃ s', exec (.keyRetire (.resume w)) s = .next s' ∧
      s'.trust.removing = s.trust.removing.filter (· != w) ∧ s'.trust.status = 0 ∧ s'.mem = s.mem ∧
      s'.trust.slots = s.trust.slots.filter (·.slot != w) ∧ ∀ x ∈ s'.lines, x.world = w → x.inL2 = false ∧ x.dirty = false)) ∧
  (∀ floor sigOk (s : State), exec (.svnRaise floor sigOk) s = .next { s with trust := { s.trust with
      request := (4, 0)
      floor := if s.trust.removing = [] ∧ sigOk = true ∧ s.trust.floor ≤ floor then floor else s.trust.floor
      status := if s.trust.removing ≠ [] then 2 else if sigOk = false then 1 else if floor < s.trust.floor then 4 else 0 } }) ∧
  (∀ r d (s : State), exec (.extend r d) s = .next { s with trust := { s.trust with
      request := (5, r)
      meas := if s.trust.removing = [] ∧ 20 ≤ r ∧ r ≤ 23 then
        s.trust.meas.modify r (fun m => Sha.sha256 (digestBytes m ++ digestBytes d)) else s.trust.meas
      status := if s.trust.removing ≠ [] then 2 else if 20 ≤ r ∧ r ≤ 23 then 0 else 3 } }) ∧
  (∀ i (s : State), i ∈ [.deviceReset, .watchdogReset] → ∃ s', exec i s = .next s' ∧ s'.mem = [] ∧ s'.units = [] ∧ s'.ops = [] ∧
    s'.eng = [] ∧ s'.ctxs = [] ∧ s'.launches = [] ∧ s'.cmds = [] ∧ s'.kclk = 0 ∧ s'.time = 0 ∧ s'.trust.slots = [] ∧
    s'.trust.floor = s.trust.floor ∧ s'.fw.retired = s.fw.retired ∧ s'.trust.stage = 0 ∧
    s'.trust.identity = some (Config.identityKey false, Config.identityKey true) ∧
    (bits s.trust.boot.toNat 16 4 < 3 → s'.trust.recovery = false ∧
      s'.trust.boot = bootWord (s.trust.boot.getLsbD 23) (bits s.trust.boot.toNat 16 4 + 1) (bits s.trust.boot.toNat 0 1)) ∧
    (3 ≤ bits s.trust.boot.toNat 16 4 → s.trust.boot.getLsbD 23 = false → s'.trust.recovery = false ∧
      s'.trust.boot = bootWord true 1 (1 - bits s.trust.boot.toNat 0 1)) ∧
    (3 ≤ bits s.trust.boot.toNat 16 4 → s.trust.boot.getLsbD 23 = true → s'.trust.recovery = true ∧
      s'.trust.boot = s.trust.boot) ∧
    (s'.trust.recovery = false → s'.trust.meas[2]? = some (extended 0 (Sha.sha256 (leBytes 4 s'.trust.boot.toNat))))) ∧
  (∀ img (s : State), s.trust.halted = false → s.trust.stage < 2 →
    let t := s.trust
    let from_ : BootSrc := if t.stage ≠ 0 then t.link else if t.recovery then .host else .flash (bits t.boot.toNat 0 1)
    (img.from_ ≠ from_ → exec (.bootStageLoad img) s = .next s) ∧
    (img.from_ = from_ →
      (img.sigOk = false ∨ img.svn < t.floor → exec (.bootStageLoad img) s = .next { s with trust := { t with halted := true } }) ∧
      (img.sigOk = true → t.floor ≤ img.svn →
        (img.recsOk = false ∨ partsOk (img.recs.parts.getD []) = false → exec (.bootStageLoad img) s = .next { s with trust := { t with
          meas := t.meas.modify (if t.stage = 0 then 1 else 5) (extended · img.digest), stage := t.stage + 1, halted := true } }) ∧
        (img.recsOk = true → partsOk (img.recs.parts.getD []) = true →
          ∃ s', exec (.bootStageLoad img) s = .next s' ∧ s'.trust.stage = t.stage + 1 ∧ s'.trust.halted = false ∧ s'.mem = s.mem ∧
            s'.trust.meas = (if t.stage = 0 then
                [(1, img.digest), (3, img.recDig), (4, Sha.sha256 (digestBytes img.manifest ++ leBytes 8 t.floor))]
              else [(5, img.digest), (6, img.gsc), (7, img.leaf), (8, img.app), (9, img.recDig), (11, retiredDigest s.fw.retired)]).foldl
                (fun ms x => ms.modify x.1 (extended · x.2)) t.meas ∧
            (t.stage = 0 → s'.trust.link = (match img.recs.link with | .eth p => .eth p | _ => .host)) ∧
            (∀ ls, img.recs.limits = some ls → s'.fw.limits = ls) ∧
            (∀ ps, img.recs.parts = some ps → s'.power.parts.map (fun p => (p.part, p.dies)) = ps.map fun p => (p.part, p.dies)) ∧
            (∀ m, img.recs.mgmt = some m → s'.fw.ctxTab = m.ctab ∧ s'.fw.mq.ring = m.ring ∧ s'.fw.mq.cring = m.cring) ∧
            ∀ v : BitVec 16, img.recs.plimit = some v → 1000 ≤ v.toNat → v.toNat ≤ 3200 → s'.power.plimit = v)))) ∧
  (∀ (s : State), s.trust.halted = false → s.trust.stage = 2 → ∃ s' k, exec .bootComplete s = .next s' ∧ s'.trust.stage = 3 ∧
    s'.trust.boot = bootWord false 0 (bits s.trust.boot.toNat 0 1) ∧
    s'.trust.slots = k :: s.trust.slots.filter (·.slot != 0) ∧ k.slot = 0 ∧
    { s' with trust := s.trust, fresh := s.fresh } = s) ∧
  (∀ (q : SpdmReq) (s : State) (r : Spdm), s.trust.spdm[q.box]? = some r →
    (∃ s', exec (.getVersion q) s = .next s' ∧ { s' with trust := s.trust, fresh := s.fresh } = s ∧
      s'.trust.spdm[q.box]? = some { phase := 1, script := q.msg ++ versionResp, negLen := (q.msg ++ versionResp).length, reply := versionResp }) ∧
    (∀ i p resp next neg, (i, p, resp, next, neg) ∈ [(Instr.getCapabilities q, 1, capabilitiesResp s.fresh, 2, true),
        (.negotiateAlgorithms q, 2, algorithmsResp, 3, true), (.getDigests q, 3, [0x13, 1, 1, 1] ++ chainDigest, 3, false),
        (.getCertificate q, 3, certificateResp q.msg, 3, false)] →
      (r.phase = p → ∃ s', exec i s = .next s' ∧ { s' with trust := s.trust, fresh := s.fresh } = s ∧ s'.trust.spdm[q.box]? = some
        { phase := next, script := r.script ++ q.msg ++ resp, negLen := if neg then (r.script ++ q.msg ++ resp).length else r.negLen
          reply := resp })) ∧
    (∀ i resp signed, (i = .challenge q ∧ resp = challengeResp s.fresh q.msg ∧ signed = true) ∨
        (∃ index, i = .getMeasurements q index signed ∧ resp = s.measurementsResp index signed q.msg) →
      r.phase = 3 → ∃ s', exec i s = .next s' ∧ { s' with trust := s.trust, fresh := s.fresh } = s ∧
        let script := r.script ++ q.msg ++ resp
        let sig := Sha.beBytes 384 (Config.signature ((s.trust.identity.map (·.1)).getD 0) (Sha.sha256 script)).toNat
        s'.trust.spdm[q.box]? = some (if signed then
          { phase := 3, script := script.take r.negLen, negLen := r.negLen, reply := resp ++ sig, signed := some (Sha.sha256 script) }
          else { phase := 3, script := script, negLen := r.negLen, reply := resp })) ∧
    (∀ i p, (i, p) ∈ [(Instr.getCapabilities q, 1), (.negotiateAlgorithms q, 2), (.getDigests q, 3), (.getCertificate q, 3),
        (.challenge q, 3)] ∨ (∃ index signed, (i, p) = (.getMeasurements q index signed, 3)) →
      r.phase ≠ p → ∃ s', exec i s = .next s' ∧
        s'.trust.spdm[q.box]? = some { r with reply := [0x13, 0x7F, 0x04, 0], signed := none }) ∧
    (∀ code, ∃ s', exec (.spdmUnsupported q code) s = .next s' ∧
      s'.trust.spdm[q.box]? = some { r with reply := [0x13, 0x7F, 0x07, 0], signed := none }))

/-! ### Words, steps, reset and memory -/

/-- R34 to R45: words that spec/ writes out, field by field from the highest bit down, decode to the instructions that
they stand for, in every class: the lane's, control, memory, sweep, tile, copy, fabric and launched code. -/
def Obligations.DecodesSpecWords : Prop :=
  decodeWord (0x03#8 ++ 0#4 ++ 3#9 ++ 1#9 ++ 2#9 ++ 0#9 ++ 0#16) = .ok (.add .i32 3 1 2 false) ∧
  decodeWord (0x43#8 ++ 8#4 ++ 7#9 ++ 4#9 ++ 5#9 ++ 6#9 ++ 9#16) = .ok (.ffma .f32 7 4 5 6 { nega := true, rnd := .rne }) ∧
  decodeWord (0x70#8 ++ 0#4 ++ 5#9 ++ 4#9 ++ 0#9 ++ 0#9 ++ 0x16#16) = .ok (.shfl .i32 5 4 0 .down true 1) ∧
  decodeWord (0x80#8 ++ 1#4 ++ 5#9 ++ 0#3 ++ 0xFFFFFFFFFB#40) = .ok (.br .nz 5 0xFFFFFFFFFB) ∧
  decodeWord (0xA0#8 ++ 2#4 ++ 6#9 ++ 8#9 ++ 0x40#22 ++ 1#3 ++ 3#3 ++ 0#2 ++ 0#4) =
    .ok (.ld .b32 6 { base := 8, off := 0x40, ord := .acq, scope := .dev }) ∧
  decodeWord (0xA8#8 ++ 2#4 ++ 6#9 ++ 8#9 ++ 0#22 ++ 3#3 ++ 3#3 ++ 0#2 ++ 0#4) = .ok (.atom false false .add 6 8 0 .ar .dev) ∧
  decodeWord (0xC0#8 ++ 8#4 ++ 8#12 ++ 10#9 ++ 11#9 ++ 12#9 ++ 3#6 ++ 0#7) =
    .ok (.swadd { ty := .f32, count := 8, d := 10, a := 11, b := 12, bound := 3 } {}) ∧
  decodeWord (0xD3#8 ++ 0#4 ++ 30#9 ++ 16#9 ++ 18#9 ++ 20#9 ++ 0#16) = .ok (.tmma 30 16 18 20) ∧
  decodeWord (0xD8#8 ++ 0#4 ++ 20#9 ++ 12#9 ++ 0#9 ++ 0#9 ++ 0#16) = .ok (.claim 20 12) ∧
  decodeWord (0xE3#8 ++ 0#4 ++ 30#9 ++ 20#9 ++ 24#9 ++ 26#9 ++ 10#16) = .ok (.ratom false .cas 30 20 24 26) ∧
  decodeWord (0xE8#8 ++ 0#4 ++ 0#9 ++ 6#9 ++ 0x402#34) = .ok (.lset 6 0x402) ∧
  decodeWord (0x9E#8 ++ 3#4 ++ 1#4 ++ 1#4 ++ 0#4 ++ 0#4 ++ 0#36) = .ok (.rep 3 1 1 0 0) ∧
  decodeHeader (0xA#4 ++ 0#4 ++ 2#4 ++ 0#6 ++ 63#6 ++ 63#6 ++ 63#6 ++ 63#6 ++ 0#1 ++ 0#21) =
    { sig := 0xA, cls := 0, cnt := 2, wL := 0, wS := 63, wC := 63, wT := 63, wF := 63, yld := 0, rsv := 0 }

/-- Every well-formed instruction word decodes to the instruction that it encodes, with every operand at every value
that the encoding admits (R34 to R46); a header's fields come back whatever they are (R27). Rests on the model's own
readings and choices in log entry 17. -/
def Obligations.DecodeEncodeAgree : Prop :=
  (∀ (i : Instr) (w : DWord), i.wf = true → encode i = some w → (∀ h, i ≠ .clauseHeader h) → decodeWord w = .ok i) ∧
  (∀ (h : Header) (w : DWord), encode (.clauseHeader h) = some w → decodeHeader w = h)

/-- A word that decodes has one meaning: the instruction is well formed, and its encoding is that word (R46). Rests on
the model's own readings and choices in log entries 16 and 17. -/
def Obligations.EncodeDecodeAgree : Prop :=
  ∀ (i : Instr) (w : DWord), decodeWord w = .ok i → i.wf = true ∧ encode i = some w

/-- A step runs the decoded instruction: of the path whose turn it is, the word that the eight bytes at its position
hold, stepped inside a REP, or the clause header there (R2, R26, R31, R48, R78); a word that is none traps, a fetch
that misses waits, and one that meets poison consumes it first (R373); when the path stalls, the ready threads at its
PC age (R105). With no path to run, the next of the agenda, or an event that the device brings about, is executed (the
order of these turns is the model's, log 2 and log 14). -/
def Obligations.StepRunsDecodedInstruction : Prop :=
  (∀ (s : State) pr rest v pas, s.issueQ = pr :: rest →
    let s1 : State := { s with issueQ := rest, cur := some pr }
    s1.view? = some v → s1.reach v.u.ctx (Pos.addr { hdr := v.p.hdr, widx := v.p.widx }) .x 8 = .ok pas →
    let w := BitVec.ofNat 64 (s.mem.readN pas)
    (∀ l, s1.codePoison v.u.ctx v.p = some l → step s = .next (s1.consume l (some v.u.ctx))) ∧
    (s1.codePoison v.u.ctx v.p = none →
    (v.p.widx = 0 → step s = thenDo (State.ageStalled v) (exec (.clauseHeader (decodeHeader w)) s1)) ∧
    (∀ i, v.p.widx ≠ 0 → v.p.rep = none → decodeWord w = .ok i → step s = thenDo (State.ageStalled v) (exec i s1)) ∧
    (∀ i r, v.p.widx ≠ 0 → v.p.rep = some r → decodeWord (r.word w) = .ok i →
      step s = thenDo (State.ageStalled v) (exec i s1)) ∧
    (∀ b, v.p.widx ≠ 0 → v.p.rep = none → decodeWord w = .error b → step s = .next (s1.trapAll v (s1.badWord v w b))))) ∧
  (∀ (s : State) pr rest v va, s.issueQ = pr :: rest →
    let s1 : State := { s with issueQ := rest, cur := some pr }
    s1.view? = some v → s1.reach v.u.ctx (Pos.addr { hdr := v.p.hdr, widx := v.p.widx }) .x 8 = .miss va →
    step s = .next (s1.missAll v va)) ∧
  (∀ (s : State) i is, s.issueQ = [] → s.agenda = i :: is →
    step s = if s.rot % 2 = 0 then exec i { s with cur := none, rot := s.rot + 1, agenda := is }
      else exec (State.dueEvent { s with cur := none, rot := s.rot + 1 }) { s with cur := none, rot := s.rot + 1 }) ∧
  (∀ (s : State), s.issueQ = [] → s.agenda = [] →
    step s = exec (State.dueEvent { s with cur := none, rot := s.rot + 1 }) { s with cur := none, rot := s.rot + 1 })

/-- The state after reset: kclk at 0 (R190), every cluster in split mode (R356), M0 to M23 at zero (R391), the power
registers at their reset values (R402); no unit, launch, command, access or operation. Device time 0 and memory that
reads zero are the model's choices (log entries 1 and 4). -/
def Obligations.ResetState : Prop :=
  State.reset.kclk = 0 ∧ State.reset.fused = [] ∧ State.reset.trust.meas = List.replicate 24 0 ∧
  State.reset.power.edev = 0 ∧ State.reset.power.pnow = 0 ∧ State.reset.power.freq = 2400 ∧ State.reset.power.bad = false ∧
  State.reset.units = [] ∧ State.reset.launches = [] ∧ State.reset.cmds = [] ∧ State.reset.ops = [] ∧ State.reset.eng = [] ∧
  State.reset.ctxs = [] ∧ State.reset.cores.length = 128 ∧ State.reset.time = 0 ∧ ∀ a, State.reset.mem.read a = 0

/-- Reading after writing: a byte reads as written, every other byte as before; n bytes written at an address in
little-endian order read as the number modulo 2^(8n) (R2), and every write keeps the memory's canonical form. Rests on
the model's own readings and choices in log entry 4. -/
def Obligations.MemoryReadAfterWrite : Prop :=
  (∀ (m : Memory) (a : Nat) (b : Byte), m.wf = true → (m.write a b).wf = true ∧
    ∀ x, (m.write a b).read x = if x = a then b else m.read x) ∧
  (∀ (m : Memory) (a n v : Nat), m.wf = true → (m.writes (span a n) (leBytes n v)).at_ a n = v % 2 ^ (8 * n) ∧
    ∀ x, ¬ (a ≤ x ∧ x < a + n) → (m.writes (span a n) (leBytes n v)).read x = m.read x) ∧
  (∀ m m' : Memory, m.wf = true → m'.wf = true → (∀ a, m.read a = m'.read a) → m = m')

/-- Every step keeps global memory and every scratchpad window in canonical form. Rests on the model's own readings
and choices in log entry 4. -/
def Obligations.EveryStepKeepsMemoryForm : Prop :=
  ∀ s s' : State, s.memOk → step s = .next s' → s'.memOk

/-- Global memory and every scratchpad window are in canonical form at reset. Rests on the model's own readings and
choices in log entry 4. -/
def Obligations.MemoryFormAtReset : Prop :=
  State.reset.memOk

end
end

