-- ==== Sys2Proof/Laws/State.lean ====
section
/-! SUPPORT. One lemma for each field and each update of the state, true by rfl, so that no proof unfolds an update. -/

namespace Sys2Proof.Machine

variable (s : State)

/-! ### setUnit -/

@[simp] theorem State.setUnit_time (u : UnitSt) : (s.setUnit u).time = s.time := rfl
@[simp] theorem State.setUnit_kclk (u : UnitSt) : (s.setUnit u).kclk = s.kclk := rfl
@[simp] theorem State.setUnit_agenda (u : UnitSt) : (s.setUnit u).agenda = s.agenda := rfl
@[simp] theorem State.setUnit_issueQ (u : UnitSt) : (s.setUnit u).issueQ = s.issueQ := rfl
@[simp] theorem State.setUnit_cur (u : UnitSt) : (s.setUnit u).cur = s.cur := rfl
@[simp] theorem State.setUnit_rot (u : UnitSt) : (s.setUnit u).rot = s.rot := rfl
@[simp] theorem State.setUnit_fresh (u : UnitSt) : (s.setUnit u).fresh = s.fresh := rfl
@[simp] theorem State.setUnit_nextId (u : UnitSt) : (s.setUnit u).nextId = s.nextId := rfl
@[simp] theorem State.setUnit_mem (u : UnitSt) : (s.setUnit u).mem = s.mem := rfl
@[simp] theorem State.setUnit_lines (u : UnitSt) : (s.setUnit u).lines = s.lines := rfl
@[simp] theorem State.setUnit_leases (u : UnitSt) : (s.setUnit u).leases = s.leases := rfl
@[simp] theorem State.setUnit_map1 (u : UnitSt) : (s.setUnit u).map1 = s.map1 := rfl
@[simp] theorem State.setUnit_map2 (u : UnitSt) : (s.setUnit u).map2 = s.map2 := rfl
@[simp] theorem State.setUnit_ops (u : UnitSt) : (s.setUnit u).ops = s.ops := rfl
@[simp] theorem State.setUnit_eng (u : UnitSt) : (s.setUnit u).eng = s.eng := rfl
@[simp] theorem State.setUnit_cores (u : UnitSt) : (s.setUnit u).cores = s.cores := rfl
@[simp] theorem State.setUnit_ctxs (u : UnitSt) : (s.setUnit u).ctxs = s.ctxs := rfl
@[simp] theorem State.setUnit_launches (u : UnitSt) : (s.setUnit u).launches = s.launches := rfl
@[simp] theorem State.setUnit_cmds (u : UnitSt) : (s.setUnit u).cmds = s.cmds := rfl
@[simp] theorem State.setUnit_fused (u : UnitSt) : (s.setUnit u).fused = s.fused := rfl
@[simp] theorem State.setUnit_changing (u : UnitSt) : (s.setUnit u).changing = s.changing := rfl
@[simp] theorem State.setUnit_fab (u : UnitSt) : (s.setUnit u).fab = s.fab := rfl
@[simp] theorem State.setUnit_fw (u : UnitSt) : (s.setUnit u).fw = s.fw := rfl
@[simp] theorem State.setUnit_trust (u : UnitSt) : (s.setUnit u).trust = s.trust := rfl
@[simp] theorem State.setUnit_power (u : UnitSt) : (s.setUnit u).power = s.power := rfl
@[simp] theorem State.setUnit_trail (u : UnitSt) : (s.setUnit u).trail = s.trail := rfl
@[simp] theorem State.setUnit_vmap (u : UnitSt) : (s.setUnit u).vmap = s.vmap := rfl

/-! ### updUnit -/

@[simp] theorem State.updUnit_time (n : Nat) (f : UnitSt → UnitSt) : (s.updUnit n f).time = s.time := rfl
@[simp] theorem State.updUnit_kclk (n : Nat) (f : UnitSt → UnitSt) : (s.updUnit n f).kclk = s.kclk := rfl
@[simp] theorem State.updUnit_agenda (n : Nat) (f : UnitSt → UnitSt) : (s.updUnit n f).agenda = s.agenda := rfl
@[simp] theorem State.updUnit_issueQ (n : Nat) (f : UnitSt → UnitSt) : (s.updUnit n f).issueQ = s.issueQ := rfl
@[simp] theorem State.updUnit_cur (n : Nat) (f : UnitSt → UnitSt) : (s.updUnit n f).cur = s.cur := rfl
@[simp] theorem State.updUnit_rot (n : Nat) (f : UnitSt → UnitSt) : (s.updUnit n f).rot = s.rot := rfl
@[simp] theorem State.updUnit_fresh (n : Nat) (f : UnitSt → UnitSt) : (s.updUnit n f).fresh = s.fresh := rfl
@[simp] theorem State.updUnit_nextId (n : Nat) (f : UnitSt → UnitSt) : (s.updUnit n f).nextId = s.nextId := rfl
@[simp] theorem State.updUnit_mem (n : Nat) (f : UnitSt → UnitSt) : (s.updUnit n f).mem = s.mem := rfl
@[simp] theorem State.updUnit_lines (n : Nat) (f : UnitSt → UnitSt) : (s.updUnit n f).lines = s.lines := rfl
@[simp] theorem State.updUnit_leases (n : Nat) (f : UnitSt → UnitSt) : (s.updUnit n f).leases = s.leases := rfl
@[simp] theorem State.updUnit_map1 (n : Nat) (f : UnitSt → UnitSt) : (s.updUnit n f).map1 = s.map1 := rfl
@[simp] theorem State.updUnit_map2 (n : Nat) (f : UnitSt → UnitSt) : (s.updUnit n f).map2 = s.map2 := rfl
@[simp] theorem State.updUnit_ops (n : Nat) (f : UnitSt → UnitSt) : (s.updUnit n f).ops = s.ops := rfl
@[simp] theorem State.updUnit_eng (n : Nat) (f : UnitSt → UnitSt) : (s.updUnit n f).eng = s.eng := rfl
@[simp] theorem State.updUnit_cores (n : Nat) (f : UnitSt → UnitSt) : (s.updUnit n f).cores = s.cores := rfl
@[simp] theorem State.updUnit_ctxs (n : Nat) (f : UnitSt → UnitSt) : (s.updUnit n f).ctxs = s.ctxs := rfl
@[simp] theorem State.updUnit_launches (n : Nat) (f : UnitSt → UnitSt) : (s.updUnit n f).launches = s.launches := rfl
@[simp] theorem State.updUnit_cmds (n : Nat) (f : UnitSt → UnitSt) : (s.updUnit n f).cmds = s.cmds := rfl
@[simp] theorem State.updUnit_fused (n : Nat) (f : UnitSt → UnitSt) : (s.updUnit n f).fused = s.fused := rfl
@[simp] theorem State.updUnit_changing (n : Nat) (f : UnitSt → UnitSt) : (s.updUnit n f).changing = s.changing := rfl
@[simp] theorem State.updUnit_fab (n : Nat) (f : UnitSt → UnitSt) : (s.updUnit n f).fab = s.fab := rfl
@[simp] theorem State.updUnit_fw (n : Nat) (f : UnitSt → UnitSt) : (s.updUnit n f).fw = s.fw := rfl
@[simp] theorem State.updUnit_trust (n : Nat) (f : UnitSt → UnitSt) : (s.updUnit n f).trust = s.trust := rfl
@[simp] theorem State.updUnit_power (n : Nat) (f : UnitSt → UnitSt) : (s.updUnit n f).power = s.power := rfl
@[simp] theorem State.updUnit_trail (n : Nat) (f : UnitSt → UnitSt) : (s.updUnit n f).trail = s.trail := rfl
@[simp] theorem State.updUnit_vmap (n : Nat) (f : UnitSt → UnitSt) : (s.updUnit n f).vmap = s.vmap := rfl

/-! ### updLaunch -/

@[simp] theorem State.updLaunch_time (n : Nat) (f : Launch → Launch) : (s.updLaunch n f).time = s.time := rfl
@[simp] theorem State.updLaunch_kclk (n : Nat) (f : Launch → Launch) : (s.updLaunch n f).kclk = s.kclk := rfl
@[simp] theorem State.updLaunch_agenda (n : Nat) (f : Launch → Launch) : (s.updLaunch n f).agenda = s.agenda := rfl
@[simp] theorem State.updLaunch_issueQ (n : Nat) (f : Launch → Launch) : (s.updLaunch n f).issueQ = s.issueQ := rfl
@[simp] theorem State.updLaunch_cur (n : Nat) (f : Launch → Launch) : (s.updLaunch n f).cur = s.cur := rfl
@[simp] theorem State.updLaunch_rot (n : Nat) (f : Launch → Launch) : (s.updLaunch n f).rot = s.rot := rfl
@[simp] theorem State.updLaunch_fresh (n : Nat) (f : Launch → Launch) : (s.updLaunch n f).fresh = s.fresh := rfl
@[simp] theorem State.updLaunch_nextId (n : Nat) (f : Launch → Launch) : (s.updLaunch n f).nextId = s.nextId := rfl
@[simp] theorem State.updLaunch_mem (n : Nat) (f : Launch → Launch) : (s.updLaunch n f).mem = s.mem := rfl
@[simp] theorem State.updLaunch_lines (n : Nat) (f : Launch → Launch) : (s.updLaunch n f).lines = s.lines := rfl
@[simp] theorem State.updLaunch_leases (n : Nat) (f : Launch → Launch) : (s.updLaunch n f).leases = s.leases := rfl
@[simp] theorem State.updLaunch_map1 (n : Nat) (f : Launch → Launch) : (s.updLaunch n f).map1 = s.map1 := rfl
@[simp] theorem State.updLaunch_map2 (n : Nat) (f : Launch → Launch) : (s.updLaunch n f).map2 = s.map2 := rfl
@[simp] theorem State.updLaunch_ops (n : Nat) (f : Launch → Launch) : (s.updLaunch n f).ops = s.ops := rfl
@[simp] theorem State.updLaunch_eng (n : Nat) (f : Launch → Launch) : (s.updLaunch n f).eng = s.eng := rfl
@[simp] theorem State.updLaunch_units (n : Nat) (f : Launch → Launch) : (s.updLaunch n f).units = s.units := rfl
@[simp] theorem State.updLaunch_cores (n : Nat) (f : Launch → Launch) : (s.updLaunch n f).cores = s.cores := rfl
@[simp] theorem State.updLaunch_ctxs (n : Nat) (f : Launch → Launch) : (s.updLaunch n f).ctxs = s.ctxs := rfl
@[simp] theorem State.updLaunch_cmds (n : Nat) (f : Launch → Launch) : (s.updLaunch n f).cmds = s.cmds := rfl
@[simp] theorem State.updLaunch_fused (n : Nat) (f : Launch → Launch) : (s.updLaunch n f).fused = s.fused := rfl
@[simp] theorem State.updLaunch_changing (n : Nat) (f : Launch → Launch) : (s.updLaunch n f).changing = s.changing := rfl
@[simp] theorem State.updLaunch_fab (n : Nat) (f : Launch → Launch) : (s.updLaunch n f).fab = s.fab := rfl
@[simp] theorem State.updLaunch_fw (n : Nat) (f : Launch → Launch) : (s.updLaunch n f).fw = s.fw := rfl
@[simp] theorem State.updLaunch_trust (n : Nat) (f : Launch → Launch) : (s.updLaunch n f).trust = s.trust := rfl
@[simp] theorem State.updLaunch_power (n : Nat) (f : Launch → Launch) : (s.updLaunch n f).power = s.power := rfl
@[simp] theorem State.updLaunch_trail (n : Nat) (f : Launch → Launch) : (s.updLaunch n f).trail = s.trail := rfl
@[simp] theorem State.updLaunch_vmap (n : Nat) (f : Launch → Launch) : (s.updLaunch n f).vmap = s.vmap := rfl

/-! ### updCtx -/

@[simp] theorem State.updCtx_time (n : Nat) (f : Ctx → Ctx) : (s.updCtx n f).time = s.time := rfl
@[simp] theorem State.updCtx_kclk (n : Nat) (f : Ctx → Ctx) : (s.updCtx n f).kclk = s.kclk := rfl
@[simp] theorem State.updCtx_agenda (n : Nat) (f : Ctx → Ctx) : (s.updCtx n f).agenda = s.agenda := rfl
@[simp] theorem State.updCtx_issueQ (n : Nat) (f : Ctx → Ctx) : (s.updCtx n f).issueQ = s.issueQ := rfl
@[simp] theorem State.updCtx_cur (n : Nat) (f : Ctx → Ctx) : (s.updCtx n f).cur = s.cur := rfl
@[simp] theorem State.updCtx_rot (n : Nat) (f : Ctx → Ctx) : (s.updCtx n f).rot = s.rot := rfl
@[simp] theorem State.updCtx_fresh (n : Nat) (f : Ctx → Ctx) : (s.updCtx n f).fresh = s.fresh := rfl
@[simp] theorem State.updCtx_nextId (n : Nat) (f : Ctx → Ctx) : (s.updCtx n f).nextId = s.nextId := rfl
@[simp] theorem State.updCtx_mem (n : Nat) (f : Ctx → Ctx) : (s.updCtx n f).mem = s.mem := rfl
@[simp] theorem State.updCtx_lines (n : Nat) (f : Ctx → Ctx) : (s.updCtx n f).lines = s.lines := rfl
@[simp] theorem State.updCtx_leases (n : Nat) (f : Ctx → Ctx) : (s.updCtx n f).leases = s.leases := rfl
@[simp] theorem State.updCtx_map1 (n : Nat) (f : Ctx → Ctx) : (s.updCtx n f).map1 = s.map1 := rfl
@[simp] theorem State.updCtx_map2 (n : Nat) (f : Ctx → Ctx) : (s.updCtx n f).map2 = s.map2 := rfl
@[simp] theorem State.updCtx_ops (n : Nat) (f : Ctx → Ctx) : (s.updCtx n f).ops = s.ops := rfl
@[simp] theorem State.updCtx_eng (n : Nat) (f : Ctx → Ctx) : (s.updCtx n f).eng = s.eng := rfl
@[simp] theorem State.updCtx_units (n : Nat) (f : Ctx → Ctx) : (s.updCtx n f).units = s.units := rfl
@[simp] theorem State.updCtx_cores (n : Nat) (f : Ctx → Ctx) : (s.updCtx n f).cores = s.cores := rfl
@[simp] theorem State.updCtx_launches (n : Nat) (f : Ctx → Ctx) : (s.updCtx n f).launches = s.launches := rfl
@[simp] theorem State.updCtx_cmds (n : Nat) (f : Ctx → Ctx) : (s.updCtx n f).cmds = s.cmds := rfl
@[simp] theorem State.updCtx_fused (n : Nat) (f : Ctx → Ctx) : (s.updCtx n f).fused = s.fused := rfl
@[simp] theorem State.updCtx_changing (n : Nat) (f : Ctx → Ctx) : (s.updCtx n f).changing = s.changing := rfl
@[simp] theorem State.updCtx_fab (n : Nat) (f : Ctx → Ctx) : (s.updCtx n f).fab = s.fab := rfl
@[simp] theorem State.updCtx_fw (n : Nat) (f : Ctx → Ctx) : (s.updCtx n f).fw = s.fw := rfl
@[simp] theorem State.updCtx_trust (n : Nat) (f : Ctx → Ctx) : (s.updCtx n f).trust = s.trust := rfl
@[simp] theorem State.updCtx_power (n : Nat) (f : Ctx → Ctx) : (s.updCtx n f).power = s.power := rfl
@[simp] theorem State.updCtx_trail (n : Nat) (f : Ctx → Ctx) : (s.updCtx n f).trail = s.trail := rfl
@[simp] theorem State.updCtx_vmap (n : Nat) (f : Ctx → Ctx) : (s.updCtx n f).vmap = s.vmap := rfl

/-! ### updCore -/

@[simp] theorem State.updCore_time (n : Nat) (f : CoreSt → CoreSt) : (s.updCore n f).time = s.time := rfl
@[simp] theorem State.updCore_kclk (n : Nat) (f : CoreSt → CoreSt) : (s.updCore n f).kclk = s.kclk := rfl
@[simp] theorem State.updCore_agenda (n : Nat) (f : CoreSt → CoreSt) : (s.updCore n f).agenda = s.agenda := rfl
@[simp] theorem State.updCore_issueQ (n : Nat) (f : CoreSt → CoreSt) : (s.updCore n f).issueQ = s.issueQ := rfl
@[simp] theorem State.updCore_cur (n : Nat) (f : CoreSt → CoreSt) : (s.updCore n f).cur = s.cur := rfl
@[simp] theorem State.updCore_rot (n : Nat) (f : CoreSt → CoreSt) : (s.updCore n f).rot = s.rot := rfl
@[simp] theorem State.updCore_fresh (n : Nat) (f : CoreSt → CoreSt) : (s.updCore n f).fresh = s.fresh := rfl
@[simp] theorem State.updCore_nextId (n : Nat) (f : CoreSt → CoreSt) : (s.updCore n f).nextId = s.nextId := rfl
@[simp] theorem State.updCore_mem (n : Nat) (f : CoreSt → CoreSt) : (s.updCore n f).mem = s.mem := rfl
@[simp] theorem State.updCore_lines (n : Nat) (f : CoreSt → CoreSt) : (s.updCore n f).lines = s.lines := rfl
@[simp] theorem State.updCore_leases (n : Nat) (f : CoreSt → CoreSt) : (s.updCore n f).leases = s.leases := rfl
@[simp] theorem State.updCore_map1 (n : Nat) (f : CoreSt → CoreSt) : (s.updCore n f).map1 = s.map1 := rfl
@[simp] theorem State.updCore_map2 (n : Nat) (f : CoreSt → CoreSt) : (s.updCore n f).map2 = s.map2 := rfl
@[simp] theorem State.updCore_ops (n : Nat) (f : CoreSt → CoreSt) : (s.updCore n f).ops = s.ops := rfl
@[simp] theorem State.updCore_eng (n : Nat) (f : CoreSt → CoreSt) : (s.updCore n f).eng = s.eng := rfl
@[simp] theorem State.updCore_units (n : Nat) (f : CoreSt → CoreSt) : (s.updCore n f).units = s.units := rfl
@[simp] theorem State.updCore_ctxs (n : Nat) (f : CoreSt → CoreSt) : (s.updCore n f).ctxs = s.ctxs := rfl
@[simp] theorem State.updCore_launches (n : Nat) (f : CoreSt → CoreSt) : (s.updCore n f).launches = s.launches := rfl
@[simp] theorem State.updCore_cmds (n : Nat) (f : CoreSt → CoreSt) : (s.updCore n f).cmds = s.cmds := rfl
@[simp] theorem State.updCore_fused (n : Nat) (f : CoreSt → CoreSt) : (s.updCore n f).fused = s.fused := rfl
@[simp] theorem State.updCore_changing (n : Nat) (f : CoreSt → CoreSt) : (s.updCore n f).changing = s.changing := rfl
@[simp] theorem State.updCore_fab (n : Nat) (f : CoreSt → CoreSt) : (s.updCore n f).fab = s.fab := rfl
@[simp] theorem State.updCore_fw (n : Nat) (f : CoreSt → CoreSt) : (s.updCore n f).fw = s.fw := rfl
@[simp] theorem State.updCore_trust (n : Nat) (f : CoreSt → CoreSt) : (s.updCore n f).trust = s.trust := rfl
@[simp] theorem State.updCore_power (n : Nat) (f : CoreSt → CoreSt) : (s.updCore n f).power = s.power := rfl
@[simp] theorem State.updCore_trail (n : Nat) (f : CoreSt → CoreSt) : (s.updCore n f).trail = s.trail := rfl
@[simp] theorem State.updCore_vmap (n : Nat) (f : CoreSt → CoreSt) : (s.updCore n f).vmap = s.vmap := rfl

/-! ### setLine -/

@[simp] theorem State.setLine_time (x : LineSt) : (s.setLine x).time = s.time := rfl
@[simp] theorem State.setLine_kclk (x : LineSt) : (s.setLine x).kclk = s.kclk := rfl
@[simp] theorem State.setLine_agenda (x : LineSt) : (s.setLine x).agenda = s.agenda := rfl
@[simp] theorem State.setLine_issueQ (x : LineSt) : (s.setLine x).issueQ = s.issueQ := rfl
@[simp] theorem State.setLine_cur (x : LineSt) : (s.setLine x).cur = s.cur := rfl
@[simp] theorem State.setLine_rot (x : LineSt) : (s.setLine x).rot = s.rot := rfl
@[simp] theorem State.setLine_fresh (x : LineSt) : (s.setLine x).fresh = s.fresh := rfl
@[simp] theorem State.setLine_nextId (x : LineSt) : (s.setLine x).nextId = s.nextId := rfl
@[simp] theorem State.setLine_mem (x : LineSt) : (s.setLine x).mem = s.mem := rfl
@[simp] theorem State.setLine_leases (x : LineSt) : (s.setLine x).leases = s.leases := rfl
@[simp] theorem State.setLine_map1 (x : LineSt) : (s.setLine x).map1 = s.map1 := rfl
@[simp] theorem State.setLine_map2 (x : LineSt) : (s.setLine x).map2 = s.map2 := rfl
@[simp] theorem State.setLine_ops (x : LineSt) : (s.setLine x).ops = s.ops := rfl
@[simp] theorem State.setLine_eng (x : LineSt) : (s.setLine x).eng = s.eng := rfl
@[simp] theorem State.setLine_units (x : LineSt) : (s.setLine x).units = s.units := rfl
@[simp] theorem State.setLine_cores (x : LineSt) : (s.setLine x).cores = s.cores := rfl
@[simp] theorem State.setLine_ctxs (x : LineSt) : (s.setLine x).ctxs = s.ctxs := rfl
@[simp] theorem State.setLine_launches (x : LineSt) : (s.setLine x).launches = s.launches := rfl
@[simp] theorem State.setLine_cmds (x : LineSt) : (s.setLine x).cmds = s.cmds := rfl
@[simp] theorem State.setLine_fused (x : LineSt) : (s.setLine x).fused = s.fused := rfl
@[simp] theorem State.setLine_changing (x : LineSt) : (s.setLine x).changing = s.changing := rfl
@[simp] theorem State.setLine_fab (x : LineSt) : (s.setLine x).fab = s.fab := rfl
@[simp] theorem State.setLine_fw (x : LineSt) : (s.setLine x).fw = s.fw := rfl
@[simp] theorem State.setLine_trust (x : LineSt) : (s.setLine x).trust = s.trust := rfl
@[simp] theorem State.setLine_power (x : LineSt) : (s.setLine x).power = s.power := rfl
@[simp] theorem State.setLine_trail (x : LineSt) : (s.setLine x).trail = s.trail := rfl
@[simp] theorem State.setLine_vmap (x : LineSt) : (s.setLine x).vmap = s.vmap := rfl

/-! ### updEng -/

@[simp] theorem State.updEng_time (n : Nat) (f : EngOp → EngOp) : (s.updEng n f).time = s.time := rfl
@[simp] theorem State.updEng_kclk (n : Nat) (f : EngOp → EngOp) : (s.updEng n f).kclk = s.kclk := rfl
@[simp] theorem State.updEng_agenda (n : Nat) (f : EngOp → EngOp) : (s.updEng n f).agenda = s.agenda := rfl
@[simp] theorem State.updEng_issueQ (n : Nat) (f : EngOp → EngOp) : (s.updEng n f).issueQ = s.issueQ := rfl
@[simp] theorem State.updEng_cur (n : Nat) (f : EngOp → EngOp) : (s.updEng n f).cur = s.cur := rfl
@[simp] theorem State.updEng_rot (n : Nat) (f : EngOp → EngOp) : (s.updEng n f).rot = s.rot := rfl
@[simp] theorem State.updEng_fresh (n : Nat) (f : EngOp → EngOp) : (s.updEng n f).fresh = s.fresh := rfl
@[simp] theorem State.updEng_nextId (n : Nat) (f : EngOp → EngOp) : (s.updEng n f).nextId = s.nextId := rfl
@[simp] theorem State.updEng_mem (n : Nat) (f : EngOp → EngOp) : (s.updEng n f).mem = s.mem := rfl
@[simp] theorem State.updEng_lines (n : Nat) (f : EngOp → EngOp) : (s.updEng n f).lines = s.lines := rfl
@[simp] theorem State.updEng_leases (n : Nat) (f : EngOp → EngOp) : (s.updEng n f).leases = s.leases := rfl
@[simp] theorem State.updEng_map1 (n : Nat) (f : EngOp → EngOp) : (s.updEng n f).map1 = s.map1 := rfl
@[simp] theorem State.updEng_map2 (n : Nat) (f : EngOp → EngOp) : (s.updEng n f).map2 = s.map2 := rfl
@[simp] theorem State.updEng_ops (n : Nat) (f : EngOp → EngOp) : (s.updEng n f).ops = s.ops := rfl
@[simp] theorem State.updEng_units (n : Nat) (f : EngOp → EngOp) : (s.updEng n f).units = s.units := rfl
@[simp] theorem State.updEng_cores (n : Nat) (f : EngOp → EngOp) : (s.updEng n f).cores = s.cores := rfl
@[simp] theorem State.updEng_ctxs (n : Nat) (f : EngOp → EngOp) : (s.updEng n f).ctxs = s.ctxs := rfl
@[simp] theorem State.updEng_launches (n : Nat) (f : EngOp → EngOp) : (s.updEng n f).launches = s.launches := rfl
@[simp] theorem State.updEng_cmds (n : Nat) (f : EngOp → EngOp) : (s.updEng n f).cmds = s.cmds := rfl
@[simp] theorem State.updEng_fused (n : Nat) (f : EngOp → EngOp) : (s.updEng n f).fused = s.fused := rfl
@[simp] theorem State.updEng_changing (n : Nat) (f : EngOp → EngOp) : (s.updEng n f).changing = s.changing := rfl
@[simp] theorem State.updEng_fab (n : Nat) (f : EngOp → EngOp) : (s.updEng n f).fab = s.fab := rfl
@[simp] theorem State.updEng_fw (n : Nat) (f : EngOp → EngOp) : (s.updEng n f).fw = s.fw := rfl
@[simp] theorem State.updEng_trust (n : Nat) (f : EngOp → EngOp) : (s.updEng n f).trust = s.trust := rfl
@[simp] theorem State.updEng_power (n : Nat) (f : EngOp → EngOp) : (s.updEng n f).power = s.power := rfl
@[simp] theorem State.updEng_trail (n : Nat) (f : EngOp → EngOp) : (s.updEng n f).trail = s.trail := rfl
@[simp] theorem State.updEng_vmap (n : Nat) (f : EngOp → EngOp) : (s.updEng n f).vmap = s.vmap := rfl

/-! ### updOp -/

@[simp] theorem State.updOp_time (n : Nat) (f : MemOp → MemOp) : (s.updOp n f).time = s.time := rfl
@[simp] theorem State.updOp_kclk (n : Nat) (f : MemOp → MemOp) : (s.updOp n f).kclk = s.kclk := rfl
@[simp] theorem State.updOp_agenda (n : Nat) (f : MemOp → MemOp) : (s.updOp n f).agenda = s.agenda := rfl
@[simp] theorem State.updOp_issueQ (n : Nat) (f : MemOp → MemOp) : (s.updOp n f).issueQ = s.issueQ := rfl
@[simp] theorem State.updOp_cur (n : Nat) (f : MemOp → MemOp) : (s.updOp n f).cur = s.cur := rfl
@[simp] theorem State.updOp_rot (n : Nat) (f : MemOp → MemOp) : (s.updOp n f).rot = s.rot := rfl
@[simp] theorem State.updOp_fresh (n : Nat) (f : MemOp → MemOp) : (s.updOp n f).fresh = s.fresh := rfl
@[simp] theorem State.updOp_nextId (n : Nat) (f : MemOp → MemOp) : (s.updOp n f).nextId = s.nextId := rfl
@[simp] theorem State.updOp_mem (n : Nat) (f : MemOp → MemOp) : (s.updOp n f).mem = s.mem := rfl
@[simp] theorem State.updOp_lines (n : Nat) (f : MemOp → MemOp) : (s.updOp n f).lines = s.lines := rfl
@[simp] theorem State.updOp_leases (n : Nat) (f : MemOp → MemOp) : (s.updOp n f).leases = s.leases := rfl
@[simp] theorem State.updOp_map1 (n : Nat) (f : MemOp → MemOp) : (s.updOp n f).map1 = s.map1 := rfl
@[simp] theorem State.updOp_map2 (n : Nat) (f : MemOp → MemOp) : (s.updOp n f).map2 = s.map2 := rfl
@[simp] theorem State.updOp_eng (n : Nat) (f : MemOp → MemOp) : (s.updOp n f).eng = s.eng := rfl
@[simp] theorem State.updOp_units (n : Nat) (f : MemOp → MemOp) : (s.updOp n f).units = s.units := rfl
@[simp] theorem State.updOp_cores (n : Nat) (f : MemOp → MemOp) : (s.updOp n f).cores = s.cores := rfl
@[simp] theorem State.updOp_ctxs (n : Nat) (f : MemOp → MemOp) : (s.updOp n f).ctxs = s.ctxs := rfl
@[simp] theorem State.updOp_launches (n : Nat) (f : MemOp → MemOp) : (s.updOp n f).launches = s.launches := rfl
@[simp] theorem State.updOp_cmds (n : Nat) (f : MemOp → MemOp) : (s.updOp n f).cmds = s.cmds := rfl
@[simp] theorem State.updOp_fused (n : Nat) (f : MemOp → MemOp) : (s.updOp n f).fused = s.fused := rfl
@[simp] theorem State.updOp_changing (n : Nat) (f : MemOp → MemOp) : (s.updOp n f).changing = s.changing := rfl
@[simp] theorem State.updOp_fab (n : Nat) (f : MemOp → MemOp) : (s.updOp n f).fab = s.fab := rfl
@[simp] theorem State.updOp_fw (n : Nat) (f : MemOp → MemOp) : (s.updOp n f).fw = s.fw := rfl
@[simp] theorem State.updOp_trust (n : Nat) (f : MemOp → MemOp) : (s.updOp n f).trust = s.trust := rfl
@[simp] theorem State.updOp_power (n : Nat) (f : MemOp → MemOp) : (s.updOp n f).power = s.power := rfl
@[simp] theorem State.updOp_trail (n : Nat) (f : MemOp → MemOp) : (s.updOp n f).trail = s.trail := rfl
@[simp] theorem State.updOp_vmap (n : Nat) (f : MemOp → MemOp) : (s.updOp n f).vmap = s.vmap := rfl

/-! ### dropOp -/

@[simp] theorem State.dropOp_time (n : Nat) : (s.dropOp n).time = s.time := rfl
@[simp] theorem State.dropOp_kclk (n : Nat) : (s.dropOp n).kclk = s.kclk := rfl
@[simp] theorem State.dropOp_agenda (n : Nat) : (s.dropOp n).agenda = s.agenda := rfl
@[simp] theorem State.dropOp_issueQ (n : Nat) : (s.dropOp n).issueQ = s.issueQ := rfl
@[simp] theorem State.dropOp_cur (n : Nat) : (s.dropOp n).cur = s.cur := rfl
@[simp] theorem State.dropOp_rot (n : Nat) : (s.dropOp n).rot = s.rot := rfl
@[simp] theorem State.dropOp_fresh (n : Nat) : (s.dropOp n).fresh = s.fresh := rfl
@[simp] theorem State.dropOp_nextId (n : Nat) : (s.dropOp n).nextId = s.nextId := rfl
@[simp] theorem State.dropOp_mem (n : Nat) : (s.dropOp n).mem = s.mem := rfl
@[simp] theorem State.dropOp_lines (n : Nat) : (s.dropOp n).lines = s.lines := rfl
@[simp] theorem State.dropOp_leases (n : Nat) : (s.dropOp n).leases = s.leases := rfl
@[simp] theorem State.dropOp_map1 (n : Nat) : (s.dropOp n).map1 = s.map1 := rfl
@[simp] theorem State.dropOp_map2 (n : Nat) : (s.dropOp n).map2 = s.map2 := rfl
@[simp] theorem State.dropOp_eng (n : Nat) : (s.dropOp n).eng = s.eng := rfl
@[simp] theorem State.dropOp_units (n : Nat) : (s.dropOp n).units = s.units := rfl
@[simp] theorem State.dropOp_cores (n : Nat) : (s.dropOp n).cores = s.cores := rfl
@[simp] theorem State.dropOp_ctxs (n : Nat) : (s.dropOp n).ctxs = s.ctxs := rfl
@[simp] theorem State.dropOp_launches (n : Nat) : (s.dropOp n).launches = s.launches := rfl
@[simp] theorem State.dropOp_cmds (n : Nat) : (s.dropOp n).cmds = s.cmds := rfl
@[simp] theorem State.dropOp_fused (n : Nat) : (s.dropOp n).fused = s.fused := rfl
@[simp] theorem State.dropOp_changing (n : Nat) : (s.dropOp n).changing = s.changing := rfl
@[simp] theorem State.dropOp_fab (n : Nat) : (s.dropOp n).fab = s.fab := rfl
@[simp] theorem State.dropOp_fw (n : Nat) : (s.dropOp n).fw = s.fw := rfl
@[simp] theorem State.dropOp_trust (n : Nat) : (s.dropOp n).trust = s.trust := rfl
@[simp] theorem State.dropOp_power (n : Nat) : (s.dropOp n).power = s.power := rfl
@[simp] theorem State.dropOp_trail (n : Nat) : (s.dropOp n).trail = s.trail := rfl
@[simp] theorem State.dropOp_vmap (n : Nat) : (s.dropOp n).vmap = s.vmap := rfl

/-! ### updCmd -/

@[simp] theorem State.updCmd_time (n : Nat) (f : Cmd → Cmd) : (s.updCmd n f).time = s.time := rfl
@[simp] theorem State.updCmd_kclk (n : Nat) (f : Cmd → Cmd) : (s.updCmd n f).kclk = s.kclk := rfl
@[simp] theorem State.updCmd_agenda (n : Nat) (f : Cmd → Cmd) : (s.updCmd n f).agenda = s.agenda := rfl
@[simp] theorem State.updCmd_issueQ (n : Nat) (f : Cmd → Cmd) : (s.updCmd n f).issueQ = s.issueQ := rfl
@[simp] theorem State.updCmd_cur (n : Nat) (f : Cmd → Cmd) : (s.updCmd n f).cur = s.cur := rfl
@[simp] theorem State.updCmd_rot (n : Nat) (f : Cmd → Cmd) : (s.updCmd n f).rot = s.rot := rfl
@[simp] theorem State.updCmd_fresh (n : Nat) (f : Cmd → Cmd) : (s.updCmd n f).fresh = s.fresh := rfl
@[simp] theorem State.updCmd_nextId (n : Nat) (f : Cmd → Cmd) : (s.updCmd n f).nextId = s.nextId := rfl
@[simp] theorem State.updCmd_mem (n : Nat) (f : Cmd → Cmd) : (s.updCmd n f).mem = s.mem := rfl
@[simp] theorem State.updCmd_lines (n : Nat) (f : Cmd → Cmd) : (s.updCmd n f).lines = s.lines := rfl
@[simp] theorem State.updCmd_leases (n : Nat) (f : Cmd → Cmd) : (s.updCmd n f).leases = s.leases := rfl
@[simp] theorem State.updCmd_map1 (n : Nat) (f : Cmd → Cmd) : (s.updCmd n f).map1 = s.map1 := rfl
@[simp] theorem State.updCmd_map2 (n : Nat) (f : Cmd → Cmd) : (s.updCmd n f).map2 = s.map2 := rfl
@[simp] theorem State.updCmd_ops (n : Nat) (f : Cmd → Cmd) : (s.updCmd n f).ops = s.ops := rfl
@[simp] theorem State.updCmd_eng (n : Nat) (f : Cmd → Cmd) : (s.updCmd n f).eng = s.eng := rfl
@[simp] theorem State.updCmd_units (n : Nat) (f : Cmd → Cmd) : (s.updCmd n f).units = s.units := rfl
@[simp] theorem State.updCmd_cores (n : Nat) (f : Cmd → Cmd) : (s.updCmd n f).cores = s.cores := rfl
@[simp] theorem State.updCmd_ctxs (n : Nat) (f : Cmd → Cmd) : (s.updCmd n f).ctxs = s.ctxs := rfl
@[simp] theorem State.updCmd_launches (n : Nat) (f : Cmd → Cmd) : (s.updCmd n f).launches = s.launches := rfl
@[simp] theorem State.updCmd_fused (n : Nat) (f : Cmd → Cmd) : (s.updCmd n f).fused = s.fused := rfl
@[simp] theorem State.updCmd_changing (n : Nat) (f : Cmd → Cmd) : (s.updCmd n f).changing = s.changing := rfl
@[simp] theorem State.updCmd_fab (n : Nat) (f : Cmd → Cmd) : (s.updCmd n f).fab = s.fab := rfl
@[simp] theorem State.updCmd_fw (n : Nat) (f : Cmd → Cmd) : (s.updCmd n f).fw = s.fw := rfl
@[simp] theorem State.updCmd_trust (n : Nat) (f : Cmd → Cmd) : (s.updCmd n f).trust = s.trust := rfl
@[simp] theorem State.updCmd_power (n : Nat) (f : Cmd → Cmd) : (s.updCmd n f).power = s.power := rfl
@[simp] theorem State.updCmd_trail (n : Nat) (f : Cmd → Cmd) : (s.updCmd n f).trail = s.trail := rfl
@[simp] theorem State.updCmd_vmap (n : Nat) (f : Cmd → Cmd) : (s.updCmd n f).vmap = s.vmap := rfl

/-! ### putPhys -/

@[simp] theorem State.putPhys_time (a : Nat) (bs : List Byte) : (s.putPhys a bs).time = s.time := rfl
@[simp] theorem State.putPhys_kclk (a : Nat) (bs : List Byte) : (s.putPhys a bs).kclk = s.kclk := rfl
@[simp] theorem State.putPhys_agenda (a : Nat) (bs : List Byte) : (s.putPhys a bs).agenda = s.agenda := rfl
@[simp] theorem State.putPhys_issueQ (a : Nat) (bs : List Byte) : (s.putPhys a bs).issueQ = s.issueQ := rfl
@[simp] theorem State.putPhys_cur (a : Nat) (bs : List Byte) : (s.putPhys a bs).cur = s.cur := rfl
@[simp] theorem State.putPhys_rot (a : Nat) (bs : List Byte) : (s.putPhys a bs).rot = s.rot := rfl
@[simp] theorem State.putPhys_fresh (a : Nat) (bs : List Byte) : (s.putPhys a bs).fresh = s.fresh := rfl
@[simp] theorem State.putPhys_nextId (a : Nat) (bs : List Byte) : (s.putPhys a bs).nextId = s.nextId := rfl
@[simp] theorem State.putPhys_lines (a : Nat) (bs : List Byte) : (s.putPhys a bs).lines = s.lines := rfl
@[simp] theorem State.putPhys_leases (a : Nat) (bs : List Byte) : (s.putPhys a bs).leases = s.leases := rfl
@[simp] theorem State.putPhys_map1 (a : Nat) (bs : List Byte) : (s.putPhys a bs).map1 = s.map1 := rfl
@[simp] theorem State.putPhys_map2 (a : Nat) (bs : List Byte) : (s.putPhys a bs).map2 = s.map2 := rfl
@[simp] theorem State.putPhys_ops (a : Nat) (bs : List Byte) : (s.putPhys a bs).ops = s.ops := rfl
@[simp] theorem State.putPhys_eng (a : Nat) (bs : List Byte) : (s.putPhys a bs).eng = s.eng := rfl
@[simp] theorem State.putPhys_units (a : Nat) (bs : List Byte) : (s.putPhys a bs).units = s.units := rfl
@[simp] theorem State.putPhys_cores (a : Nat) (bs : List Byte) : (s.putPhys a bs).cores = s.cores := rfl
@[simp] theorem State.putPhys_ctxs (a : Nat) (bs : List Byte) : (s.putPhys a bs).ctxs = s.ctxs := rfl
@[simp] theorem State.putPhys_launches (a : Nat) (bs : List Byte) : (s.putPhys a bs).launches = s.launches := rfl
@[simp] theorem State.putPhys_cmds (a : Nat) (bs : List Byte) : (s.putPhys a bs).cmds = s.cmds := rfl
@[simp] theorem State.putPhys_fused (a : Nat) (bs : List Byte) : (s.putPhys a bs).fused = s.fused := rfl
@[simp] theorem State.putPhys_changing (a : Nat) (bs : List Byte) : (s.putPhys a bs).changing = s.changing := rfl
@[simp] theorem State.putPhys_fab (a : Nat) (bs : List Byte) : (s.putPhys a bs).fab = s.fab := rfl
@[simp] theorem State.putPhys_fw (a : Nat) (bs : List Byte) : (s.putPhys a bs).fw = s.fw := rfl
@[simp] theorem State.putPhys_trust (a : Nat) (bs : List Byte) : (s.putPhys a bs).trust = s.trust := rfl
@[simp] theorem State.putPhys_power (a : Nat) (bs : List Byte) : (s.putPhys a bs).power = s.power := rfl
@[simp] theorem State.putPhys_trail (a : Nat) (bs : List Byte) : (s.putPhys a bs).trail = s.trail := rfl
@[simp] theorem State.putPhys_vmap (a : Nat) (bs : List Byte) : (s.putPhys a bs).vmap = s.vmap := rfl

/-! ### updPort -/

@[simp] theorem State.updPort_time (n : Nat) (f : Port → Port) : (s.updPort n f).time = s.time := rfl
@[simp] theorem State.updPort_kclk (n : Nat) (f : Port → Port) : (s.updPort n f).kclk = s.kclk := rfl
@[simp] theorem State.updPort_agenda (n : Nat) (f : Port → Port) : (s.updPort n f).agenda = s.agenda := rfl
@[simp] theorem State.updPort_issueQ (n : Nat) (f : Port → Port) : (s.updPort n f).issueQ = s.issueQ := rfl
@[simp] theorem State.updPort_cur (n : Nat) (f : Port → Port) : (s.updPort n f).cur = s.cur := rfl
@[simp] theorem State.updPort_rot (n : Nat) (f : Port → Port) : (s.updPort n f).rot = s.rot := rfl
@[simp] theorem State.updPort_fresh (n : Nat) (f : Port → Port) : (s.updPort n f).fresh = s.fresh := rfl
@[simp] theorem State.updPort_nextId (n : Nat) (f : Port → Port) : (s.updPort n f).nextId = s.nextId := rfl
@[simp] theorem State.updPort_mem (n : Nat) (f : Port → Port) : (s.updPort n f).mem = s.mem := rfl
@[simp] theorem State.updPort_lines (n : Nat) (f : Port → Port) : (s.updPort n f).lines = s.lines := rfl
@[simp] theorem State.updPort_leases (n : Nat) (f : Port → Port) : (s.updPort n f).leases = s.leases := rfl
@[simp] theorem State.updPort_map1 (n : Nat) (f : Port → Port) : (s.updPort n f).map1 = s.map1 := rfl
@[simp] theorem State.updPort_map2 (n : Nat) (f : Port → Port) : (s.updPort n f).map2 = s.map2 := rfl
@[simp] theorem State.updPort_ops (n : Nat) (f : Port → Port) : (s.updPort n f).ops = s.ops := rfl
@[simp] theorem State.updPort_eng (n : Nat) (f : Port → Port) : (s.updPort n f).eng = s.eng := rfl
@[simp] theorem State.updPort_units (n : Nat) (f : Port → Port) : (s.updPort n f).units = s.units := rfl
@[simp] theorem State.updPort_cores (n : Nat) (f : Port → Port) : (s.updPort n f).cores = s.cores := rfl
@[simp] theorem State.updPort_ctxs (n : Nat) (f : Port → Port) : (s.updPort n f).ctxs = s.ctxs := rfl
@[simp] theorem State.updPort_launches (n : Nat) (f : Port → Port) : (s.updPort n f).launches = s.launches := rfl
@[simp] theorem State.updPort_cmds (n : Nat) (f : Port → Port) : (s.updPort n f).cmds = s.cmds := rfl
@[simp] theorem State.updPort_fused (n : Nat) (f : Port → Port) : (s.updPort n f).fused = s.fused := rfl
@[simp] theorem State.updPort_changing (n : Nat) (f : Port → Port) : (s.updPort n f).changing = s.changing := rfl
@[simp] theorem State.updPort_fw (n : Nat) (f : Port → Port) : (s.updPort n f).fw = s.fw := rfl
@[simp] theorem State.updPort_trust (n : Nat) (f : Port → Port) : (s.updPort n f).trust = s.trust := rfl
@[simp] theorem State.updPort_power (n : Nat) (f : Port → Port) : (s.updPort n f).power = s.power := rfl
@[simp] theorem State.updPort_trail (n : Nat) (f : Port → Port) : (s.updPort n f).trail = s.trail := rfl
@[simp] theorem State.updPort_vmap (n : Nat) (f : Port → Port) : (s.updPort n f).vmap = s.vmap := rfl

/-! ### updGroup -/

@[simp] theorem State.updGroup_time (j g : Nat) (f : Group → Group) : (s.updGroup j g f).time = s.time := rfl
@[simp] theorem State.updGroup_kclk (j g : Nat) (f : Group → Group) : (s.updGroup j g f).kclk = s.kclk := rfl
@[simp] theorem State.updGroup_agenda (j g : Nat) (f : Group → Group) : (s.updGroup j g f).agenda = s.agenda := rfl
@[simp] theorem State.updGroup_issueQ (j g : Nat) (f : Group → Group) : (s.updGroup j g f).issueQ = s.issueQ := rfl
@[simp] theorem State.updGroup_cur (j g : Nat) (f : Group → Group) : (s.updGroup j g f).cur = s.cur := rfl
@[simp] theorem State.updGroup_rot (j g : Nat) (f : Group → Group) : (s.updGroup j g f).rot = s.rot := rfl
@[simp] theorem State.updGroup_fresh (j g : Nat) (f : Group → Group) : (s.updGroup j g f).fresh = s.fresh := rfl
@[simp] theorem State.updGroup_nextId (j g : Nat) (f : Group → Group) : (s.updGroup j g f).nextId = s.nextId := rfl
@[simp] theorem State.updGroup_mem (j g : Nat) (f : Group → Group) : (s.updGroup j g f).mem = s.mem := rfl
@[simp] theorem State.updGroup_lines (j g : Nat) (f : Group → Group) : (s.updGroup j g f).lines = s.lines := rfl
@[simp] theorem State.updGroup_leases (j g : Nat) (f : Group → Group) : (s.updGroup j g f).leases = s.leases := rfl
@[simp] theorem State.updGroup_map1 (j g : Nat) (f : Group → Group) : (s.updGroup j g f).map1 = s.map1 := rfl
@[simp] theorem State.updGroup_map2 (j g : Nat) (f : Group → Group) : (s.updGroup j g f).map2 = s.map2 := rfl
@[simp] theorem State.updGroup_ops (j g : Nat) (f : Group → Group) : (s.updGroup j g f).ops = s.ops := rfl
@[simp] theorem State.updGroup_eng (j g : Nat) (f : Group → Group) : (s.updGroup j g f).eng = s.eng := rfl
@[simp] theorem State.updGroup_units (j g : Nat) (f : Group → Group) : (s.updGroup j g f).units = s.units := rfl
@[simp] theorem State.updGroup_cores (j g : Nat) (f : Group → Group) : (s.updGroup j g f).cores = s.cores := rfl
@[simp] theorem State.updGroup_ctxs (j g : Nat) (f : Group → Group) : (s.updGroup j g f).ctxs = s.ctxs := rfl
@[simp] theorem State.updGroup_launches (j g : Nat) (f : Group → Group) : (s.updGroup j g f).launches = s.launches := rfl
@[simp] theorem State.updGroup_cmds (j g : Nat) (f : Group → Group) : (s.updGroup j g f).cmds = s.cmds := rfl
@[simp] theorem State.updGroup_fused (j g : Nat) (f : Group → Group) : (s.updGroup j g f).fused = s.fused := rfl
@[simp] theorem State.updGroup_changing (j g : Nat) (f : Group → Group) : (s.updGroup j g f).changing = s.changing := rfl
@[simp] theorem State.updGroup_fw (j g : Nat) (f : Group → Group) : (s.updGroup j g f).fw = s.fw := rfl
@[simp] theorem State.updGroup_trust (j g : Nat) (f : Group → Group) : (s.updGroup j g f).trust = s.trust := rfl
@[simp] theorem State.updGroup_power (j g : Nat) (f : Group → Group) : (s.updGroup j g f).power = s.power := rfl
@[simp] theorem State.updGroup_trail (j g : Nat) (f : Group → Group) : (s.updGroup j g f).trail = s.trail := rfl
@[simp] theorem State.updGroup_vmap (j g : Nat) (f : Group → Group) : (s.updGroup j g f).vmap = s.vmap := rfl

/-! ### updFlight -/

@[simp] theorem State.updFlight_time (n : Nat) (f : Flight → Flight) : (s.updFlight n f).time = s.time := rfl
@[simp] theorem State.updFlight_kclk (n : Nat) (f : Flight → Flight) : (s.updFlight n f).kclk = s.kclk := rfl
@[simp] theorem State.updFlight_agenda (n : Nat) (f : Flight → Flight) : (s.updFlight n f).agenda = s.agenda := rfl
@[simp] theorem State.updFlight_issueQ (n : Nat) (f : Flight → Flight) : (s.updFlight n f).issueQ = s.issueQ := rfl
@[simp] theorem State.updFlight_cur (n : Nat) (f : Flight → Flight) : (s.updFlight n f).cur = s.cur := rfl
@[simp] theorem State.updFlight_rot (n : Nat) (f : Flight → Flight) : (s.updFlight n f).rot = s.rot := rfl
@[simp] theorem State.updFlight_fresh (n : Nat) (f : Flight → Flight) : (s.updFlight n f).fresh = s.fresh := rfl
@[simp] theorem State.updFlight_nextId (n : Nat) (f : Flight → Flight) : (s.updFlight n f).nextId = s.nextId := rfl
@[simp] theorem State.updFlight_mem (n : Nat) (f : Flight → Flight) : (s.updFlight n f).mem = s.mem := rfl
@[simp] theorem State.updFlight_lines (n : Nat) (f : Flight → Flight) : (s.updFlight n f).lines = s.lines := rfl
@[simp] theorem State.updFlight_leases (n : Nat) (f : Flight → Flight) : (s.updFlight n f).leases = s.leases := rfl
@[simp] theorem State.updFlight_map1 (n : Nat) (f : Flight → Flight) : (s.updFlight n f).map1 = s.map1 := rfl
@[simp] theorem State.updFlight_map2 (n : Nat) (f : Flight → Flight) : (s.updFlight n f).map2 = s.map2 := rfl
@[simp] theorem State.updFlight_ops (n : Nat) (f : Flight → Flight) : (s.updFlight n f).ops = s.ops := rfl
@[simp] theorem State.updFlight_eng (n : Nat) (f : Flight → Flight) : (s.updFlight n f).eng = s.eng := rfl
@[simp] theorem State.updFlight_units (n : Nat) (f : Flight → Flight) : (s.updFlight n f).units = s.units := rfl
@[simp] theorem State.updFlight_cores (n : Nat) (f : Flight → Flight) : (s.updFlight n f).cores = s.cores := rfl
@[simp] theorem State.updFlight_ctxs (n : Nat) (f : Flight → Flight) : (s.updFlight n f).ctxs = s.ctxs := rfl
@[simp] theorem State.updFlight_launches (n : Nat) (f : Flight → Flight) : (s.updFlight n f).launches = s.launches := rfl
@[simp] theorem State.updFlight_cmds (n : Nat) (f : Flight → Flight) : (s.updFlight n f).cmds = s.cmds := rfl
@[simp] theorem State.updFlight_fused (n : Nat) (f : Flight → Flight) : (s.updFlight n f).fused = s.fused := rfl
@[simp] theorem State.updFlight_changing (n : Nat) (f : Flight → Flight) : (s.updFlight n f).changing = s.changing := rfl
@[simp] theorem State.updFlight_fw (n : Nat) (f : Flight → Flight) : (s.updFlight n f).fw = s.fw := rfl
@[simp] theorem State.updFlight_trust (n : Nat) (f : Flight → Flight) : (s.updFlight n f).trust = s.trust := rfl
@[simp] theorem State.updFlight_power (n : Nat) (f : Flight → Flight) : (s.updFlight n f).power = s.power := rfl
@[simp] theorem State.updFlight_trail (n : Nat) (f : Flight → Flight) : (s.updFlight n f).trail = s.trail := rfl
@[simp] theorem State.updFlight_vmap (n : Nat) (f : Flight → Flight) : (s.updFlight n f).vmap = s.vmap := rfl

/-! ### dropFlight -/

@[simp] theorem State.dropFlight_time (n : Nat) : (s.dropFlight n).time = s.time := rfl
@[simp] theorem State.dropFlight_kclk (n : Nat) : (s.dropFlight n).kclk = s.kclk := rfl
@[simp] theorem State.dropFlight_agenda (n : Nat) : (s.dropFlight n).agenda = s.agenda := rfl
@[simp] theorem State.dropFlight_issueQ (n : Nat) : (s.dropFlight n).issueQ = s.issueQ := rfl
@[simp] theorem State.dropFlight_cur (n : Nat) : (s.dropFlight n).cur = s.cur := rfl
@[simp] theorem State.dropFlight_rot (n : Nat) : (s.dropFlight n).rot = s.rot := rfl
@[simp] theorem State.dropFlight_fresh (n : Nat) : (s.dropFlight n).fresh = s.fresh := rfl
@[simp] theorem State.dropFlight_nextId (n : Nat) : (s.dropFlight n).nextId = s.nextId := rfl
@[simp] theorem State.dropFlight_mem (n : Nat) : (s.dropFlight n).mem = s.mem := rfl
@[simp] theorem State.dropFlight_lines (n : Nat) : (s.dropFlight n).lines = s.lines := rfl
@[simp] theorem State.dropFlight_leases (n : Nat) : (s.dropFlight n).leases = s.leases := rfl
@[simp] theorem State.dropFlight_map1 (n : Nat) : (s.dropFlight n).map1 = s.map1 := rfl
@[simp] theorem State.dropFlight_map2 (n : Nat) : (s.dropFlight n).map2 = s.map2 := rfl
@[simp] theorem State.dropFlight_ops (n : Nat) : (s.dropFlight n).ops = s.ops := rfl
@[simp] theorem State.dropFlight_eng (n : Nat) : (s.dropFlight n).eng = s.eng := rfl
@[simp] theorem State.dropFlight_units (n : Nat) : (s.dropFlight n).units = s.units := rfl
@[simp] theorem State.dropFlight_cores (n : Nat) : (s.dropFlight n).cores = s.cores := rfl
@[simp] theorem State.dropFlight_ctxs (n : Nat) : (s.dropFlight n).ctxs = s.ctxs := rfl
@[simp] theorem State.dropFlight_launches (n : Nat) : (s.dropFlight n).launches = s.launches := rfl
@[simp] theorem State.dropFlight_cmds (n : Nat) : (s.dropFlight n).cmds = s.cmds := rfl
@[simp] theorem State.dropFlight_fused (n : Nat) : (s.dropFlight n).fused = s.fused := rfl
@[simp] theorem State.dropFlight_changing (n : Nat) : (s.dropFlight n).changing = s.changing := rfl
@[simp] theorem State.dropFlight_fw (n : Nat) : (s.dropFlight n).fw = s.fw := rfl
@[simp] theorem State.dropFlight_trust (n : Nat) : (s.dropFlight n).trust = s.trust := rfl
@[simp] theorem State.dropFlight_power (n : Nat) : (s.dropFlight n).power = s.power := rfl
@[simp] theorem State.dropFlight_trail (n : Nat) : (s.dropFlight n).trail = s.trail := rfl
@[simp] theorem State.dropFlight_vmap (n : Nat) : (s.dropFlight n).vmap = s.vmap := rfl

/-! ### updLink -/

@[simp] theorem State.updLink_time (n : Nat) (up : Bool) (f : LinkDir → LinkDir) : (s.updLink n up f).time = s.time := rfl
@[simp] theorem State.updLink_kclk (n : Nat) (up : Bool) (f : LinkDir → LinkDir) : (s.updLink n up f).kclk = s.kclk := rfl
@[simp] theorem State.updLink_agenda (n : Nat) (up : Bool) (f : LinkDir → LinkDir) : (s.updLink n up f).agenda = s.agenda := rfl
@[simp] theorem State.updLink_issueQ (n : Nat) (up : Bool) (f : LinkDir → LinkDir) : (s.updLink n up f).issueQ = s.issueQ := rfl
@[simp] theorem State.updLink_cur (n : Nat) (up : Bool) (f : LinkDir → LinkDir) : (s.updLink n up f).cur = s.cur := rfl
@[simp] theorem State.updLink_rot (n : Nat) (up : Bool) (f : LinkDir → LinkDir) : (s.updLink n up f).rot = s.rot := rfl
@[simp] theorem State.updLink_fresh (n : Nat) (up : Bool) (f : LinkDir → LinkDir) : (s.updLink n up f).fresh = s.fresh := rfl
@[simp] theorem State.updLink_nextId (n : Nat) (up : Bool) (f : LinkDir → LinkDir) : (s.updLink n up f).nextId = s.nextId := rfl
@[simp] theorem State.updLink_mem (n : Nat) (up : Bool) (f : LinkDir → LinkDir) : (s.updLink n up f).mem = s.mem := rfl
@[simp] theorem State.updLink_lines (n : Nat) (up : Bool) (f : LinkDir → LinkDir) : (s.updLink n up f).lines = s.lines := rfl
@[simp] theorem State.updLink_leases (n : Nat) (up : Bool) (f : LinkDir → LinkDir) : (s.updLink n up f).leases = s.leases := rfl
@[simp] theorem State.updLink_map1 (n : Nat) (up : Bool) (f : LinkDir → LinkDir) : (s.updLink n up f).map1 = s.map1 := rfl
@[simp] theorem State.updLink_map2 (n : Nat) (up : Bool) (f : LinkDir → LinkDir) : (s.updLink n up f).map2 = s.map2 := rfl
@[simp] theorem State.updLink_ops (n : Nat) (up : Bool) (f : LinkDir → LinkDir) : (s.updLink n up f).ops = s.ops := rfl
@[simp] theorem State.updLink_eng (n : Nat) (up : Bool) (f : LinkDir → LinkDir) : (s.updLink n up f).eng = s.eng := rfl
@[simp] theorem State.updLink_units (n : Nat) (up : Bool) (f : LinkDir → LinkDir) : (s.updLink n up f).units = s.units := rfl
@[simp] theorem State.updLink_cores (n : Nat) (up : Bool) (f : LinkDir → LinkDir) : (s.updLink n up f).cores = s.cores := rfl
@[simp] theorem State.updLink_ctxs (n : Nat) (up : Bool) (f : LinkDir → LinkDir) : (s.updLink n up f).ctxs = s.ctxs := rfl
@[simp] theorem State.updLink_launches (n : Nat) (up : Bool) (f : LinkDir → LinkDir) : (s.updLink n up f).launches = s.launches := rfl
@[simp] theorem State.updLink_cmds (n : Nat) (up : Bool) (f : LinkDir → LinkDir) : (s.updLink n up f).cmds = s.cmds := rfl
@[simp] theorem State.updLink_fused (n : Nat) (up : Bool) (f : LinkDir → LinkDir) : (s.updLink n up f).fused = s.fused := rfl
@[simp] theorem State.updLink_changing (n : Nat) (up : Bool) (f : LinkDir → LinkDir) : (s.updLink n up f).changing = s.changing := rfl
@[simp] theorem State.updLink_fab (n : Nat) (up : Bool) (f : LinkDir → LinkDir) : (s.updLink n up f).fab = s.fab := rfl
@[simp] theorem State.updLink_trust (n : Nat) (up : Bool) (f : LinkDir → LinkDir) : (s.updLink n up f).trust = s.trust := rfl
@[simp] theorem State.updLink_power (n : Nat) (up : Bool) (f : LinkDir → LinkDir) : (s.updLink n up f).power = s.power := rfl
@[simp] theorem State.updLink_trail (n : Nat) (up : Bool) (f : LinkDir → LinkDir) : (s.updLink n up f).trail = s.trail := rfl
@[simp] theorem State.updLink_vmap (n : Nat) (up : Bool) (f : LinkDir → LinkDir) : (s.updLink n up f).vmap = s.vmap := rfl

/-! ### dropHandler -/

@[simp] theorem State.dropHandler_time (n : Nat) : (s.dropHandler n).time = s.time := rfl
@[simp] theorem State.dropHandler_kclk (n : Nat) : (s.dropHandler n).kclk = s.kclk := rfl
@[simp] theorem State.dropHandler_agenda (n : Nat) : (s.dropHandler n).agenda = s.agenda := rfl
@[simp] theorem State.dropHandler_issueQ (n : Nat) : (s.dropHandler n).issueQ = s.issueQ := rfl
@[simp] theorem State.dropHandler_cur (n : Nat) : (s.dropHandler n).cur = s.cur := rfl
@[simp] theorem State.dropHandler_rot (n : Nat) : (s.dropHandler n).rot = s.rot := rfl
@[simp] theorem State.dropHandler_fresh (n : Nat) : (s.dropHandler n).fresh = s.fresh := rfl
@[simp] theorem State.dropHandler_nextId (n : Nat) : (s.dropHandler n).nextId = s.nextId := rfl
@[simp] theorem State.dropHandler_mem (n : Nat) : (s.dropHandler n).mem = s.mem := rfl
@[simp] theorem State.dropHandler_lines (n : Nat) : (s.dropHandler n).lines = s.lines := rfl
@[simp] theorem State.dropHandler_leases (n : Nat) : (s.dropHandler n).leases = s.leases := rfl
@[simp] theorem State.dropHandler_map1 (n : Nat) : (s.dropHandler n).map1 = s.map1 := rfl
@[simp] theorem State.dropHandler_map2 (n : Nat) : (s.dropHandler n).map2 = s.map2 := rfl
@[simp] theorem State.dropHandler_ops (n : Nat) : (s.dropHandler n).ops = s.ops := rfl
@[simp] theorem State.dropHandler_eng (n : Nat) : (s.dropHandler n).eng = s.eng := rfl
@[simp] theorem State.dropHandler_units (n : Nat) : (s.dropHandler n).units = s.units := rfl
@[simp] theorem State.dropHandler_cores (n : Nat) : (s.dropHandler n).cores = s.cores := rfl
@[simp] theorem State.dropHandler_ctxs (n : Nat) : (s.dropHandler n).ctxs = s.ctxs := rfl
@[simp] theorem State.dropHandler_launches (n : Nat) : (s.dropHandler n).launches = s.launches := rfl
@[simp] theorem State.dropHandler_cmds (n : Nat) : (s.dropHandler n).cmds = s.cmds := rfl
@[simp] theorem State.dropHandler_fused (n : Nat) : (s.dropHandler n).fused = s.fused := rfl
@[simp] theorem State.dropHandler_changing (n : Nat) : (s.dropHandler n).changing = s.changing := rfl
@[simp] theorem State.dropHandler_fab (n : Nat) : (s.dropHandler n).fab = s.fab := rfl
@[simp] theorem State.dropHandler_trust (n : Nat) : (s.dropHandler n).trust = s.trust := rfl
@[simp] theorem State.dropHandler_power (n : Nat) : (s.dropHandler n).power = s.power := rfl
@[simp] theorem State.dropHandler_trail (n : Nat) : (s.dropHandler n).trail = s.trail := rfl
@[simp] theorem State.dropHandler_vmap (n : Nat) : (s.dropHandler n).vmap = s.vmap := rfl

/-! ### trustStatus -/

@[simp] theorem State.trustStatus_time (n : Nat) : (s.trustStatus n).time = s.time := rfl
@[simp] theorem State.trustStatus_kclk (n : Nat) : (s.trustStatus n).kclk = s.kclk := rfl
@[simp] theorem State.trustStatus_agenda (n : Nat) : (s.trustStatus n).agenda = s.agenda := rfl
@[simp] theorem State.trustStatus_issueQ (n : Nat) : (s.trustStatus n).issueQ = s.issueQ := rfl
@[simp] theorem State.trustStatus_cur (n : Nat) : (s.trustStatus n).cur = s.cur := rfl
@[simp] theorem State.trustStatus_rot (n : Nat) : (s.trustStatus n).rot = s.rot := rfl
@[simp] theorem State.trustStatus_fresh (n : Nat) : (s.trustStatus n).fresh = s.fresh := rfl
@[simp] theorem State.trustStatus_nextId (n : Nat) : (s.trustStatus n).nextId = s.nextId := rfl
@[simp] theorem State.trustStatus_mem (n : Nat) : (s.trustStatus n).mem = s.mem := rfl
@[simp] theorem State.trustStatus_lines (n : Nat) : (s.trustStatus n).lines = s.lines := rfl
@[simp] theorem State.trustStatus_leases (n : Nat) : (s.trustStatus n).leases = s.leases := rfl
@[simp] theorem State.trustStatus_map1 (n : Nat) : (s.trustStatus n).map1 = s.map1 := rfl
@[simp] theorem State.trustStatus_map2 (n : Nat) : (s.trustStatus n).map2 = s.map2 := rfl
@[simp] theorem State.trustStatus_ops (n : Nat) : (s.trustStatus n).ops = s.ops := rfl
@[simp] theorem State.trustStatus_eng (n : Nat) : (s.trustStatus n).eng = s.eng := rfl
@[simp] theorem State.trustStatus_units (n : Nat) : (s.trustStatus n).units = s.units := rfl
@[simp] theorem State.trustStatus_cores (n : Nat) : (s.trustStatus n).cores = s.cores := rfl
@[simp] theorem State.trustStatus_ctxs (n : Nat) : (s.trustStatus n).ctxs = s.ctxs := rfl
@[simp] theorem State.trustStatus_launches (n : Nat) : (s.trustStatus n).launches = s.launches := rfl
@[simp] theorem State.trustStatus_cmds (n : Nat) : (s.trustStatus n).cmds = s.cmds := rfl
@[simp] theorem State.trustStatus_fused (n : Nat) : (s.trustStatus n).fused = s.fused := rfl
@[simp] theorem State.trustStatus_changing (n : Nat) : (s.trustStatus n).changing = s.changing := rfl
@[simp] theorem State.trustStatus_fab (n : Nat) : (s.trustStatus n).fab = s.fab := rfl
@[simp] theorem State.trustStatus_fw (n : Nat) : (s.trustStatus n).fw = s.fw := rfl
@[simp] theorem State.trustStatus_power (n : Nat) : (s.trustStatus n).power = s.power := rfl
@[simp] theorem State.trustStatus_trail (n : Nat) : (s.trustStatus n).trail = s.trail := rfl
@[simp] theorem State.trustStatus_vmap (n : Nat) : (s.trustStatus n).vmap = s.vmap := rfl

/-! ### updSpdm -/

@[simp] theorem State.updSpdm_time (n : Nat) (f : Spdm → Spdm) : (s.updSpdm n f).time = s.time := rfl
@[simp] theorem State.updSpdm_kclk (n : Nat) (f : Spdm → Spdm) : (s.updSpdm n f).kclk = s.kclk := rfl
@[simp] theorem State.updSpdm_agenda (n : Nat) (f : Spdm → Spdm) : (s.updSpdm n f).agenda = s.agenda := rfl
@[simp] theorem State.updSpdm_issueQ (n : Nat) (f : Spdm → Spdm) : (s.updSpdm n f).issueQ = s.issueQ := rfl
@[simp] theorem State.updSpdm_cur (n : Nat) (f : Spdm → Spdm) : (s.updSpdm n f).cur = s.cur := rfl
@[simp] theorem State.updSpdm_rot (n : Nat) (f : Spdm → Spdm) : (s.updSpdm n f).rot = s.rot := rfl
@[simp] theorem State.updSpdm_fresh (n : Nat) (f : Spdm → Spdm) : (s.updSpdm n f).fresh = s.fresh := rfl
@[simp] theorem State.updSpdm_nextId (n : Nat) (f : Spdm → Spdm) : (s.updSpdm n f).nextId = s.nextId := rfl
@[simp] theorem State.updSpdm_mem (n : Nat) (f : Spdm → Spdm) : (s.updSpdm n f).mem = s.mem := rfl
@[simp] theorem State.updSpdm_lines (n : Nat) (f : Spdm → Spdm) : (s.updSpdm n f).lines = s.lines := rfl
@[simp] theorem State.updSpdm_leases (n : Nat) (f : Spdm → Spdm) : (s.updSpdm n f).leases = s.leases := rfl
@[simp] theorem State.updSpdm_map1 (n : Nat) (f : Spdm → Spdm) : (s.updSpdm n f).map1 = s.map1 := rfl
@[simp] theorem State.updSpdm_map2 (n : Nat) (f : Spdm → Spdm) : (s.updSpdm n f).map2 = s.map2 := rfl
@[simp] theorem State.updSpdm_ops (n : Nat) (f : Spdm → Spdm) : (s.updSpdm n f).ops = s.ops := rfl
@[simp] theorem State.updSpdm_eng (n : Nat) (f : Spdm → Spdm) : (s.updSpdm n f).eng = s.eng := rfl
@[simp] theorem State.updSpdm_units (n : Nat) (f : Spdm → Spdm) : (s.updSpdm n f).units = s.units := rfl
@[simp] theorem State.updSpdm_cores (n : Nat) (f : Spdm → Spdm) : (s.updSpdm n f).cores = s.cores := rfl
@[simp] theorem State.updSpdm_ctxs (n : Nat) (f : Spdm → Spdm) : (s.updSpdm n f).ctxs = s.ctxs := rfl
@[simp] theorem State.updSpdm_launches (n : Nat) (f : Spdm → Spdm) : (s.updSpdm n f).launches = s.launches := rfl
@[simp] theorem State.updSpdm_cmds (n : Nat) (f : Spdm → Spdm) : (s.updSpdm n f).cmds = s.cmds := rfl
@[simp] theorem State.updSpdm_fused (n : Nat) (f : Spdm → Spdm) : (s.updSpdm n f).fused = s.fused := rfl
@[simp] theorem State.updSpdm_changing (n : Nat) (f : Spdm → Spdm) : (s.updSpdm n f).changing = s.changing := rfl
@[simp] theorem State.updSpdm_fab (n : Nat) (f : Spdm → Spdm) : (s.updSpdm n f).fab = s.fab := rfl
@[simp] theorem State.updSpdm_fw (n : Nat) (f : Spdm → Spdm) : (s.updSpdm n f).fw = s.fw := rfl
@[simp] theorem State.updSpdm_power (n : Nat) (f : Spdm → Spdm) : (s.updSpdm n f).power = s.power := rfl
@[simp] theorem State.updSpdm_trail (n : Nat) (f : Spdm → Spdm) : (s.updSpdm n f).trail = s.trail := rfl
@[simp] theorem State.updSpdm_vmap (n : Nat) (f : Spdm → Spdm) : (s.updSpdm n f).vmap = s.vmap := rfl

/-! ### extendReg -/

@[simp] theorem State.extendReg_time (i : Nat) (d : BitVec 256) : (s.extendReg i d).time = s.time := rfl
@[simp] theorem State.extendReg_kclk (i : Nat) (d : BitVec 256) : (s.extendReg i d).kclk = s.kclk := rfl
@[simp] theorem State.extendReg_agenda (i : Nat) (d : BitVec 256) : (s.extendReg i d).agenda = s.agenda := rfl
@[simp] theorem State.extendReg_issueQ (i : Nat) (d : BitVec 256) : (s.extendReg i d).issueQ = s.issueQ := rfl
@[simp] theorem State.extendReg_cur (i : Nat) (d : BitVec 256) : (s.extendReg i d).cur = s.cur := rfl
@[simp] theorem State.extendReg_rot (i : Nat) (d : BitVec 256) : (s.extendReg i d).rot = s.rot := rfl
@[simp] theorem State.extendReg_fresh (i : Nat) (d : BitVec 256) : (s.extendReg i d).fresh = s.fresh := rfl
@[simp] theorem State.extendReg_nextId (i : Nat) (d : BitVec 256) : (s.extendReg i d).nextId = s.nextId := rfl
@[simp] theorem State.extendReg_mem (i : Nat) (d : BitVec 256) : (s.extendReg i d).mem = s.mem := rfl
@[simp] theorem State.extendReg_lines (i : Nat) (d : BitVec 256) : (s.extendReg i d).lines = s.lines := rfl
@[simp] theorem State.extendReg_leases (i : Nat) (d : BitVec 256) : (s.extendReg i d).leases = s.leases := rfl
@[simp] theorem State.extendReg_map1 (i : Nat) (d : BitVec 256) : (s.extendReg i d).map1 = s.map1 := rfl
@[simp] theorem State.extendReg_map2 (i : Nat) (d : BitVec 256) : (s.extendReg i d).map2 = s.map2 := rfl
@[simp] theorem State.extendReg_ops (i : Nat) (d : BitVec 256) : (s.extendReg i d).ops = s.ops := rfl
@[simp] theorem State.extendReg_eng (i : Nat) (d : BitVec 256) : (s.extendReg i d).eng = s.eng := rfl
@[simp] theorem State.extendReg_units (i : Nat) (d : BitVec 256) : (s.extendReg i d).units = s.units := rfl
@[simp] theorem State.extendReg_cores (i : Nat) (d : BitVec 256) : (s.extendReg i d).cores = s.cores := rfl
@[simp] theorem State.extendReg_ctxs (i : Nat) (d : BitVec 256) : (s.extendReg i d).ctxs = s.ctxs := rfl
@[simp] theorem State.extendReg_launches (i : Nat) (d : BitVec 256) : (s.extendReg i d).launches = s.launches := rfl
@[simp] theorem State.extendReg_cmds (i : Nat) (d : BitVec 256) : (s.extendReg i d).cmds = s.cmds := rfl
@[simp] theorem State.extendReg_fused (i : Nat) (d : BitVec 256) : (s.extendReg i d).fused = s.fused := rfl
@[simp] theorem State.extendReg_changing (i : Nat) (d : BitVec 256) : (s.extendReg i d).changing = s.changing := rfl
@[simp] theorem State.extendReg_fab (i : Nat) (d : BitVec 256) : (s.extendReg i d).fab = s.fab := rfl
@[simp] theorem State.extendReg_fw (i : Nat) (d : BitVec 256) : (s.extendReg i d).fw = s.fw := rfl
@[simp] theorem State.extendReg_power (i : Nat) (d : BitVec 256) : (s.extendReg i d).power = s.power := rfl
@[simp] theorem State.extendReg_trail (i : Nat) (d : BitVec 256) : (s.extendReg i d).trail = s.trail := rfl
@[simp] theorem State.extendReg_vmap (i : Nat) (d : BitVec 256) : (s.extendReg i d).vmap = s.vmap := rfl

/-! ### Threads and units -/

variable (th : Thread) (u : UnitSt)

@[simp] theorem Thread.raise_regs (k : CtrKind) : (th.raise k).regs = th.regs := rfl
@[simp] theorem Thread.raise_sp (k : CtrKind) : (th.raise k).sp = th.sp := rfl
@[simp] theorem Thread.raise_fp (k : CtrKind) : (th.raise k).fp = th.fp := rfl
@[simp] theorem Thread.raise_gwct (k : CtrKind) : (th.raise k).gwct = th.gwct := rfl
@[simp] theorem Thread.raise_egwct (k : CtrKind) : (th.raise k).egwct = th.egwct := rfl
@[simp] theorem Thread.raise_rng (k : CtrKind) : (th.raise k).rng = th.rng := rfl
@[simp] theorem Thread.raise_rmode (k : CtrKind) : (th.raise k).rmode = th.rmode := rfl
@[simp] theorem Thread.raise_fmode (k : CtrKind) : (th.raise k).fmode = th.fmode := rfl
@[simp] theorem Thread.raise_streams (k : CtrKind) : (th.raise k).streams = th.streams := rfl
@[simp] theorem Thread.raise_resv (k : CtrKind) : (th.raise k).resv = th.resv := rfl
@[simp] theorem Thread.raise_age (k : CtrKind) : (th.raise k).age = th.age := rfl
@[simp] theorem Thread.raise_pos (k : CtrKind) : (th.raise k).pos = th.pos := rfl
@[simp] theorem Thread.raise_priv (k : CtrKind) : (th.raise k).priv = th.priv := rfl
@[simp] theorem Thread.raise_st (k : CtrKind) : (th.raise k).st = th.st := rfl
@[simp] theorem Thread.raise_owed (k : CtrKind) : (th.raise k).owed = th.owed := rfl
@[simp] theorem Thread.raise_wpc (k : CtrKind) : (th.raise k).wpc = th.wpc := rfl
@[simp] theorem Thread.raise_replay (k : CtrKind) : (th.raise k).replay = th.replay := rfl
@[simp] theorem Thread.raise_seen (k : CtrKind) : (th.raise k).seen = th.seen := rfl
@[simp] theorem Thread.raise_heard (k : CtrKind) : (th.raise k).heard = th.heard := rfl
@[simp] theorem Thread.raise_told (k : CtrKind) : (th.raise k).told = th.told := rfl
@[simp] theorem Thread.raise_toldIn (k : CtrKind) : (th.raise k).toldIn = th.toldIn := rfl
@[simp] theorem Thread.raise_stale (k : CtrKind) : (th.raise k).stale = th.stale := rfl
@[simp] theorem Thread.lower_regs (k : CtrKind) : (th.lower k).regs = th.regs := rfl
@[simp] theorem Thread.lower_sp (k : CtrKind) : (th.lower k).sp = th.sp := rfl
@[simp] theorem Thread.lower_fp (k : CtrKind) : (th.lower k).fp = th.fp := rfl
@[simp] theorem Thread.lower_gwct (k : CtrKind) : (th.lower k).gwct = th.gwct := rfl
@[simp] theorem Thread.lower_egwct (k : CtrKind) : (th.lower k).egwct = th.egwct := rfl
@[simp] theorem Thread.lower_rng (k : CtrKind) : (th.lower k).rng = th.rng := rfl
@[simp] theorem Thread.lower_rmode (k : CtrKind) : (th.lower k).rmode = th.rmode := rfl
@[simp] theorem Thread.lower_fmode (k : CtrKind) : (th.lower k).fmode = th.fmode := rfl
@[simp] theorem Thread.lower_streams (k : CtrKind) : (th.lower k).streams = th.streams := rfl
@[simp] theorem Thread.lower_resv (k : CtrKind) : (th.lower k).resv = th.resv := rfl
@[simp] theorem Thread.lower_age (k : CtrKind) : (th.lower k).age = th.age := rfl
@[simp] theorem Thread.lower_pos (k : CtrKind) : (th.lower k).pos = th.pos := rfl
@[simp] theorem Thread.lower_priv (k : CtrKind) : (th.lower k).priv = th.priv := rfl
@[simp] theorem Thread.lower_st (k : CtrKind) : (th.lower k).st = th.st := rfl
@[simp] theorem Thread.lower_owed (k : CtrKind) : (th.lower k).owed = th.owed := rfl
@[simp] theorem Thread.lower_wpc (k : CtrKind) : (th.lower k).wpc = th.wpc := rfl
@[simp] theorem Thread.lower_replay (k : CtrKind) : (th.lower k).replay = th.replay := rfl
@[simp] theorem Thread.lower_seen (k : CtrKind) : (th.lower k).seen = th.seen := rfl
@[simp] theorem Thread.lower_heard (k : CtrKind) : (th.lower k).heard = th.heard := rfl
@[simp] theorem Thread.lower_told (k : CtrKind) : (th.lower k).told = th.told := rfl
@[simp] theorem Thread.lower_toldIn (k : CtrKind) : (th.lower k).toldIn = th.toldIn := rfl
@[simp] theorem Thread.lower_stale (k : CtrKind) : (th.lower k).stale = th.stale := rfl
@[simp] theorem Thread.setStream_ctrs (k : Nat) (q : Stream) : (th.setStream k q).ctrs = th.ctrs := rfl
@[simp] theorem Thread.setStream_regs (k : Nat) (q : Stream) : (th.setStream k q).regs = th.regs := rfl
@[simp] theorem Thread.setStream_sp (k : Nat) (q : Stream) : (th.setStream k q).sp = th.sp := rfl
@[simp] theorem Thread.setStream_fp (k : Nat) (q : Stream) : (th.setStream k q).fp = th.fp := rfl
@[simp] theorem Thread.setStream_gwct (k : Nat) (q : Stream) : (th.setStream k q).gwct = th.gwct := rfl
@[simp] theorem Thread.setStream_egwct (k : Nat) (q : Stream) : (th.setStream k q).egwct = th.egwct := rfl
@[simp] theorem Thread.setStream_rng (k : Nat) (q : Stream) : (th.setStream k q).rng = th.rng := rfl
@[simp] theorem Thread.setStream_rmode (k : Nat) (q : Stream) : (th.setStream k q).rmode = th.rmode := rfl
@[simp] theorem Thread.setStream_fmode (k : Nat) (q : Stream) : (th.setStream k q).fmode = th.fmode := rfl
@[simp] theorem Thread.setStream_resv (k : Nat) (q : Stream) : (th.setStream k q).resv = th.resv := rfl
@[simp] theorem Thread.setStream_age (k : Nat) (q : Stream) : (th.setStream k q).age = th.age := rfl
@[simp] theorem Thread.setStream_pos (k : Nat) (q : Stream) : (th.setStream k q).pos = th.pos := rfl
@[simp] theorem Thread.setStream_priv (k : Nat) (q : Stream) : (th.setStream k q).priv = th.priv := rfl
@[simp] theorem Thread.setStream_st (k : Nat) (q : Stream) : (th.setStream k q).st = th.st := rfl
@[simp] theorem Thread.setStream_owed (k : Nat) (q : Stream) : (th.setStream k q).owed = th.owed := rfl
@[simp] theorem Thread.setStream_wpc (k : Nat) (q : Stream) : (th.setStream k q).wpc = th.wpc := rfl
@[simp] theorem Thread.setStream_replay (k : Nat) (q : Stream) : (th.setStream k q).replay = th.replay := rfl
@[simp] theorem Thread.setStream_seen (k : Nat) (q : Stream) : (th.setStream k q).seen = th.seen := rfl
@[simp] theorem Thread.setStream_heard (k : Nat) (q : Stream) : (th.setStream k q).heard = th.heard := rfl
@[simp] theorem Thread.setStream_told (k : Nat) (q : Stream) : (th.setStream k q).told = th.told := rfl
@[simp] theorem Thread.setStream_toldIn (k : Nat) (q : Stream) : (th.setStream k q).toldIn = th.toldIn := rfl
@[simp] theorem Thread.setStream_stale (k : Nat) (q : Stream) : (th.setStream k q).stale = th.stale := rfl
@[simp] theorem UnitSt.setThread_uid (t : Nat) (x : Thread) : (u.setThread t x).uid = u.uid := rfl
@[simp] theorem UnitSt.setThread_ctx (t : Nat) (x : Thread) : (u.setThread t x).ctx = u.ctx := rfl
@[simp] theorem UnitSt.setThread_launch (t : Nat) (x : Thread) : (u.setThread t x).launch = u.launch := rfl
@[simp] theorem UnitSt.setThread_lin (t : Nat) (x : Thread) : (u.setThread t x).lin = u.lin := rfl
@[simp] theorem UnitSt.setThread_x (t : Nat) (x : Thread) : (u.setThread t x).x = u.x := rfl
@[simp] theorem UnitSt.setThread_y (t : Nat) (x : Thread) : (u.setThread t x).y = u.y := rfl
@[simp] theorem UnitSt.setThread_z (t : Nat) (x : Thread) : (u.setThread t x).z = u.z := rfl
@[simp] theorem UnitSt.setThread_role (t : Nat) (x : Thread) : (u.setThread t x).role = u.role := rfl
@[simp] theorem UnitSt.setThread_st (t : Nat) (x : Thread) : (u.setThread t x).st = u.st := rfl
@[simp] theorem UnitSt.setThread_core (t : Nat) (x : Thread) : (u.setThread t x).core = u.core := rfl
@[simp] theorem UnitSt.setThread_nregs (t : Nat) (x : Thread) : (u.setThread t x).nregs = u.nregs := rfl
@[simp] theorem UnitSt.setThread_npriv (t : Nat) (x : Thread) : (u.setThread t x).npriv = u.npriv := rfl
@[simp] theorem UnitSt.setThread_nscr (t : Nat) (x : Thread) : (u.setThread t x).nscr = u.nscr := rfl
@[simp] theorem UnitSt.setThread_tile (t : Nat) (x : Thread) : (u.setThread t x).tile = u.tile := rfl
@[simp] theorem UnitSt.setThread_bundles (t : Nat) (x : Thread) : (u.setThread t x).bundles = u.bundles := rfl
@[simp] theorem UnitSt.setThread_zs (t : Nat) (x : Thread) : (u.setThread t x).zs = u.zs := rfl
@[simp] theorem UnitSt.setThread_pbase (t : Nat) (x : Thread) : (u.setThread t x).pbase = u.pbase := rfl
@[simp] theorem UnitSt.setThread_scr (t : Nat) (x : Thread) : (u.setThread t x).scr = u.scr := rfl
@[simp] theorem UnitSt.setThread_bars (t : Nat) (x : Thread) : (u.setThread t x).bars = u.bars := rfl
@[simp] theorem UnitSt.setThread_gang (t : Nat) (x : Thread) : (u.setThread t x).gang = u.gang := rfl
@[simp] theorem UnitSt.setThread_latch (t : Nat) (x : Thread) : (u.setThread t x).latch = u.latch := rfl
@[simp] theorem UnitSt.setThread_mirror (t : Nat) (x : Thread) : (u.setThread t x).mirror = u.mirror := rfl
@[simp] theorem UnitSt.setThread_replays (t : Nat) (x : Thread) : (u.setThread t x).replays = u.replays := rfl
@[simp] theorem UnitSt.setThread_frames (t : Nat) (x : Thread) : (u.setThread t x).frames = u.frames := rfl
@[simp] theorem UnitSt.setThread_cpins (t : Nat) (x : Thread) : (u.setThread t x).cpins = u.cpins := rfl
@[simp] theorem UnitSt.setThread_guard (t : Nat) (x : Thread) : (u.setThread t x).guard = u.guard := rfl
@[simp] theorem UnitSt.setThread_glines (t : Nat) (x : Thread) : (u.setThread t x).glines = u.glines := rfl
@[simp] theorem UnitSt.setThread_residual (t : Nat) (x : Thread) : (u.setThread t x).residual = u.residual := rfl
@[simp] theorem UnitSt.setThread_checked (t : Nat) (x : Thread) : (u.setThread t x).checked = u.checked := rfl
@[simp] theorem UnitSt.setThread_gfault (t : Nat) (x : Thread) : (u.setThread t x).gfault = u.gfault := rfl
@[simp] theorem UnitSt.setThread_preempt (t : Nat) (x : Thread) : (u.setThread t x).preempt = u.preempt := rfl
@[simp] theorem UnitSt.setThread_faulted (t : Nat) (x : Thread) : (u.setThread t x).faulted = u.faulted := rfl
@[simp] theorem UnitSt.setThread_cancelled (t : Nat) (x : Thread) : (u.setThread t x).cancelled = u.cancelled := rfl
@[simp] theorem UnitSt.setThread_mcheck (t : Nat) (x : Thread) : (u.setThread t x).mcheck = u.mcheck := rfl
@[simp] theorem UnitSt.setThread_savedAt (t : Nat) (x : Thread) : (u.setThread t x).savedAt = u.savedAt := rfl
@[simp] theorem UnitSt.setThread_tsave (t : Nat) (x : Thread) : (u.setThread t x).tsave = u.tsave := rfl
@[simp] theorem UnitSt.setThread_away (t : Nat) (x : Thread) : (u.setThread t x).away = u.away := rfl
@[simp] theorem UnitSt.setThread_energy (t : Nat) (x : Thread) : (u.setThread t x).energy = u.energy := rfl
@[simp] theorem UnitSt.setThread_late (t : Nat) (x : Thread) : (u.setThread t x).late = u.late := rfl
@[simp] theorem UnitSt.setThread_verdict (t : Nat) (x : Thread) : (u.setThread t x).verdict = u.verdict := rfl
@[simp] theorem UnitSt.setThread_commit (t : Nat) (x : Thread) : (u.setThread t x).commit = u.commit := rfl
@[simp] theorem UnitSt.setThread_first (t : Nat) (x : Thread) : (u.setThread t x).first = u.first := rfl
@[simp] theorem UnitSt.setThread_back (t : Nat) (x : Thread) : (u.setThread t x).back = u.back := rfl
@[simp] theorem UnitSt.setThread_saveAt (t : Nat) (x : Thread) : (u.setThread t x).saveAt = u.saveAt := rfl
@[simp] theorem UnitSt.setThread_silt (t : Nat) (x : Thread) : (u.setThread t x).silt = u.silt := rfl
@[simp] theorem UnitSt.setThread_issued (t : Nat) (x : Thread) : (u.setThread t x).issued = u.issued := rfl
@[simp] theorem UnitSt.setThread_freed (t : Nat) (x : Thread) : (u.setThread t x).freed = u.freed := rfl
@[simp] theorem UnitSt.updThread_uid (t : Nat) (f : Thread → Thread) : (u.updThread t f).uid = u.uid := rfl
@[simp] theorem UnitSt.updThread_ctx (t : Nat) (f : Thread → Thread) : (u.updThread t f).ctx = u.ctx := rfl
@[simp] theorem UnitSt.updThread_launch (t : Nat) (f : Thread → Thread) : (u.updThread t f).launch = u.launch := rfl
@[simp] theorem UnitSt.updThread_lin (t : Nat) (f : Thread → Thread) : (u.updThread t f).lin = u.lin := rfl
@[simp] theorem UnitSt.updThread_x (t : Nat) (f : Thread → Thread) : (u.updThread t f).x = u.x := rfl
@[simp] theorem UnitSt.updThread_y (t : Nat) (f : Thread → Thread) : (u.updThread t f).y = u.y := rfl
@[simp] theorem UnitSt.updThread_z (t : Nat) (f : Thread → Thread) : (u.updThread t f).z = u.z := rfl
@[simp] theorem UnitSt.updThread_role (t : Nat) (f : Thread → Thread) : (u.updThread t f).role = u.role := rfl
@[simp] theorem UnitSt.updThread_st (t : Nat) (f : Thread → Thread) : (u.updThread t f).st = u.st := rfl
@[simp] theorem UnitSt.updThread_core (t : Nat) (f : Thread → Thread) : (u.updThread t f).core = u.core := rfl
@[simp] theorem UnitSt.updThread_nregs (t : Nat) (f : Thread → Thread) : (u.updThread t f).nregs = u.nregs := rfl
@[simp] theorem UnitSt.updThread_npriv (t : Nat) (f : Thread → Thread) : (u.updThread t f).npriv = u.npriv := rfl
@[simp] theorem UnitSt.updThread_nscr (t : Nat) (f : Thread → Thread) : (u.updThread t f).nscr = u.nscr := rfl
@[simp] theorem UnitSt.updThread_tile (t : Nat) (f : Thread → Thread) : (u.updThread t f).tile = u.tile := rfl
@[simp] theorem UnitSt.updThread_bundles (t : Nat) (f : Thread → Thread) : (u.updThread t f).bundles = u.bundles := rfl
@[simp] theorem UnitSt.updThread_zs (t : Nat) (f : Thread → Thread) : (u.updThread t f).zs = u.zs := rfl
@[simp] theorem UnitSt.updThread_pbase (t : Nat) (f : Thread → Thread) : (u.updThread t f).pbase = u.pbase := rfl
@[simp] theorem UnitSt.updThread_scr (t : Nat) (f : Thread → Thread) : (u.updThread t f).scr = u.scr := rfl
@[simp] theorem UnitSt.updThread_bars (t : Nat) (f : Thread → Thread) : (u.updThread t f).bars = u.bars := rfl
@[simp] theorem UnitSt.updThread_gang (t : Nat) (f : Thread → Thread) : (u.updThread t f).gang = u.gang := rfl
@[simp] theorem UnitSt.updThread_latch (t : Nat) (f : Thread → Thread) : (u.updThread t f).latch = u.latch := rfl
@[simp] theorem UnitSt.updThread_mirror (t : Nat) (f : Thread → Thread) : (u.updThread t f).mirror = u.mirror := rfl
@[simp] theorem UnitSt.updThread_replays (t : Nat) (f : Thread → Thread) : (u.updThread t f).replays = u.replays := rfl
@[simp] theorem UnitSt.updThread_frames (t : Nat) (f : Thread → Thread) : (u.updThread t f).frames = u.frames := rfl
@[simp] theorem UnitSt.updThread_cpins (t : Nat) (f : Thread → Thread) : (u.updThread t f).cpins = u.cpins := rfl
@[simp] theorem UnitSt.updThread_guard (t : Nat) (f : Thread → Thread) : (u.updThread t f).guard = u.guard := rfl
@[simp] theorem UnitSt.updThread_glines (t : Nat) (f : Thread → Thread) : (u.updThread t f).glines = u.glines := rfl
@[simp] theorem UnitSt.updThread_residual (t : Nat) (f : Thread → Thread) : (u.updThread t f).residual = u.residual := rfl
@[simp] theorem UnitSt.updThread_checked (t : Nat) (f : Thread → Thread) : (u.updThread t f).checked = u.checked := rfl
@[simp] theorem UnitSt.updThread_gfault (t : Nat) (f : Thread → Thread) : (u.updThread t f).gfault = u.gfault := rfl
@[simp] theorem UnitSt.updThread_preempt (t : Nat) (f : Thread → Thread) : (u.updThread t f).preempt = u.preempt := rfl
@[simp] theorem UnitSt.updThread_faulted (t : Nat) (f : Thread → Thread) : (u.updThread t f).faulted = u.faulted := rfl
@[simp] theorem UnitSt.updThread_cancelled (t : Nat) (f : Thread → Thread) : (u.updThread t f).cancelled = u.cancelled := rfl
@[simp] theorem UnitSt.updThread_mcheck (t : Nat) (f : Thread → Thread) : (u.updThread t f).mcheck = u.mcheck := rfl
@[simp] theorem UnitSt.updThread_savedAt (t : Nat) (f : Thread → Thread) : (u.updThread t f).savedAt = u.savedAt := rfl
@[simp] theorem UnitSt.updThread_tsave (t : Nat) (f : Thread → Thread) : (u.updThread t f).tsave = u.tsave := rfl
@[simp] theorem UnitSt.updThread_away (t : Nat) (f : Thread → Thread) : (u.updThread t f).away = u.away := rfl
@[simp] theorem UnitSt.updThread_energy (t : Nat) (f : Thread → Thread) : (u.updThread t f).energy = u.energy := rfl
@[simp] theorem UnitSt.updThread_late (t : Nat) (f : Thread → Thread) : (u.updThread t f).late = u.late := rfl
@[simp] theorem UnitSt.updThread_verdict (t : Nat) (f : Thread → Thread) : (u.updThread t f).verdict = u.verdict := rfl
@[simp] theorem UnitSt.updThread_commit (t : Nat) (f : Thread → Thread) : (u.updThread t f).commit = u.commit := rfl
@[simp] theorem UnitSt.updThread_first (t : Nat) (f : Thread → Thread) : (u.updThread t f).first = u.first := rfl
@[simp] theorem UnitSt.updThread_back (t : Nat) (f : Thread → Thread) : (u.updThread t f).back = u.back := rfl
@[simp] theorem UnitSt.updThread_saveAt (t : Nat) (f : Thread → Thread) : (u.updThread t f).saveAt = u.saveAt := rfl
@[simp] theorem UnitSt.updThread_silt (t : Nat) (f : Thread → Thread) : (u.updThread t f).silt = u.silt := rfl
@[simp] theorem UnitSt.updThread_issued (t : Nat) (f : Thread → Thread) : (u.updThread t f).issued = u.issued := rfl
@[simp] theorem UnitSt.updThread_freed (t : Nat) (f : Thread → Thread) : (u.updThread t f).freed = u.freed := rfl
@[simp] theorem UnitSt.setBundle_uid (b : Bundle) : (u.setBundle b).uid = u.uid := rfl
@[simp] theorem UnitSt.setBundle_ctx (b : Bundle) : (u.setBundle b).ctx = u.ctx := rfl
@[simp] theorem UnitSt.setBundle_launch (b : Bundle) : (u.setBundle b).launch = u.launch := rfl
@[simp] theorem UnitSt.setBundle_lin (b : Bundle) : (u.setBundle b).lin = u.lin := rfl
@[simp] theorem UnitSt.setBundle_x (b : Bundle) : (u.setBundle b).x = u.x := rfl
@[simp] theorem UnitSt.setBundle_y (b : Bundle) : (u.setBundle b).y = u.y := rfl
@[simp] theorem UnitSt.setBundle_z (b : Bundle) : (u.setBundle b).z = u.z := rfl
@[simp] theorem UnitSt.setBundle_role (b : Bundle) : (u.setBundle b).role = u.role := rfl
@[simp] theorem UnitSt.setBundle_st (b : Bundle) : (u.setBundle b).st = u.st := rfl
@[simp] theorem UnitSt.setBundle_core (b : Bundle) : (u.setBundle b).core = u.core := rfl
@[simp] theorem UnitSt.setBundle_nregs (b : Bundle) : (u.setBundle b).nregs = u.nregs := rfl
@[simp] theorem UnitSt.setBundle_npriv (b : Bundle) : (u.setBundle b).npriv = u.npriv := rfl
@[simp] theorem UnitSt.setBundle_nscr (b : Bundle) : (u.setBundle b).nscr = u.nscr := rfl
@[simp] theorem UnitSt.setBundle_tile (b : Bundle) : (u.setBundle b).tile = u.tile := rfl
@[simp] theorem UnitSt.setBundle_threads (b : Bundle) : (u.setBundle b).threads = u.threads := rfl
@[simp] theorem UnitSt.setBundle_zs (b : Bundle) : (u.setBundle b).zs = u.zs := rfl
@[simp] theorem UnitSt.setBundle_pbase (b : Bundle) : (u.setBundle b).pbase = u.pbase := rfl
@[simp] theorem UnitSt.setBundle_scr (b : Bundle) : (u.setBundle b).scr = u.scr := rfl
@[simp] theorem UnitSt.setBundle_bars (b : Bundle) : (u.setBundle b).bars = u.bars := rfl
@[simp] theorem UnitSt.setBundle_gang (b : Bundle) : (u.setBundle b).gang = u.gang := rfl
@[simp] theorem UnitSt.setBundle_latch (b : Bundle) : (u.setBundle b).latch = u.latch := rfl
@[simp] theorem UnitSt.setBundle_mirror (b : Bundle) : (u.setBundle b).mirror = u.mirror := rfl
@[simp] theorem UnitSt.setBundle_replays (b : Bundle) : (u.setBundle b).replays = u.replays := rfl
@[simp] theorem UnitSt.setBundle_frames (b : Bundle) : (u.setBundle b).frames = u.frames := rfl
@[simp] theorem UnitSt.setBundle_cpins (b : Bundle) : (u.setBundle b).cpins = u.cpins := rfl
@[simp] theorem UnitSt.setBundle_guard (b : Bundle) : (u.setBundle b).guard = u.guard := rfl
@[simp] theorem UnitSt.setBundle_glines (b : Bundle) : (u.setBundle b).glines = u.glines := rfl
@[simp] theorem UnitSt.setBundle_residual (b : Bundle) : (u.setBundle b).residual = u.residual := rfl
@[simp] theorem UnitSt.setBundle_checked (b : Bundle) : (u.setBundle b).checked = u.checked := rfl
@[simp] theorem UnitSt.setBundle_gfault (b : Bundle) : (u.setBundle b).gfault = u.gfault := rfl
@[simp] theorem UnitSt.setBundle_preempt (b : Bundle) : (u.setBundle b).preempt = u.preempt := rfl
@[simp] theorem UnitSt.setBundle_faulted (b : Bundle) : (u.setBundle b).faulted = u.faulted := rfl
@[simp] theorem UnitSt.setBundle_cancelled (b : Bundle) : (u.setBundle b).cancelled = u.cancelled := rfl
@[simp] theorem UnitSt.setBundle_mcheck (b : Bundle) : (u.setBundle b).mcheck = u.mcheck := rfl
@[simp] theorem UnitSt.setBundle_savedAt (b : Bundle) : (u.setBundle b).savedAt = u.savedAt := rfl
@[simp] theorem UnitSt.setBundle_tsave (b : Bundle) : (u.setBundle b).tsave = u.tsave := rfl
@[simp] theorem UnitSt.setBundle_away (b : Bundle) : (u.setBundle b).away = u.away := rfl
@[simp] theorem UnitSt.setBundle_energy (b : Bundle) : (u.setBundle b).energy = u.energy := rfl
@[simp] theorem UnitSt.setBundle_late (b : Bundle) : (u.setBundle b).late = u.late := rfl
@[simp] theorem UnitSt.setBundle_verdict (b : Bundle) : (u.setBundle b).verdict = u.verdict := rfl
@[simp] theorem UnitSt.setBundle_commit (b : Bundle) : (u.setBundle b).commit = u.commit := rfl
@[simp] theorem UnitSt.setBundle_first (b : Bundle) : (u.setBundle b).first = u.first := rfl
@[simp] theorem UnitSt.setBundle_back (b : Bundle) : (u.setBundle b).back = u.back := rfl
@[simp] theorem UnitSt.setBundle_saveAt (b : Bundle) : (u.setBundle b).saveAt = u.saveAt := rfl
@[simp] theorem UnitSt.setBundle_silt (b : Bundle) : (u.setBundle b).silt = u.silt := rfl
@[simp] theorem UnitSt.setBundle_issued (b : Bundle) : (u.setBundle b).issued = u.issued := rfl
@[simp] theorem UnitSt.setBundle_freed (b : Bundle) : (u.setBundle b).freed = u.freed := rfl

end Sys2Proof.Machine
end

