-- ==== Sys2Proof/Laws/Issue.lean ====
section
/-! SUPPORT. What issuing an instruction does: the law of `issueWith`, and the law of `finish` for words that neither
trap nor miss nor post an access. -/

namespace Sys2Proof.Machine

/-! ### Units by number -/

theorem State.unit?_uid {s : State} {n : Nat} {u : UnitSt} (h : s.unit? n = some u) : u.uid = n := by
  have := List.find?_some h; simpa using this

theorem find_replace (us : List UnitSt) (u : UnitSt) (n : Nat) :
    (us.map fun x => if x.uid == u.uid then u else x).find? (·.uid == n) =
      if n = u.uid then (us.find? (·.uid == n)).map (fun _ => u) else us.find? (·.uid == n) := by
  induction us with
  | nil => simp
  | cons x xs ih =>
    rw [List.map_cons, List.find?_cons, List.find?_cons, ih]
    by_cases hx : x.uid = u.uid <;> by_cases hn : n = u.uid <;> simp [hx, hn]
    · cases h : (u.uid == n)
      · rfl
      · exact absurd (beq_iff_eq.mp h).symm hn
    · simp [beq_false_of_ne hx]

theorem State.setUnit_unit? (s : State) (u : UnitSt) (n : Nat) :
    (s.setUnit u).unit? n = if n = u.uid then (s.unit? n).map (fun _ => u) else s.unit? n :=
  find_replace s.units u n

theorem State.setUnit_rest (s : State) (u : UnitSt) (us : List UnitSt) :
    { s.setUnit u with units := us } = { s with units := us } := rfl

theorem UnitSt.setThread_thread (u : UnitSt) (t : Nat) (th : Thread) (ht : t < u.threads.length) (i : Nat) :
    (u.setThread t th).thread i = if i = t then th else u.thread i := by
  unfold UnitSt.setThread UnitSt.thread
  by_cases h : i = t
  · subst h; simp [List.getD, ht]
  · simp [List.getD, h, Ne.symm h]

/-! ### `finish` for words without traps, misses and posts -/

/-- `u'` is `u` but for its threads and path slots. -/
def UnitSt.SameBut (u u' : UnitSt) : Prop :=
  { u' with threads := u.threads, bundles := u.bundles } = u ∧ u'.threads.length = u.threads.length

theorem Thread.arriveAt_aligned (th : Thread) (s : State) (c : Nat) (x : DWord) (h : x.toNat < 2 ^ 56) (h8 : x.toNat % 8 = 0) :
    th.arriveAt s c x = { th with pos := { hdr := x.setWidth 56 }, st := if th.st == .inPath then .ready else th.st } := by
  have hb : (decide (x.toNat < 2 ^ 56) && x.toNat % 8 == 0) = true := by rw [decide_eq_true h, h8]; rfl
  unfold Thread.arriveAt
  rw [if_pos hb]

theorem Path.nextHeader_lt (p : Path) : p.nextHeader.toNat < 2 ^ 56 := by
  unfold Path.nextHeader; simp only [BitVec.toNat_setWidth]; have := (p.hdr + BitVec.ofNat 56 (8 * (p.cnt + 1))).isLt; omega

theorem Path.nextHeader_mod (p : Path) (h : p.hdr.toNat % 8 = 0) : p.nextHeader.toNat % 8 = 0 := by
  unfold Path.nextHeader
  simp only [BitVec.toNat_setWidth, BitVec.toNat_add, BitVec.toNat_ofNat]
  omega

/-- A transfer target that is a header address (R28). -/
def HeaderAddr (x : DWord) : Prop := x.toNat < 2 ^ 56 ∧ x.toNat % 8 = 0

/-- Accesses of threads posted in turn at a word; `th` gives the threads that make them. -/
def State.postAll (s : State) (u : UnitSt) (p : Pos) (th : Nat → Thread) (ps : Nat → List Post) (ts : List Nat) : State :=
  ts.foldl (fun s t => s.post (u.setThread t (th t)) t p (ps t)) s

theorem State.post_units (s : State) (u : UnitSt) (t : Nat) (at_ : Pos) (ps : List Post) : (s.post u t at_ ps).units = s.units := by
  induction ps generalizing s with
  | nil => rfl
  | cons p ps ih => unfold State.post; rw [ih]

/-- What is posted depends on the unit's number, its core, and the thread's streams alone. -/
theorem piecesOf_congr {u u' : UnitSt} {t : Nat} (hu : u'.uid = u.uid) (hc : u'.core = u.core)
    (hs : (u'.thread t).streams = (u.thread t).streams) (p : Post) (at_ : Pos) (grp : Nat) :
    ∀ ns id off, piecesOf u' t p at_ grp id off ns = piecesOf u t p at_ grp id off ns := by
  have hq : p.toQueue (u'.thread t) = p.toQueue (u.thread t) := by
    unfold Post.toQueue Thread.queue? Thread.stream; rw [hs]
  intro ns
  induction ns with
  | nil => intro id off; rfl
  | cons n ns ih => intro id off; unfold piecesOf; rw [ih, hu, hc, hq]; unfold Thread.snap; rw [hs]

theorem State.post_congr {u u' : UnitSt} {t : Nat} (hu : u'.uid = u.uid) (hc : u'.core = u.core)
    (hs : (u'.thread t).streams = (u.thread t).streams) (at_ : Pos) :
    ∀ (ps : List Post) (s : State), s.post u' t at_ ps = s.post u t at_ ps := by
  intro ps
  induction ps with
  | nil => intro s; rfl
  | cons p ps ih => intro s; unfold State.post; rw [piecesOf_congr hu hc hs, ih]

theorem State.post_setUnits (s : State) (u : UnitSt) (t : Nat) (at_ : Pos) (ps : List Post) (us : List UnitSt) :
    ({ s with units := us } : State).post u t at_ ps = { s.post u t at_ ps with units := us } := by
  induction ps generalizing s with
  | nil => rfl
  | cons p ps ih => unfold State.post; exact ih { s with nextId := s.nextId + p.lens.length, ops := _ }

theorem State.postAll_setUnits (u : UnitSt) (p : Pos) (th : Nat → Thread) (ps : Nat → List Post) (us : List UnitSt) (ts : List Nat) :
    ∀ s : State, ({ s with units := us } : State).postAll u p th ps ts = { s.postAll u p th ps ts with units := us } := by
  induction ts with
  | nil => intro s; rfl
  | cons t ts ih =>
    intro s
    unfold State.postAll at *
    rw [List.foldl_cons, List.foldl_cons, State.post_setUnits, ih]

/-- The thread of a path after a word that leaves it as `th` with accesses posted. -/
def Thread.charges (th : Thread) (ps : List Post) : Thread := ps.foldl (fun x p => x.charge p.kind.ctr) th

theorem applyRes_ok (s : State) (v : View) (u : UnitSt) (t : Nat) (th : Thread) (next : Option DWord) (ps : List Post)
    (hu : s.unit? v.u.uid = some u) (hst : u.st = v.u.st) (hg : newGuardLines u ps = [])
    (hnext : ∀ x, next = some x → HeaderAddr x) (hdr : v.p.hdr.toNat % 8 = 0) :
    applyRes s v v.p.advance.isNone t (.ok th next ps) =
      (s.setUnit (u.setThread t (v.after (th.charges ps) next))).post (u.setThread t (v.after (th.charges ps) next)) t v.p.pos ps := by
  have ha : ∀ (th : Thread) (c : Nat), th.arriveAt s c (next.getD v.p.nextHeader) =
      { th with pos := { hdr := (next.getD v.p.nextHeader).setWidth 56 }, st := if th.st == .inPath then .ready else th.st } := by
    intro th c
    cases next with
    | none => exact th.arriveAt_aligned s c _ v.p.nextHeader_lt (v.p.nextHeader_mod hdr)
    | some x => exact th.arriveAt_aligned s c x (hnext x rfl).1 (hnext x rfl).2
  have hc : (ps.foldl (fun x p => if x.replay == some p.kind.ctr then { x with replay := none } else x.raise p.kind.ctr) th) =
      th.charges ps := rfl
  simp only [applyRes, hu, hg, List.isEmpty_nil, Bool.not_true, Bool.false_and, Bool.false_eq_true, if_false,
    List.append_nil, hc, ha, View.after, ← hst]
  cases v.p.advance.isNone <;> simp

theorem Thread.charges_streams (th : Thread) (ps : List Post) : (th.charges ps).streams = th.streams := by
  induction ps generalizing th with
  | nil => rfl
  | cons p ps ih =>
    show (Thread.charges (th.charge p.kind.ctr) ps).streams = _; rw [ih]
    unfold Thread.charge; split <;> rfl

theorem Thread.stop_streams (th : Thread) : th.stop.streams = th.streams := by
  unfold Thread.stop; split <;> first | rfl | (split <;> rfl)

theorem View.after_streams (v : View) (th : Thread) (next : Option DWord) : (v.after th next).streams = th.streams := by
  unfold View.after
  split
  · dsimp only; split
    · exact Thread.stop_streams _
    · rfl
  · rfl

theorem newGuardLines_same {u u' : UnitSt} (h : u.SameBut u') (ps : List Post) : newGuardLines u' ps = newGuardLines u ps := by
  have h1 : u'.role = u.role := by have := congrArg UnitSt.role h.1; simpa using this
  have h2 : u'.glines = u.glines := by have := congrArg UnitSt.glines h.1; simpa using this
  unfold newGuardLines; rw [h1, h2]

theorem applyAll_ok (v : View) (u0 : UnitSt) (hst0 : u0.st = v.u.st) (hdr : v.p.hdr.toNat % 8 = 0)
    (g : Nat → Thread) (nx : Nat → Option DWord) (ps : Nat → List Post) :
    ∀ (ts : List Nat), (∀ t ∈ ts, t < u0.threads.length ∧ newGuardLines u0 (ps t) = [] ∧ ∀ x, nx t = some x → HeaderAddr x) →
      ∀ (s : State) (u : UnitSt),
      s.unit? v.u.uid = some u → u0.SameBut u → u.bundles = u0.bundles →
      ∃ s' u', applyAll s v v.p.advance.isNone (ts.map fun t => (t, .ok (g t) (nx t) (ps t))) = s' ∧
        s'.unit? v.u.uid = some u' ∧ u0.SameBut u' ∧ u'.bundles = u0.bundles ∧
        (∀ t, u'.thread t = if t ∈ ts then v.after ((g t).charges (ps t)) (nx t) else u.thread t) ∧
        (∀ n, n ≠ v.u.uid → s'.unit? n = s.unit? n) ∧
        { s' with units := s.units } = s.postAll u0 v.p.pos g ps ts := by
  intro ts
  induction ts with
  | nil => intro _ s u hu hs hb; exact ⟨s, u, rfl, hu, hs, hb, by simp, fun _ _ => rfl, rfl⟩
  | cons t ts ih =>
    intro hlt s u hu hs hb
    obtain ⟨htl0, hg0, hn0⟩ := hlt t (by simp)
    have hst : u.st = v.u.st := by rw [← hst0]; have := congrArg UnitSt.st hs.1; simpa using this
    have htl : t < u.threads.length := by rw [hs.2]; exact htl0
    have hid : u.uid = v.u.uid := State.unit?_uid hu
    have hid1 : (u.setThread t (v.after ((g t).charges (ps t)) (nx t))).uid = v.u.uid := hid
    have hu1 : ((s.setUnit (u.setThread t (v.after ((g t).charges (ps t)) (nx t)))).post
        (u.setThread t (v.after ((g t).charges (ps t)) (nx t))) t v.p.pos (ps t)).unit? v.u.uid =
        some (u.setThread t (v.after ((g t).charges (ps t)) (nx t))) := by
      show State.unit? _ _ = _
      unfold State.unit?; rw [State.post_units]
      show State.unit? (s.setUnit _) _ = _
      rw [State.setUnit_unit?, hid1, if_pos rfl, hu]; rfl
    have hs1 : u0.SameBut (u.setThread t (v.after ((g t).charges (ps t)) (nx t))) :=
      ⟨hs.1, by simp [UnitSt.setThread, hs.2]⟩
    obtain ⟨s', u', he, h1, h2, h4, h5, h6, h7⟩ := ih (fun x hx => hlt x (by simp [hx])) _ _ hu1 hs1 hb
    refine ⟨s', u', ?_, h1, h2, h4, ?_, ?_, ?_⟩
    · simp only [List.map_cons, applyAll]
      rw [applyRes_ok s v u t (g t) (nx t) (ps t) hu hst (by rw [newGuardLines_same hs]; exact hg0) hn0 hdr]; exact he
    · intro i
      rw [h5 i, UnitSt.setThread_thread _ _ _ htl]
      by_cases hi : i = t
      · subst hi; by_cases hm : i ∈ ts <;> simp [hm]
      · by_cases hm : i ∈ ts <;> simp [hm, hi]
    · intro n hn
      rw [h6 n hn]
      unfold State.unit?; rw [State.post_units]
      show State.unit? (s.setUnit _) _ = State.unit? s _
      rw [State.setUnit_unit?, hid1, if_neg hn]
    · have e1 : { s' with units := s.units } =
          { ({ s' with units := ((s.setUnit (u.setThread t (v.after ((g t).charges (ps t)) (nx t)))).post
                (u.setThread t (v.after ((g t).charges (ps t)) (nx t))) t v.p.pos (ps t)).units } : State) with units := s.units } := rfl
      have hth : ((u0.setThread t (g t)).thread t).streams =
          ((u.setThread t (v.after ((g t).charges (ps t)) (nx t))).thread t).streams := by
        rw [UnitSt.setThread_thread _ _ _ htl0, if_pos rfl, UnitSt.setThread_thread _ _ _ htl, if_pos rfl,
          View.after_streams, Thread.charges_streams]
      have hid0 : (u0.setThread t (g t)).uid = (u.setThread t (v.after ((g t).charges (ps t)) (nx t))).uid := by
        have := congrArg UnitSt.uid hs.1; exact this.symm
      have hcore : (u0.setThread t (g t)).core = (u.setThread t (v.after ((g t).charges (ps t)) (nx t))).core := by
        have := congrArg UnitSt.core hs.1; exact this.symm
      have e2 : s.postAll u0 v.p.pos g ps (t :: ts) = (s.post (u.setThread t (v.after ((g t).charges (ps t)) (nx t))) t v.p.pos (ps t)).postAll u0 v.p.pos g ps ts := by
        rw [← State.post_congr hid0 hcore hth]; rfl
      rw [e1, h7, ← State.postAll_setUnits, ← State.post_setUnits, e2]
      rfl

theorem firstFatal_none (u : UnitSt) : ∀ ts, (∀ t ∈ ts, ∀ r, (u.thread t).st ≠ .trapped r) → firstFatal u ts = none := by
  intro ts
  induction ts with
  | nil => intro _; rfl
  | cons t ts ih =>
    intro h
    have ht := h t (by simp)
    have : ∀ r, (u.threads.getD t { regs := [] }).st ≠ .trapped r := ht
    unfold firstFatal
    split
    · rename_i r hr; exact absurd hr (this r)
    · exact ih fun x hx => h x (by simp [hx])

theorem View.after_not_trapped (v : View) (th : Thread) (next : Option DWord) (h : ∀ r, th.st ≠ .trapped r) (r : TrapRec) :
    (v.after th next).st ≠ .trapped r := by
  unfold View.after
  by_cases h1 : v.p.advance.isNone
  · simp only [h1, if_true]
    have hb : ∀ (x : Thread), (∀ r, x.st ≠ .trapped r) → x.stop.st ≠ .trapped r := by
      intro x hx; unfold Thread.stop; split
      · exact hx r
      · exact hx r
      · exact hx r
      · split
        · simp
        · exact hx r
      · split
        · simp
        · exact hx r
      · simp
    have hc : ∀ r, (if th.st == .inPath then TSt.ready else th.st) ≠ .trapped r := by
      intro r; by_cases h2 : th.st == .inPath
      · simp [h2]
      · simp only [h2, if_false, Bool.false_eq_true]; exact h r
    by_cases h3 : v.u.st == .draining
    · simp only [h3, if_true]; exact hb _ hc
    · simp only [h3, if_false, Bool.false_eq_true]; exact hc r
  · simp only [h1, if_false, Bool.false_eq_true]; exact h r

theorem UnitSt.setBundle_absent {u : UnitSt} {b : Bundle} (h : u.bundle? b.bid = none) : u.setBundle b = u := by
  have hm : u.bundles.map (fun x => if x.bid == b.bid then b else x) = u.bundles := by
    rw [List.map_congr_left (g := id), List.map_id]
    intro x hx
    rw [if_neg (List.find?_eq_none.mp h x hx), id]
  unfold UnitSt.setBundle; rw [hm]

theorem Bundle.setPath_bid (b : Bundle) (slot : Bool) (p : Option Path) : (b.setPath slot p).bid = b.bid := by
  unfold Bundle.setPath; split <;> rfl

theorem Path.advance_tids {p q : Path} (h : p.advance = some q) : q.tids = p.tids := by
  unfold Path.advance at h
  split at h
  · split at h
    · cases h; rfl
    · split at h <;> cases h; rfl
  · split at h <;> cases h; rfl

/-- Where a path stands next depends on its own threads alone. -/
theorem View.nextPath_congr (v : View) {g g' : Nat → Thread} (h : ∀ t ∈ v.p.tids, (g t).st = (g' t).st) :
    v.nextPath g = v.nextPath g' := by
  unfold View.nextPath
  cases ha : v.p.advance with
  | none => rfl
  | some q =>
    have : (q.tids.filter fun t => (g t).st == .inPath) = q.tids.filter fun t => (g' t).st == .inPath :=
      List.filter_congr fun t ht => by rw [h t (Path.advance_tids ha ▸ ht)]
    simp only [Option.bind_some, this]

theorem View.moved_congr (v : View) {u u' : UnitSt} {g g' : Nat → Thread} (hb : u'.bundles = u.bundles)
    (h : ∀ t ∈ v.p.tids, (g' t).st = (g t).st) : (v.moved u' g').bundles = (v.moved u g).bundles := by
  unfold View.moved UnitSt.setBundle UnitSt.bundle?
  rw [hb, v.nextPath_congr h]

/-- The law of `closePath`: the issuing path's slot alone changes. -/
theorem State.closePath_spec (s : State) (v : View) (u : UnitSt) (hu : s.unit? v.u.uid = some u) :
    (s.closePath v v.p.advance).unit? v.u.uid = some (v.moved u u.thread) ∧
      (∀ n, n ≠ v.u.uid → (s.closePath v v.p.advance).unit? n = s.unit? n) ∧
      { s.closePath v v.p.advance with units := s.units } = s := by
  have hid := State.unit?_uid hu
  have hne : ∀ w : UnitSt, w.uid = v.u.uid → (s.setUnit w).unit? v.u.uid = some w ∧
      ∀ n, n ≠ v.u.uid → (s.setUnit w).unit? n = s.unit? n := fun w hw =>
    ⟨by rw [State.setUnit_unit?, hw, if_pos rfl, hu]; rfl, fun n hn => by rw [State.setUnit_unit?, hw, if_neg hn]⟩
  unfold State.closePath
  simp only [hu]
  split
  · rename_i h
    refine ⟨?_, fun _ _ => rfl, rfl⟩
    have : v.moved u u.thread = u := by
      unfold View.moved
      rw [h]
      exact UnitSt.setBundle_absent (by rw [Option.getD_none]; simpa [Bundle.setPath_bid] using h)
    rw [this]; exact hu
  · rename_i b h
    have hm : v.moved u u.thread = u.setBundle { b.setPath v.pr.slot (v.p.advance.bind fun p =>
        let ts := p.tids.filter u.inPath
        if ts.isEmpty then none else some { p with tids := ts }) with
        hint := b.hint || (v.p.advance.isNone && v.p.hint) } := by
      unfold View.moved; rw [h]; rfl
    rw [← hm]
    exact ⟨(hne (v.moved u u.thread) hid).1, (hne (v.moved u u.thread) hid).2, rfl⟩

/-- The law of `finish` for words whose threads neither trap nor miss. -/
theorem State.finish_effect {s s0 : State} {v : View} (u0 : UnitSt) (ho : View.Open s0 v) (g : Nat → Thread)
    (nx : Nat → Option DWord) (ps : Nat → List Post)
    (hu : s.unit? v.u.uid = some u0) (hst0 : u0.st = v.u.st) (hlen : u0.threads.length = v.u.threads.length)
    (hnext : ∀ t ∈ v.p.tids, ∀ x, nx t = some x → HeaderAddr x) (hgl : ∀ t ∈ v.p.tids, newGuardLines u0 (ps t) = [])
    (htr : ∀ t ∈ v.p.tids, ∀ r, (g t).st ≠ .trapped r) :
    View.Effect (s.postAll u0 v.p.pos g ps v.p.tids) (s.finish v (v.p.tids.map fun t => (t, .ok (g t) (nx t) (ps t)))) v u0
      (fun t => v.after ((g t).charges (ps t)) (nx t)) := by
  obtain ⟨s1, u1, he, h1, h2, h4, h5, h6, h7⟩ :=
    applyAll_ok v u0 hst0 ho.hdr g nx ps v.p.tids
      (fun t ht => ⟨by rw [hlen]; exact (ho.inside t ht).1, hgl t ht, hnext t ht⟩) s u0 hu ⟨rfl, rfl⟩ rfl
  obtain ⟨k1, k3, k4⟩ := s1.closePath_spec v u1 h1
  have hthr : (v.moved u1 u1.thread).threads = u1.threads := rfl
  have hch : ∀ (ps : List Post) (th : Thread), (th.charges ps).st = th.st := by
    intro ps
    induction ps with
    | nil => intro th; rfl
    | cons p ps ih =>
      intro th; show (Thread.charges (th.charge p.kind.ctr) ps).st = _; rw [ih]
      unfold Thread.charge; split <;> rfl
  have hsettle : (s1.closePath v v.p.advance).settleTraps v.u.uid v.p.tids = s1.closePath v v.p.advance := by
    unfold State.settleTraps
    rw [k1]
    have : firstFatal (v.moved u1 u1.thread) v.p.tids = none := by
      apply firstFatal_none
      intro t ht r
      have : (v.moved u1 u1.thread).thread t = u1.thread t := rfl
      rw [this, h5 t, if_pos ht]
      exact v.after_not_trapped _ _ (by intro r; rw [hch]; exact htr t ht r) r
    simp [this]
  have hf : s.finish v (v.p.tids.map fun t => (t, .ok (g t) (nx t) (ps t))) = s1.closePath v v.p.advance := by
    unfold State.finish; simp only [he]; exact hsettle
  have hpu : (s.postAll u0 v.p.pos g ps v.p.tids).units = s.units := by rw [← h7]
  rw [hf]
  refine ⟨⟨_, k1, ?_, h2.2, fun t => h5 t⟩, ?_, ?_⟩
  · have e1 : { v.moved u1 u1.thread with threads := u0.threads } =
        { ({ u1 with threads := u0.threads, bundles := u0.bundles } : UnitSt) with bundles := (v.moved u1 u1.thread).bundles } := rfl
    rw [e1, h2.1, v.moved_congr (u := u0) (g := fun t => v.after ((g t).charges (ps t)) (nx t)) h4
      fun t ht => by rw [h5 t, if_pos ht]]
    rfl
  · intro n hn; rw [k3 n hn, h6 n hn]; unfold State.unit?; rw [hpu]
  · have : { s1.closePath v v.p.advance with units := s.units } =
        { ({ s1.closePath v v.p.advance with units := s1.units } : State) with units := s.units } := rfl
    rw [hpu, this, k4]; exact h7

/-! ### `issueWith` -/

theorem View.Open.unit {s : State} {v : View} (h : View.Open s v) : s.unit? v.u.uid = some v.u := by
  have hv := h.view
  unfold State.view? at hv
  split at hv
  · cases hv
  · split at hv
    · cases hv
    · rename_i u hu
      split at hv
      · cases hv
      · split at hv
        · cases hv
        · cases hv
          have := State.unit?_uid hu
          simpa [this] using hu

theorem View.fetched {s : State} {v : View} {lane : Bool} {us : List RegUse} {ops : Nat → Thread × Opnds}
    (hr : View.AllRead s v lane us ops) :
    v.p.tids.map (readUse us v.u) = v.p.tids.map fun t => (t, Fetched.ok (ops t).1 (ops t).2) :=
  List.map_congr_left fun t ht => by simp [readUse, (hr t ht).gives]

theorem State.prologueGate_other {s : State} {v : View} (hp : v.u.role ≠ .prologue) (k : IKind) : s.prologueGate v k = none := by
  unfold State.prologueGate; simp [hp]

theorem State.prologueCount_other {s : State} {v : View} (hp : v.u.role ≠ .prologue) (k : IKind) : s.prologueCount v k = s := by
  unfold State.prologueCount
  have : (v.u.role == Role.prologue) = false := by simpa using hp
  simp [this]

/-- A word that may issue passes the prologue's gate, and its launch counts it. -/
theorem View.MayIssue.gate {s : State} {v : View} {i : Instr} {k : IKind} (hm : View.MayIssue s v i)
    (hk : inProSet i = k.pro ∧ isProLoad i = k.load) : s.prologueGate v k = none ∧ s.prologueCount v k = s.counted v i := by
  refine ⟨?_, ?_⟩
  · rcases hm with hp | ⟨h1, l, h2, h3, h4⟩
    · exact State.prologueGate_other hp k
    · unfold State.prologueGate
      by_cases hr : v.u.role = .prologue
      · have hl : (k.load && decide (128 ≤ l.ploads)) = false := by
          rw [← hk.2]
          cases hp : isProLoad i with
          | false => rfl
          | true => simpa using h4 hp
        simp [hr, ← hk.1, h1, h2, hl, Nat.not_le.mpr h3]
      · simp [hr]
  · unfold State.prologueCount State.counted; rw [hk.2]

theorem State.counted_units (s : State) (v : View) (i : Instr) : (s.counted v i).units = s.units := by
  unfold State.counted; split <;> rfl

/-- The law of `issueWith`: a path whose threads may issue the word, and none of whose threads it stalls. -/
theorem issueWith_next {s : State} {v : View} {k : IKind} {us : List RegUse}
    {body : State → View → Parts → Nat → Thread → Opnds → TRes} {eff : View → Parts → State → State}
    {ops : Nat → Thread × Opnds} (ho : View.Open s v) (hpg : s.prologueGate v k = none) (hr : View.AllRead s v k.lane us ops)
    (hb : ∀ t ∈ v.p.tids, body s v (v.parts ops) t (ops t).1 (ops t).2 ≠ .stall ∧
      (body s v (v.parts ops) t (ops t).1 (ops t).2).missed = false) :
    issueWith k us body eff s =
      .next ((eff v (v.parts ops) (s.prologueCount v k)).finish v
        (v.p.tids.map fun t => (t, body s v (v.parts ops) t (ops t).1 (ops t).2))) := by
  have hpend : (v.p.tids.any fun t => ((v.u.thread t).useBad v.u.nregs k.lane us).isNone &&
      us.any fun x => s.pending v.u.uid t x.reg.toNat x.n) = false := by
    rw [List.any_eq_false]; intro t ht
    have : (us.any fun x => s.pending v.u.uid t x.reg.toNat x.n) = false := by
      rw [List.any_eq_false]; intro x hx; simpa using (hr t ht).free x hx
    simp [this]
  have hst : ((v.p.tids.map (readUse us v.u)).any fun f =>
      f.2 == .stall && ((v.u.thread f.1).useBad v.u.nregs k.lane us).isNone) = false := by
    rw [View.fetched hr, List.any_eq_false]
    intro f hf
    obtain ⟨t, _, rfl⟩ := List.mem_map.mp hf
    simp
  have hparts : (((v.p.tids.map (readUse us v.u)).filterMap fetchedOk).filter
      fun x => ((v.u.thread x.1).useBad v.u.nregs k.lane us).isNone) = v.parts ops := by
    have hfm : ∀ ts : List Nat, (ts.map fun t => (t, Fetched.ok (ops t).1 (ops t).2)).filterMap fetchedOk =
        ts.map fun t => (t, (ops t).1, (ops t).2) := by
      intro ts
      induction ts with
      | nil => rfl
      | cons t ts ih => simp only [List.map_cons, List.filterMap_cons, fetchedOk, ih]
    rw [View.fetched hr, hfm]
    unfold View.parts
    rw [List.filter_eq_self]
    intro x hx
    obtain ⟨t, ht, rfl⟩ := List.mem_map.mp hx
    simp [(hr t ht).legal]
  have hrs : ((v.p.tids.map (readUse us v.u)).map fun f =>
      (f.1, resOf (s.illegal v) ((v.u.thread f.1).useBad v.u.nregs k.lane us) (body s v (v.parts ops) f.1) f.2)) =
      v.p.tids.map fun t => (t, body s v (v.parts ops) t (ops t).1 (ops t).2) := by
    rw [View.fetched hr, List.map_map]
    refine List.map_congr_left fun t ht => ?_
    simp [(hr t ht).legal, resOf]
  have hns : ((v.p.tids.map fun t => (t, body s v (v.parts ops) t (ops t).1 (ops t).2)).any fun r => r.2 == .stall) = false := by
    rw [List.any_eq_false]
    intro r hr'
    obtain ⟨t, ht, rfl⟩ := List.mem_map.mp hr'
    simpa using (hb t ht).1
  have hnm : ((v.p.tids.map fun t => (t, body s v (v.parts ops) t (ops t).1 (ops t).2)).any fun r => r.2.missed) = false := by
    rw [List.any_eq_false]
    intro r hr'
    obtain ⟨t, ht, rfl⟩ := List.mem_map.mp hr'
    simpa using (hb t ht).2
  unfold issueWith
  simp only [ho.view, hpg, hpend, hst, Bool.false_eq_true, if_false]
  rw [hparts, hrs, hns, hnm]
  simp

theorem State.prologueCount_unit? (s : State) (v : View) (k : IKind) (n : Nat) : (s.prologueCount v k).unit? n = s.unit? n := by
  unfold State.prologueCount; split <;> rfl

/-- The law of an instruction whose threads change themselves, go on to the next word or to a header, and post accesses,
with `eff` done beside. -/
theorem issueWith_effect {s : State} {v : View} {k : IKind} {us : List RegUse}
    {body : State → View → Parts → Nat → Thread → Opnds → TRes} {eff : View → Parts → State → State}
    {ops : Nat → Thread × Opnds} (u0 : UnitSt)
    (ho : View.Open s v) (hpg : s.prologueGate v k = none) (hr : View.AllRead s v k.lane us ops)
    (g : Nat → Thread) (nx : Nat → Option DWord) (ps : Nat → List Post)
    (hu : (eff v (v.parts ops) (s.prologueCount v k)).unit? v.u.uid = some u0) (hst0 : u0.st = v.u.st)
    (hlen : u0.threads.length = v.u.threads.length)
    (hb : ∀ t ∈ v.p.tids, body s v (v.parts ops) t (ops t).1 (ops t).2 = .ok (g t) (nx t) (ps t))
    (hnx : ∀ t ∈ v.p.tids, ∀ x, nx t = some x → HeaderAddr x) (hgl : ∀ t ∈ v.p.tids, newGuardLines u0 (ps t) = [])
    (htr : ∀ t ∈ v.p.tids, ∀ r, (g t).st ≠ .trapped r) :
    ∃ s', issueWith k us body eff s = .next s' ∧
      View.Effect ((eff v (v.parts ops) (s.prologueCount v k)).postAll u0 v.p.pos g ps v.p.tids) s' v u0
        (fun t => v.after ((g t).charges (ps t)) (nx t)) := by
  refine ⟨_, issueWith_next ho hpg hr (fun t ht => by rw [hb t ht]; exact ⟨by simp, rfl⟩), ?_⟩
  have : (v.p.tids.map fun t => (t, body s v (v.parts ops) t (ops t).1 (ops t).2)) =
      v.p.tids.map fun t => (t, .ok (g t) (nx t) (ps t)) :=
    List.map_congr_left fun t ht => by rw [hb t ht]
  rw [this]
  exact State.finish_effect u0 ho g nx ps hu hst0 hlen hnx hgl htr

theorem State.postAll_nil (s : State) (u : UnitSt) (p : Pos) (g : Nat → Thread) (ts : List Nat) : s.postAll u p g (fun _ => []) ts = s := by
  induction ts with
  | nil => rfl
  | cons t ts ih => exact ih

/-- The law of an instruction that posts nothing and does nothing beside its threads. -/
theorem issue_effect {s : State} {v : View} {k : IKind} {us : List RegUse}
    {body : State → View → Parts → Nat → Thread → Opnds → TRes} {ops : Nat → Thread × Opnds}
    (ho : View.Open s v) (hpg : s.prologueGate v k = none) (hr : View.AllRead s v k.lane us ops)
    (g : Nat → Thread) (nx : Nat → Option DWord)
    (hb : ∀ t ∈ v.p.tids, body s v (v.parts ops) t (ops t).1 (ops t).2 = .ok (g t) (nx t) [])
    (hnx : ∀ t ∈ v.p.tids, ∀ x, nx t = some x → HeaderAddr x) (htr : ∀ t ∈ v.p.tids, ∀ r, (g t).st ≠ .trapped r) :
    ∃ s', issue k us body s = .next s' ∧ View.Effect (s.prologueCount v k) s' v v.u (fun t => v.after (g t) (nx t)) := by
  have hg : ∀ u : UnitSt, newGuardLines u [] = [] := by intro u; unfold newGuardLines; split <;> rfl
  have := issueWith_effect (eff := fun _ _ s => s) v.u ho hpg hr g nx (fun _ => [])
    (by rw [State.prologueCount_unit?]; exact ho.unit) rfl rfl hb hnx (fun _ _ => hg _) htr
  simp only [State.postAll_nil] at this
  exact this

/-! ### What reading and writing registers leave alone -/

theorem Thread.put_st (th : Thread) (r : Nat) (x : Word) : (th.put r x).st = th.st := by
  unfold Thread.put; split <;> rfl

theorem Thread.putN_st (th : Thread) (r n : Nat) (x : BitVec 128) : (th.putN r n x).st = th.st := by
  have h : ∀ (l : List Nat) (th : Thread),
      (l.foldl (fun t i => { t with regs := t.regs.set (r + i) ((x >>> (32 * i)).setWidth 32) }) th).st = th.st := by
    intro l
    induction l with
    | nil => intro th; rfl
    | cons a l ih => intro th; rw [List.foldl_cons, ih]
  unfold Thread.putN
  split
  · rfl
  · exact th.put_st r _
  · exact h _ th

theorem fetchUse_st {x : RegUse} {th th' : Thread} {o o' : Opnds} (h : fetchUse x th o = .ok th' o') : th'.st = th.st := by
  unfold fetchUse at h
  split at h
  · cases h; rfl
  · dsimp only at h
    split at h
    · split at h <;> first | (cases h; rfl) | cases h
    · split at h
      · split at h <;> first | (cases h; rfl) | cases h
      · cases h

theorem fetchUses_st : ∀ {us : List RegUse} {th th' : Thread} {o o' : Opnds}, fetchUses us th o = .ok th' o' → th'.st = th.st := by
  intro us
  induction us with
  | nil => intro th th' o o' h; cases h; rfl
  | cons x xs ih =>
    intro th th' o o' h
    unfold fetchUses at h
    split at h
    · rename_i th1 o1 h1
      rw [ih h, fetchUse_st h1]
    · rename_i h1; exact absurd h (h1 th' o')

/-- A thread that has read its operands is still in the path. -/
theorem View.AllRead.inPath {s : State} {v : View} {lane : Bool} {us : List RegUse} {ops : Nat → Thread × Opnds}
    (ho : View.Open s v) (hr : View.AllRead s v lane us ops) {t : Nat} (ht : t ∈ v.p.tids) : (ops t).1.st = .inPath := by
  rw [fetchUses_st (hr t ht).gives]; exact (ho.inside t ht).2

/-! ### The laws that statements of completion follow from -/

/-- An instruction of `laneP` or `lane` completes as `Computes` says. -/
theorem computes_of {i : Instr} {us : List RegUse} {f : Opnds → Thread → Thread} (k : IKind) (hk : k.lane = true)
    (hs : inProSet i = k.pro ∧ isProLoad i = k.load)
    (he : ∀ s, exec i s = issue k us (fun _ _ _ _ th o => .ok (f o th) none []) s)
    (hf : ∀ o th, (f o th).st = th.st) : Computes i us f := by
  intro s v ops ho hm hr
  rw [he, ← (hm.gate hs).2]
  refine issue_effect (ops := ops) ho (hm.gate hs).1 (hk ▸ hr) (fun t => f (ops t).2 (ops t).1) (fun _ => none) (fun _ _ => rfl) (by simp) ?_
  intro t ht r
  rw [hf, hr.inPath ho ht]; simp

theorem pathComputes_of {i : Instr} {us : List RegUse} {f : View → Parts → Nat → Thread → Opnds → Thread} (k : IKind)
    (hk : k.lane = true)
    (he : ∀ s, exec i s = issue k us (fun _ v ps t th o => .ok (f v ps t th o) none []) s)
    (hf : ∀ v ps t th o, (f v ps t th o).st = th.st) : PathComputes i us f := by
  intro s v ops ho hp hr
  rw [he]
  have hc := s.prologueCount_other hp k
  rw [← hc]
  conv => enter [1, s', 1]; rw [hc]
  refine issue_effect (ops := ops) ho (State.prologueGate_other hp k) (hk ▸ hr) (fun t => f v (v.parts ops) t (ops t).1 (ops t).2) (fun _ => none)
    (fun _ _ => rfl) (by simp) ?_
  intro t ht r
  rw [hf, hr.inPath ho ht]; simp

/-- An instruction whose threads go on, to the next word or to a header, completes as `Proceeds` says. -/
theorem proceeds_of {i : Instr} {us : List RegUse} {pre : State → View → Nat → Thread → Opnds → Prop}
    {f : State → View → Nat → Thread → Opnds → Thread} {nx : View → Thread → Opnds → Option DWord}
    {body : State → View → Parts → Nat → Thread → Opnds → TRes} (k : IKind) (hk : k.lane = true)
    (hs : inProSet i = k.pro ∧ isProLoad i = k.load)
    (he : ∀ s, exec i s = issue k us body s)
    (hb : ∀ s v ops t, t ∈ v.p.tids → (∀ t ∈ v.p.tids, pre s v t (ops t).1 (ops t).2) →
      body s v (v.parts ops) t (ops t).1 (ops t).2 = .ok (f s v t (ops t).1 (ops t).2) (nx v (ops t).1 (ops t).2) [])
    (hf : ∀ s v t th o r, th.st = .inPath → (f s v t th o).st ≠ .trapped r) : Proceeds i us pre f nx := by
  intro s v ops ho hm hr hpre hnx
  rw [he, ← (hm.gate hs).2]
  exact issue_effect (ops := ops) ho (hm.gate hs).1 (hk ▸ hr) (fun t => f s v t (ops t).1 (ops t).2)
    (fun t => nx v (ops t).1 (ops t).2) (fun t ht => hb s v ops t ht hpre)
    (fun t ht x hx => (hnx t ht x hx).2) fun t ht r => hf s v t _ _ r (hr.inPath ho ht)

/-- An instruction that posts one access a thread completes as `PostsAccess` says. -/
theorem posts_of {i : Instr} {us : List RegUse} {ck : CtrKind} {pre : State → View → Thread → Opnds → Prop}
    {p : State → View → Thread → Opnds → Post} {body : State → View → Parts → Nat → Thread → Opnds → TRes} (k : IKind)
    (hk : k.lane = true) (hs : inProSet i = k.pro ∧ isProLoad i = k.load) (he : ∀ s, exec i s = issue k us body s)
    (hb : ∀ s v ps t th o, th.full ck = false → pre s v th o → body s v ps t th o = .ok th none [p s v th o])
    (hc : ∀ s v th o, (p s v th o).kind.ctr = ck) : PostsAccess i us ck pre p := by
  intro s v ops ho hm hr hpre
  rw [he, ← (hm.gate hs).2]
  have := issueWith_effect (eff := fun _ _ s => s) (ops := ops) (body := body) v.u ho (hm.gate hs).1
    (hk ▸ hr : View.AllRead s v k.lane us ops) (fun t => (ops t).1)
    (fun _ => none) (fun t => [p s v (ops t).1 (ops t).2]) (by rw [State.prologueCount_unit?]; exact ho.unit) rfl rfl
    (fun t ht => hb s v _ t _ _ (hpre t ht).1 (hpre t ht).2.1) (by simp) (fun t ht => (hpre t ht).2.2)
    (fun t ht r => by rw [hr.inPath ho ht]; simp)
  simp only [Thread.charges, List.foldl, hc] at this
  exact this

theorem State.updUnit_eq (s : State) (n : Nat) (f : UnitSt → UnitSt) (hf : ∀ u, (f u).uid = u.uid) (m : Nat) :
    (s.updUnit n f).unit? m = if m = n then (s.unit? n).map f else s.unit? m := by
  unfold State.updUnit State.unit?
  induction s.units with
  | nil => simp
  | cons x xs ih =>
    simp only [List.map_cons, List.find?_cons, ih]
    by_cases hx : x.uid = n
    · subst hx
      by_cases hm : m = x.uid
      · subst hm; simp [hf]
      · have h1 : (x.uid == m) = false := beq_false_of_ne (Ne.symm hm)
        simp [hf, hm, h1]
    · by_cases hm : m = n
      · subst hm; simp [beq_false_of_ne hx]
      · by_cases h2 : x.uid = m
        · subst h2; simp [hx]
        · simp [hx, hm, beq_false_of_ne h2]

theorem View.Effect.of_updUnit {s s' : State} {v : View} {u0 : UnitSt} {g : Nat → Thread} {f : UnitSt → UnitSt}
    (hf : ∀ u, (f u).uid = u.uid) (h : View.Effect (s.updUnit v.u.uid f) s' v u0 g) : View.Effect s s' v u0 g := by
  refine ⟨h.unit, fun n hn => ?_, ?_⟩
  · rw [h.others n hn, State.updUnit_eq _ _ _ hf, if_neg hn]
  · have := h.rest
    calc { s' with units := s.units } =
        { ({ s' with units := (s.updUnit v.u.uid f).units } : State) with units := s.units } := rfl
      _ = _ := by rw [this]; rfl

theorem View.parts_find {v : View} {ops : Nat → Thread × Opnds} {t : Nat} (ht : t ∈ v.p.tids) :
    (v.parts ops).find? (·.1 == t) = some (t, ops t) := by
  unfold View.parts
  rw [List.find?_map]
  have : v.p.tids.find? ((fun x : Nat × Thread × Opnds => x.1 == t) ∘ fun t => (t, (ops t).1, (ops t).2)) = some t := by
    have h : ∀ l : List Nat, t ∈ l → l.find? (fun x => x == t) = some t := by
      intro l
      induction l with
      | nil => intro h; cases h
      | cons a l ih =>
        intro h
        rw [List.find?_cons]
        by_cases ha : a = t
        · simp [ha]
        · rw [beq_false_of_ne ha]; exact ih ((List.mem_cons.mp h).resolve_left (Ne.symm ha))
    exact h _ ht
  rw [this]; rfl

/-- Where every lane has its operands, none is stood in for. -/
theorem State.lanes_parts (s : State) (v : View) (ops : Nat → Thread × Opnds) : s.lanes v (v.parts ops) = v.parts ops :=
  List.map_congr_left fun t ht => by rw [View.parts_find ht]; rfl

theorem View.whole_length {v : View} {hb : Nat} (h : v.wholeBundle = some hb) (ops : Nat → Thread × Opnds) :
    (v.parts ops).length = 32 := by
  unfold View.wholeBundle at h
  dsimp only at h
  split at h
  · rename_i hc
    rw [Bool.and_eq_true, beq_iff_eq] at hc
    unfold View.parts
    rw [List.length_map, hc.1, List.length_map, List.length_range]
  · cases h

/-- A block-scaled instruction completes as `BundleDoes` says. -/
theorem bundleDoes_of {i : Instr} {us : List RegUse} {regs : View → Nat → Parts → Nat → Thread → Thread}
    {side : View → Nat → Parts → UnitSt → UnitSt} (he : ∀ s, exec i s = blockIssue us regs side s)
    (hs : ∀ v hb ps u, (side v hb ps u).uid = u.uid ∧ (side v hb ps u).st = u.st ∧ (side v hb ps u).threads = u.threads)
    (hr' : ∀ v hb ps t th, (regs v hb ps t th).st = th.st) : BundleDoes i us regs side := by
  intro s v ops hb ho hp hr hw
  rw [he]
  have hu : (s.updUnit v.u.uid (side v hb (v.parts ops))).unit? v.u.uid = some (side v hb (v.parts ops) v.u) := by
    rw [State.updUnit_eq _ _ _ fun u => (hs v hb _ u).1, if_pos rfl, ho.unit]; rfl
  have hg : ∀ u : UnitSt, newGuardLines u [] = [] := by intro u; unfold newGuardLines; split <;> rfl
  have hlen := View.whole_length hw ops
  have hne : (v.parts ops).isEmpty = false := by
    rw [List.isEmpty_eq_false_iff_exists_mem]; exact List.exists_mem_of_length_pos (by rw [hlen]; decide)
  unfold blockIssue
  have heff : ∀ {α : Type} (f : State → α), f (match v.wholeBundle with
      | none => s
      | some hb =>
        if (v.parts ops).isEmpty then s
        else
          let s' := s.updUnit v.u.uid (side v hb (s.lanes v (v.parts ops)))
          if (v.parts ops).length == 32 then s' else { s' with fresh := s'.fresh + 32 * (v.u.nregs + 1) }) =
      f (s.updUnit v.u.uid (side v hb (v.parts ops))) := by
    intro α f
    simp only [hw, hne, hlen, Bool.false_eq_true, if_false, beq_self_eq_true, if_true, State.lanes_parts]
  obtain ⟨s', h1, h2⟩ := issueWith_effect (k := {}) (us := us)
    (body := fun s v ps t th _ => match v.wholeBundle with
      | none => .trap v.incomplete
      | some hb => .ok (regs v hb (s.lanes v ps) t th) none [])
    (eff := fun v ps s => match v.wholeBundle with
      | none => s
      | some hb =>
        if ps.isEmpty then s
        else
          let s' := s.updUnit v.u.uid (side v hb (s.lanes v ps))
          if ps.length == 32 then s' else { s' with fresh := s'.fresh + 32 * (v.u.nregs + 1) })
    (ops := ops) (side v hb (v.parts ops) v.u) ho (State.prologueGate_other hp _) hr
    (fun t => regs v hb (v.parts ops) t (ops t).1) (fun _ => none) (fun _ => [])
    (by rw [State.prologueCount_other hp, heff fun x => x.unit? v.u.uid]; exact hu) (hs v hb _ v.u).2.1
    (by rw [(hs v hb _ v.u).2.2]) (fun t _ => by rw [hw, State.lanes_parts]) (by simp) (fun _ _ => hg _)
    (fun t ht r => by rw [hr' , hr.inPath ho ht]; simp)
  refine ⟨s', h1, ?_⟩
  rw [State.postAll_nil, State.prologueCount_other hp, heff fun x => View.Effect x s' v _ _] at h2
  exact View.Effect.of_updUnit (fun u => (hs v hb (v.parts ops) u).1) h2

/-! ### Words at which every thread traps -/

/-- A thread of the path is TRAPPED at the word with the record of `tr`, its registers as they were. -/
def Thread.TrappedAs (s : State) (v : View) (old th : Thread) (tr : Trap) : Prop :=
  th.pos = v.p.pos ∧ th.st = .trapped (trapRec s v.u.ctx v.p.pos tr) ∧ th.regs = old.regs

theorem Thread.dropReplay_regs (th : Thread) : th.dropReplay.regs = th.regs := by
  unfold Thread.dropReplay; split <;> rfl

theorem applyAll_trap (s0 : State) (v : View) (last : Bool) (tr : Nat → Trap) :
    ∀ (ts : List Nat), ts.Nodup → (∀ t ∈ ts, t < v.u.threads.length) → ∀ (s : State) (u : UnitSt),
      s.unit? v.u.uid = some u → u.ctx = v.u.ctx → u.threads.length = v.u.threads.length →
      (∀ t ∈ ts, u.thread t = v.u.thread t) → (∀ c t, trapRec s c v.p.pos t = trapRec s0 c v.p.pos t) →
      ∃ u', (applyAll s v last (ts.map fun t => (t, .trap (tr t)))).unit? v.u.uid = some u' ∧
        (∀ t ∈ ts, Thread.TrappedAs s0 v (v.u.thread t) (u'.thread t) (tr t)) ∧
        (∀ t, t ∉ ts → u'.thread t = u.thread t) := by
  intro ts
  induction ts with
  | nil => intro _ _ s u hu _ _ _ _; exact ⟨u, hu, by simp, fun _ _ => rfl⟩
  | cons t ts ih =>
    intro hnd hlt s u hu hc hl hsame hrec
    have htl : t < u.threads.length := by rw [hl]; exact hlt t (by simp)
    have hid : u.uid = v.u.uid := State.unit?_uid hu
    obtain ⟨hnt, hnd'⟩ := List.nodup_cons.mp hnd
    have hstep : applyRes s v last t (.trap (tr t)) =
        s.setUnit (u.setThread t ((u.thread t).dropReplay.trapped v.p.pos (trapRec s u.ctx v.p.pos (tr t)))) := by
      simp only [applyRes, hu]
    simp only [List.map_cons, applyAll]
    rw [hstep]
    have hset := UnitSt.setThread_thread u t ((u.thread t).dropReplay.trapped v.p.pos (trapRec s u.ctx v.p.pos (tr t))) htl
    obtain ⟨u', h1, h2, h3⟩ := ih hnd' (fun x hx => hlt x (by simp [hx]))
      (s.setUnit (u.setThread t ((u.thread t).dropReplay.trapped v.p.pos (trapRec s u.ctx v.p.pos (tr t)))))
      (u.setThread t ((u.thread t).dropReplay.trapped v.p.pos (trapRec s u.ctx v.p.pos (tr t))))
      (by
        have : (u.setThread t ((u.thread t).dropReplay.trapped v.p.pos (trapRec s u.ctx v.p.pos (tr t)))).uid = v.u.uid := hid
        rw [State.setUnit_unit?, this, if_pos rfl, hu]; rfl)
      hc (by simp [UnitSt.setThread, hl])
      (fun x hx => by
        have hne : x ≠ t := fun h => hnt (h ▸ hx)
        rw [hset, if_neg hne]; exact hsame x (by simp [hx]))
      (fun c t' => hrec c t')
    refine ⟨u', h1, ?_, ?_⟩
    · intro x hx
      rcases List.mem_cons.mp hx with rfl | hx'
      · have : u'.thread x = (u.thread x).dropReplay.trapped v.p.pos (trapRec s u.ctx v.p.pos (tr x)) := by
          rw [h3 x hnt, hset, if_pos rfl]
        rw [this, hc, hrec, hsame x (by simp)]
        exact ⟨rfl, rfl, Thread.dropReplay_regs _⟩
      · exact h2 x hx'
    · intro x hx
      have hne : x ≠ t := fun h => hx (by simp [h])
      rw [h3 x fun h => hx (by simp [h]), hset, if_neg hne]

theorem Thread.stop_trapped {th : Thread} {r : TrapRec} (h : th.st = .trapped r) : th.stop = th := by
  unfold Thread.stop; simp [h]

theorem UnitSt.drain_thread (u : UnitSt) (t : Nat) (r : TrapRec) (h : (u.thread t).st = .trapped r) :
    u.drain.thread t = u.thread t := by
  unfold UnitSt.drain UnitSt.thread at *
  simp only [List.getD_eq_getElem?_getD, List.getElem?_map] at *
  cases hg : u.threads[t]? with
  | none => simp
  | some x =>
    simp only [hg, Option.getD_some] at h
    simp [Thread.stop_trapped h]

theorem State.recordFault_unit? (s : State) (u : UnitSt) (r : TrapRec) (n : Nat) :
    (s.recordFault u r).unit? n = s.unit? n := by
  unfold State.recordFault; split <;> rfl

/-- Ending a unit leaves the threads that are TRAPPED as they are. -/
theorem State.endUnit_thread (s : State) (u : UnitSt) (r : TrapRec) (k : Nat) (hu : s.unit? u.uid = some u) :
    ∃ u', (s.endUnit u r k).unit? u.uid = some u' ∧ ∀ t r', (u.thread t).st = .trapped r' → u'.thread t = u.thread t := by
  have hset : ∀ w : UnitSt, w.uid = u.uid → (s.setUnit w).unit? u.uid = some w := fun w hw => by
    rw [State.setUnit_unit?, hw, if_pos rfl, hu]; rfl
  unfold State.endUnit
  split
  · split
    · rename_i old j _
      split
      · exact ⟨_, hset { u with first := some (r, k) } rfl, fun _ _ _ => rfl⟩
      · exact ⟨u, hu, fun _ _ _ => rfl⟩
    · exact ⟨u, hu, fun _ _ _ => rfl⟩
  · refine ⟨({ u with faulted := true, first := some (r, k) } : UnitSt).drain, ?_, fun t r' ht =>
      UnitSt.drain_thread { u with faulted := true, first := some (r, k) } t r' ht⟩
    rw [State.recordFault_unit?]
    exact hset _ rfl

/-- The law of `finish` where every thread of the path traps. -/
theorem State.finish_traps {s : State} {v : View} (ho : View.Open s v) (tr : Nat → Trap) :
    ∃ u', (s.finish v (v.p.tids.map fun t => (t, .trap (tr t)))).unit? v.u.uid = some u' ∧
      ∀ t ∈ v.p.tids, Thread.TrappedAs s v (v.u.thread t) (u'.thread t) (tr t) := by
  obtain ⟨u1, h1, h2, _⟩ := applyAll_trap s v v.p.advance.isNone tr v.p.tids ho.tids (fun t ht => (ho.inside t ht).1) s v.u
    ho.unit rfl rfl (fun _ _ => rfl) (fun _ _ => rfl)
  unfold State.finish
  dsimp only
  generalize applyAll s v v.p.advance.isNone (v.p.tids.map fun t => (t, TRes.trap (tr t))) = s1 at h1
  obtain ⟨k1, _, _⟩ := s1.closePath_spec v u1 h1
  generalize hm : v.moved u1 u1.thread = u2 at k1
  have hthr : ∀ t, u2.thread t = u1.thread t := by
    intro t; rw [← hm]; rfl
  unfold State.settleTraps
  rw [k1]
  dsimp only
  split
  · rename_i r k _
    have hid : u2.uid = v.u.uid := State.unit?_uid k1
    obtain ⟨u3, m1, m2⟩ := (s1.closePath v v.p.advance).endUnit_thread u2 r k (by rw [hid]; exact k1)
    refine ⟨u3, by rw [← hid]; exact m1, fun t ht => ?_⟩
    have hst : (u2.thread t).st = .trapped (trapRec s v.u.ctx v.p.pos (tr t)) := by rw [hthr]; exact (h2 t ht).2.1
    rw [m2 t _ hst, hthr]; exact h2 t ht
  · exact ⟨u2, k1, fun t ht => by rw [hthr]; exact h2 t ht⟩

theorem issueWith_traps {s : State} {v : View} {k : IKind} {us : List RegUse}
    {body : State → View → Parts → Nat → Thread → Opnds → TRes} {eff : View → Parts → State → State}
    {ops : Nat → Thread × Opnds} (ho : View.Open s v) (hp : v.u.role ≠ .prologue) (hr : View.AllRead s v k.lane us ops)
    (tr : Nat → Trap) (he : eff v (v.parts ops) s = s)
    (hb : ∀ t ∈ v.p.tids, body s v (v.parts ops) t (ops t).1 (ops t).2 = .trap (tr t)) :
    ∃ s' u', issueWith k us body eff s = .next s' ∧ s'.unit? v.u.uid = some u' ∧ ∀ t ∈ v.p.tids,
      Thread.TrappedAs s v (v.u.thread t) (u'.thread t) (tr t) := by
  obtain ⟨u', h1, h2⟩ := State.finish_traps ho tr
  refine ⟨_, u', issueWith_next ho (State.prologueGate_other hp k) hr (fun t ht => by rw [hb t ht]; exact ⟨by simp, rfl⟩), ?_, h2⟩
  have : (v.p.tids.map fun t => (t, body s v (v.parts ops) t (ops t).1 (ops t).2)) =
      v.p.tids.map fun t => (t, .trap (tr t)) :=
    List.map_congr_left fun t ht => by rw [hb t ht]
  rw [this, State.prologueCount_other hp, he]; exact h1

/-- An instruction whose threads all trap does so as `Traps` says. -/
theorem traps_of {i : Instr} {us : List RegUse} {pre : State → View → Nat → Thread → Opnds → Prop}
    {tr : State → View → Thread → Opnds → Trap} {body : State → View → Parts → Nat → Thread → Opnds → TRes}
    {eff : View → Parts → State → State} (k : IKind)
    (he : ∀ s, exec i s = issueWith k us body eff s)
    (hb : ∀ s v ops t, t ∈ v.p.tids → (∀ t ∈ v.p.tids, pre s v t (ops t).1 (ops t).2) →
      eff v (v.parts ops) s = s ∧ body s v (v.parts ops) t (ops t).1 (ops t).2 = .trap (tr s v (ops t).1 (ops t).2)) :
    Traps i k.lane us pre tr := by
  intro s v ops ho hp hr hpre hne
  rw [he]
  obtain ⟨t, ht⟩ := List.exists_mem_of_ne_nil _ hne
  exact issueWith_traps (ops := ops) ho hp hr (fun t => tr s v (ops t).1 (ops t).2) (hb s v ops t ht hpre).1
    fun t ht => (hb s v ops t ht hpre).2

theorem incompleteTraps_of {i : Instr} {us : List RegUse} {regs : View → Nat → Parts → Nat → Thread → Thread}
    {side : View → Nat → Parts → UnitSt → UnitSt} (he : ∀ s, exec i s = blockIssue us regs side s) : IncompleteTraps i us :=
  traps_of { } (us := us) he
    fun s v ops t ht h => by
      have hw : v.wholeBundle = none := h t ht
      simp [hw, View.incomplete]

/-! ### Engine instructions -/

theorem UnitSt.raiseAll_thread (u : UnitSt) (ts : List Nat) (k : CtrKind) (t : Nat) (ht : t < u.threads.length) :
    (u.raiseAll ts k).thread t = if t ∈ ts then (u.thread t).raise k else u.thread t := by
  unfold UnitSt.raiseAll UnitSt.thread
  simp only [List.getD_eq_getElem?_getD, List.getElem?_mapIdx, List.getElem?_eq_getElem ht, Option.map_some,
    Option.getD_some, List.contains_iff_mem]

theorem UnitSt.raiseAll_out (u : UnitSt) (ts : List Nat) (k : CtrKind) (t : Nat) (ht : t ∉ ts) :
    (u.raiseAll ts k).thread t = u.thread t := by
  unfold UnitSt.raiseAll UnitSt.thread
  simp only [List.getD_eq_getElem?_getD, List.getElem?_mapIdx]
  cases u.threads[t]? with
  | none => rfl
  | some x => simp [ht]


/-- `passAll` after an operation has entered an engine. -/
theorem State.passAll_effect {s s0 : State} {v : View} (ho : View.Open s0 v) (u0 : UnitSt)
    (hu : s.unit? v.u.uid = some u0) (hst : u0.st = v.u.st) (hlen : u0.threads.length = v.u.threads.length)
    (hth : ∀ t ∈ v.p.tids, ∀ r, (u0.thread t).st ≠ .trapped r) :
    View.Effect s (s.passAll v) v u0 fun t => v.after (u0.thread t) none := by
  have hg : newGuardLines u0 [] = [] := by unfold newGuardLines; split <;> rfl
  have := State.finish_effect (s := s) u0 ho (fun t => u0.thread t) (fun _ => none) (fun _ => []) hu hst hlen (by simp)
    (fun _ _ => hg) hth
  rw [State.postAll_nil] at this
  unfold State.passAll
  simp only [hu]
  exact this

theorem head?_filterMap_none {α β : Type} {l : List α} {f : α → Option β} (h : ∀ x ∈ l, f x = none) :
    (l.filterMap f).head? = none := by
  rw [List.filterMap_eq_nil_iff.mpr h]; rfl

theorem issueEng_next {i : Instr} {k : CtrKind} {d : VReg} {wd : Nat} {us : List RegUse}
    {body : State → View → Opnds → EngOp → EngRes} {s : State} {v : View} {o : Opnds} (ho : View.Open s v)
    (hp : v.u.role ≠ .prologue) (hr : View.EngReads s v us k o) :
    issueEng i k d wd us body s =
      match body s v o { v.engOp s i k d wd o with id := 0 } with
      | .trap t => .next (s.trapAll v t)
      | .stall => .next s
      | .done f => .next ((f s).passAll v)
      | .accept e f => .next (((f s).accept e).passAll v) := by
  have hrole : (v.u.role == Role.prologue) = false := by simpa using hp
  have hpend : (v.p.tids.any fun t => us.any fun x => s.pending v.u.uid t x.reg.toNat x.n) = false := by
    rw [List.any_eq_false]; intro t ht; rw [Bool.not_eq_true, List.any_eq_false]
    intro x hx; simpa using hr.free t ht x hx
  have hfull : (v.p.tids.any fun t => (v.u.thread t).full k) = false := by
    rw [List.any_eq_false]; intro t ht; simpa using hr.room t ht
  obtain ⟨th, hth⟩ := hr.gives
  unfold issueEng
  simp only [ho.view, hrole, head?_filterMap_none hr.legal, hpend, hth, hfull, Bool.false_eq_true, if_false]
  rfl

theorem Thread.st_inPath_not_trapped {th : Thread} (h : th.st = .inPath) (r : TrapRec) : th.st ≠ .trapped r := by
  rw [h]; simp

/-- An engine instruction is accepted as `Accepts` says. -/
theorem accepts_of {i : Instr} {k : CtrKind} {d : VReg} {wd : Nat} {us : List RegUse}
    {body : State → View → Opnds → EngOp → EngRes} {pre : State → View → Opnds → Prop}
    {e : State → View → Opnds → EngOp} {eff : State → View → Opnds → State}
    (he : ∀ s, exec i s = issueEng i k d wd us body s)
    (hb : ∀ s v o, View.Open s v → View.EngReads s v us k o → pre s v o → ∃ e0 f,
      body s v o { v.engOp s i k d wd o with id := 0 } = .accept e0 f ∧ f s = eff s v o ∧
      { e0 with id := s.nextId } = e s v o ∧ e0.unit = v.u.uid ∧ e0.tids.map (·.1) = v.p.tids ∧ e0.ctr = k)
    (hf : ∀ s v o, View.Open s v → (eff s v o).nextId = s.nextId ∧ (eff s v o).eng = s.eng ∧ ∃ u0, (eff s v o).unit? v.u.uid = some u0 ∧
      u0.st = v.u.st ∧ u0.threads.length = v.u.threads.length ∧ ∀ t, (u0.thread t).st = (v.u.thread t).st) :
    Accepts i us k pre e eff := by
  intro s v o ho hp hr hpre
  obtain ⟨e0, f, hb1, hb2, hb3, hb4, hb5, hb6⟩ := hb s v o ho hr hpre
  obtain ⟨hn, hen, u0, hu0, hst, hlen, hths⟩ := hf s v o ho
  have hid : u0.uid = v.u.uid := State.unit?_uid hu0
  have hu1 : ((eff s v o).accept e0).unit? v.u.uid = some (u0.raiseAll v.p.tids k) := by
    have h0 : ((eff s v o).updUnit e0.unit fun u => u.raiseAll (e0.tids.map (·.1)) e0.ctr).unit? v.u.uid =
        some (u0.raiseAll v.p.tids k) := by
      rw [State.updUnit_eq _ _ (fun u => u.raiseAll (e0.tids.map (·.1)) e0.ctr) (fun _ => rfl), hb4, if_pos rfl, hu0, hb5, hb6]; rfl
    exact h0
  have hfx := State.passAll_effect (s := (eff s v o).accept e0) ho (u0.raiseAll v.p.tids k) hu1 hst
    (by simp [UnitSt.raiseAll, hlen])
    (fun t ht r => by
      rw [UnitSt.raiseAll_thread _ _ _ _ (by rw [hlen]; exact (ho.inside t ht).1), if_pos ht, Thread.raise_st, hths,
        (ho.inside t ht).2]; simp)
  refine ⟨((eff s v o).accept e0).passAll v, u0, ?_, hu0, ?_⟩
  · rw [he, issueEng_next ho hp hr, hb1, ← hb2]
  · refine ⟨?_, ?_, ?_⟩
    · obtain ⟨u', k1, k2, k3, k4⟩ := hfx.unit
      refine ⟨u', k1, ?_, ?_, ?_⟩
      · have e1 : { u' with threads := u0.threads } =
            { ({ u' with threads := (u0.raiseAll v.p.tids k).threads } : UnitSt) with threads := u0.threads } := rfl
        have hb : (v.moved (u0.raiseAll v.p.tids k) fun t => v.after ((u0.raiseAll v.p.tids k).thread t) none).bundles =
            (v.moved u0 fun t => v.after ((u0.thread t).raise k) none).bundles :=
          v.moved_congr rfl fun t ht => by
            rw [UnitSt.raiseAll_thread _ _ _ _ (by rw [hlen]; exact (ho.inside t ht).1), if_pos ht]
        rw [e1, k2]
        show ({ u0 with bundles := (v.moved (u0.raiseAll v.p.tids k) fun t =>
          v.after ((u0.raiseAll v.p.tids k).thread t) none).bundles } : UnitSt) = _
        rw [hb]; rfl
      · rw [k3]; simp [UnitSt.raiseAll]
      · intro t
        rw [k4 t]
        by_cases ht : t ∈ v.p.tids
        · rw [if_pos ht, if_pos ht, UnitSt.raiseAll_thread _ _ _ _ (by rw [hlen]; exact (ho.inside t ht).1), if_pos ht]
        · rw [if_neg ht, if_neg ht, UnitSt.raiseAll_out _ _ _ _ ht]
    · intro n hn'
      rw [hfx.others n hn']
      show ((eff s v o).updUnit e0.unit fun u => u.raiseAll (e0.tids.map (·.1)) e0.ctr).unit? n = (eff s v o).unit? n
      rw [State.updUnit_eq _ _ (fun u => u.raiseAll (e0.tids.map (·.1)) e0.ctr) (fun _ => rfl), hb4, if_neg hn']
    · have h := hfx.rest
      have e1 : { ((eff s v o).accept e0).passAll v with units := (eff s v o).units } =
          { ({ ((eff s v o).accept e0).passAll v with units := ((eff s v o).accept e0).units } : State) with units := (eff s v o).units } := rfl
      show { ((eff s v o).accept e0).passAll v with units := (eff s v o).units } = _
      rw [e1, h]
      show { ((eff s v o).accept e0) with units := (eff s v o).units } = _
      unfold State.accept
      rw [hn, hb3, hen]
      rfl

/-- An engine instruction completes at its issue as `CompletesAtOnce` says. -/
theorem completesAtOnce_of {i : Instr} {k : CtrKind} {d : VReg} {wd : Nat} {us : List RegUse}
    {body : State → View → Opnds → EngOp → EngRes} {pre : State → View → Opnds → Prop}
    {eff : State → View → Opnds → State}
    (he : ∀ s, exec i s = issueEng i k d wd us body s)
    (hb : ∀ s v o, View.Open s v → View.EngReads s v us k o → pre s v o → ∃ f,
      body s v o { v.engOp s i k d wd o with id := 0 } = .done f ∧ f s = eff s v o)
    (hf : ∀ s v o, View.Open s v → ∃ u0, (eff s v o).unit? v.u.uid = some u0 ∧
      u0.st = v.u.st ∧ u0.threads.length = v.u.threads.length ∧ ∀ t, (u0.thread t).st = (v.u.thread t).st) :
    CompletesAtOnce i us k pre eff := by
  intro s v o ho hp hr hpre
  obtain ⟨f, hb1, hb2⟩ := hb s v o ho hr hpre
  obtain ⟨u0, hu0, hst, hlen, hths⟩ := hf s v o ho
  refine ⟨(eff s v o).passAll v, u0, ?_, hu0, State.passAll_effect ho u0 hu0 hst hlen fun t ht r => ?_⟩
  · rw [he, issueEng_next ho hp hr, hb1]; simp only [hb2]
  · rw [hths, (ho.inside t ht).2]; simp

end Sys2Proof.Machine
end

