-- ==== Sys2Proof/Laws/Memory.lean ====
section
/-! SUPPORT. The laws of memory as sorted cells: reading after writing, the canonical form, and that every write keeps
it. -/

namespace Sys2Proof.Machine

/-- Every listed address is at least `n`. -/
def Memory.Above (n : Nat) (m : Memory) : Prop := ∀ c ∈ m, n ≤ c.1

/-! ### The canonical form -/

theorem Memory.wf_cons (k : Nat) (v : Byte) (m : Memory) :
    Memory.wf ((k, v) :: m) = true ↔ v ≠ 0 ∧ Memory.Above (k + 1) m ∧ Memory.wf m = true := by
  induction m generalizing k v with
  | nil => simp [Memory.wf, Memory.Above]
  | cons c m ih =>
    obtain ⟨k', v'⟩ := c
    have h := ih k' v'
    simp only [Memory.wf, Bool.and_eq_true, bne_iff_ne, ne_eq, decide_eq_true_eq]
    rw [h]
    constructor
    · rintro ⟨⟨h1, h2⟩, h3, h4, h5⟩
      refine ⟨h1, ?_, h3, h4, h5⟩
      intro c hc
      rcases List.mem_cons.mp hc with rfl | hc
      · exact h2
      · have := h4 c hc; omega
    · rintro ⟨h1, h2, h3, h4, h5⟩
      exact ⟨⟨h1, h2 _ (List.mem_cons_self ..)⟩, h3, h4, h5⟩

theorem Memory.read_below {n a : Nat} {m : Memory} (h : m.Above n) (ha : a < n) : m.read a = 0 := by
  induction m with
  | nil => rfl
  | cons c m ih =>
    obtain ⟨k, v⟩ := c
    have hk : n ≤ k := h _ (List.mem_cons_self ..)
    have hm : Memory.Above n m := fun c hc => h c (List.mem_cons_of_mem _ hc)
    simp only [Memory.read]
    rw [if_neg (by simp; omega)]
    exact ih hm

theorem Memory.Above.mono {n n' : Nat} {m : Memory} (h : m.Above n) (hn : n' ≤ n) : m.Above n' :=
  fun c hc => Nat.le_trans hn (h c hc)

theorem Memory.write_above {n a : Nat} {b : Byte} {m : Memory} (h : m.Above n) (ha : n ≤ a) : (m.write a b).Above n := by
  induction m with
  | nil =>
    simp only [Memory.write]
    split <;> simp_all [Memory.Above]
  | cons c m ih =>
    obtain ⟨k, v⟩ := c
    have hm : Memory.Above n m := fun c hc => h c (List.mem_cons_of_mem _ hc)
    have hk : n ≤ k := h _ (List.mem_cons_self ..)
    simp only [Memory.write]
    split
    · split
      · exact h
      · intro c hc
        rcases List.mem_cons.mp hc with rfl | hc
        · exact ha
        · exact h c hc
    · split
      · split
        · exact hm
        · intro c hc
          rcases List.mem_cons.mp hc with rfl | hc
          · exact hk
          · exact hm c hc
      · intro c hc
        rcases List.mem_cons.mp hc with rfl | hc
        · exact hk
        · exact ih hm c hc

theorem Memory.write_wf {m : Memory} (a : Nat) (b : Byte) (h : m.wf = true) : (m.write a b).wf = true := by
  induction m with
  | nil =>
    simp only [Memory.write]
    split <;> simp_all [Memory.wf]
  | cons c m ih =>
    obtain ⟨k, v⟩ := c
    obtain ⟨hv, hab, hwf⟩ := (Memory.wf_cons k v m).mp h
    simp only [Memory.write]
    split
    · rename_i hlt
      split
      · exact h
      · rename_i hb
        refine (Memory.wf_cons _ _ _).mpr ⟨by simpa using hb, ?_, h⟩
        intro c hc
        rcases List.mem_cons.mp hc with rfl | hc
        · exact hlt
        · have := hab c hc; omega
    · split
      · split
        · exact hwf
        · rename_i hb
          exact (Memory.wf_cons _ _ _).mpr ⟨by simpa using hb, hab, hwf⟩
      · rename_i h1 h2
        refine (Memory.wf_cons _ _ _).mpr ⟨hv, Memory.write_above hab ?_, ih hwf⟩
        have : a ≠ k := by simpa using h2
        omega

/-- A byte reads as written, every other byte as before. -/
theorem Memory.read_write {m : Memory} (a : Nat) (b : Byte) (h : m.wf = true) (x : Nat) :
    (m.write a b).read x = if x = a then b else m.read x := by
  induction m with
  | nil =>
    simp only [Memory.write]
    split
    · rename_i hb
      have hb0 : b = 0 := by simpa using hb
      simp [Memory.read, hb0]
    · by_cases hx : x = a
      · subst hx; simp [Memory.read]
      · simp [Memory.read, hx, Ne.symm hx]
  | cons c m ih =>
    obtain ⟨k, v⟩ := c
    obtain ⟨_, hab, hwf⟩ := (Memory.wf_cons k v m).mp h
    simp only [Memory.write]
    split
    · rename_i hlt
      have hz : Memory.read ((k, v) :: m) a = 0 :=
        Memory.read_below (n := k) (fun c hc => by
          rcases List.mem_cons.mp hc with rfl | hc
          · exact Nat.le_refl _
          · have := hab c hc; omega) hlt
      split
      · rename_i hb
        have hb0 : b = 0 := by simpa using hb
        by_cases hx : x = a
        · subst hx; simp [hz, hb0]
        · simp [hx]
      · by_cases hx : x = a
        · subst hx; simp [Memory.read]
        · simp [Memory.read, hx, Ne.symm hx]
    · split
      · rename_i hk
        have hk : a = k := by simpa using hk
        subst hk
        have hz : Memory.read m a = 0 := Memory.read_below hab (Nat.lt_succ_self a)
        split
        · rename_i hb
          have hb0 : b = 0 := by simpa using hb
          by_cases hx : x = a
          · subst hx; simp [hz, hb0]
          · simp [Memory.read, hx, Ne.symm hx]
        · by_cases hx : x = a
          · subst hx; simp [Memory.read]
          · simp [Memory.read, hx, Ne.symm hx]
      · rename_i hk
        have hk : a ≠ k := by simpa using hk
        have := ih hwf
        by_cases hx : x = k
        · subst hx; simp [Memory.read, Ne.symm hk]
        · simp only [Memory.read]
          have hx' : (k == x) = false := by simpa using Ne.symm hx
          simp only [hx', Bool.false_eq_true, if_false]
          exact this

/-! ### Several bytes -/

theorem Memory.writes_wf (as : List Nat) : ∀ (bs : List Byte) {m : Memory}, m.wf = true → (m.writes as bs).wf = true := by
  induction as with
  | nil => intro bs m h; cases bs <;> simpa [Memory.writes] using h
  | cons a as ih =>
    intro bs m h
    cases bs with
    | nil => simpa [Memory.writes] using h
    | cons b bs => exact ih bs (Memory.write_wf a b h)

theorem Memory.writeCells_wf (cs : List Host.Cell) : ∀ {m : Memory}, m.wf = true → (m.writeCells cs).wf = true := by
  induction cs with
  | nil => intro m h; exact h
  | cons c cs ih => intro m h; exact ih (Memory.write_wf c.1 c.2 h)

theorem Memory.read_writes_out (as : List Nat) : ∀ (bs : List Byte) {m : Memory} (_ : m.wf = true) {x : Nat} (_ : x ∉ as),
    (m.writes as bs).read x = m.read x := by
  induction as with
  | nil => intro bs m _ x _; cases bs <;> rfl
  | cons a as ih =>
    intro bs m h x hx
    cases bs with
    | nil => rfl
    | cons b bs =>
      simp only [Memory.writes]
      rw [ih bs (Memory.write_wf a b h) (fun hc => hx (List.mem_cons_of_mem _ hc)), Memory.read_write a b h]
      rw [if_neg (fun hc => hx (by simp [hc]))]

theorem Memory.filter_wf (p : Host.Cell → Bool) {m : Memory} (h : m.wf = true) : Memory.wf (m.filter p) = true := by
  induction m with
  | nil => rfl
  | cons c m ih =>
    obtain ⟨k, v⟩ := c
    obtain ⟨hv, hab, hwf⟩ := (Memory.wf_cons k v m).mp h
    by_cases hp : p (k, v) = true
    · rw [List.filter_cons_of_pos hp]
      exact (Memory.wf_cons _ _ _).mpr ⟨hv, fun c hc => hab c (List.mem_filter.mp hc).1, ih hwf⟩
    · rw [List.filter_cons_of_neg hp]
      exact ih hwf

theorem Memory.nil_wf : Memory.wf [] = true := rfl

/-! ### Every written byte is where it was put -/

theorem span_succ (a n : Nat) : span a (n + 1) = a :: span (a + 1) n := by
  simp only [span, List.range_succ_eq_map, List.map_cons, List.map_map, Nat.add_zero]
  congr 1
  apply List.map_congr_left
  intro x _
  show a + (x + 1) = a + 1 + x
  omega

theorem mem_span {a n x : Nat} : x ∈ span a n ↔ a ≤ x ∧ x < a + n := by
  simp only [span, List.mem_map, List.mem_range]
  constructor
  · rintro ⟨i, hi, rfl⟩; omega
  · intro h; exact ⟨x - a, by omega, by omega⟩

theorem leBytes_length (n : Nat) : ∀ v, (leBytes n v).length = n := by
  induction n with
  | zero => intro v; rfl
  | succ n ih => intro v; simp [leBytes, ih]

/-! ### Updates of a state -/

theorem State.memOk.writeMem {s : State} (h : s.memOk) (as : List Nat) (bs : List Byte) :
    State.memOk { s with mem := s.mem.writes as bs } := ⟨Memory.writes_wf as bs h.1, h.2⟩

theorem State.memOk.setUnit {s : State} (h : s.memOk) (u : UnitSt) (hu : u.scr.wf = true) : (s.setUnit u).memOk := by
  refine ⟨h.1, ?_⟩
  intro x hx
  simp only [State.setUnit, List.mem_map] at hx
  obtain ⟨y, hy, rfl⟩ := hx
  split
  · exact hu
  · exact h.2 y hy

theorem State.memOk.updUnit {s : State} (h : s.memOk) (n : Nat) (f : UnitSt → UnitSt)
    (hf : ∀ u, u.scr.wf = true → (f u).scr.wf = true) : (s.updUnit n f).memOk := by
  refine ⟨h.1, ?_⟩
  intro x hx
  simp only [State.updUnit, List.mem_map] at hx
  obtain ⟨y, hy, rfl⟩ := hx
  split
  · exact hf y (h.2 y hy)
  · exact h.2 y hy

/-- An update that leaves memory and the windows alone keeps the form. -/
theorem State.memOk.same {s t : State} (h : s.memOk) (hm : t.mem = s.mem) (hu : t.units = s.units) : t.memOk := by
  unfold State.memOk; rw [hm, hu]; exact h

end Sys2Proof.Machine
end

