-- ==== Sys2Proof/Laws/Words.lean ====
section
/-! SUPPORT. The shape of every word of the instruction set: an issue by every thread of the path (`Laned`), or by its
elected lane for an engine (`Engined`), with the register fields, the class and the place in a launch prologue that
`namedBy`, `onLanes` and `inProSet` give it. -/

namespace Sys2Proof.Machine

theorem thenDo_id (f : State → State) (hf : ∀ s, f s = s) (r : Out) : thenDo f r = r := by
  cases r <;> simp [thenDo, hf]

theorem settled_eq {s : State} {v : View} (hv : s.view? = some v) (r : Out) : settled s r = thenDo (State.settleUnit v.u.uid) r := by
  unfold State.view? at hv; unfold settled
  split at hv
  · cases hv
  · rename_i pr hc
    split at hv
    · cases hv
    · rename_i u hu
      split at hv
      · cases hv
      · split at hv
        · cases hv
        · cases hv
          have := State.unit?_uid hu
          simp only [hc, ← this]

/-- `i` is issued by every thread of the path, as `k` says, and then what follows from it is settled. -/
structure Laned (i : Instr) (k : IKind) : Prop where
  lane : k.lane = onLanes i
  pro  : k.pro = inProSet i
  load : k.load = isProLoad i
  exec : ∃ body eff, ∀ s v, s.view? = some v → exec i s = thenDo (followed i v) (issueWith k (namedBy i) body eff s)

/-- `i` is issued by the path's elected lane for an engine. -/
structure Engined (i : Instr) : Prop where
  lane : onLanes i = false
  pro  : inProSet i = false
  load : isProLoad i = false
  none : ∀ v s, followed i v s = s
  exec : ∃ ctr d wd body, ∀ s, exec i s = issueEng i ctr d wd (namedBy i) body s

theorem laned_of {i : Instr} {k body eff} (h : ∀ s, exec i s = issueWith k (namedBy i) body eff s)
    (hf : ∀ v s, followed i v s = s) (h1 : k.lane = onLanes i) (h2 : k.pro = inProSet i) (h3 : k.load = isProLoad i) :
    Laned i k := ⟨h1, h2, h3, body, eff, fun s v _ => by rw [h, thenDo_id _ (hf v)]⟩

theorem laned_settled {i : Instr} {k body eff} (h : ∀ s, exec i s = settled s (issueWith k (namedBy i) body eff s))
    (hf : ∀ v s, followed i v s = s.settleUnit v.u.uid) (h1 : k.lane = onLanes i) (h2 : k.pro = inProSet i)
    (h3 : k.load = isProLoad i) : Laned i k :=
  ⟨h1, h2, h3, body, eff, fun s v hv => by rw [h, settled_eq hv]; congr 1; funext s; rw [hf]⟩

theorem laned_launch {i : Instr} {k body eff} (h : ∀ s, exec i s = thenDo State.settleLaunches (issueWith k (namedBy i) body eff s))
    (hf : ∀ v s, followed i v s = s.settleLaunches) (h1 : k.lane = onLanes i) (h2 : k.pro = inProSet i)
    (h3 : k.load = isProLoad i) : Laned i k :=
  ⟨h1, h2, h3, body, eff, fun s v _ => by rw [h]; congr 1; funext s; rw [hf]⟩

theorem engined_of {i : Instr} {ctr d wd body} (h : ∀ s, exec i s = issueEng i ctr d wd (namedBy i) body s)
    (h1 : onLanes i = false) (h2 : inProSet i = false) (h3 : isProLoad i = false) (hf : ∀ v s, followed i v s = s) : Engined i :=
  ⟨h1, h2, h3, hf, ctr, d, wd, body, h⟩

theorem word_mov {x0 x1 x2} : ∃ k, Laned (.mov x0 x1 x2) k :=
  ⟨_, by apply laned_of; (intro s; show execMov x0 x1 x2 s = _; unfold execMov laneP issue; rfl); all_goals (intros; rfl)⟩
theorem word_movi {x0 x1 x2} : ∃ k, Laned (.movi x0 x1 x2) k :=
  ⟨_, by apply laned_of; (intro s; show execMovi x0 x1 x2 s = _; unfold execMovi laneP issue; rfl); all_goals (intros; rfl)⟩
theorem word_add {x0 x1 x2 x3 x4} : ∃ k, Laned (.add x0 x1 x2 x3 x4) k :=
  ⟨_, by apply laned_of; (intro s; show execAdd x0 x1 x2 x3 x4 s = _; unfold execAdd laneP issue; rfl); all_goals (intros; rfl)⟩
theorem word_addi {x0 x1 x2 x3} : ∃ k, Laned (.addi x0 x1 x2 x3) k :=
  ⟨_, by apply laned_of; (intro s; show execAddi x0 x1 x2 x3 s = _; unfold execAddi laneP issue; rfl); all_goals (intros; rfl)⟩
theorem word_sub {x0 x1 x2 x3 x4} : ∃ k, Laned (.sub x0 x1 x2 x3 x4) k :=
  ⟨_, by apply laned_of; (intro s; show execSub x0 x1 x2 x3 x4 s = _; unfold execSub laneP issue; rfl); all_goals (intros; rfl)⟩
theorem word_mul {x0 x1 x2 x3 x4} : ∃ k, Laned (.mul x0 x1 x2 x3 x4) k :=
  ⟨_, by apply laned_of; (intro s; show execMul x0 x1 x2 x3 x4 s = _; unfold execMul laneP issue; rfl); all_goals (intros; rfl)⟩
theorem word_mulh {x0 x1 x2 x3} : ∃ k, Laned (.mulh x0 x1 x2 x3) k :=
  ⟨_, by apply laned_of; (intro s; show execMulh x0 x1 x2 x3 s = _; unfold execMulh laneP issue; rfl); all_goals (intros; rfl)⟩
theorem word_mad {x0 x1 x2 x3 x4 x5} : ∃ k, Laned (.mad x0 x1 x2 x3 x4 x5) k :=
  ⟨_, by apply laned_of; (intro s; show execMad x0 x1 x2 x3 x4 x5 s = _; unfold execMad laneP issue; rfl); all_goals (intros; rfl)⟩
theorem word_div {x0 x1 x2 x3} : ∃ k, Laned (.div x0 x1 x2 x3) k :=
  ⟨_, by apply laned_of; (intro s; show execDiv x0 x1 x2 x3 s = _; unfold execDiv laneP issue; rfl); all_goals (intros; rfl)⟩
theorem word_rem {x0 x1 x2 x3} : ∃ k, Laned (.rem x0 x1 x2 x3) k :=
  ⟨_, by apply laned_of; (intro s; show execRem x0 x1 x2 x3 s = _; unfold execRem laneP issue; rfl); all_goals (intros; rfl)⟩
theorem word_min {x0 x1 x2 x3} : ∃ k, Laned (.min x0 x1 x2 x3) k :=
  ⟨_, by apply laned_of; (intro s; show execMin x0 x1 x2 x3 s = _; unfold execMin laneP issue; rfl); all_goals (intros; rfl)⟩
theorem word_max {x0 x1 x2 x3} : ∃ k, Laned (.max x0 x1 x2 x3) k :=
  ⟨_, by apply laned_of; (intro s; show execMax x0 x1 x2 x3 s = _; unfold execMax laneP issue; rfl); all_goals (intros; rfl)⟩
theorem word_abs {x0 x1 x2 x3} : ∃ k, Laned (.abs x0 x1 x2 x3) k :=
  ⟨_, by apply laned_of; (intro s; show execAbs x0 x1 x2 x3 s = _; unfold execAbs laneP issue; rfl); all_goals (intros; rfl)⟩
theorem word_neg {x0 x1 x2 x3} : ∃ k, Laned (.neg x0 x1 x2 x3) k :=
  ⟨_, by apply laned_of; (intro s; show execNeg x0 x1 x2 x3 s = _; unfold execNeg laneP issue; rfl); all_goals (intros; rfl)⟩
theorem word_dp4 {x0 x1 x2 x3 x4 x5 x6} : ∃ k, Laned (.dp4 x0 x1 x2 x3 x4 x5 x6) k :=
  ⟨_, by apply laned_of; (intro s; show execDp4 x0 x1 x2 x3 x4 x5 x6 s = _; unfold execDp4 laneP issue; rfl); all_goals (intros; rfl)⟩
theorem word_band {x0 x1 x2 x3} : ∃ k, Laned (.band x0 x1 x2 x3) k :=
  ⟨_, by apply laned_of; (intro s; show execBand x0 x1 x2 x3 s = _; unfold execBand laneP issue; rfl); all_goals (intros; rfl)⟩
theorem word_bor {x0 x1 x2 x3} : ∃ k, Laned (.bor x0 x1 x2 x3) k :=
  ⟨_, by apply laned_of; (intro s; show execBor x0 x1 x2 x3 s = _; unfold execBor laneP issue; rfl); all_goals (intros; rfl)⟩
theorem word_bxor {x0 x1 x2 x3} : ∃ k, Laned (.bxor x0 x1 x2 x3) k :=
  ⟨_, by apply laned_of; (intro s; show execBxor x0 x1 x2 x3 s = _; unfold execBxor laneP issue; rfl); all_goals (intros; rfl)⟩
theorem word_bandn {x0 x1 x2 x3} : ∃ k, Laned (.bandn x0 x1 x2 x3) k :=
  ⟨_, by apply laned_of; (intro s; show execBandn x0 x1 x2 x3 s = _; unfold execBandn laneP issue; rfl); all_goals (intros; rfl)⟩
theorem word_andi {x0 x1 x2 x3} : ∃ k, Laned (.andi x0 x1 x2 x3) k :=
  ⟨_, by apply laned_of; (intro s; show execAndi x0 x1 x2 x3 s = _; unfold execAndi laneP issue; rfl); all_goals (intros; rfl)⟩
theorem word_ori {x0 x1 x2 x3} : ∃ k, Laned (.ori x0 x1 x2 x3) k :=
  ⟨_, by apply laned_of; (intro s; show execOri x0 x1 x2 x3 s = _; unfold execOri laneP issue; rfl); all_goals (intros; rfl)⟩
theorem word_xori {x0 x1 x2 x3} : ∃ k, Laned (.xori x0 x1 x2 x3) k :=
  ⟨_, by apply laned_of; (intro s; show execXori x0 x1 x2 x3 s = _; unfold execXori laneP issue; rfl); all_goals (intros; rfl)⟩
theorem word_lop3 {x0 x1 x2 x3 x4 x5} : ∃ k, Laned (.lop3 x0 x1 x2 x3 x4 x5) k :=
  ⟨_, by apply laned_of; (intro s; show execLop3 x0 x1 x2 x3 x4 x5 s = _; unfold execLop3 laneP issue; rfl); all_goals (intros; rfl)⟩
theorem word_shl {x0 x1 x2 x3} : ∃ k, Laned (.shl x0 x1 x2 x3) k :=
  ⟨_, by apply laned_of; (intro s; show execShl x0 x1 x2 x3 s = _; unfold execShl laneP issue; rfl); all_goals (intros; rfl)⟩
theorem word_shr {x0 x1 x2 x3} : ∃ k, Laned (.shr x0 x1 x2 x3) k :=
  ⟨_, by apply laned_of; (intro s; show execShr x0 x1 x2 x3 s = _; unfold execShr laneP issue; rfl); all_goals (intros; rfl)⟩
theorem word_sar {x0 x1 x2 x3} : ∃ k, Laned (.sar x0 x1 x2 x3) k :=
  ⟨_, by apply laned_of; (intro s; show execSar x0 x1 x2 x3 s = _; unfold execSar laneP issue; rfl); all_goals (intros; rfl)⟩
theorem word_rot {x0 x1 x2 x3} : ∃ k, Laned (.rot x0 x1 x2 x3) k :=
  ⟨_, by apply laned_of; (intro s; show execRot x0 x1 x2 x3 s = _; unfold execRot laneP issue; rfl); all_goals (intros; rfl)⟩
theorem word_shli {x0 x1 x2 x3} : ∃ k, Laned (.shli x0 x1 x2 x3) k :=
  ⟨_, by apply laned_of; (intro s; show execShli x0 x1 x2 x3 s = _; unfold execShli laneP issue; rfl); all_goals (intros; rfl)⟩
theorem word_shri {x0 x1 x2 x3} : ∃ k, Laned (.shri x0 x1 x2 x3) k :=
  ⟨_, by apply laned_of; (intro s; show execShri x0 x1 x2 x3 s = _; unfold execShri laneP issue; rfl); all_goals (intros; rfl)⟩
theorem word_sari {x0 x1 x2 x3} : ∃ k, Laned (.sari x0 x1 x2 x3) k :=
  ⟨_, by apply laned_of; (intro s; show execSari x0 x1 x2 x3 s = _; unfold execSari laneP issue; rfl); all_goals (intros; rfl)⟩
theorem word_clz {x0 x1 x2} : ∃ k, Laned (.clz x0 x1 x2) k :=
  ⟨_, by apply laned_of; (intro s; show execClz x0 x1 x2 s = _; unfold execClz laneP issue; rfl); all_goals (intros; rfl)⟩
theorem word_popc {x0 x1 x2} : ∃ k, Laned (.popc x0 x1 x2) k :=
  ⟨_, by apply laned_of; (intro s; show execPopc x0 x1 x2 s = _; unfold execPopc laneP issue; rfl); all_goals (intros; rfl)⟩
theorem word_brev {x0 x1 x2} : ∃ k, Laned (.brev x0 x1 x2) k :=
  ⟨_, by apply laned_of; (intro s; show execBrev x0 x1 x2 s = _; unfold execBrev laneP issue; rfl); all_goals (intros; rfl)⟩
theorem word_bfx {x0 x1 x2 x3 x4} : ∃ k, Laned (.bfx x0 x1 x2 x3 x4) k :=
  ⟨_, by apply laned_of; (intro s; show execBfx x0 x1 x2 x3 x4 s = _; unfold execBfx laneP issue; rfl); all_goals (intros; rfl)⟩
theorem word_bfi {x0 x1 x2 x3 x4 x5} : ∃ k, Laned (.bfi x0 x1 x2 x3 x4 x5) k :=
  ⟨_, by apply laned_of; (intro s; show execBfi x0 x1 x2 x3 x4 x5 s = _; unfold execBfi laneP issue; rfl); all_goals (intros; rfl)⟩
theorem word_cmp {x0 x1 x2 x3 x4} : ∃ k, Laned (.cmp x0 x1 x2 x3 x4) k :=
  ⟨_, by apply laned_of; (intro s; show execCmp x0 x1 x2 x3 x4 s = _; unfold execCmp laneP issue; rfl); all_goals (intros; rfl)⟩
theorem word_cmpi {x0 x1 x2 x3} : ∃ k, Laned (.cmpi x0 x1 x2 x3) k :=
  ⟨_, by apply laned_of; (intro s; show execCmpi x0 x1 x2 x3 s = _; unfold execCmpi laneP issue; rfl); all_goals (intros; rfl)⟩
theorem word_sel {x0 x1 x2 x3 x4} : ∃ k, Laned (.sel x0 x1 x2 x3 x4) k :=
  ⟨_, by apply laned_of; (intro s; show execSel x0 x1 x2 x3 x4 s = _; unfold execSel laneP issue; rfl); all_goals (intros; rfl)⟩
theorem word_lea {x0 x1 x2 x3 x4} : ∃ k, Laned (.lea x0 x1 x2 x3 x4) k :=
  ⟨_, by apply laned_of; (intro s; show execLea x0 x1 x2 x3 x4 s = _; unfold execLea laneP issue; rfl); all_goals (intros; rfl)⟩
theorem word_cvti {x0 x1 x2 x3} : ∃ k, Laned (.cvti x0 x1 x2 x3) k :=
  ⟨_, by apply laned_of; (intro s; show execCvti x0 x1 x2 x3 s = _; unfold execCvti laneP issue; rfl); all_goals (intros; rfl)⟩
theorem word_satn {x0 x1 x2 x3} : ∃ k, Laned (.satn x0 x1 x2 x3) k :=
  ⟨_, by apply laned_of; (intro s; show execSatn x0 x1 x2 x3 s = _; unfold execSatn laneP issue; rfl); all_goals (intros; rfl)⟩
theorem word_fadd {x0 x1 x2 x3 x4} : ∃ k, Laned (.fadd x0 x1 x2 x3 x4) k :=
  ⟨_, by apply laned_of; (intro s; show execFadd x0 x1 x2 x3 x4 s = _; unfold execFadd lane issue; rfl); all_goals (intros; rfl)⟩
theorem word_fsub {x0 x1 x2 x3 x4} : ∃ k, Laned (.fsub x0 x1 x2 x3 x4) k :=
  ⟨_, by apply laned_of; (intro s; show execFsub x0 x1 x2 x3 x4 s = _; unfold execFsub lane issue; rfl); all_goals (intros; rfl)⟩
theorem word_fmul {x0 x1 x2 x3 x4} : ∃ k, Laned (.fmul x0 x1 x2 x3 x4) k :=
  ⟨_, by apply laned_of; (intro s; show execFmul x0 x1 x2 x3 x4 s = _; unfold execFmul lane issue; rfl); all_goals (intros; rfl)⟩
theorem word_ffma {x0 x1 x2 x3 x4 x5} : ∃ k, Laned (.ffma x0 x1 x2 x3 x4 x5) k :=
  ⟨_, by apply laned_of; (intro s; show execFfma x0 x1 x2 x3 x4 x5 s = _; unfold execFfma lane issue; rfl); all_goals (intros; rfl)⟩
theorem word_fmin {x0 x1 x2 x3 x4} : ∃ k, Laned (.fmin x0 x1 x2 x3 x4) k :=
  ⟨_, by apply laned_of; (intro s; show execFmin x0 x1 x2 x3 x4 s = _; unfold execFmin lane issue; rfl); all_goals (intros; rfl)⟩
theorem word_fmax {x0 x1 x2 x3 x4} : ∃ k, Laned (.fmax x0 x1 x2 x3 x4) k :=
  ⟨_, by apply laned_of; (intro s; show execFmax x0 x1 x2 x3 x4 s = _; unfold execFmax lane issue; rfl); all_goals (intros; rfl)⟩
theorem word_fcmp {x0 x1 x2 x3 x4 x5} : ∃ k, Laned (.fcmp x0 x1 x2 x3 x4 x5) k :=
  ⟨_, by apply laned_of; (intro s; show execFcmp x0 x1 x2 x3 x4 x5 s = _; unfold execFcmp lane issue; rfl); all_goals (intros; rfl)⟩
theorem word_fdiv {x0 x1 x2 x3 x4} : ∃ k, Laned (.fdiv x0 x1 x2 x3 x4) k :=
  ⟨_, by apply laned_of; (intro s; show execFdiv x0 x1 x2 x3 x4 s = _; unfold execFdiv lane issue; rfl); all_goals (intros; rfl)⟩
theorem word_frcp {x0 x1 x2 x3} : ∃ k, Laned (.frcp x0 x1 x2 x3) k :=
  ⟨_, by apply laned_of; (intro s; show execFrcp x0 x1 x2 x3 s = _; unfold execFrcp lane issue; rfl); all_goals (intros; rfl)⟩
theorem word_frsq {x0 x1 x2 x3} : ∃ k, Laned (.frsq x0 x1 x2 x3) k :=
  ⟨_, by apply laned_of; (intro s; show execFrsq x0 x1 x2 x3 s = _; unfold execFrsq lane issue; rfl); all_goals (intros; rfl)⟩
theorem word_fsqrt {x0 x1 x2 x3} : ∃ k, Laned (.fsqrt x0 x1 x2 x3) k :=
  ⟨_, by apply laned_of; (intro s; show execFsqrt x0 x1 x2 x3 s = _; unfold execFsqrt lane issue; rfl); all_goals (intros; rfl)⟩
theorem word_fexp2 {x0 x1 x2 x3} : ∃ k, Laned (.fexp2 x0 x1 x2 x3) k :=
  ⟨_, by apply laned_of; (intro s; show execFexp2 x0 x1 x2 x3 s = _; unfold execFexp2 lane issue; rfl); all_goals (intros; rfl)⟩
theorem word_flog2 {x0 x1 x2 x3} : ∃ k, Laned (.flog2 x0 x1 x2 x3) k :=
  ⟨_, by apply laned_of; (intro s; show execFlog2 x0 x1 x2 x3 s = _; unfold execFlog2 lane issue; rfl); all_goals (intros; rfl)⟩
theorem word_fsin {x0 x1 x2 x3} : ∃ k, Laned (.fsin x0 x1 x2 x3) k :=
  ⟨_, by apply laned_of; (intro s; show execFsin x0 x1 x2 x3 s = _; unfold execFsin lane issue; rfl); all_goals (intros; rfl)⟩
theorem word_fcos {x0 x1 x2 x3} : ∃ k, Laned (.fcos x0 x1 x2 x3) k :=
  ⟨_, by apply laned_of; (intro s; show execFcos x0 x1 x2 x3 s = _; unfold execFcos lane issue; rfl); all_goals (intros; rfl)⟩
theorem word_ftanh {x0 x1 x2 x3} : ∃ k, Laned (.ftanh x0 x1 x2 x3) k :=
  ⟨_, by apply laned_of; (intro s; show execFtanh x0 x1 x2 x3 s = _; unfold execFtanh lane issue; rfl); all_goals (intros; rfl)⟩
theorem word_frnd {x0 x1 x2 x3} : ∃ k, Laned (.frnd x0 x1 x2 x3) k :=
  ⟨_, by apply laned_of; (intro s; show execFrnd x0 x1 x2 x3 s = _; unfold execFrnd lane issue; rfl); all_goals (intros; rfl)⟩
theorem word_fcvt {x0 x1 x2 x3 x4 x5} : ∃ k, Laned (.fcvt x0 x1 x2 x3 x4 x5) k :=
  ⟨_, by apply laned_of; (intro s; show execFcvt x0 x1 x2 x3 x4 x5 s = _; unfold execFcvt lane issue; rfl); all_goals (intros; rfl)⟩
theorem word_ftoi {x0 x1 x2 x3 x4} : ∃ k, Laned (.ftoi x0 x1 x2 x3 x4) k :=
  ⟨_, by apply laned_of; (intro s; show execFtoi x0 x1 x2 x3 x4 s = _; unfold execFtoi lane issue; rfl); all_goals (intros; rfl)⟩
theorem word_itof {x0 x1 x2 x3 x4} : ∃ k, Laned (.itof x0 x1 x2 x3 x4) k :=
  ⟨_, by apply laned_of; (intro s; show execItof x0 x1 x2 x3 x4 s = _; unfold execItof lane issue; rfl); all_goals (intros; rfl)⟩
theorem word_fclass {x0 x1 x2} : ∃ k, Laned (.fclass x0 x1 x2) k :=
  ⟨_, by apply laned_of; (intro s; show execFclass x0 x1 x2 s = _; unfold execFclass lane issue; rfl); all_goals (intros; rfl)⟩
theorem word_fscale {x0 x1 x2 x3 x4} : ∃ k, Laned (.fscale x0 x1 x2 x3 x4) k :=
  ⟨_, by apply laned_of; (intro s; show execFscale x0 x1 x2 x3 x4 s = _; unfold execFscale lane issue; rfl); all_goals (intros; rfl)⟩
theorem word_bset {x0 x1} : ∃ k, Laned (.bset x0 x1) k :=
  ⟨_, by apply laned_of; (intro s; show execBset x0 x1 s = _; unfold execBset blockIssue; rfl); all_goals (intros; rfl)⟩
theorem word_bget {x0 x1} : ∃ k, Laned (.bget x0 x1) k :=
  ⟨_, by apply laned_of; (intro s; show execBget x0 x1 s = _; unfold execBget blockIssue; rfl); all_goals (intros; rfl)⟩
theorem word_badd {x0 x1 x2 x3} : ∃ k, Laned (.badd x0 x1 x2 x3) k :=
  ⟨_, by apply laned_of; (intro s; show execBadd x0 x1 x2 x3 s = _; unfold execBadd blockWise blockIssue; rfl); all_goals (intros; rfl)⟩
theorem word_bmul {x0 x1 x2 x3} : ∃ k, Laned (.bmul x0 x1 x2 x3) k :=
  ⟨_, by apply laned_of; (intro s; show execBmul x0 x1 x2 x3 s = _; unfold execBmul blockWise blockIssue; rfl); all_goals (intros; rfl)⟩
theorem word_bfma {x0 x1 x2 x3 x4} : ∃ k, Laned (.bfma x0 x1 x2 x3 x4) k :=
  ⟨_, by apply laned_of; (intro s; show execBfma x0 x1 x2 x3 x4 s = _; unfold execBfma blockWise blockIssue; rfl); all_goals (intros; rfl)⟩
theorem word_bmax {x0 x1 x2 x3} : ∃ k, Laned (.bmax x0 x1 x2 x3) k :=
  ⟨_, by apply laned_of; (intro s; show execBmax x0 x1 x2 x3 s = _; unfold execBmax blockWise blockIssue; rfl); all_goals (intros; rfl)⟩
theorem word_bnorm {x0 x1 x2} : ∃ k, Laned (.bnorm x0 x1 x2) k :=
  ⟨_, by apply laned_of; (intro s; show execBnorm x0 x1 x2 s = _; unfold execBnorm blockWise blockIssue; rfl); all_goals (intros; rfl)⟩
theorem word_bqnt {x0 x1 x2} : ∃ k, Laned (.bqnt x0 x1 x2) k :=
  ⟨_, by apply laned_of; (intro s; show execBqnt x0 x1 x2 s = _; unfold execBqnt blockIssue; rfl); all_goals (intros; rfl)⟩
theorem word_bdeq {x0 x1 x2} : ∃ k, Laned (.bdeq x0 x1 x2) k :=
  ⟨_, by apply laned_of; (intro s; show execBdeq x0 x1 x2 s = _; unfold execBdeq blockIssue; rfl); all_goals (intros; rfl)⟩
theorem word_bcvt {x0 x1 x2 x3} : ∃ k, Laned (.bcvt x0 x1 x2 x3) k :=
  ⟨_, by apply laned_of; (intro s; show execBcvt x0 x1 x2 x3 s = _; unfold execBcvt blockIssue; rfl); all_goals (intros; rfl)⟩
theorem word_shfl {x0 x1 x2 x3 x4 x5 x6} : ∃ k, Laned (.shfl x0 x1 x2 x3 x4 x5 x6) k :=
  ⟨_, by apply laned_of; (intro s; show execShfl x0 x1 x2 x3 x4 x5 x6 s = _; unfold execShfl cross issue; rfl); all_goals (intros; rfl)⟩
theorem word_vote {x0 x1 x2} : ∃ k, Laned (.vote x0 x1 x2) k :=
  ⟨_, by apply laned_of; (intro s; show execVote x0 x1 x2 s = _; unfold execVote cross issue; rfl); all_goals (intros; rfl)⟩
theorem word_red {x0 x1 x2 x3 x4} : ∃ k, Laned (.red x0 x1 x2 x3 x4) k :=
  ⟨_, by apply laned_of; (intro s; show execRed x0 x1 x2 x3 x4 s = _; unfold execRed cross issue; rfl); all_goals (intros; rfl)⟩
theorem word_scan {x0 x1 x2 x3 x4 x5} : ∃ k, Laned (.scan x0 x1 x2 x3 x4 x5) k :=
  ⟨_, by apply laned_of; (intro s; show execScan x0 x1 x2 x3 x4 x5 s = _; unfold execScan cross issue; rfl); all_goals (intros; rfl)⟩
theorem word_vmatch {x0 x1 x2 x3} : ∃ k, Laned (.vmatch x0 x1 x2 x3) k :=
  ⟨_, by apply laned_of; (intro s; show execVmatch x0 x1 x2 x3 s = _; unfold execVmatch cross issue; rfl); all_goals (intros; rfl)⟩
theorem word_elect {x0 x1 x2} : ∃ k, Laned (.elect x0 x1 x2) k :=
  ⟨_, by apply laned_of; (intro s; show execElect x0 x1 x2 s = _; unfold execElect cross issue; rfl); all_goals (intros; rfl)⟩
theorem word_bcast {x0 x1 x2 x3 x4} : ∃ k, Laned (.bcast x0 x1 x2 x3 x4) k :=
  ⟨_, by apply laned_of; (intro s; show execBcast x0 x1 x2 x3 x4 s = _; unfold execBcast cross issue; rfl); all_goals (intros; rfl)⟩
theorem word_br {x0 x1 x2} : ∃ k, Laned (.br x0 x1 x2) k :=
  ⟨_, by apply laned_of; (intro s; show execBr x0 x1 x2 s = _; unfold execBr issue; rfl); all_goals (intros; rfl)⟩
theorem word_bra {x0} : ∃ k, Laned (.bra x0) k :=
  ⟨_, by apply laned_of; (intro s; show execBra x0 s = _; unfold execBra issue; rfl); all_goals (intros; rfl)⟩
theorem word_jmpr {x0} : ∃ k, Laned (.jmpr x0) k :=
  ⟨_, by apply laned_of; (intro s; show execJmpr x0 s = _; unfold execJmpr issue; rfl); all_goals (intros; rfl)⟩
theorem word_call {x0} : ∃ k, Laned (.call x0) k :=
  ⟨_, by apply laned_of; (intro s; show execCall x0 s = _; unfold execCall issue; rfl); all_goals (intros; rfl)⟩
theorem word_callr {x0} : ∃ k, Laned (.callr x0) k :=
  ⟨_, by apply laned_of; (intro s; show execCallr x0 s = _; unfold execCallr issue; rfl); all_goals (intros; rfl)⟩
theorem word_join {x0 x1} : ∃ k, Laned (.join x0 x1) k :=
  ⟨_, by apply laned_settled; (intro s; show execJoin x0 x1 s = _; unfold execJoin issue; rfl); all_goals (intros; rfl)⟩
theorem word_mark {x0} : ∃ k, Laned (.mark x0) k :=
  ⟨_, by apply laned_of; (intro s; show execMark x0 s = _; unfold execMark issue; rfl); all_goals (intros; rfl)⟩
theorem word_cut {x0 x1 x2} : ∃ k, Laned (.cut x0 x1 x2) k :=
  ⟨_, by apply laned_of; (intro s; show execCut x0 x1 x2 s = _; unfold execCut sliceIssue; rfl); all_goals (intros; rfl)⟩
theorem word_graft {x0 x1} : ∃ k, Laned (.graft x0 x1) k :=
  ⟨_, by apply laned_of; (intro s; show execGraft x0 x1 s = _; unfold execGraft issue; rfl); all_goals (intros; rfl)⟩
theorem word_drop {x0} : ∃ k, Laned (.drop x0) k :=
  ⟨_, by apply laned_of; (intro s; show execDrop x0 s = _; unfold execDrop sliceIssue; rfl); all_goals (intros; rfl)⟩
theorem word_trap {x0} : ∃ k, Laned (.trap x0) k :=
  ⟨_, by apply laned_of; (intro s; show execTrap x0 s = _; unfold execTrap issue; rfl); all_goals (intros; rfl)⟩
theorem word_brk {x0} : ∃ k, Laned (.brk x0) k :=
  ⟨_, by apply laned_of; (intro s; show execBrk x0 s = _; unfold execBrk issue; rfl); all_goals (intros; rfl)⟩
theorem word_sleep {x0} : ∃ k, Laned (.sleep x0) k :=
  ⟨_, by apply laned_of; (intro s; show execSleep x0 s = _; unfold execSleep issue; rfl); all_goals (intros; rfl)⟩
theorem word_ld {x0 x1 x2} : ∃ k, Laned (.ld x0 x1 x2) k :=
  ⟨_, by apply laned_of; (intro s; show execLd x0 x1 x2 s = _; unfold execLd issue; rfl); all_goals (intros; rfl)⟩
theorem word_st {x0 x1 x2} : ∃ k, Laned (.st x0 x1 x2) k :=
  ⟨_, by apply laned_of; (intro s; show execSt x0 x1 x2 s = _; unfold execSt issue; rfl); all_goals (intros; rfl)⟩
theorem word_lds {x0 x1 x2} : ∃ k, Laned (.lds x0 x1 x2) k :=
  ⟨_, by apply laned_of; (intro s; show execLds x0 x1 x2 s = _; unfold execLds issue; rfl); all_goals (intros; rfl)⟩
theorem word_sts {x0 x1 x2} : ∃ k, Laned (.sts x0 x1 x2) k :=
  ⟨_, by apply laned_of; (intro s; show execSts x0 x1 x2 s = _; unfold execSts issue; rfl); all_goals (intros; rfl)⟩
theorem word_ldp {x0 x1 x2 x3 x4 x5} : ∃ k, Laned (.ldp x0 x1 x2 x3 x4 x5) k :=
  ⟨_, by apply laned_of; (intro s; show execLdp x0 x1 x2 x3 x4 x5 s = _; unfold execLdp issue; rfl); all_goals (intros; rfl)⟩
theorem word_stp {x0 x1 x2 x3 x4 x5} : ∃ k, Laned (.stp x0 x1 x2 x3 x4 x5) k :=
  ⟨_, by apply laned_of; (intro s; show execStp x0 x1 x2 x3 x4 x5 s = _; unfold execStp issue; rfl); all_goals (intros; rfl)⟩
theorem word_ldk {x0 x1 x2} : ∃ k, Laned (.ldk x0 x1 x2) k :=
  ⟨_, by apply laned_of; (intro s; show execLdk x0 x1 x2 s = _; unfold execLdk issue; rfl); all_goals (intros; rfl)⟩
theorem word_pref {x0 x1 x2} : ∃ k, Laned (.pref x0 x1 x2) k :=
  ⟨_, by apply laned_of; (intro s; show execPref x0 x1 x2 s = _; unfold execPref; rfl); all_goals (intros; rfl)⟩
theorem word_atom {x0 x1 x2 x3 x4 x5 x6 x7} : ∃ k, Laned (.atom x0 x1 x2 x3 x4 x5 x6 x7) k :=
  ⟨_, by apply laned_of; (intro s; show execAtom x0 x1 x2 x3 x4 x5 x6 x7 s = _; unfold execAtom issue; rfl); all_goals (intros; rfl)⟩
theorem word_lr {x0 x1 x2} : ∃ k, Laned (.lr x0 x1 x2) k :=
  ⟨_, by apply laned_of; (intro s; show execLr x0 x1 x2 s = _; unfold execLr issue; rfl); all_goals (intros; rfl)⟩
theorem word_sc {x0 x1 x2} : ∃ k, Laned (.sc x0 x1 x2) k :=
  ⟨_, by apply laned_of; (intro s; show execSc x0 x1 x2 s = _; unfold execSc issue; rfl); all_goals (intros; rfl)⟩
theorem word_fence {x0 x1} : ∃ k, Laned (.fence x0 x1) k :=
  ⟨_, by apply laned_of; (intro s; show execFence x0 x1 s = _; unfold execFence issue; rfl); all_goals (intros; rfl)⟩
theorem word_fenceO2e {x0} : ∃ k, Laned (.fenceO2e x0) k :=
  ⟨_, by apply laned_of; (intro s; show execFenceO2e x0 s = _; unfold execFenceO2e fenceIssue issue; rfl); all_goals (intros; rfl)⟩
theorem word_fenceE2o {x0} : ∃ k, Laned (.fenceE2o x0) k :=
  ⟨_, by apply laned_of; (intro s; show execFenceE2o x0 s = _; unfold execFenceE2o; rfl); all_goals (intros; rfl)⟩
theorem word_wait {x0 x1 x2 x3 x4} : ∃ k, Laned (.wait x0 x1 x2 x3 x4) k :=
  ⟨_, by apply laned_of; (intro s; show execWait x0 x1 x2 x3 x4 s = _; unfold execWait issue; rfl); all_goals (intros; rfl)⟩
theorem word_stb {x0 x1 x2 x3 x4 x5} : ∃ k, Laned (.stb x0 x1 x2 x3 x4 x5) k :=
  ⟨_, by apply laned_of; (intro s; show execStb x0 x1 x2 x3 x4 x5 s = _; unfold execStb issue; rfl); all_goals (intros; rfl)⟩
theorem word_bar {x0 x1 x2} : ∃ k, Laned (.bar x0 x1 x2) k :=
  ⟨_, by apply laned_settled; (intro s; show execBar x0 x1 x2 s = _; unfold execBar; rfl); all_goals (intros; rfl)⟩
theorem word_awinit {x0 x1 x2 x3 x4 x5} : ∃ k, Laned (.awinit x0 x1 x2 x3 x4 x5) k :=
  ⟨_, by apply laned_of; (intro s; show execAwinit x0 x1 x2 x3 x4 x5 s = _; unfold execAwinit issue; rfl); all_goals (intros; rfl)⟩
theorem word_await {x0 x1 x2 x3 x4} : ∃ k, Laned (.await x0 x1 x2 x3 x4) k :=
  ⟨_, by apply laned_of; (intro s; show execAwait x0 x1 x2 x3 x4 s = _; unfold execAwait; rfl); all_goals (intros; rfl)⟩
theorem word_awadd {x0 x1 x2 x3 x4 x5} : ∃ k, Laned (.awadd x0 x1 x2 x3 x4 x5) k :=
  ⟨_, by apply laned_of; (intro s; show execAwadd x0 x1 x2 x3 x4 x5 s = _; unfold execAwadd issue; rfl); all_goals (intros; rfl)⟩
theorem word_awget {x0 x1 x2 x3 x4 x5} : ∃ k, Laned (.awget x0 x1 x2 x3 x4 x5) k :=
  ⟨_, by apply laned_of; (intro s; show execAwget x0 x1 x2 x3 x4 x5 s = _; unfold execAwget issue; rfl); all_goals (intros; rfl)⟩
theorem word_sbind {x0 x1 x2} : ∃ k, Laned (.sbind x0 x1 x2) k :=
  ⟨_, by apply laned_of; (intro s; show execSbind x0 x1 x2 s = _; unfold execSbind issue; rfl); all_goals (intros; rfl)⟩
theorem word_sstart {x0 x1} : ∃ k, Laned (.sstart x0 x1) k :=
  ⟨_, by apply laned_of; (intro s; show execSstart x0 x1 s = _; unfold execSstart issue; rfl); all_goals (intros; rfl)⟩
theorem word_sstop {x0} : ∃ k, Laned (.sstop x0) k :=
  ⟨_, by apply laned_of; (intro s; show execSstop x0 s = _; unfold execSstop; rfl); all_goals (intros; rfl)⟩
theorem word_sstat {x0 x1} : ∃ k, Laned (.sstat x0 x1) k :=
  ⟨_, by apply laned_of; (intro s; show execSstat x0 x1 s = _; unfold execSstat issue; rfl); all_goals (intros; rfl)⟩
theorem word_swadd {x0 x1} : Engined (.swadd x0 x1) :=
  by apply engined_of; (intro s; show execSwadd x0 x1 s = _; unfold execSwadd issueSweep; rfl); all_goals (intros; rfl)
theorem word_swmul {x0 x1} : Engined (.swmul x0 x1) :=
  by apply engined_of; (intro s; show execSwmul x0 x1 s = _; unfold execSwmul issueSweep; rfl); all_goals (intros; rfl)
theorem word_swfma {x0 x1} : Engined (.swfma x0 x1) :=
  by apply engined_of; (intro s; show execSwfma x0 x1 s = _; unfold execSwfma issueSweep; rfl); all_goals (intros; rfl)
theorem word_swmax {x0 x1} : Engined (.swmax x0 x1) :=
  by apply engined_of; (intro s; show execSwmax x0 x1 s = _; unfold execSwmax issueSweep; rfl); all_goals (intros; rfl)
theorem word_swmin {x0 x1} : Engined (.swmin x0 x1) :=
  by apply engined_of; (intro s; show execSwmin x0 x1 s = _; unfold execSwmin issueSweep; rfl); all_goals (intros; rfl)
theorem word_swexp {x0 x1} : Engined (.swexp x0 x1) :=
  by apply engined_of; (intro s; show execSwexp x0 x1 s = _; unfold execSwexp issueSweep; rfl); all_goals (intros; rfl)
theorem word_swrcp {x0 x1} : Engined (.swrcp x0 x1) :=
  by apply engined_of; (intro s; show execSwrcp x0 x1 s = _; unfold execSwrcp issueSweep; rfl); all_goals (intros; rfl)
theorem word_swcvt {x0 x1 x2} : Engined (.swcvt x0 x1 x2) :=
  by apply engined_of; (intro s; show execSwcvt x0 x1 x2 s = _; unfold execSwcvt issueSweep; rfl); all_goals (intros; rfl)
theorem word_swqmx {x0 x1 x2} : Engined (.swqmx x0 x1 x2) :=
  by apply engined_of; (intro s; show execSwqmx x0 x1 x2 s = _; unfold execSwqmx issueSweep; rfl); all_goals (intros; rfl)
theorem word_swdmx {x0 x1 x2} : Engined (.swdmx x0 x1 x2) :=
  by apply engined_of; (intro s; show execSwdmx x0 x1 x2 s = _; unfold execSwdmx issueSweep; rfl); all_goals (intros; rfl)
theorem word_swred {x0 x1 x2 x3} : Engined (.swred x0 x1 x2 x3) :=
  by apply engined_of; (intro s; show execSwred x0 x1 x2 x3 s = _; unfold execSwred issueSweep; rfl); all_goals (intros; rfl)
theorem word_swcmp {x0 x1 x2} : Engined (.swcmp x0 x1 x2) :=
  by apply engined_of; (intro s; show execSwcmp x0 x1 x2 s = _; unfold execSwcmp issueSweep; rfl); all_goals (intros; rfl)
theorem word_swsel {x0 x1} : Engined (.swsel x0 x1) :=
  by apply engined_of; (intro s; show execSwsel x0 x1 s = _; unfold execSwsel issueSweep; rfl); all_goals (intros; rfl)
theorem word_swcpy {x0 x1} : Engined (.swcpy x0 x1) :=
  by apply engined_of; (intro s; show execSwcpy x0 x1 s = _; unfold execSwcpy issueSweep; rfl); all_goals (intros; rfl)
theorem word_swgat {x0 x1} : Engined (.swgat x0 x1) :=
  by apply engined_of; (intro s; show execSwgat x0 x1 s = _; unfold execSwgat issueSweep; rfl); all_goals (intros; rfl)
theorem word_swtrn {x0} : Engined (.swtrn x0) :=
  by apply engined_of; (intro s; show execSwtrn x0 s = _; unfold execSwtrn issueSweep; rfl); all_goals (intros; rfl)
theorem word_tgang {x0 x1 x2} : Engined (.tgang x0 x1 x2) :=
  by apply engined_of; (intro s; show execTgang x0 x1 x2 s = _; unfold execTgang issueTile; rfl); all_goals (intros; rfl)
theorem word_tldb {x0 x1 x2 x3} : Engined (.tldb x0 x1 x2 x3) :=
  by apply engined_of; (intro s; show execTldb x0 x1 x2 x3 s = _; unfold execTldb issueTile; rfl); all_goals (intros; rfl)
theorem word_tldm {x0 x1 x2} : Engined (.tldm x0 x1 x2) :=
  by apply engined_of; (intro s; show execTldm x0 x1 x2 s = _; unfold execTldm issueTile; rfl); all_goals (intros; rfl)
theorem word_tzero {x0 x1} : Engined (.tzero x0 x1) :=
  by apply engined_of; (intro s; show execTzero x0 x1 s = _; unfold execTzero issueTile; rfl); all_goals (intros; rfl)
theorem word_tst {x0 x1 x2 x3 x4 x5 x6 x7} : Engined (.tst x0 x1 x2 x3 x4 x5 x6 x7) :=
  by apply engined_of; (intro s; show execTst x0 x1 x2 x3 x4 x5 x6 x7 s = _; unfold execTst issueTile; rfl); all_goals (intros; rfl)
theorem word_tstat {x0 x1} : Engined (.tstat x0 x1) :=
  by apply engined_of; (intro s; show execTstat x0 x1 s = _; unfold execTstat; rfl); all_goals (intros; rfl)
theorem word_tmir {x0 x1} : Engined (.tmir x0 x1) :=
  by apply engined_of; (intro s; show execTmir x0 x1 s = _; unfold execTmir issueTile; rfl); all_goals (intros; rfl)
theorem word_claim {x0 x1} : Engined (.claim x0 x1) :=
  by apply engined_of; (intro s; show execClaim x0 x1 s = _; unfold execClaim; rfl); all_goals (intros; rfl)
theorem word_flow {x0 x1 x2 x3 x4} : Engined (.flow x0 x1 x2 x3 x4) :=
  by apply engined_of; (intro s; show execFlow x0 x1 x2 x3 x4 s = _; unfold execFlow; rfl); all_goals (intros; rfl)
theorem word_rlse {x0 x1} : Engined (.rlse x0 x1) :=
  by apply engined_of; (intro s; show execRlse x0 x1 s = _; unfold execRlse; rfl); all_goals (intros; rfl)
theorem word_cqry {x0 x1} : Engined (.cqry x0 x1) :=
  by apply engined_of; (intro s; show execCqry x0 x1 s = _; unfold execCqry; rfl); all_goals (intros; rfl)
theorem word_cpin {x0 x1 x2} : Engined (.cpin x0 x1 x2) :=
  by apply engined_of; (intro s; show execCpin x0 x1 x2 s = _; unfold execCpin; rfl); all_goals (intros; rfl)
theorem word_cunpin {x0 x1 x2} : Engined (.cunpin x0 x1 x2) :=
  by apply engined_of; (intro s; show execCunpin x0 x1 x2 s = _; unfold execCunpin; rfl); all_goals (intros; rfl)
theorem word_puts {x0 x1 x2 x3 x4} : Engined (.puts x0 x1 x2 x3 x4) :=
  by apply engined_of; (intro s; show execPuts x0 x1 x2 x3 x4 s = _; unfold execPuts issueFab; rfl); all_goals (intros; rfl)
theorem word_get {x0 x1 x2 x3 x4} : Engined (.get x0 x1 x2 x3 x4) :=
  by apply engined_of; (intro s; show execGet x0 x1 x2 x3 x4 s = _; unfold execGet issueFab; rfl); all_goals (intros; rfl)
theorem word_radd {x0 x1 x2 x3 x4} : Engined (.radd x0 x1 x2 x3 x4) :=
  by apply engined_of; (intro s; show execRadd x0 x1 x2 x3 x4 s = _; unfold execRadd issueFab; rfl); all_goals (intros; rfl)
theorem word_ratom {x0 x1 x2 x3 x4 x5} : Engined (.ratom x0 x1 x2 x3 x4 x5) :=
  by apply engined_of; (intro s; show execRatom x0 x1 x2 x3 x4 x5 s = _; unfold execRatom issueFab; rfl); all_goals (intros; rfl)
theorem word_mcst {x0 x1 x2 x3 x4} : Engined (.mcst x0 x1 x2 x3 x4) :=
  by apply engined_of; (intro s; show execMcst x0 x1 x2 x3 x4 s = _; unfold execMcst issueFab; rfl); all_goals (intros; rfl)
theorem word_mcseq {x0 x1} : Engined (.mcseq x0 x1) :=
  by apply engined_of; (intro s; show execMcseq x0 x1 s = _; unfold execMcseq; rfl); all_goals (intros; rfl)
theorem word_ring {x0 x1} : Engined (.ring x0 x1) :=
  by apply engined_of; (intro s; show execRing x0 x1 s = _; unfold execRing issueFab; rfl); all_goals (intros; rfl)
theorem word_lset {x0 x1} : ∃ k, Laned (.lset x0 x1) k :=
  ⟨_, by apply laned_launch; (intro s; show execLset x0 x1 s = _; unfold execLset inPrologue; rfl); all_goals (intros; rfl)⟩
theorem word_evsig {x0 x1 x2 x3} : ∃ k, Laned (.evsig x0 x1 x2 x3) k :=
  ⟨_, by apply laned_of; (intro s; show execEvsig x0 x1 x2 x3 s = _; unfold execEvsig issue; rfl); all_goals (intros; rfl)⟩
theorem word_evwait {x0 x1 x2 x3 x4} : ∃ k, Laned (.evwait x0 x1 x2 x3 x4) k :=
  ⟨_, by apply laned_of; (intro s; show execEvwait x0 x1 x2 x3 x4 s = _; unfold execEvwait; rfl); all_goals (intros; rfl)⟩
theorem word_gcheck {x0} : ∃ k, Laned (.gcheck x0) k :=
  ⟨_, by apply laned_settled; (intro s; show execGcheck x0 s = _; unfold execGcheck; rfl); all_goals (intros; rfl)⟩
theorem word_gets {x0 x1} : ∃ k, Laned (.gets x0 x1) k :=
  ⟨_, by apply laned_of; (intro s; show execGets x0 x1 s = _; unfold execGets issue; rfl); all_goals (intros; rfl)⟩
theorem word_sets {x0 x1} : ∃ k, Laned (.sets x0 x1) k :=
  ⟨_, by apply laned_of; (intro s; show execSets x0 x1 s = _; unfold execSets; rfl); all_goals (intros; rfl)⟩
theorem word_nop : ∃ k, Laned (.nop) k :=
  ⟨_, by apply laned_of; (intro s; show execNop s = _; unfold execNop laneP issue; rfl); all_goals (intros; rfl)⟩
theorem word_ret : ∃ k, Laned (.ret) k :=
  ⟨_, by apply laned_of; (intro s; show execRet s = _; unfold execRet issue; rfl); all_goals (intros; rfl)⟩
theorem word_exit : ∃ k, Laned (.exit) k :=
  ⟨_, by apply laned_settled; (intro s; show execExit s = _; unfold execExit issue; rfl); all_goals (intros; rfl)⟩
theorem word_yield : ∃ k, Laned (.yield) k :=
  ⟨_, by apply laned_of; (intro s; show execYield s = _; unfold execYield; rfl); all_goals (intros; rfl)⟩
theorem word_fquiet : ∃ k, Laned (.fquiet) k :=
  ⟨_, by apply laned_of; (intro s; show execFquiet s = _; unfold execFquiet issue; rfl); all_goals (intros; rfl)⟩
theorem word_lcancel : ∃ k, Laned (.lcancel) k :=
  ⟨_, by apply laned_launch; (intro s; show execLcancel s = _; unfold execLcancel inPrologue; rfl); all_goals (intros; rfl)⟩
theorem word_lrepeat : ∃ k, Laned (.lrepeat) k :=
  ⟨_, by apply laned_launch; (intro s; show execLrepeat s = _; unfold execLrepeat inPrologue; rfl); all_goals (intros; rfl)⟩
theorem word_lend : ∃ k, Laned (.lend) k :=
  ⟨_, by apply laned_launch; (intro s; show execLend s = _; unfold execLend inPrologue; rfl); all_goals (intros; rfl)⟩

/-- Every word but a header, a REP and a TMMA has one of the two shapes. -/
theorem plainWord_shape (i : Instr) (h : isPlainWord i = true) (ht : ∀ d a b c, i ≠ .tmma d a b c) : (∃ k, Laned i k) ∨ Engined i := by
  cases i
  case mov => exact .inl word_mov
  case movi => exact .inl word_movi
  case add => exact .inl word_add
  case addi => exact .inl word_addi
  case sub => exact .inl word_sub
  case mul => exact .inl word_mul
  case mulh => exact .inl word_mulh
  case mad => exact .inl word_mad
  case div => exact .inl word_div
  case rem => exact .inl word_rem
  case min => exact .inl word_min
  case max => exact .inl word_max
  case abs => exact .inl word_abs
  case neg => exact .inl word_neg
  case dp4 => exact .inl word_dp4
  case band => exact .inl word_band
  case bor => exact .inl word_bor
  case bxor => exact .inl word_bxor
  case bandn => exact .inl word_bandn
  case andi => exact .inl word_andi
  case ori => exact .inl word_ori
  case xori => exact .inl word_xori
  case lop3 => exact .inl word_lop3
  case shl => exact .inl word_shl
  case shr => exact .inl word_shr
  case sar => exact .inl word_sar
  case rot => exact .inl word_rot
  case shli => exact .inl word_shli
  case shri => exact .inl word_shri
  case sari => exact .inl word_sari
  case clz => exact .inl word_clz
  case popc => exact .inl word_popc
  case brev => exact .inl word_brev
  case bfx => exact .inl word_bfx
  case bfi => exact .inl word_bfi
  case cmp => exact .inl word_cmp
  case cmpi => exact .inl word_cmpi
  case sel => exact .inl word_sel
  case lea => exact .inl word_lea
  case cvti => exact .inl word_cvti
  case satn => exact .inl word_satn
  case fadd => exact .inl word_fadd
  case fsub => exact .inl word_fsub
  case fmul => exact .inl word_fmul
  case ffma => exact .inl word_ffma
  case fmin => exact .inl word_fmin
  case fmax => exact .inl word_fmax
  case fcmp => exact .inl word_fcmp
  case fdiv => exact .inl word_fdiv
  case frcp => exact .inl word_frcp
  case frsq => exact .inl word_frsq
  case fsqrt => exact .inl word_fsqrt
  case fexp2 => exact .inl word_fexp2
  case flog2 => exact .inl word_flog2
  case fsin => exact .inl word_fsin
  case fcos => exact .inl word_fcos
  case ftanh => exact .inl word_ftanh
  case frnd => exact .inl word_frnd
  case fcvt => exact .inl word_fcvt
  case ftoi => exact .inl word_ftoi
  case itof => exact .inl word_itof
  case fclass => exact .inl word_fclass
  case fscale => exact .inl word_fscale
  case bset => exact .inl word_bset
  case bget => exact .inl word_bget
  case badd => exact .inl word_badd
  case bmul => exact .inl word_bmul
  case bfma => exact .inl word_bfma
  case bmax => exact .inl word_bmax
  case bnorm => exact .inl word_bnorm
  case bqnt => exact .inl word_bqnt
  case bdeq => exact .inl word_bdeq
  case bcvt => exact .inl word_bcvt
  case shfl => exact .inl word_shfl
  case vote => exact .inl word_vote
  case red => exact .inl word_red
  case scan => exact .inl word_scan
  case vmatch => exact .inl word_vmatch
  case elect => exact .inl word_elect
  case bcast => exact .inl word_bcast
  case br => exact .inl word_br
  case bra => exact .inl word_bra
  case jmpr => exact .inl word_jmpr
  case call => exact .inl word_call
  case callr => exact .inl word_callr
  case join => exact .inl word_join
  case mark => exact .inl word_mark
  case cut => exact .inl word_cut
  case graft => exact .inl word_graft
  case drop => exact .inl word_drop
  case trap => exact .inl word_trap
  case brk => exact .inl word_brk
  case sleep => exact .inl word_sleep
  case ld => exact .inl word_ld
  case st => exact .inl word_st
  case lds => exact .inl word_lds
  case sts => exact .inl word_sts
  case ldp => exact .inl word_ldp
  case stp => exact .inl word_stp
  case ldk => exact .inl word_ldk
  case pref => exact .inl word_pref
  case atom => exact .inl word_atom
  case lr => exact .inl word_lr
  case sc => exact .inl word_sc
  case fence => exact .inl word_fence
  case fenceO2e => exact .inl word_fenceO2e
  case fenceE2o => exact .inl word_fenceE2o
  case wait => exact .inl word_wait
  case stb => exact .inl word_stb
  case bar => exact .inl word_bar
  case awinit => exact .inl word_awinit
  case await => exact .inl word_await
  case awadd => exact .inl word_awadd
  case awget => exact .inl word_awget
  case sbind => exact .inl word_sbind
  case sstart => exact .inl word_sstart
  case sstop => exact .inl word_sstop
  case sstat => exact .inl word_sstat
  case swadd => exact .inr word_swadd
  case swmul => exact .inr word_swmul
  case swfma => exact .inr word_swfma
  case swmax => exact .inr word_swmax
  case swmin => exact .inr word_swmin
  case swexp => exact .inr word_swexp
  case swrcp => exact .inr word_swrcp
  case swcvt => exact .inr word_swcvt
  case swqmx => exact .inr word_swqmx
  case swdmx => exact .inr word_swdmx
  case swred => exact .inr word_swred
  case swcmp => exact .inr word_swcmp
  case swsel => exact .inr word_swsel
  case swcpy => exact .inr word_swcpy
  case swgat => exact .inr word_swgat
  case swtrn => exact .inr word_swtrn
  case tgang => exact .inr word_tgang
  case tldb => exact .inr word_tldb
  case tldm => exact .inr word_tldm
  case tzero => exact .inr word_tzero
  case tst => exact .inr word_tst
  case tstat => exact .inr word_tstat
  case tmir => exact .inr word_tmir
  case claim => exact .inr word_claim
  case flow => exact .inr word_flow
  case rlse => exact .inr word_rlse
  case cqry => exact .inr word_cqry
  case cpin => exact .inr word_cpin
  case cunpin => exact .inr word_cunpin
  case puts => exact .inr word_puts
  case get => exact .inr word_get
  case radd => exact .inr word_radd
  case ratom => exact .inr word_ratom
  case mcst => exact .inr word_mcst
  case mcseq => exact .inr word_mcseq
  case ring => exact .inr word_ring
  case lset => exact .inl word_lset
  case evsig => exact .inl word_evsig
  case evwait => exact .inl word_evwait
  case gcheck => exact .inl word_gcheck
  case gets => exact .inl word_gets
  case sets => exact .inl word_sets
  case nop => exact .inl word_nop
  case ret => exact .inl word_ret
  case exit => exact .inl word_exit
  case yield => exact .inl word_yield
  case fquiet => exact .inl word_fquiet
  case lcancel => exact .inl word_lcancel
  case lrepeat => exact .inl word_lrepeat
  case lend => exact .inl word_lend
  case tmma d a b c => exact absurd rfl (ht d a b c)
  all_goals exact absurd h Bool.false_ne_true

end Sys2Proof.Machine
end

