-- ==== Sys2Proof/Tests/Slice0.lean ====
section
/-! SUPPORT. The model's own tests: ill-formed terms that WellFormed refuses, words of the spec that decode, and small
states on which the hypotheses of the statements hold. -/

namespace Sys2Proof.Tests

open Machine

set_option Elab.async false

/-! ### Well-formedness: one ill-formed term for each check -/

theorem test_wf_type : (Instr.add .f32 3 1 2 false).wf = false := by decide
theorem test_wf_sat : (Instr.lop3 .i16x2 3 1 2 0 0x96).wf = false := by decide
theorem test_wf_imm32 : (Instr.addi .i32 4 4 0x100000000).wf = false := by decide
theorem test_wf_shift : (Instr.shli .i32 4 4 32).wf = false := by decide
theorem test_wf_bitfield : (Instr.bfx .i32 4 4 31 1).wf = false := by decide
theorem test_wf_cond : (Instr.cmp .i32 1 2 3 .uno).wf = false := by decide
theorem test_wf_same_types : (Instr.cvti 1 2 .i8 .i8).wf = false := by decide
theorem test_wf_float_sr : (Instr.fadd .f32 1 2 3 { rnd := .sr }).wf = false := by decide
theorem test_wf_float_type : (Instr.frsq .f64 1 2 {}).wf = false := by decide
theorem test_wf_fcvt : (Instr.fcvt .f32 .f32 1 2 0 {}).wf = false := by decide
theorem test_wf_red : (Instr.red .f32 1 2 .and .dyn).wf = false := by decide
theorem test_wf_acq_store : (Instr.st .b32 1 { base := 2, off := 0, ord := .acq, scope := .dev }).wf = false := by decide
theorem test_wf_plain_scope : (Instr.ld .b32 1 { base := 2, off := 0, scope := .dev }).wf = false := by decide
theorem test_wf_sweep : (Instr.swadd { ty := .f32, count := 1, d := 0, a := 0, b := 0, bound := 0 } { rnd := .sr }).wf = false := by
  decide
theorem test_wf_gets : (Instr.gets 1 0xFFF).wf = false := by decide
theorem test_wf_sets_ro : (Instr.sets 0x000 1).wf = false := by decide
theorem test_wf_lset : (Instr.lset 1 0x005).wf = false := by decide
theorem test_wf_evscope : (Instr.evsig 1 2 3 .core).wf = false := by decide
theorem test_wf_bar : (Instr.bar 0 false 1025).wf = false := by decide
theorem test_wf_tst : (Instr.tst 1 2 4 false true .rne .mxf4 0).wf = false := by decide

/-! ### Words that spec/ writes out -/

theorem test_decode_lane : [0x0300180404000000, 0x04002013FFFFFFF8, 0x2920102400000064, 0x438038100A060009].map (decodeTableWord 64) =
    [some (.add .i32 3 1 2 false), some (.addi .i32 4 4 0x3FFFFFFF8), some (.cmpi .lt 2 9 100),
      some (.ffma .f32 7 4 5 6 { nega := true, rnd := .rne })] := by decide
theorem test_decode_block_cross : [0x6200180404000008, 0x7000281000000016].map (decodeTableWord 64) =
    [some (.badd 3 1 2 { rnd := .rne, ty := .e4m3 }), some (.shfl .i32 5 4 0 .down true 1)] := by decide
theorem test_decode_control : [0x801028FFFFFFFFFB, 0x830000000000000C, 0x8900A02000000004, 0x8C0000000000002A,
    0x9E31100000000000].map (decodeTableWord 64) = [some (.br .nz 5 0xFFFFFFFFFB), some (.call 12), some (.cut 20 8 4), some (.trap 42),
      some (.rep 3 1 1 0 0)] := by decide
theorem test_decode_memory : [0xA0203020000402C0, 0xA4201803FFFF4000, 0xA8203020000006C0, 0xAC0000003F03F03F,
    0xB1002020000002C0, 0xB400383000000002].map (decodeTableWord 64) =
    [some (.ld .b32 6 { base := 8, off := 0x40, ord := .acq, scope := .dev }), some (.ldp .b32 3 0 0x3FFFF4 .fp false),
      some (.atom false false .add 6 8 0 .ar .dev), some (.wait 63 0 63 0 63), some (.await false 4 8 0 .dev),
      some (.sbind 7 12 2)] := by decide
theorem test_decode_sweep : [0xC080080502C18180, 0xC180010684014081, 0xC880040A05400032].map (decodeTableWord 64) =
    [some (.swadd { ty := .f32, count := 8, d := 10, a := 11, b := 12, bound := 3 } {}),
      some (.swmul { ty := .f32, count := 1, d := 13, a := 16, b := 10, bound := 1 } { scal := true }),
      some (.swqmx { ty := .f32, count := 4, d := 20, a := 21, b := 0, bound := 0 } .mxf8a .rne)] := by decide
theorem test_decode_tile : [0xD000A85C00000002, 0xD101104438140000, 0xD300F04024140000, 0xD500F85830000442].map (decodeTableWord 64) =
    [some (.tgang 21 23 2), some (.tldb 34 17 28 20), some (.tmma 30 16 18 20), some (.tst 31 22 24 false false .rne .bf16 2)] := by
  decide
theorem test_decode_copy : [0xD800A03000000000, 0xD900B050301A0000, 0xDB00A01000000000].map (decodeTableWord 64) =
    [some (.claim 20 12), some (.flow 22 20 24 26 false), some (.cqry 20 4)] := by decide
theorem test_decode_fabric : [0xE000B050301A0000, 0xE300F050301A000A, 0xE400B050301A0000, 0xE500305000000000,
    0xE600B05000000000, 0xE700000000000000].map (decodeTableWord 64) =
    [some (.puts 22 20 24 26 false), some (.ratom false .cas 30 20 24 26), some (.mcst 22 20 24 26 false), some (.mcseq 6 20),
      some (.ring 22 20), some .fquiet] := by decide
theorem test_decode_launched : [0xE800001800000402, 0xEC00281812000003, 0xED002818100A0003, 0xEE00001C00000000,
    0xF000500000000020].map (decodeTableWord 64) = [some (.lset 6 0x402), some (.evsig 5 6 9 .dev), some (.evwait 5 6 8 10 .dev),
      some (.gcheck 7), some (.gets 10 0x020)] := by decide
theorem test_decode_headers : (decodeHeader 0xA42FFFFFFFC00000).cls = 4 ∧ (decodeHeader 0xA0203FFFFFC00000).wL = 0 ∧
    decodeTableWord 64 0 = some .nop ∧ decodeTableWord 64 0x00FF000000000000 = none := by decide

/-! ### Small states -/

/-- A thread in a path behind the header at 0x1000, with sixteen registers. -/
def thr (rs : List Word) : Thread :=
  { regs := rs ++ List.replicate (16 - rs.length) 0, st := .inPath, pos := { hdr := 0x1000, widx := 1 }, sp := 8, fp := 8 }

/-- A unit of two threads in one path, at the word `widx` of a clause of four words. -/
def unitOf (a b : List Word) (widx : Nat) : UnitSt :=
  { uid := 7, ctx := 0, launch := 3, nregs := 16, npriv := 64, nscr := 1024, threads := [thr a, thr b]
    bundles := [{ bid := 0, quad := 0, slots := [some 0, some 1] ++ List.replicate 30 none
                  path0 := some { tids := [0, 1], hdr := 0x1000, widx := widx, cnt := 4 } }]
    zs := [List.replicate 64 0x7F7F7F7F7F7F7F7F], frames := [0] }

/-- A unit of one thread. -/
def unitOne (t : Thread) (widx cls : Nat) : UnitSt :=
  { unitOf [] [] 1 with
    threads := [t]
    bundles := [{ bid := 0, quad := 0, slots := some 0 :: List.replicate 31 none
                  path0 := some { tids := [0], hdr := 0x1000, widx := widx, cnt := 4, cls := cls } }] }

/-- The path of that unit issues; context 0 has one page of memory, at 0x10000, and is live. -/
def stateOf (u : UnitSt) : State :=
  { State.reset with
    units := [u], cur := some { unit := 7, bundle := 0, slot := false }, nextId := 100
    map1 := [{ root := 0, va := 0, size := 65536, ipa := 0, r := true, w := true, x := true, user := true }]
    map2 := [{ root := 0, ipa := 0, size := 65536, pa := 0x10000, r := true, w := true, x := true, world := 0 }]
    ctxs := [{ ctx := 0, live := true }], launches := [{ lid := 3, ctx := 0, cmd := 0, st := .running }] }

/-- Thread 0 has registers 1, 2, 3 and so on; thread 1 has others. -/
def s0 : State := stateOf (unitOf [10, 0xFFFFFFFF, 2, 7, 0x20, 0, 0x40, 0, 0x80000000] [11, 5, 3, 9, 0x30, 0, 0x50, 0, 1] 1)

/-- The same at the last word of its clause. -/
def sEnd : State := stateOf (unitOf [10, 0xFFFFFFFF, 2, 7, 0x2000, 0, 0x40, 0, 1] [11, 5, 3, 9, 0x3000, 0, 0x50, 0, 1] 4)

def viewOf (s : State) : View := (s.view?).getD { pr := { unit := 0, bundle := 0, slot := false }, u := { uid := 0, ctx := 0, launch := 0 }, b := { bid := 0, quad := 0, slots := [] }, p := { tids := [], hdr := 0, widx := 0 } }

/-- What each thread of the path reads. -/
def opsOf (v : View) (us : List RegUse) (t : Nat) : Thread × Opnds :=
  match (v.u.thread t).fetch us with
  | .ok th o => (th, o)
  | _ => ({ regs := [] }, {})

def openB (s : State) (v : View) : Bool :=
  s.view? == some v && decide v.p.tids.Nodup &&
    (v.p.tids.all fun t => decide (t < v.u.threads.length) && (v.u.thread t).st == .inPath) && v.p.hdr.toNat % 8 == 0

def readsB (s : State) (v : View) (lane : Bool) (us : List RegUse) : Bool :=
  v.p.tids.all fun t => (v.u.thread t).useBad v.u.nregs lane us == none &&
    (us.all fun x => !s.pending v.u.uid t x.reg.toNat x.n) && (match (v.u.thread t).fetch us with | .ok _ _ => true | _ => false)

theorem open_of {s : State} {v : View} (h : openB s v = true) : View.Open s v := by
  simp only [openB, Bool.and_eq_true, beq_iff_eq, decide_eq_true_eq, List.all_eq_true] at h
  exact ⟨h.1.1.1, h.1.1.2, h.1.2, h.2⟩

theorem reads_of {s : State} {v : View} {lane : Bool} {us : List RegUse} (h : readsB s v lane us = true) :
    View.AllRead s v lane us (opsOf v us) := by
  intro t ht
  simp only [readsB, List.all_eq_true, Bool.and_eq_true, beq_iff_eq, Bool.not_eq_true'] at h
  obtain ⟨⟨h1, h2⟩, h3⟩ := h t ht
  refine ⟨h1, h2, ?_⟩
  unfold opsOf
  split at h3 <;> simp_all

/-- The hypotheses of a statement on a path whose threads all read `us`. -/
def Ready (s : State) (lane : Bool) (us : List RegUse) : Prop :=
  View.Open s (viewOf s) ∧ (viewOf s).u.role ≠ .prologue ∧ (viewOf s).p.tids ≠ [] ∧
    View.AllRead s (viewOf s) lane us (opsOf (viewOf s) us)

def readyB (s : State) (lane : Bool) (us : List RegUse) : Bool :=
  openB s (viewOf s) && (viewOf s).u.role != .prologue && !(viewOf s).p.tids.isEmpty && readsB s (viewOf s) lane us

theorem ready_of {s : State} {lane : Bool} {us : List RegUse} (h : readyB s lane us = true) : Ready s lane us := by
  simp only [readyB, Bool.and_eq_true, bne_iff_ne, ne_eq, Bool.not_eq_true', List.isEmpty_eq_false_iff] at h
  exact ⟨open_of h.1.1.1, h.1.1.2, h.1.2, reads_of h.2⟩

/-- What a test asks of the next state. -/
def onNext (o : Out) (p : State → Bool) : Bool :=
  match o with
  | .next s => p s
  | _ => false

/-- Register `r` of thread `t` of the unit after an instruction. -/
def regAfter (i : Instr) (s : State) (t r : Nat) : Option Word :=
  match exec i s with
  | .next s' => (s'.unit? 7).map fun u => (u.thread t).reg r
  | _ => none

/-! ### Integer, logic, float and bit instructions -/

theorem witness_integer : Ready s0 true [tdst .i32 3, tsrc .a .i32 1, tsrc .b .i32 2, tsrc .c .i32 4] :=
  ready_of (by decide +kernel)
theorem witness_integer_pair : Ready s0 true [tdst .i64 6, tsrc .a .i64 2, tsrc .b .i64 4] := ready_of (by decide +kernel)
theorem witness_last_word : Ready sEnd true [dst 3, tsrc .a .i32 1] := ready_of (by decide +kernel)
theorem witness_lea : Ready s0 true [dst 6 2, src .a 4 2, src .b 0] := ready_of (by decide +kernel)
theorem witness_fcvt_byte : Ready s0 true [srcDst 3, tsrc .a .f32 1] := ready_of (by decide +kernel)
theorem test_add : regAfter (.add .i32 3 1 2 false) s0 0 3 = some 1 ∧ regAfter (.add .i32 3 8 8 true) s0 0 3 = some 0x80000000 := by
  decide +kernel
theorem test_sub : regAfter (.sub .i16x2 3 2 1 false) s0 0 3 = some 0x00010003 := by decide +kernel
theorem test_mulh : regAfter (.mulh .n32 3 1 1) s0 0 3 = some 0xFFFFFFFE ∧ regAfter (.mulh .i32 3 1 1) s0 0 3 = some 0 := by
  decide +kernel
theorem test_mad : regAfter (.mad .i32 3 2 2 0 false) s0 0 3 = some 14 := by decide +kernel
theorem test_div : regAfter (.div .i32 3 8 1) s0 0 3 = some 0x80000000 ∧ regAfter (.div .n32 3 2 5) s0 0 3 = some 0xFFFFFFFF := by
  decide +kernel
theorem test_rem : regAfter (.rem .i32 3 8 1) s0 0 3 = some 0 ∧ regAfter (.rem .i32 3 1 2) s0 0 3 = some 0xFFFFFFFF := by
  decide +kernel
theorem test_abs_neg : regAfter (.abs .i32 3 8 true) s0 0 3 = some 0x7FFFFFFF ∧ regAfter (.neg .n32 3 2 true) s0 0 3 = some 0 := by
  decide +kernel
theorem test_lop3 : regAfter (.lop3 .i32 3 0 2 4 0x96) s0 0 3 = some 0x28 ∧ regAfter (.lop3 .i32 3 0 2 1 0xE8) s0 0 3 = some 10 := by
  decide +kernel
theorem test_shifts : regAfter (.sar .n32 3 8 1) s0 0 3 = some 0xFFFFFFFF ∧ regAfter (.rot .i32 3 0 1) s0 0 3 = some 5 := by
  decide +kernel
theorem test_bfx : regAfter (.bfx .i32 3 0 1 2) s0 0 3 = some 0xFFFFFFFD ∧ regAfter (.bfx .n32 3 0 1 2) s0 0 3 = some 5 := by
  decide +kernel
theorem test_cmp : regAfter (.cmpi .lt 2 0 100) s0 0 2 = some 1 ∧ regAfter (.cmp .i16x2 3 1 2 .lt) s0 0 3 = some 0xFFFFFFFF := by
  decide +kernel

/-- R135's example: CVTI.i8.n32 and SATN.i8.n32 of 0x1F0. -/
theorem test_cvti_satn : convV false .n32 .i8 0x1F0 = 0xFFFFFFF0 ∧ convV true .n32 .i8 0x1F0 = 0x7F := by decide +kernel
/-- R63's and R65's examples. -/
theorem test_worked_conversions : fE4m3.round .rne false (fp32.dec 0x43FA0000) = 0x7E ∧
    fE4m3.round .rne false (fp32.dec 0x43E60000) = 0x7E ∧ fE4m3.round .rne false (fp32.dec 0x43EB0000) = 0x7E ∧
    fE5m2.round .rne false (fp32.dec 0x43FA0000) = 0x60 ∧ fE4m3.round (.sr 0x4000) false (fp32.dec 0x3F880000) = 0x39 ∧
    lfsr 0x4000 = 0x2000 := by decide +kernel
theorem test_fadd : regAfter (.fadd .f32 3 1 0 {}) (stateOf (unitOf [0x3F800000, 0x40000000] [] 1)) 0 3 = some 0x40400000 := by
  decide +kernel
theorem test_ffma : regAfter (.ffma .f32 3 0 1 0 { nega := true }) (stateOf (unitOf [0x3F800000, 0x40000000] [] 1)) 0 3 =
    some 0xBF800000 := by decide +kernel
theorem test_fdiv_zero : regAfter (.fdiv .f32 3 0 2 {}) (stateOf (unitOf [0x3F800000, 0x40000000] [] 1)) 0 3 =
    some 0x7F800000 := by decide +kernel

/-! The hypotheses of the statements about results -/

theorem witness_divisions : ((0 : Int) = 0) ∧ ((-128 : Int) = -(2 ^ (8 - 1)) ∧ (-1 : Int) = -1) ∧ ((3 : Int) ≠ 0) := by decide
theorem witness_lop3 : 0 < Ty.width .i32 ∧ Ty.width .i64 ≤ 128 ∧ (1#8 : BitVec 8) ≠ 0 := by decide
theorem witness_shifts : 0 < 32 ∧ 0x80000000 < 2 ^ 32 ∧ 31 < 32 ∧ 32 ≤ (32#34).toNat ∧ 64 ≤ (64#34).toNat ∧ 0x1C#8 ∈ [0x1C#8] := by
  decide
theorem witness_bits : 0xFFFF < 2 ^ 16 ∧ 0 + 32 ≤ Ty.width .i32 ∧ Ty.width .i64 ≤ 64 ∧ 31 < Ty.width .i32 := by decide
theorem witness_conditions : Ty.lanes .i32 = 1 ∧ 1 < Ty.lanes .i8x4 ∧ 3 < Ty.lanes .i8x4 ∧ Val.isNan .nan = true ∧
    CvtTy.width .i16 < 32 ∧ 32 ≤ CvtTy.width .n32 := by decide
theorem witness_special_operands : fp32 ∈ [fp64, fp32, fp16, bf16, fE5m2] ∧ fE4m3 ∈ [fE4m3, fE3m2, fE2m3, fE2m1] ∧
    ∃ x ∈ [((.inf true : Val), (RM.rne : RM))], x.1.isNan = true ∨ x.1.isInf = true := by
  exact ⟨by decide, by decide, (.inf true, .rne), by simp, by decide⟩
theorem witness_rounding : 0x00000001 < 2 ^ (fp32.signPos + 1) ∧ (fp32.dec 1 = .fin false 1 (-149)) ∧
    0 < 1 ∧ (2 ^ fp32.expBits - (fp32.bias : Int) ≤ (Nat.log2 1 : Int) + 129) := by decide +kernel
theorem witness_min_max : Val.isNan .nan = true ∧ Val.isNan (.fin true 0 0) = false ∧ (-128 : Int) ≤ 0 ∧ (0 : Int) ≤ 127 := by decide
theorem witness_generator : (0 : Nat) < (({ lid := 3, ctx := 0, cmd := 0 } : Launch).kernel false).thr ∧ (1#32 : BitVec 32) ≠ 0 := by
  decide +kernel
theorem witness_renormalised : (∃ x ∈ [((.nan : Val), (RM.rne : RM))], x.1.isNan = true ∨ x.1.isInf = true) ∧
    (∀ x ∈ [((.fin true 0 0 : Val), (RM.rne : RM))], x.1.isZero = true) ∧
    ∀ x ∈ [((.fin true 1 0 : Val), (RM.rne : RM))], x.1.isNan = false ∧ x.1.isInf = false := by
  exact ⟨⟨_, List.mem_singleton.mpr rfl, by decide⟩, by decide, by decide⟩

/-! ### Block-scaled and cross-lane instructions -/

/-- A whole home bundle of 32 threads, and a path of two of them. -/
def s32 : State := stateOf { unitOf [] [] 1 with
  threads := (List.range 32).map fun i => thr [BitVec.ofNat 32 (i * 0x01020304), 0, 0, 0, BitVec.ofNat 32 i]
  bundles := [{ bid := 0, quad := 0, slots := (List.range 32).map some
                path0 := some { tids := List.range 32, hdr := 0x1000, widx := 1, cnt := 4 } }] }

theorem witness_block : Ready s32 true [dst 6 2, src .a 0 2, src .b 2, src .c 4] ∧ (viewOf s32).wholeBundle = some 0 :=
  ⟨ready_of (by decide +kernel), by decide +kernel⟩
theorem witness_block_widths : (nbOf BTy.e4m3 = 8 ∧ nbOf BTy.e2m1 = 4) ∨ (nbOf BTy.e4m3 = 4 ∧ nbOf BTy.e2m1 = 8) := by decide
theorem witness_partial_bundle : Ready s0 true [dst 6 2, src .a 0 2, src .b 2, src .c 4] ∧ (viewOf s0).wholeBundle = none :=
  ⟨ready_of (by decide +kernel), by decide +kernel⟩
theorem test_block_incomplete : onNext (exec (.badd 3 1 2 { ty := .e4m3 }) s0) (fun s => (s.unit? 7).any fun u =>
    match (u.thread 0).st with | .trapped r => r.trap.cause == .blockIncomplete && r.trap.info == 3 | _ => false) = true := by
  decide +kernel

theorem witness_cross_lane : Ready s32 true [tdst .i32 3, tsrc .a .i32 4, src .b 2] := ready_of (by decide +kernel)
theorem witness_shuffle : (0 : Nat) < 32 ∧ (31 : Nat) < 32 ∧ Ty.float .i32 = false ∧ 0 < Ty.width .i32 := by decide
theorem test_shfl : regAfter (.shfl .i32 3 4 0 .down true 1) s32 5 3 = some 6 ∧
    regAfter (.shfl .i32 3 4 0 .up true 1) s32 0 3 = some 0 := by decide +kernel
theorem test_vote : regAfter (.vote 3 4 .ballot) s32 0 3 = some 0xFFFFFFFE ∧ regAfter (.vote 3 4 .count) s32 9 3 = some 31 := by
  decide +kernel
theorem test_red_scan : regAfter (.red .i32 3 4 .add .dyn) s32 0 3 = some 496 ∧
    regAfter (.scan .i32 3 4 .add .dyn true) s32 3 3 = some 3 := by decide +kernel
theorem test_elect : regAfter (.elect 3 4 true) s32 1 3 = some 1 ∧ regAfter (.elect 3 4 false) s32 1 3 = some 0 := by decide +kernel

/-! ### Control, waiting, slices and traps -/

theorem witness_transfer : Ready sEnd true [src .a 4 2] ∧ (viewOf sEnd).p.advance = none ∧
    ((opsOf (viewOf sEnd) [src .a 4 2] 0).2.a.setWidth 64).toNat < 2 ^ 56 ∧
    ((opsOf (viewOf sEnd) [src .a 4 2] 0).2.a.setWidth 64).toNat % 8 = 0 := ⟨ready_of (by decide +kernel), by decide +kernel⟩
theorem witness_call : Ready sEnd true [] ∧ ∀ t ∈ [0, 1], ∀ k < 4,
    (((viewOf sEnd).u.thread t).sp + BitVec.ofNat 32 k).toNat < (viewOf sEnd).u.npriv ∧
    (((viewOf sEnd).u.thread t).fp - 4 + BitVec.ofNat 32 k).toNat < (viewOf sEnd).u.npriv :=
  ⟨ready_of (by decide +kernel), by decide +kernel⟩

/-- A thread whose frame registers lie beyond the private limit, with L at 3. -/
def sFar : State := stateOf { unitOf [] [] 4 with threads := [{ thr [6, 0, 0, 0, 0x101] with sp := 64, fp := 68, ctrs := { l := 3 } }, { thr [] with sp := 99, fp := 90 }] }

theorem witness_bad_transfer : Ready sFar true [src .a 4 2] ∧ (viewOf sFar).p.advance = none ∧
    ((opsOf (viewOf sFar) [src .a 4 2] 0).2.a.setWidth 64).toNat % 8 = 1 ∧
    ∀ t ∈ [0, 1], 64 ≤ ((viewOf sFar).u.thread t).sp.toNat ∧ 64 ≤ (((viewOf sFar).u.thread t).fp - 4).toNat :=
  ⟨ready_of (by decide +kernel), by decide +kernel⟩
theorem test_bra : onNext (exec (.bra 2) sEnd) (fun s => (s.unit? 7).any fun u =>
    (u.thread 0).pos == { hdr := 0x1010 } && (u.thread 0).st == .ready) = true := by decide +kernel
theorem test_call_frame : onNext (exec (.call 12) sEnd) (fun s => (s.unit? 7).any fun u => (u.thread 0).pos == { hdr := 0x1060 } &&
    (u.thread 0).sp == 12 && (u.thread 0).pw 8 == 0x1028 && (u.thread 0).pw 10 == 0xFFFFFFFC) = true := by decide +kernel

theorem witness_traps : Ready s0 true [] ∧ s0.debugOn 0 = false ∧ State.debugOn { s0 with ctxs := [{ ctx := 0, live := true, desc := { dbg := true } }] } 0 = true :=
  ⟨ready_of (by decide +kernel), by decide +kernel⟩
theorem witness_reserved_register : Ready s0 true [] ∧ ∀ x ∈ (viewOf s0).p.tids, ((viewOf s0).u.thread x).streams = List.replicate 8 {} ∧
    (viewOf s0).u.nregs ≤ (16#9 : VReg).toNat := ⟨ready_of (by decide +kernel), by decide +kernel⟩
theorem test_trap_record : onNext (exec (.trap 42) s0) (fun s => (s.unit? 7).any fun u => u.st == .draining &&
    match (u.thread 0).st with
    | .trapped r => r.trap.cause == .software && r.trap.info == 42 && r.pc == 0x1008 && r.fatal
    | _ => false) = true := by decide +kernel

theorem witness_wait_limits : (∀ t ∈ [0, 1], withinLimits 0 0 0 0 0 ((viewOf s0).u.thread t).ctrs = true ∧ ((viewOf s0).u.thread t).owed = []) ∧
    ∃ t ∈ (viewOf sFar).p.tids, withinLimits 2 63 63 63 63 ((viewOf sFar).u.thread t).ctrs = false := by decide +kernel
theorem test_sleep : onNext (exec (.sleep 50) s0) (fun s => (s.unit? 7).any fun u => (u.thread 1).st == .waiting (.sleep 50)) = true := by
  decide +kernel
theorem test_join_at_once : onNext (exec (.join 3 9) s0) (fun s => (s.unit? 7).any fun u => u.st == .resident &&
    (u.thread 0).st == .ready) = true := by decide +kernel
theorem test_exit_drains : onNext (exec .exit s0) (fun s => (s.unit? 7).any fun u => (u.thread 0).st == .exited && u.st == .draining) = true := by
  decide +kernel
theorem witness_bar : Ready s0 true [] ∧ ∀ t ∈ (viewOf s0).p.tids, s0.released 7 t .unit s0.nextId = true :=
  ⟨ready_of (by decide +kernel), by decide +kernel⟩
theorem witness_barrier : (0 : Nat) < 16 ∧ (15 : Nat) < 16 ∧ (unitOf [] [] 1).bars.length = 16 ∧ 0 < 1 ∧
    ((unitOf [] [] 1).bars.getD 0 {}).arrived.isEmpty = true := by decide
theorem witness_trap_classes : Cause.permission ∉ [Cause.streamEnd, .streamDead, .software, .breakpoint] ∧
    (s0.ctx? 0).isSome = true := by decide +kernel
theorem witness_fatal_trap : (∃ u, s0.unit? 7 = some u ∧ u.faulted = false ∧ u.role = .plain) ∧ (s0.launch? 3).isSome = true := by
  exact ⟨⟨_, rfl, rfl, rfl⟩, by decide +kernel⟩

/-- The thread of a launch prologue. -/
def proUnit : UnitSt := { unitOne (thr [0x12345, 0xFFFFFFFF, 2, 7, 0x40, 0]) 1 5 with role := .prologue }

def sPro : State := { stateOf proUnit with launches := [{ lid := 3, ctx := 0, cmd := 0, st := .prologue, pinsn := 5 }] }

theorem open_prologue : View.Open sPro (viewOf sPro) ∧ (viewOf sPro).u.role = .prologue ∧ (viewOf sPro).p.tids ≠ [] ∧
    (∃ l, sPro.launch? (viewOf sPro).u.launch = some l ∧ l.pinsn < 1024 ∧ l.code = 0) ∧
    View.AllRead sPro (viewOf sPro) true [tdst .i32 3, tsrc .a .i32 1, tsrc .b .i32 2] (opsOf (viewOf sPro) [tdst .i32 3, tsrc .a .i32 1, tsrc .b .i32 2]) ∧
    View.AllRead sPro (viewOf sPro) false [src .a 4 2] (opsOf (viewOf sPro) [src .a 4 2]) :=
  ⟨open_of (by decide +kernel), by decide +kernel, by decide +kernel, ⟨{ lid := 3, ctx := 0, cmd := 0, st := .prologue, pinsn := 5 }, by decide +kernel, by decide, by decide⟩, reads_of (by decide +kernel),
    reads_of (by decide +kernel)⟩
theorem witness_prologue_limit : ∃ l, State.launch? { sPro with launches := [{ lid := 3, ctx := 0, cmd := 0, st := .prologue, pinsn := 1024 }] } 3 = some l ∧
    l.code = 0 ∧ 1024 ≤ l.pinsn := ⟨{ lid := 3, ctx := 0, cmd := 0, st := .prologue, pinsn := 1024 }, by decide +kernel, rfl, by decide⟩
theorem test_prologue_illegal : onNext (exec (.fadd .f32 3 1 2 {}) sPro) (fun s => (s.unit? 7).any fun u =>
    match (u.thread 0).st with | .trapped r => r.trap.cause == .illegalInstr && r.trap.sub == 5 | _ => false) = true := by decide +kernel
theorem test_prologue_limit : onNext (exec (.band .i32 3 1 2)
    { sPro with launches := [{ lid := 3, ctx := 0, cmd := 0, st := .prologue, pinsn := 1024 }] })
    (fun s => (s.launch? 3).any fun l => l.code == 4) = true := by decide +kernel
theorem test_lset : onNext (exec (.lset 4 0) sPro) (fun s => (s.launch? 3).any fun l => l.dimx == 0x40 && l.pinsn == 6) = true ∧
    onNext (exec (.lset 0 0) sPro) (fun s => (s.launch? 3).any fun l => l.code == 6) = true := by decide +kernel

/-- A context with one slice, whose registers 8 and 9 a GRAFT brings back. -/
def sSlice : State := { stateOf (unitOf [0, 77, 0, 0, 0] [0x00001001, 88, 0, 0, 0] 4) with
  ctxs := [{ ctx := 0, live := true, slices := [{ slot := 0, words := [1, 2, 3, 4, 5], fpOff := 4, resume := 0x2000, dreg := 5, a0 := 8, carried := [21, 22] },
                                               { slot := 1, words := [1, 2, 3, 4], fpOff := 4, resume := 0x3000, dreg := 5, a0 := 8, carried := [23] }]
             gens := [(1, 1)], nextSlot := 2 }] }

theorem witness_slice : ∃ c x, sSlice.ctx? 0 = some c ∧ c.slice? 0 = .ok x ∧ x.dreg.toNat < 16 ∧ x.a0.toNat + x.carried.length ≤ 16 ∧
    8 + x.words.length ≤ 64 ∧ 4 ≤ x.words.length ∧ c.slice? 0x00005000 = .error 4 := ⟨_, _, rfl, rfl, by decide, by decide, by decide, by decide, rfl⟩
theorem witness_graft : Ready sSlice true [src .a 0, src .b 1] ∧ (sSlice.ctx? 0).isSome = true ∧
    ∀ t ∈ [0, 1], graftStall sSlice (viewOf sSlice) t (opsOf (viewOf sSlice) [src .a 0, src .b 1] t).2 = false :=
  ⟨ready_of (by decide +kernel), by decide +kernel⟩
theorem test_graft : onNext (exec (.graft 0 1) sSlice) (fun s => (s.unit? 7).any fun u => (u.thread 0).pos == { hdr := 0x2000 } &&
    (u.thread 0).reg 5 == 77 && (u.thread 0).reg 9 == 22 && (u.thread 0).sp == 13 && (u.thread 1).pos == { hdr := 0x3000 }) = true := by
  decide +kernel
theorem test_drop : onNext (exec (.drop 0) sSlice) (fun s => (s.ctx? 0).any fun c => c.slices.isEmpty && c.genOf 0 == 1 && c.genOf 1 == 2) = true := by
  decide +kernel

/-- A thread that has marked its stack and called, and cuts. -/
def sCut : State :=
  let t := ({ thr [0, 0, 0, 0, 0, 0, 0, 0, 31, 32, 33, 34] with pos := { hdr := 0x1000, widx := 4 } } : Thread)
  let t := (t.push 0x5000 1).push 0x4000 0
  { stateOf (unitOne t 4 0) with ctxs := [{ ctx := 0, live := true, desc := { heapsz := 0x100000 } }] }

theorem test_cut : onNext (exec (.cut 3 8 4) sCut) (fun s => (s.ctx? 0).any fun c => (c.slices.map (·.carried)) == [[31, 32, 33, 34]] &&
    (s.unit? 7).any fun u => (u.thread 0).sp == 8 && (u.thread 0).pos == { hdr := 0x5000 }) = true := by decide +kernel
theorem witness_cut : Ready sCut true (dst 3 :: carried 8 4) := ready_of (by decide +kernel)
theorem witness_fences : Ready { s0 with time := 3 * tick } true [] ∧ ∀ t ∈ [0, 1], s0.readsBack 7 t = true ∧
    State.released { s0 with time := 3 * tick } 7 t .dev s0.nextId = true ∧ ((viewOf s0).u.thread t).egwct = 0 := ⟨ready_of (by decide +kernel), by decide +kernel⟩
theorem witness_e2o_stall : ∃ u, (stateOf { unitOf [] [] 1 with threads := [{ thr [] with egwct := 5 }, thr []] }).unit? 7 = some u ∧
    (u.thread 0).egwct ≠ 0 ∧ (stateOf u).dt ≤ (u.thread 0).egwct.toNat := ⟨_, rfl, by decide +kernel, by decide +kernel⟩

/-! ### Memory instructions -/

/-- Thread addresses: v4 and v5 hold 0x20 in thread 0 and 0x30 in thread 1. -/
def gaddr0 : DWord := 0x20

theorem witness_translation : State.walk s0 0 0x20 .r = .ok 0x10020 ∧ (2 ^ 56 : Nat) ≤ (0x100000000000000#64).toNat ∧
    State.reach s0 0 0xFFF8 .x 8 = .ok (span 0x1FFF8 8) ∧ State.reach s0 0 0xFFF9 .x 8 = .miss 0x10000 := by decide +kernel
theorem witness_load : Ready s0 true [dst 6, base 4 2] ∧ ∀ t ∈ [0, 1], ((viewOf s0).u.thread t).full .l = false ∧
    s0.reach 0 (gaddr (opsOf (viewOf s0) [dst 6, base 4 2] t).2 0) .r 16 = .ok (span (0x10020 + 16 * t) 16) :=
  ⟨ready_of (by decide +kernel), by decide +kernel⟩
theorem witness_store : Ready s0 true [src .d 8 4, base 4 2] ∧ ∀ t ∈ [0, 1], ((viewOf s0).u.thread t).full .s = false ∧
    s0.reach 0 (gaddr (opsOf (viewOf s0) [src .d 8 4, base 4 2] t).2 0) .w 16 = .ok (span (0x10020 + 16 * t) 16) ∧
    newGuardLines (viewOf s0).u [({ sp := .global, addrs := span 0x10020 16, kind := .store [] } : Post)] = [] :=
  ⟨ready_of (by decide +kernel), by decide +kernel⟩
theorem witness_scratch : Ready s0 true [dst 6, base 4 1] ∧ Ready s0 true [src .d 8, base 4 1] ∧ ∀ t ∈ [0, 1],
    (saddr (opsOf (viewOf s0) [dst 6, base 4 1] t).2 0x3C0).toNat + 16 ≤ 1024 ∧ (saddr (opsOf (viewOf s0) [dst 6, base 4 1] t).2 0x10).toNat % 16 = 0 :=
  ⟨ready_of (by decide +kernel), ready_of (by decide +kernel), by decide +kernel⟩
theorem witness_atomic : Ready s0 true [srcDst 8, base 4 2] ∧ Ready s0 true [srcDst 8 4, base 4 2] ∧ Ready s0 true [dst 8 4, base 4 2] ∧
    ∀ t ∈ [0, 1], (gaddr (opsOf (viewOf s0) [srcDst 8, base 4 2] t).2 0).toNat % 16 = 0 :=
  ⟨ready_of (by decide +kernel), ready_of (by decide +kernel), ready_of (by decide +kernel), by decide +kernel⟩
theorem witness_misaligned : ∀ t ∈ [0, 1], (gaddr (opsOf (viewOf s0) [srcDst 8, base 4 2] t).2 2).toNat % 4 = 2 ∧
    (gaddr (opsOf (viewOf s0) [srcDst 8, base 4 2] t).2 4).toNat % 8 = 4 := by decide +kernel
theorem test_store_posts : onNext (exec (.st .b32 8 { base := 4, off := 8 }) s0) (fun s => s.mem == [] &&
    (s.ops.map fun o => (o.addrs.headD 0, o.tid)) == [(0x10028, 0), (0x10038, 1)] && (s.unit? 7).any fun u => (u.thread 1).ctrs.s == 1) = true := by
  decide +kernel
theorem test_lds_outside : onNext (exec (.lds .b32 6 { base := 4, off := 0x3E0 }) s0) (fun s => s.ops == [] && (s.unit? 7).any fun u =>
    match (u.thread 0).st with | .trapped r => r.trap.cause == .spaceRange && r.trap.addr == 0x400 | _ => false) = true := by
  decide +kernel

/-- The launch of the unit has bound slots 1, which traps, and 5, which clamps, both to 1.0 … 2.0. -/
def sBound : State := { stateOf (unitOf [0x40400000, 0, 0, 0, 0x20] [0x3F800000, 0, 0, 0, 0x30] 1) with
  launches := [{ lid := 3, ctx := 0, cmd := 0, st := .running
                 bounds := [{ slot := 1, lo := 0x3F800000, hi := 0x40000000, action := 3 }, { slot := 5, lo := 0x3F800000, hi := 0x40000000, action := 2 }] }] }

theorem witness_bound_slot : Ready sBound true [src .d 0 1, base 4 2] ∧ (∃ x, sBound.boundOf (viewOf sBound).u 5 = some x ∧ x.action ≠ 3) ∧
    (∃ x, sBound.boundOf (viewOf sBound).u 1 = some x ∧ x.action = 3 ∧ x.violates (fp32.dec 0x40400000) = true ∧ x.violates (fp32.dec 0x40000000) = false) :=
  ⟨ready_of (by decide +kernel), ⟨_, rfl, by decide⟩, ⟨_, rfl, rfl, by decide +kernel, by decide +kernel⟩⟩
theorem test_stb_clamps : onNext (exec (.stb 0 4 0 .plain .unit 5) sBound) (fun s =>
    (s.ops.map (·.kind)) == [.stb 0x40000000 5, .stb 0x3F800000 0]) = true := by decide +kernel
theorem witness_bound_actions : (2 : Nat) < 2 ^ 32 ∧ ({ slot := 1, lo := 0x3F800000, hi := 0x40000000, action := 1 } : BoundE).violates (fp32.dec 0x7FC00000) = true := by
  decide +kernel

theorem witness_private : Ready s0 true [dst 6 2] ∧ privBad 64 (privIndex ((viewOf s0).u.thread 0) {} 0 .fp false) 2 = none ∧
    privBad 64 (privIndex ((viewOf s0).u.thread 0) {} 224 .fp false) 1 ≠ none := ⟨ready_of (by decide +kernel), by decide +kernel⟩

/-- An arrival word of generation 2 in scratchpad, and one of generation 0 in memory, at 0x20. -/
def sAwait : State := stateOf { unitOf [0, 2, 0, 0, 0x20] [0, 2, 0, 0, 0x20] 1 with scr := Memory.writes [] (span 32 16) (leBytes 16 0x00000002000000000000000000000001) }

theorem witness_await : Ready sAwait true [srcDst 1 1, base 4 1] ∧ Ready sAwait true [srcDst 0 1, base 4 2] ∧ ∃ g,
    sAwait.genOf (viewOf sAwait).u .scratch 0x20 = some g ∧ (∀ t ∈ [0, 1], sAwait.busyBytes 7 t .scratch (span 32 16) = false) ∧
    sAwait.genOf (viewOf sAwait).u .global 0x20 = some 0 :=
  ⟨ready_of (by decide +kernel), ready_of (by decide +kernel), ⟨_, rfl, by decide +kernel, by decide +kernel⟩⟩
theorem test_await_waits : onNext (exec (.await false 0 4 0 .dev) sAwait) (fun s => (s.unit? 7).any fun u =>
    (u.thread 0).st == .waiting (.await .global 0x20 0 0 false)) = true := by decide +kernel
theorem test_pref : onNext (exec (.pref 4 0 .normal) s0) (fun s => (s.leases.map (·.line)) == [0x200] && s.ops == []) = true := by decide +kernel

/-- The same page without permissions, and no page at all. -/
def sPerm : State := { s0 with map1 := [{ root := 0, va := 0, size := 65536, ipa := 0, r := false, w := false, x := true, user := true }] }
def sMiss : State := { s0 with map1 := [] }

theorem witness_access_faults : Ready sPerm true [dst 6, base 4 2] ∧ State.walk sPerm 0 0x20 .r = .perm 1 ∧ State.walk sPerm 0 0x20 .w = .perm 2 ∧
    Ready sMiss true [dst 6, base 4 2] ∧ sMiss.reach 0 0x20 .r 4 = .miss 0x20 ∧ ((viewOf sMiss).u.thread 0).replay = none :=
  ⟨ready_of (by decide +kernel), by decide +kernel, by decide +kernel, ready_of (by decide +kernel), by decide +kernel, by decide +kernel⟩
theorem test_load_misses : onNext (exec (.ld .b32 6 { base := 4, off := 0 }) sMiss) (fun s => s.ops == [] && (s.unit? 7).any fun u =>
    (u.thread 0).st == .missing 0x20 && (u.thread 0).ctrs.l == 1 && (u.thread 1).st == .missing 0x30) = true := by decide +kernel

theorem witness_full_counter : ∃ t : Thread, t = { thr [0, 0, 0, 0, 0x20] with ctrs := { l := 62 } } ∧ 62 ≤ t.ctrs.l.toNat ∧ t.replay = none ∧
    Ready (stateOf (unitOne t 1 0)) true [dst 6, base 4 2] := ⟨_, rfl, by decide, rfl, ready_of (by decide +kernel)⟩
theorem test_full_counter : onNext (exec (.ld .b32 6 { base := 4, off := 0 }) (stateOf (unitOne { thr [0, 0, 0, 0, 0x20] with ctrs := { l := 62 } } 1 0)))
    (· == stateOf (unitOne { thr [0, 0, 0, 0, 0x20] with ctrs := { l := 62 } } 1 0)) = true := by decide +kernel
theorem witness_pending_register : State.pending { s0 with ops := [{ id := 1, unit := 7, tid := 1, sp := .global, addrs := span 0x10020 4, kind := .load 1 .b32 }] } 7 1 1 1 = true := by
  decide +kernel

/-- One thread of a surrogate with `n` guard lines. -/
def sGuard (n : Nat) : State := stateOf { unitOne (thr [9, 0, 0, 0, 0x20]) 1 0 with role := .surrogate, glines := List.replicate n 1 }

theorem witness_surrogate : View.Open (sGuard 2) (viewOf (sGuard 2)) ∧ (viewOf (sGuard 2)).u.role = .surrogate ∧ (viewOf (sGuard 2)).p.tids = [0] ∧
    View.Reads (sGuard 2) (viewOf (sGuard 2)) true [src .d 0, base 4 2] 0 (opsOf (viewOf (sGuard 2)) [src .d 0, base 4 2] 0).1
      (opsOf (viewOf (sGuard 2)) [src .d 0, base 4 2] 0).2 ∧
    (sGuard 2).reach 0 0x20 .w 4 = .ok (span 0x10020 4) ∧ 2 + ((linesOf (span 0x10020 4)).filter fun l => !([1] : List Nat).contains l).length ≤ 8192 :=
  ⟨open_of (by decide +kernel), by decide +kernel, by decide +kernel, reads_of (lane := true) (by decide +kernel) 0 (by decide +kernel), by decide +kernel, by decide +kernel⟩
theorem test_guard_line_added : onNext (exec (.st .b32 0 { base := 4, off := 0 }) (sGuard 2)) (fun s => (s.unit? 7).any fun u =>
    u.glines == [1, 1, 0x200]) = true := by decide +kernel

/-! ### Streams and special state -/

/-- Streams in every state. -/
def sStream : State :=
  let q (st : StreamSt) (vs : List Word) : Stream := { st := st, pat := { ew := 0 }, queue := vs }
  let t : Thread := { thr [64, 0, 5] with streams := [q .unbound [], q .bound [], q .running [7, 8], q .running [], q .ended [], q .dead [],
    { st := .running, pat := { ew := 0, dir := true } }, q .unbound []] }
  stateOf { unitOne t 1 0 with scr := Memory.writes [] (span 64 64) (leBytes 64 0x0001000100010001_0000000000000100) }

theorem witness_sbind : Ready sStream true [dst 1, src .a 0] ∧ ((viewOf sStream).u.thread 0).stream 1 ≠ ((viewOf sStream).u.thread 0).stream 0 ∧
    scrCheck (viewOf sStream).u 64 64 64 = none ∧ sStream.scrBusy 7 0 (span 64 64) = false ∧
    (patternOf (wordsOf ((span 64 64).map (viewOf sStream).u.scr.read))).isSome = true ∧
    patternOf (wordsOf ((span 128 64).map (viewOf sStream).u.scr.read)) = none :=
  ⟨ready_of (by decide +kernel), by decide +kernel, by decide +kernel, by decide +kernel, by decide +kernel, by decide +kernel⟩
theorem witness_streams : Ready sStream true [dst 1] ∧ (((viewOf sStream).u.thread 0).stream 1).st = .bound ∧
    (((viewOf sStream).u.thread 0).stream 6).pat.dir = true ∧ (((viewOf sStream).u.thread 0).stream 6).queue = [] ∧
    sStream.elemsOut 7 0 6 = false ∧ ((viewOf sStream).u.thread 0).gwct = 0 ∧ ((viewOf sStream).u.thread 0).streams.length = 8 :=
  ⟨ready_of (by decide +kernel), by decide +kernel⟩
theorem witness_queue_registers : (506#9 : VReg).toNat = 504 + 2 ∧ (((viewOf sStream).u.thread 0).stream 2).queue = 7 :: [8] ∧
    (((viewOf sStream).u.thread 0).stream 3).queue = [] ∧ (((viewOf sStream).u.thread 0).stream 4).st = .ended ∧
    (((viewOf sStream).u.thread 0).stream 5).st = .dead := by decide +kernel
theorem test_sbind : onNext (exec (.sbind 1 0 0) sStream) (fun s => (s.unit? 7).any fun u =>
    (u.thread 0).reg 1 == 0 && ((u.thread 0).stream 0).st == .bound && ((u.thread 0).stream 0).pat.base == 0x100) = true := by decide +kernel
theorem test_sstart : onNext (exec (.sstart 1 1) sStream) (fun s => (s.unit? 7).any fun u => ((u.thread 0).stream 1).st == .running) = true := by
  decide +kernel
theorem test_queue_read : regAfter (.mov .i32 1 506) sStream 0 1 = some 7 ∧ regAfter (.sstat 1 4) sStream 0 1 = some 3 := by decide +kernel
theorem witness_special : Ready s0 false [dst 6 (selRegs 0x020)] ∧ Ready s0 false [src .a 2 (selRegs 0x030)] ∧ Ready s32 false [src .a 2 (selRegs 0x105)] :=
  ⟨ready_of (by decide +kernel), ready_of (by decide +kernel), ready_of (by decide +kernel)⟩
theorem test_gets_sets : regAfter (.gets 6 0x002) s0 1 6 = some 1 ∧ onNext (exec (.sets 0x030 2) s0) (fun s => (s.unit? 7).any fun u =>
    (u.thread 0).sp == 2) = true := by decide +kernel

/-! ### Engines: issue; launched code, clauses and repetition -/

/-- An engine test's unit: v4 in 0x40, a gang of home bundle 0 wanted by v0. -/
def sEng : State := { stateOf (unitOf [0, 0, 2, 7, 0x40, 0, 0, 0, 0, 0] [0, 0, 3, 9, 0x40, 0, 0, 0, 0, 0] 1) with time := 3 * tick }

theorem engReads_of {s : State} {v : View} {us : List RegUse} {k : CtrKind} (h : readsB s v false us = true) (hn : v.p.tids ≠ [])
    (hf : ∀ t ∈ v.p.tids, (v.u.thread t).full k = false) (he : v.p.elected ∈ v.p.tids) :
    View.EngReads s v us k (opsOf v us v.p.elected).2 :=
  ⟨hn, fun t ht => (reads_of h t ht).legal, fun t ht => (reads_of h t ht).free, hf, ⟨_, (reads_of h _ he).gives⟩⟩

theorem witness_sweep : View.Open sEng (viewOf sEng) ∧ ∃ i o, i = Instr.swadd { ty := .f32, count := 1, d := 4, a := 0, b := 1, bound := 0 } {} ∧
    isSweep i = true ∧ View.EngReads sEng (viewOf sEng) (sweepUses i) .t o ∧ (sweepF i).count ≠ 0 ∧
    rangesBad 1024 (sweepRanges i o ++ arvRange (sEng.boundOf (viewOf sEng).u 0)) = none :=
  ⟨open_of (by decide +kernel), _, _, rfl, by decide, engReads_of (by decide +kernel) (by decide +kernel) (by decide +kernel) (by decide +kernel),
    by decide, by decide +kernel⟩
theorem witness_sweep_range : (∃ tr, rangesBad 1024 (sweepRanges (.swadd { ty := .f32, count := 16, d := 4, a := 0, b := 1, bound := 0 } {}) { d := 0x3F0 } ++
    arvRange (sEng.boundOf (viewOf sEng).u 0)) = some tr) ∧ (sweepF (.swadd { ty := .f32, count := 0, d := 4, a := 0, b := 1, bound := 0 } {})).count = 0 ∧
    Rnd.rne ≠ .sr := ⟨⟨_, rfl⟩, by decide, by decide⟩
theorem test_sweep_accepted : onNext (exec (.swadd { ty := .f32, count := 1, d := 4, a := 0, b := 1, bound := 0 } {}) sEng) (fun s =>
    s.eng.length == 1 && (s.unit? 7).any fun u => (u.thread 0).ctrs.t == 1 && (u.thread 1).ctrs.t == 1) = true := by decide +kernel
theorem test_sweep_count_zero : onNext (exec (.swadd { ty := .f32, count := 0, d := 4, a := 0, b := 1, bound := 0 } {}) sEng) (fun s =>
    s.eng == [] && (s.unit? 7).any fun u => (u.thread 0).ctrs.t == 0) = true := by decide +kernel

theorem witness_tile : View.EngReads sEng (viewOf sEng) [dst 6, src .a 0, src .b 2 2, src .c 4] .t (opsOf (viewOf sEng) [dst 6, src .a 0, src .b 2 2, src .c 4] 0).2 ∧
    (viewOf sEng).u.gang = 0 ∧ (viewOf sEng).u.latch = none ∧ gangMask (viewOf s32).u.hbs 1 0 = some 1 ∧ gangMask (viewOf s32).u.hbs 2 0 = none :=
  ⟨engReads_of (by decide +kernel) (by decide +kernel) (by decide +kernel) (by decide +kernel), by decide +kernel⟩
theorem witness_tile_ranges : rangesBad 1024 (sEng.tileRanges (viewOf sEng).u { (viewOf sEng).engOp sEng (.tldm 6 0 4) .t 6 1 { a := 0, b := 0x00010001 } with id := 0 }) = none := by
  decide +kernel
theorem witness_tmma : (∃ t ∈ (viewOf sEng).p.tids, ((viewOf sEng).u.thread t).reg 2 ≠ (2 : Word)) ∧
    (∀ t ∈ (viewOf sEng).p.tids, ((viewOf sEng).u.thread t).reg 4 = (0x40 : Word)) := by decide +kernel
theorem witness_tmma_gang : ∃ u, u = ({ unitOf [] [] 1 with gang := 1 } : UnitSt) ∧ u.gang ≠ 0 ∧ Ready (stateOf u) false [dst 6, src .a 0, src .b 2 2, src .c 4] :=
  ⟨_, rfl, by decide, ready_of (by decide +kernel)⟩
theorem test_tgang : onNext (exec (.tgang 6 1 1) s32) (fun s => (s.unit? 7).any fun u => u.gang == 1 && (u.thread 9).ctrs.t == 1) = true ∧
    onNext (exec (.tgang 6 1 2) s32) (fun s => (s.eng.map (·.status)) == [6]) = true := by decide +kernel
theorem test_format_divergence : onNext (exec (.tmma 6 0 4 2) sEng) (fun s => s.eng == [] && (s.unit? 7).any fun u =>
    match (u.thread 0).st with | .trapped r => r.trap.cause == .formatDivergence | _ => false) = true := by decide +kernel
theorem test_tstat : onNext (exec (.tstat 6 .mir) sEng) (fun s => s.eng == [] && (s.unit? 7).any fun u => (u.thread 1).ctrs.t == 0) = true := by
  decide +kernel

theorem witness_copy : View.EngReads sEng (viewOf sEng) [dst 6, src .a 4] .c (opsOf (viewOf sEng) [dst 6, src .a 4] 0).2 ∧
    scrCheck (viewOf sEng).u 0x40 64 64 = none ∧ sEng.scrBusy 7 0 (span 0x40 64) = false ∧ (sEng.ctx? 0).bind Ctx.nextFree = some 0 ∧
    (viewOf sEng).u.role ≠ .surrogate ∧ sEng.noSlot (viewOf sEng) {} = false :=
  ⟨engReads_of (by decide +kernel) (by decide +kernel) (by decide +kernel) (by decide +kernel), by decide +kernel⟩
theorem nextFreeFrom_full {used : List Nat} (h : ∀ k < 4096, k ∈ used) : ∀ n k, nextFreeFrom used k n = none
  | 0, _ => rfl
  | n + 1, k => by simp [nextFreeFrom, h _ (Nat.mod_lt k (by decide : 0 < 4096)), nextFreeFrom_full h n]
theorem witness_claim_table_full : Ctx.nextFree { ctx := 0, claims := (List.range 4096).map fun h => { h := h, unit := 0 } } = none := by
  unfold Ctx.nextFree
  exact nextFreeFrom_full (by simp [Function.comp_def]) _ _
theorem test_claim : onNext (exec (.claim 6 4) sEng) (fun s => (s.claim? 0 0).any fun c => c.st == .claiming && c.unit == 7) = true := by decide +kernel
theorem test_puts : onNext (exec (.puts 6 0 2 4 false) sEng) (fun s => s.eng.length == 1 && (s.unit? 7).any fun u => (u.thread 1).ctrs.f == 1) = true := by
  decide +kernel
theorem witness_quiet : Ready sEng false [] ∧ (∀ t ∈ [0, 1], sEng.fabricOut 7 t = false) ∧
    ∀ s, exec (.puts 6 0 2 4 false) sEng = .next s → s.fabricOut 7 0 = true :=
  ⟨ready_of (by decide +kernel), by decide +kernel, fun s h => by
    have : onNext (exec (.puts 6 0 2 4 false) sEng) (fun s => s.fabricOut 7 0) = true := by decide +kernel
    rw [h] at this; exact this⟩
theorem test_fquiet : onNext (exec .fquiet sEng) (fun s => (s.unit? 7).any fun u => (u.thread 0).st == .inPath) = true := by decide +kernel

theorem witness_prologue_ends : ∃ l, sPro.launch? 3 = some l ∧ sPro.descsWait l = false ∧ l.iter ≠ 65535 ∧ (65535 : Nat) ≤ 65535 ∧
    State.descsWait sPro { l with iter := 65535 } = false :=
  ⟨{ lid := 3, ctx := 0, cmd := 0, st := .prologue, pinsn := 5 }, by decide +kernel, by decide +kernel, by decide, by decide, by decide +kernel⟩
theorem test_lcancel : onNext (exec .lcancel sPro) (fun s => (s.launch? 3).any fun l => l.cancel && l.st == .cancelled) = true := by decide +kernel
theorem test_lrepeat_limit : onNext (exec .lrepeat { sPro with launches := [{ lid := 3, ctx := 0, cmd := 0, st := .prologue, pinsn := 5, iter := 65535 }] })
    (fun s => (s.launch? 3).any fun l => l.code == 10) = true := by decide +kernel
theorem test_lend : onNext (exec .lend sPro) (fun s => (s.launch? 3).any fun l => l.st != .prologue) = true := by decide +kernel
theorem test_lend_outside : onNext (exec .lend s0) (fun s => (s.unit? 7).any fun u =>
    match (u.thread 0).st with | .trapped r => r.trap.cause == .illegalInstr && r.trap.sub == 5 | _ => false) = true := by decide +kernel

theorem witness_gcheck : Ready (sGuard 2) false [src .a 0] := ready_of (by decide +kernel)
theorem test_gcheck : onNext (exec (.gcheck 0) (sGuard 2)) (fun s => (s.unit? 7).any fun u =>
    u.checked == 1 && u.residual == some 9 && u.st == .draining && (u.thread 0).st == .exited) = true := by decide +kernel
theorem witness_named_events : Ready s0 false [dst 6, src .a 0, src .b 2, src .c 4] ∧ Ready s0 false [dst 6, src .a 0, src .b 2 2, src .c 4] ∧
    (∀ t ∈ [0, 1], (opsOf (viewOf s0) [dst 6, src .a 0, src .b 2] t).2.a.toNat < 65536 ∧ ((viewOf s0).u.thread t).full .s = false) ∧
    65536 ≤ (opsOf (viewOf s0) [dst 6, src .a 1, src .b 2] 0).2.a.toNat := ⟨ready_of (by decide +kernel), ready_of (by decide +kernel), by decide +kernel⟩
theorem test_evwait : onNext (exec (.evwait 6 0 2 5 .dev) s0) (fun s => (s.unit? 7).any fun u =>
    (u.thread 0).st == .waiting (.event false 10 0x0000000700000002 6 none false) && (u.thread 1).st == .waiting (.event false 11 0x0000000900000003 6 none false)) = true := by
  decide +kernel
theorem test_evsig_bad_name : onNext (exec (.evsig 6 1 2 .dev) s0) (fun s => s.ops.length == 1 && (s.unit? 7).any fun u => (u.thread 0).reg 6 == 1) = true := by
  decide +kernel

/-- A path before the header of a clause of four NOPs. -/
def sHead : State := stateOf (unitOf [] [] 0)
def nopHeader : Header := { sig := 10, cls := 0, cnt := 3, wL := 0, wS := 63, wC := 63, wT := 63, wF := 63, yld := 0, rsv := 0 }

theorem witness_header : View.Open sHead (viewOf sHead) ∧ sHead.checkClause 0 0x1000 nopHeader = .ok ∧
    (∀ t ∈ [0, 1], headerMet nopHeader ((viewOf sHead).u.thread t).ctrs = true) ∧ headerMet nopHeader { l := 1 } = false ∧
    ({ nopHeader with sig := 9 } : Header).sig ≠ 0b1010#4 := ⟨open_of (by decide +kernel), by decide +kernel⟩
theorem test_header_opens : onNext (exec (.clauseHeader nopHeader) sHead) (fun s => s.issueQ == [{ unit := 7, bundle := 0, slot := false }] &&
    (s.unit? 7).any fun u => (u.bundle? 0).any fun b => b.path0.any fun p => p.widx == 1 && p.cnt == 4) = true := by decide +kernel
theorem test_bad_signature : onNext (exec (.clauseHeader { nopHeader with sig := 9 }) sHead) (fun s => (s.unit? 7).any fun u =>
    match (u.thread 0).st with | .trapped r => r.trap.cause == .illegalClause && r.trap.sub == 1 && r.trap.addr == 0x1000 | _ => false) = true := by
  decide +kernel

/-- A REP before ADD.i32 v3, v1, v2. -/
def sRep : State := { s0 with mem := Memory.writes [] (span 0x11010 8) (leBytes 8 0x0300180404000000) }

theorem witness_rep : View.Open sRep (viewOf sRep) ∧ (viewOf sRep).p.advance.isSome = true ∧ (viewOf sRep).p.krep = 0 ∧
    sRep.codeWord 0 0x1000 2 = .word 0x0300180404000000 ∧ (∀ t ∈ [0, 1], repBad { n := 4, k := 0, sd := 1, sa := 1, sb := 0, sc := 0 } 0x0300180404000000 16
      ((viewOf sRep).u.thread t) = none) := ⟨open_of (by decide +kernel), by decide +kernel⟩
theorem test_rep : onNext (exec (.rep 3 1 1 0 0) sRep) (fun s => (s.unit? 7).any fun u => (u.bundle? 0).any fun b => b.path0.any fun p =>
    p.widx == 2 && p.rep == some { n := 4, k := 0, sd := 1, sa := 1, sb := 0, sc := 0 }) = true := by decide +kernel
theorem witness_rep_steps : opClass (fld (0x0300180404000000 : DWord) 56 8) = some 0 ∧ (fld (0x0300180404000000 : DWord) 56 8 : BitVec 8) ≠ 0x80 ∧
    (fld (0x0300180404000000 : DWord) 56 8 : BitVec 8).toNat / 16 ≠ 0xC ∧ ∀ f ∈ [(43, (1 : Int)), (34, 1), (25, 0), (16, 0)],
      0 ≤ ((fld (0x0300180404000000 : DWord) f.1 9 : VReg).toNat : Int) + (2 : Nat) * f.2 ∧
      ((fld (0x0300180404000000 : DWord) f.1 9 : VReg).toNat : Int) + (2 : Nat) * f.2 < 512 := by decide +kernel

/-! ### Events: threads, accesses, units. Each test is one step on a state that meets the statement's hypotheses. -/

/-- The state but for units. -/
def sameBut (s s' : State) : Bool := { s' with units := s.units } == s

/-- A unit of two ready threads, in no path. -/
def uReady : UnitSt := { unitOf [] [] 1 with
  threads := [{ thr [] with st := .ready, pos := { hdr := 0x1000 } }, { thr [] with st := .ready, pos := { hdr := 0x1000 } }]
  bundles := [{ bid := 0, quad := 0, slots := [some 0, some 1] ++ List.replicate 30 none }] }
def sReady : State := stateOf uReady
/-- The same, its threads of age `a`. -/
def sAged (a : Nat) : State := stateOf { uReady with threads := uReady.threads.map fun th => { th with age := a } }

theorem witness_issue_cycle : sReady.clock.settleAll sReady.kclk = sReady.clock ∧ (sReady.unit? 7).any (fun u => u.st == .resident && !u.away && !u.preempt) = true ∧
    (sReady.unit? 7).any (fun u => (u.bundle? 0).any fun b => !b.hold && b.path0 == none && b.path1 == none && (sReady.clock.groups u b).length == 1) = true := by
  decide +kernel
theorem test_issueCycle : onNext (exec (.issueCycle [{ unit := 7, bundle := 0 }]) sReady) (fun s => s.kclk == 1 &&
    s.time == 10 * tick / 24 && s.issueQ == [{ unit := 7, bundle := 0, slot := false }] && s.mem == [] && s.ops == [] &&
    (s.unit? 7).any fun u => (u.thread 1).st == .inPath && (u.bundle? 0).any fun b => b.path0.any fun p => p.tids == [0, 1] && p.hdr == 0x1000 && p.widx == 0) = true := by
  decide +kernel
theorem witness_elder : (sReady.unit? 7).any (fun u => (u.bundle? 0).any fun b => (sReady.groups u b).map (·.age) == [0] &&
    (((sAged 256).unit? 7).any fun u => ((u.bundle? 0).any fun b => ((sAged 256).groups u b).map (·.age) == [256]))) = true := by decide +kernel
theorem test_elder : onNext (exec (.elderRule 7 0) sReady) (· == sReady) = true ∧ onNext (exec (.elderRule 7 0) (sAged 256)) (fun s => sameBut (sAged 256) s &&
    (s.unit? 7).any fun u => (u.bundle? 0).any fun b => b.path0.any fun p => p.tids == [0, 1] && p.hdr == 0x1000 && p.widx == 0) = true := by
  decide +kernel

def sSpill : State := stateOf { uReady with threads := uReady.threads.map fun th => { th with st := .spilling, resv := some { line := 1, since := 0 } } }
theorem test_spill : onNext (exec (.spill 7 0) sSpill) (fun s => sameBut sSpill { s with mem := [] } && (s.unit? 7).any fun u =>
    u.threads.all fun th => th.st == .spilled 0 && th.resv == none) = true := by decide +kernel

def sSilt : State := { stateOf { uReady with threads := uReady.threads.map fun th => { th with st := .spilled 0 } } with kclk := 600 }
theorem witness_build : (sSilt.unit? 7).any (fun u => (sSilt.dueGroup u).any fun ts => ts == [0, 1]) = true := by
  decide +kernel
theorem test_build : onNext (exec (.bundleBuild 7) sSilt) (fun s => sameBut sSilt s && (s.unit? 7).any fun u =>
    (u.threads.all fun th => th.st == .ready) && (u.bundles.getLast?.any fun b => b.built && b.slots == [some 0, some 1] ++ List.replicate 30 none)) = true := by
  decide +kernel

def sWait (w : Wait) : State := { stateOf { uReady with threads := [{ thr [] with st := .waiting w, resv := some { line := 1, since := 0 } }, thr []] } with kclk := 1024, time := 3000 * tick }
def only (s0 s : State) (t : Nat) (th : Thread) : Bool := sameBut s0 s && (s.unit? 7 == (s0.unit? 7).map fun u => u.setThread t th)
theorem test_join_timeout : onNext (exec (.joinTimeout 7 0) (sWait (.join 3 1023))) (fun s => only (sWait (.join 3 1023)) s 0
    { thr [] with st := .ready, resv := some { line := 1, since := 0 } }) = true := by decide +kernel
theorem test_sleep_wake : onNext (exec (.sleepWake 7 0) (sWait (.sleep 3000))) (fun s => only (sWait (.sleep 3000)) s 0
    { thr [] with st := .ready, resv := some { line := 1, since := 0 } }) = true ∧
    onNext (exec (.sleepWake 7 0) (sWait (.sleep 3001))) (· == sWait (.sleep 3001)) = true := by decide +kernel
theorem test_evwait_timeout : onNext (exec (.evwaitTimeout 7 0) (sWait (.event false 4 9 3 (some 2000) false))) (fun s =>
    only (sWait (.event false 4 9 3 (some 2000) false)) s 0 { thr [0, 0, 0, 1] with st := .ready, resv := some { line := 1, since := 0 } }) = true := by decide +kernel
theorem test_reservation_timeout : onNext (exec (.reservationTimeout 7 0) (sWait (.sleep 3000))) (fun s => only (sWait (.sleep 3000)) s 0
    { thr [] with st := .waiting (.sleep 3000) }) = true := by decide +kernel

def memS : State := { sReady with mem := Memory.writes [] (span 0x10020 8) [1, 2, 3, 4, 5, 6, 7, 8], time := 3000 * tick, nextId := 100 }
def withOp (s : State) (o : MemOp) : State := { s with ops := [o], units := s.units.map fun u => { u with threads := u.threads.map fun th => { th with ctrs := { l := 1, s := 1 } } } }
def opLd : MemOp := { id := 9, unit := 7, tid := 1, sp := .global, addrs := span 0x10022 4, va := 0x22, kind := .load 3 .b32 }
def opLr : MemOp := { id := 9, unit := 7, tid := 1, sp := .global, addrs := span 0x10024 4, va := 0x24, kind := .lr 3 false }
def opSt : MemOp := { id := 9, unit := 7, tid := 1, core := 0, ent := some 8, sp := .global, addrs := span 0x10022 2, va := 0x22, kind := .store [9, 0] }
def opAt : MemOp := { id := 9, unit := 7, tid := 1, core := 0, ent := some 8, sp := .global, addrs := span 0x10020 4, va := 0x20, kind := .atom .add false 3 0xFF 0 }

theorem witness_load_return : ∀ o ∈ [opLd, opLr], (withOp memS o).op? 9 = some o ∧ (withOp memS o).opReady o = true ∧ o.kind.ctr = .l ∧
    (withOp memS o).inRetired o.addrs = false ∧ (withOp memS o).poisoned o.addrs = none ∧ o.ord.isAcq = false ∧
    (withOp memS o).entered = withOp memS o ∧ (withOp memS o).sibling o = none := by decide +kernel
theorem witness_pieces : ∃ p, ({ withOp memS opLd with ops := [opLd, { opLd with id := 10, off := 4 }] } : State).sibling opLd = some p := ⟨_, rfl⟩
theorem test_load_return : onNext (exec (.loadReturn 9) (withOp memS opLd)) (fun s => s.ops == [] && s.mem == memS.mem &&
    (s.unit? 7).any fun u => u.thread 1 == { thr [0, 0, 0, 0x06050403] with st := .ready, pos := { hdr := 0x1000 }, ctrs := { s := 1 } } &&
      (u.thread 0).ctrs == { l := 1, s := 1 }) = true := by decide +kernel
theorem test_lr_return : onNext (exec (.loadReturn 9) (withOp memS opLr)) (fun s => (s.unit? 7).any fun u =>
    (u.thread 1).reg 3 == 0x08070605 && (u.thread 1).resv == some { line := 0x200, since := 0 }) = true := by decide +kernel

/-- What a statement asks of a global write before it is performed at once. -/
theorem performs_of {s : State} {o : MemOp} {u : UnitSt} (h0 : s.entered = s) (h1 : s.op? o.id = some o) (h2 : s.unit? o.unit = some u)
    (h3 : u.role ≠ .surrogate ∧ o.tid < u.threads.length ∧ o.sp = .global ∧ (o.arrived = false ∧ o.done = false ∧ o.ret = false) ∧
      s.sibling o = none ∧ s.mayArrive o = true ∧ s.inRetired o.addrs = false ∧ s.poisoned o.addrs = none ∧ s.refuses o = false ∧
      ∀ l ∈ linesOf o.addrs, s.liveLeases l = [] ∧ s.waitingOn l = []) : Performs s o u :=
  ⟨h0, h1, h2, h3.1, h3.2.1, h3.2.2.1, h3.2.2.2.1, h3.2.2.2.2.1, h3.2.2.2.2.2.1, ⟨h3.2.2.2.2.2.2.1, h3.2.2.2.2.2.2.2.1, h3.2.2.2.2.2.2.2.2.1⟩, h3.2.2.2.2.2.2.2.2.2⟩
theorem witness_performs : ∃ u, Performs (withOp memS opSt) opSt u ∧ Performs (withOp memS opAt) opAt u :=
  ⟨(((withOp memS opSt).unit? 7).getD uReady), performs_of (by decide +kernel) (by decide +kernel) (by decide +kernel) (by decide +kernel),
    performs_of (by decide +kernel) (by decide +kernel) (by decide +kernel) (by decide +kernel)⟩
theorem test_store_return : onNext (exec (.gwctReturn 9) (withOp memS opSt)) (fun s => s.ops == [] && s.mem == memS.mem.writes (span 0x10022 2) [9, 0] &&
    (s.unit? 7).any fun u => (u.thread 1).ctrs == { l := 1 } && (u.thread 1).gwct == 3000 && (u.thread 1).regs == (thr []).regs) = true := by decide +kernel
theorem test_atom_return : onNext (exec (.gwctReturn 9) (withOp memS opAt)) (fun s => s.mem.at_ 0x10020 4 == 0x04030300 &&
    (s.unit? 7).any fun u => (u.thread 1).ctrs == { l := 1 } && (u.thread 1).regs == (thr [0, 0, 0, 0x04030201]).regs) = true := by decide +kernel

def leased : State := { memS with leases := [{ core := 2, line := 5, till := 3000 }], lines := [{ line := 5, lease := 1500 }] }
theorem test_lease_expiry : onNext (exec (.leaseExpiry 2 5) leased) (fun s => s.leases == [] && (s.lineSt 5).lease == 2048 &&
    { s with leases := leased.leases, lines := leased.lines } == leased) = true := by decide +kernel

def missS : State := stateOf { uReady with threads := [{ thr [] with st := .missing 0x20 }, thr []] }
theorem test_translation_resolved : onNext (exec (.translationResolved 7 0 .mapped) missS) (fun s => only missS s 0 { thr [] with st := .ready }) = true ∧
    onNext (exec (.translationResolved 7 0 .refused) missS) (fun s => s.mem == [] && (s.unit? 7).any fun u =>
      match (u.thread 0).st with | .trapped r => r.trap == { cause := .unresolved, sub := 2, addr := 0x20 } | _ => false) = true := by decide +kernel

/-- A thread with a running load stream over two words of scratchpad and a store stream to memory. -/
def pat (dir : Bool) (base : DWord) (space : Bool) : Pattern := { base := base, c := [2, 1, 1, 1], s := [4, 0, 0, 0], ew := 2, dir := dir, space := space }
def sElem : State := stateOf { unitOne { thr [] with st := .ready, streams := [{ st := .running, pat := pat false 32 true }, { st := .running, pat := pat true 0x40 false, queue := [0x11223344], next := 1 },
    { st := .running, pat := pat true 64 true, queue := [5], next := 1 }] ++ List.replicate 5 {} } 1 0 with scr := Memory.writes [] (span 32 4) [1, 2, 3, 4] }
theorem witness_elements : (sElem.unit? 7).any (fun u => sElem.elemAddr u (pat false 32 true) 0 == .at_ 32 && sElem.elemAddr u (pat true 0x40 false) 0 == .at_ 0x40 &&
    (sElem.placeRead u (sElem.place u true 32 4 .r)).isSome && sElem.place u false 0x40 4 .w == .glob (span 0x10040 4) &&
    (match sElem.place u true 64 4 .w with | .scr as => u.paged as | _ => false)) = true := by decide +kernel
theorem test_element_read : onNext (exec (.streamElementRead 7 0 0) sElem) (fun s => (s.unit? 7).any fun u =>
    (u.thread 0).stream 0 == { st := .running, pat := pat false 32 true, queue := [0x04030201], next := 1 } && u.scr == Memory.writes [] (span 32 4) [1, 2, 3, 4]) = true := by
  decide +kernel
theorem test_element_write : onNext (exec (.streamElementWrite 7 0 1) sElem) (fun s => s.ops == [{ id := 100, unit := 7, tid := 0, core := 0, grp := 100, sp := .global, addrs := span 0x10040 4, kind := .elem [0x44, 0x33, 0x22, 0x11] 1 0 }] && s.nextId == 101 &&
    (s.unit? 7).any fun u => (u.thread 0).stream 1 == { st := .running, pat := pat true 0x40 false, next := 1, done := 1 }) = true ∧
    onNext (exec (.streamElementWrite 7 0 2) sElem) (fun s => s.ops == [] && (s.unit? 7).any fun u => u.scr.at_ 64 4 == 5) = true := by decide +kernel

/-! Units -/

def placeL : Launch :=
  { lid := 3, ctx := 0, cmd := 0, st := .running, units := 4, dimx := 4, dimy := 1, dimz := 1, placed := 1, seed := 5, poolN := 4
    desc := { entry := 0x2000, thr := 32, regs := 16 }, xdesc := { entry := 0x3000, thr := 32, regs := 16 } }
def sPlace : State := { sReady with units := [], launches := [placeL], ctxs := [{ ctx := 0, live := true, desc := { part := 1 } }] }
theorem witness_placement : (sPlace.launch? 3).any (fun l => !l.cores && l.nextUnit == some (1, false) &&
    sPlace.hasRoom 0 5 (l.kernel false).hbs (l.kernel false).regs (l.kernel false).tile (l.kernel false).fl1 && sPlace.allowed l false && sPlace.linkFree 1 && sPlace.basesOk 0 0 1 [0] && sPlace.siltPlace l == some 0 &&
    firstFit (sPlace.saveSize 0) 0 (sPlace.saveUsed 0) == some 0) = true := by decide +kernel
theorem test_place_unit : onNext (exec (.placeUnit 3 5 [0]) sPlace) (fun s => (s.launch? 3).any (·.placed == 2) && s.nextId == 101 && (s.unit? 100).any fun u =>
    u.core == 5 && u.lin == 1 && u.threads.length == 32 && (u.thread 3).pos == { hdr := 0x2000 } && (u.thread 3).rng == seedG 5 1 3 && (u.thread 3).st == .ready) = true := by
  decide +kernel
theorem test_preempt_request : onNext (exec (.preemptRequest 7) sReady) (fun s => sameBut sReady s && (s.unit? 7) == some { uReady with preempt := true }) = true := by
  decide +kernel
def sStop : State := { stateOf { uReady with preempt := true, mirror := false } with ctxs := [{ ctx := 0, live := true, desc := { savesz := 1024, part := 1 } }] }
def sNoSave : State := { sStop with ctxs := [{ ctx := 0, live := true }] }
theorem witness_save : (sStop.unit? 7).any (fun u => sStop.mayStop u && sStop.running 7 == none && sStop.saveFits 0 (sStop.saveUsed 0) [u] && !(sNoSave.saveFits 0 (sNoSave.saveUsed 0) [u]) && sStop.leafUp 0) = true := by decide +kernel
theorem test_unit_save : onNext (exec (.unitSave 7) sStop) (fun s => s.ops == [] && (s.unit? 7).any fun u => u.st == .saved && u.away && !u.preempt && u.bundles == [] &&
    u.thread 0 == { thr [] with st := .ready, pos := { hdr := 0x1000 } }) = true ∧
    onNext (exec (.unitSave 7) sNoSave) (fun s => (s.unit? 7) == some { uReady with mirror := false } && (s.linkDir 0 true).queue.length == 1) = true := by decide +kernel
def sSaved : State := { stateOf { uReady with st := .saved, away := true, bundles := [] } with launches := [{ lid := 3, ctx := 0, cmd := 0, st := .running, poolN := 1 }], ctxs := [{ ctx := 0, live := true, desc := { part := 1 } }] }
theorem witness_restore : (sSaved.unit? 7).any (fun u => sSaved.mayRestore u 9) = true := by decide +kernel
theorem test_restore : onNext (exec (.restoreUnit 7 9) sSaved) (fun s => (s.unit? 7).any fun u => u.core == 9 && u.st == .resident && !u.away &&
    u.bundles == u.rehome && u.thread 0 == uReady.thread 0) = true := by decide +kernel
def uDone (r : Role) : UnitSt := { uReady with role := r, st := .draining, threads := uReady.threads.map fun th => { th with st := .exited } }
def sDone (r : Role) : State := { stateOf (uDone r) with launches := [{ lid := 3, ctx := 0, cmd := 0, st := .running, units := 4, retired := 1, tol := 0x3F800000 }], time := 3000 * tick }
theorem witness_retire : ((sDone .plain).unit? 7).any (fun u => (sDone .plain).drained u) = true ∧
    ((sDone .surrogate).unit? 7).any (fun u => (sDone .surrogate).drained u && !(u.passes 0x3F800000)) = true := by decide +kernel
theorem test_retire : onNext (exec (.unitRetire 7) (sDone .plain)) (fun s => s.unit? 7 == none && (s.launch? 3).any fun l => l.retired == 2 && l.exact == 0) = true ∧
    onNext (exec (.unitRetire 7) (sDone .surrogate)) (fun s => s.unit? 7 == none && (s.launch? 3).any fun l => l.retired == 1 && l.gfail == 1 && l.redo == [0]) = true := by
  decide +kernel
theorem test_retire_cancelled : onNext (exec (.unitRetire 7) ((sDone .surrogate).updLaunch 3 fun l => { l with cancel := true }))
    (fun s => s.unit? 7 == none && (s.launch? 3).all fun l => l.retired == 1 && l.gfail == 1 && l.st.isOver) = true := by decide +kernel

/-! Handlers and the bundle window -/

def swRec : TrapRec := trapRec s0 0 { hdr := 0x1000, widx := 2 } { cause := .software, info := 42 }
/-- Thread 0 is trapped with a resumable cause, and its context has a handler for it. -/
def uTrap : UnitSt := { uReady with threads := [{ thr [] with st := .trapped { swRec with fatal := false }, pos := { hdr := 0x1000, widx := 2, cnt := 4 } }, thr []] }
def hdrMem : Memory := Memory.writes [] (span 0x11000 8) (leBytes 8 0xA0303FFFFFC00000)
def sDue : State := { stateOf uTrap with mem := hdrMem, time := 3000 * tick, ctxs := [{ ctx := 0, live := true, desc := { hmask := 15, himg := 0x9000 } }] }
def hd (since : Nat) : Handler := { leaf := 0, unit := 7, bundle := 0, tid := 0, since := since }
def sHand (since : Nat) : State := { sDue with fw := { sDue.fw with handlers := [hd since] }, time := 200000 * tick }

theorem witness_dispatch : sDue.handler? 0 = none ∧ (firstDue (sDue.dueAt 0)).isSome = true ∧ (firstDue (sDue.dueAt 0)).any (fun d => d.unit == 7 && d.bid == 0 && d.tid == 0) = true := by
  decide +kernel
theorem test_dispatch : onNext (exec (.handlerDispatch 0) sDue) (fun s => s.mem == hdrMem && s.handler? 0 == some { hd 3000 with cause := 16 }) = true := by decide +kernel
theorem witness_handler : (sHand 0).handler? 0 = some (hd 0) ∧ ((sHand 0).unit? 7).isSome = true ∧ (sHand 0).stillTrapped (hd 0) = true ∧
    State.stillTrapped { sHand 190000 with units := [uReady] } (hd 190000) = false ∧ (sHand 190000).overTime (hd 190000) = false ∧ (hd 0).since + 100000 < (sHand 0).dt ∧ (sHand 100000).dt ≤ (hd 100000).since + 100000 := by
  decide +kernel
theorem test_handler_return : onNext (exec (.handlerReturn 0) (sHand 0)) (fun s => s.handler? 0 == none && (s.unit? 7).any fun u => u.st == .draining && u.faulted) = true ∧
    onNext (exec (.handlerReturn 0) { sHand 190000 with units := [uReady] }) (fun s => s.handler? 0 == none && (s.unit? 7).any fun u => u.st == .resident && u.threads == uReady.threads) = true := by
  decide +kernel
theorem test_handler_timeout : onNext (exec (.handlerTimeout 0) (sHand 0)) (fun s => s.handler? 0 == none && (s.unit? 7).any fun u => u.st == .draining && u.faulted) = true ∧
    onNext (exec (.handlerTimeout 0) (sHand 100000)) (· == sHand 100000) = true := by decide +kernel
theorem witness_window : ((sHand 0).unit? 7).any (fun u => (u.bundle? 0).any fun b => b.selected == some 0 &&
    (sHand 0).resumePos u.ctx (u.thread 0).pos 0x1010 == some { hdr := 0x1000, widx := 2, cnt := 4 } && (sHand 0).resumePos u.ctx (u.thread 0).pos 0x1011 == none) = true := by
  decide +kernel
theorem test_wctl : onNext (exec (.wctl 0 0x8005) (sHand 0)) (fun s => sameBut (sHand 0) s && (s.unit? 7).any fun u => (u.bundle? 0).any fun b => b.hold && b.wslot == 5) = true := by
  decide +kernel
theorem test_wcmd_none : onNext (exec (.wcmdNone 0) (sHand 0)) (fun s => (s.unit? 7).any fun u => (u.bundle? 0).any fun b => b.wstat == 0) = true ∧
    onNext (exec (.wcmdReserved 0 9) (sHand 0)) (fun s => sameBut (sHand 0) s && (s.unit? 7).any fun u => (u.bundle? 0).any fun b => b.wstat == 2) = true := by decide +kernel
theorem test_resume : onNext (exec (.resume 0) (sHand 0)) (fun s => (s.unit? 7).any fun u => (u.thread 0).st == .ready && (u.thread 0).pos == { hdr := 0x1000, widx := 2, cnt := 4 } && (u.bundle? 0).any fun b => b.wstat == 0) = true := by
  decide +kernel
theorem test_skip : onNext (exec (.skip 0) (sHand 0)) (fun s => (s.unit? 7).any fun u => (u.thread 0).st == .ready && (u.thread 0).pos == { hdr := 0x1000, widx := 3, cnt := 4 } && (u.bundle? 0).any fun b => b.wstat == 0) = true := by
  decide +kernel
theorem test_endthread : onNext (exec (.endthread 0) (sHand 0)) (fun s => s.mem == hdrMem && (s.unit? 7).any fun u => (u.thread 0).st == .exited) = true := by decide +kernel
theorem test_endunit : onNext (exec (.endunit 0) (sHand 0)) (fun s => s.mem == hdrMem && (s.unit? 7).any fun u => u.st == .draining && u.faulted) = true := by decide +kernel
theorem test_register_write : onNext (exec (.registerWrite (.window 0 0x808 false) 77) (sHand 0)) (fun s => sameBut (sHand 0) s && (s.unit? 7).any fun u =>
    (u.thread 0).reg 2 == 77) = true ∧ onNext (exec (.registerWrite (.power 0) 2800) sReady) (fun s => s.power.plimit == 2800) = true := by decide +kernel

/-! ### Events: engines and claims -/

def uEng : UnitSt := { uReady with threads := uReady.threads.map fun th => { th with ctrs := { t := 1, c := 1, f := 1 } }, tile := true, mirror := false
                                   scr := Memory.writes [] (span 128 8) (leBytes 8 0x3F80000040000000) }
def eOp (i : Instr) (o : Opnds) (k : CtrKind) (ph : Phase) : EngOp :=
  { id := 50, unit := 7, ctx := 0, core := 0, tids := [(0, 6), (1, 6)], ins := i, o := o, ctr := k, phase := ph, wd := 1 }
def sOp (e : EngOp) : State := { stateOf uEng with eng := [e], time := 3000 * tick, ctxs := [{ ctx := 0, live := true, claims := [{ h := 4, unit := 7, kind := 3, len := 64, src := 128, dst := 0, st := .held }] }] }

def addOp : Instr := .swadd { ty := .f32, count := 1, d := 0, a := 0, b := 0, bound := 0 } {}
def eSweep (ph : Phase) : EngOp := { eOp addOp { d := 0, a := 128, b := 256 } .t ph with wd := 0, pages := [0] }
theorem witness_sweep_start : ((sOp (eSweep .accepted)).sweeps 0).head? = some (eSweep .accepted) ∧
    (∀ p ∈ (eSweep .accepted).pages, p ∈ uEng.frames) ∧ (sweepF addOp).bound = 0 := by decide +kernel
theorem test_sweep_start : onNext (exec (.sweepStart 0) (sOp (eSweep .accepted))) (fun s => { s with eng := [], cores := [] } == { sOp (eSweep .accepted) with eng := [], cores := [] } &&
    (s.engOp? 50).any fun e => e.phase == .begun && (e.out.filter fun c => c.2 != 0) == [(3, 0x40), (6, 0x80), (7, 0x3F)]) = true := by decide +kernel
theorem test_sweep_complete : onNext (exec (.sweepComplete 0) (sOp { eSweep .begun with out := [(3, 0x40)] })) (fun s => s.eng == [] && (s.unit? 7).any fun u =>
    u.scr == uEng.scr && u.late == [[(3, 0x40)]] && (u.thread 0).ctrs == { c := 1, f := 1 }) = true := by decide +kernel
/-- A unit whose completed sweep has a byte still to land. -/
def sLate : State := stateOf { uEng with late := [[(3, 0x40)]] }
theorem witness_land : sLate.sweeps 0 = [] ∧ (sLate.units.find? fun u => u.core == 0 && !u.late.isEmpty).isSome = true := by decide +kernel
theorem test_land : onNext (exec (.sweepComplete 0) sLate) (fun s => (s.unit? 7).any fun u => u.scr == uEng.scr.write 3 0x40 && u.late == []) = true := by
  decide +kernel
theorem witness_page_fill : 16384 * 1 < ({ uEng with nscr := 32768 } : UnitSt).nscr ∧ 1 ∉ uEng.frames ∧ (sOp (eSweep .accepted)).framesUsed 0 < (sOp (eSweep .accepted)).frameCount 0 := by
  decide +kernel
theorem test_page_fill : onNext (exec (.scratchPageFill 7 1) (stateOf { uReady with nscr := 32768 })) (fun s => (s.unit? 7) == some { uReady with nscr := 32768, frames := [0, 1] }) = true := by
  decide +kernel

def eTile (i : Instr) (a b : BitVec 128) (ph : Phase) : EngOp := eOp i { a := a, b := b } .t ph
theorem witness_tile_start : (sOp (eTile (.tzero 6 0) 0 0 .accepted)).tileHead 0 = some (uEng, eTile (.tzero 6 0) 0 0 .accepted) ∧
    (sOp (eTile (.tzero 6 0) 0 0 .accepted)).turnStatus uEng (eTile (.tzero 6 0) 0 0 .accepted) = 0 ∧
    (sOp (eTile (.tzero 6 0) 0x8000000 0 .accepted)).turnStatus uEng (eTile (.tzero 6 0) 0x8000000 0 .accepted) ≠ 0 ∧
    shapeOf (eTile (.tzero 6 0) 0 0 .begun).base = some ⟨1, 0, 1⟩ ∧ 0 < (sOp (eTile (.tzero 6 0) 0 0 .begun)).cores.length := by decide +kernel
theorem test_tile_start : onNext (exec (.tileOpStart 0 []) (sOp (eTile (.tzero 6 0) 0 0 .accepted))) (fun s => { s with eng := [] } == { sOp (eTile (.tzero 6 0) 0 0 .accepted) with eng := [] } &&
    (s.engOp? 50).any fun e => e.phase == .begun) = true ∧
    onNext (exec (.tileOpStart 0 []) (sOp (eTile (.tzero 6 0) 0x8000000 0 .accepted))) (fun s => s.eng == [] && (s.unit? 7).any fun u => (u.thread 0).reg 6 != 0 && (u.thread 0).ctrs.t == 0) = true := by
  decide +kernel
theorem test_tile_complete : onNext (exec (.tileOpComplete 0) (sOp (eTile (.tmir 6 true) 0 0 .begun))) (fun s => s.eng == [] && (s.unit? 7).any fun u => u.mirror && (u.thread 1).ctrs.t == 0) = true ∧
    onNext (exec (.tileOpComplete 0) { sOp (eTile (.tzero 6 0) 0 0 .begun) with cores := [{ te := { acc := [(0, 5), (1, 6)], high := 1 } }] }) (fun s =>
      s.eng == [] && (s.core 0).te == TileSt.clear { acc := [(0, 5), (1, 6)], high := 1 } ⟨1, 0, 1⟩) = true := by decide +kernel

/-- A CLAIM of 64 bytes from scratchpad 128 to scratchpad 0, and one of a length of 0. -/
def eClaim (n : Word) : EngOp := { eOp (.claim 6 4) {} .c .accepted with recd := [3, n, 128, 0, 0] ++ List.replicate 11 0, claim := some 9 }
def sClaim (n : Word) : State := { sOp (eClaim n) with ctxs := [{ ctx := 0, live := true, claims := [{ h := 9, unit := 7 }] }] }
theorem witness_claim_complete : (claimOf 9 7 50 (eClaim 64).recd).any (fun c => !c.isFabric && (sClaim 64).chkCopy uEng false c == .ok && ((sClaim 64).claim? 0 9).isSome) = true ∧
    (claimOf 9 7 50 (eClaim 2000).recd).any (fun c => match (sClaim 2000).chkCopy uEng false c with | .fail _ _ => true | _ => false) = true := by decide +kernel
theorem witness_landing (f : FarClaim) : Landing.given ≠ .far f := nofun
theorem test_claim_complete : onNext (exec (.claimComplete 0 9 false .given) (sClaim 64)) (fun s => s.eng == [] && (s.claim? 0 9).any (fun c => c.st == .held && c.len == 64) &&
    (s.unit? 7).any fun u => (u.thread 1).reg 6 == 9 && (u.thread 1).ctrs == { t := 1, f := 1 }) = true ∧
    onNext (exec (.claimComplete 0 9 false .given) (sClaim 2000)) (fun s => s.eng == [] && s.claim? 0 9 == none && (s.unit? 7).any fun u => (u.thread 1).reg 6 != 9) = true := by
  decide +kernel

def eFlow (ph : Phase) : EngOp := { eOp (.flow 6 0 2 4 false) { a := 4, b := 0x0000000400000000, c := 8 } .c ph with claim := some 4 }
theorem witness_flow : (sOp (eFlow .accepted)).turn (eFlow .accepted) usesClaim = true ∧ uEng.stopping = false ∧ (sOp (eFlow .accepted)).flowStatus (eFlow .accepted) = 0 ∧
    (sOp (eFlow .accepted)).flowStatus { eFlow .accepted with o := { a := 5 } } ≠ 0 ∧ ((sOp (eFlow .begun)).claim? 0 4).any (fun c => !c.arv && c.dstScr == some true) = true := by decide +kernel
theorem test_flow_begin : onNext (exec (.flowBegin 50) (sOp (eFlow .accepted))) (fun s => (s.engOp? 50).any (·.phase == .begun) && (s.claim? 0 4).any (·.st == .flowing) &&
    { s with units := [], eng := [], ctxs := [] } == { sOp (eFlow .accepted) with units := [], eng := [], ctxs := [] }) = true := by decide +kernel
theorem test_flow_end : onNext (exec (.flowEnd 50) (sOp (eFlow .begun))) (fun s => s.eng == [] && s.mem == [] && (s.unit? 7).any fun u => u.scr == uEng.scr && u.late == [(span 4 8).zip (leBytes 8 0x3F80000040000000)] &&
    (u.thread 0).reg 6 == 0 && (u.thread 0).ctrs.c == 0) = true := by decide +kernel
theorem test_cqry_rlse : onNext (exec (.engineOpComplete 50) (sOp { eOp (.cqry 6 0) { a := 4 } .c .accepted with status := 77 })) (fun s => s.eng == [] && (s.unit? 7).any fun u => (u.thread 0).reg 6 == 77) = true ∧
    onNext (exec (.engineOpComplete 50) (sOp { eOp (.rlse 6 0) { a := 4 } .c .accepted with claim := some 4 })) (fun s => s.eng == [] && s.claim? 0 4 == none && (s.unit? 7).any fun u => (u.thread 0).reg 6 == 0) = true := by
  decide +kernel

/-- A held claim of a flow from memory, whose page is unmapped. -/
def sPinned : State := { stateOf uReady with ctxs := [{ ctx := 0, live := true, claims := [{ h := 4, unit := 7, kind := 0, len := 64, src := 0x40, dst := 0, st := .held }] }] }
theorem witness_unmap : sReady.pageHits (.unmap 0 0 4096) = [] ∧ (sPinned.pageHits (.unmap 0 0 4096)).map (fun x => (x.1, x.2.1, x.2.2.h)) = [(0, 1, 4)] ∧ sPinned.inProgress 0 4 = false := by
  decide +kernel
theorem test_unmap : onNext (exec (.pageUnmap (.unmap 0 0 4096)) sReady) (fun s => s.walk 0 100 .r == .miss && s.walk 0 4096 .r == .ok 0x11000 && s.walk 0 0xFFFF .r == .ok 0x1FFFF) = true ∧
    onNext (exec (.pageUnmap (.unmap 0 0 4096)) sPinned) (fun s => (s.claim? 0 4).any fun c => c.st == .revoked && c.cause == 1) = true := by decide +kernel

/-! ### Events: fabric, links and groups -/

/-- Node 1 with port 0 up to node 2; job 9 of nodes 1 and 2 bound to context 0, whose claim 4 is a put's. -/
def sFab : State := { stateOf uEng with
  mem := Memory.writes [] (span 0x10020 8) [1, 0, 0, 0, 2, 0, 0, 0], time := 3000000 * tick
  ctxs := [{ ctx := 0, live := true, desc := { fjob := 9 }, claims := [{ h := 4, unit := 7, kind := 4, node := 2, flags := 4, len := 64, src := 0x20, dst := 0x20, st := .held }] }]
  fab := { State.reset.fab with node := 1, jobs := [{ job := 9, members := [1, 2] }]
                                ports := [{ port := 0, up := true, nodes := [2] }] } }
def fOp (i : Instr) (ph : Phase) : EngOp := { eOp i { a := 4, b := 0, c := 8 } .f ph with claim := some 4 }
def sFl (i : Instr) (ph : Phase) (f : Flight) : State := { sFab with eng := [fOp i ph], fab := { sFab.fab with flights := [f] } }
def fl : Flight := { op := 50, claim := 4, ctx := 0, tag := 3, first := 2000, sent := 2000 }
def putsI : Instr := .puts 6 0 2 4 false

theorem witness_accepted : (sFl putsI .begun fl).isAccepted (fOp putsI .begun) = true ∧
    (((some 4 : Option Nat).bind fun h => (sFl putsI .begun fl).claim? 0 h).map Claim.wfl).getD false = false ∧ (sFl putsI .fabAccepted fl).mayLand (fOp putsI .fabAccepted) = true := by decide +kernel
theorem test_accepted : onNext (exec (.fabricAccepted 50) (sFl putsI .begun fl)) (fun s => { s with units := [], eng := [] } == { sFl putsI .begun fl with units := [], eng := [] } &&
    (s.engOp? 50).any (fun e => e.phase == .fabAccepted && e.fell) && (s.unit? 7).any fun u => (u.thread 0).ctrs.f == 0) = true := by decide +kernel
theorem test_landed : onNext (exec (.fabricLanded 50) (sFl putsI .fabAccepted fl)) (fun s => s.eng == [] && s.flight? 50 == none && s.mem == sFab.mem) = true := by decide +kernel

def pk : Packet := { ptype := 1, dstN := 1, srcN := 2, job := 9, claim := 4, va := 0x22, data := [7, 8] }
theorem witness_packet : (sFab.jobCtx 9).isSome = true ∧ sFab.reach 0 0x22 .w 2 = .ok (span 0x10022 2) ∧ sFab.poisoned (span 0x10022 2) = none := by decide +kernel
/-- No unit, lease or write of this state stands in the way of a packet's write. -/
theorem witness_clear : Clear sFab (span 0x10022 2) ∧ Clear sFab (span 0x10020 4) :=
  ⟨⟨by decide +kernel, by decide +kernel⟩, ⟨by decide +kernel, by decide +kernel⟩⟩
theorem test_put_packet : onNext (exec (.putPacketRx pk) sFab) (fun s => s.mem == sFab.mem.writes (span 0x10022 2) [7, 8]) = true := by decide +kernel
theorem test_radd_packet : onNext (exec (.putPacketRx { pk with ptype := 4, sub := 1, va := 0x20, data := [5, 0, 0, 0] }) sFab) (fun s =>
    s.mem == sFab.mem.writes (span 0x10020 4) (raddBytes 1 [1, 0, 0, 0] [5, 0, 0, 0])) = true := by decide +kernel
theorem test_get_request : onNext (exec (.getRequestRx { pk with ptype := 2, srcN := 1, va := 0x20, arrive := 4, opId := 50 }) sFab) (fun s =>
    s.agenda == [.getDataRx { ptype := 3, dstN := 1, srcN := 1, job := 9, claim := 4, opId := 50, data := [1, 0, 0, 0], last := true, at_ := 3000000 }] && { s with agenda := [] } == sFab) = true := by
  decide +kernel
def getI : Instr := .get 6 0 2 4 false
theorem test_get_data : onNext (exec (.getDataRx { pk with ptype := 3, opId := 50, doff := 4 }) (sFl getI .begun fl)) (fun s =>
    s.flight? 50 == some { fl with got := [(4, 7), (5, 8)] } && { s with fab := {} } == { sFl getI .begun fl with fab := {} }) = true := by decide +kernel
def ratomI : Instr := .ratom false .add 6 0 2 4
def rq : Packet := { ptype := 5, dstN := 1, srcN := 2, job := 9, claim := 4, tag := 3, va := 0x20, data := [5, 0, 0, 0, 0, 0, 0, 0], sub := 0, at_ := 3000000 }
theorem witness_ratom_request : sFab.fab.cache.find? (fun x => x.src == 2 && x.claim == 4 && x.tag == 3) = none ∧ AtomOp.ofCode (BitVec.ofNat 4 rq.sub) = some .add ∧ rq.ageNow sFab.dt ≤ 5000 ∧
    sFab.reach 0 0x20 .w 4 = .ok (span 0x10020 4) := by decide +kernel
theorem test_ratom_request : onNext (exec (.ratomRequestRx rq) sFab) (fun s => s.mem.at_ 0x10020 4 == 6 &&
    s.fab.cache.head? == some { src := 2, claim := 4, tag := 3, result := 1, at_ := 3000000 }) = true ∧
    onNext (exec (.ratomRequestRx rq) { sFab with fab := { sFab.fab with cache := [{ src := 2, claim := 4, tag := 3, result := 9, at_ := 1 }] } }) (fun s => s.mem == sFab.mem) = true := by
  decide +kernel
def eRatom (ph : Phase) : EngOp := { fOp ratomI ph with wc := some (4, 1) }
def sRatom (f : Flight) : State := { sFl ratomI .begun f with eng := [eRatom .begun] }
theorem test_ratom_response : onNext (exec (.ratomResponseRx { rq with ptype := 6, opId := 50, data := [9, 0, 0, 0, 0, 0, 0, 0] }) (sRatom fl)) (fun s => s.eng == [] &&
    s.flight? 50 == some { fl with done := some 3000000 } && (s.unit? 7).any fun u => (u.thread 1).reg 4 == 9 && (u.thread 1).reg 6 == 0 && (u.thread 1).ctrs.f == 0) = true := by decide +kernel
theorem test_ratom_retry : onNext (exec (.ratomRetry 50) (sRatom { fl with first := 2990000, sent := 2980000 })) (fun s => s.mem == sFab.mem && s.eng == [eRatom .begun] &&
    (s.flight? 50).any fun f => f.sent == 3000000) = true := by decide +kernel
theorem test_ratom_unknown : onNext (exec (.ratomUnknown 50) (sRatom fl)) (fun s => s.eng == [] && s.flight? 50 == some { fl with done := some 3000000 } &&
    (s.unit? 7).any fun u => (u.thread 0).reg 6 == 21 && (u.thread 0).ctrs.f == 0) = true := by decide +kernel
theorem test_slot_release : onNext (exec (.ratomSlotRelease 50) { sFl ratomI .begun { fl with done := some 1000 } with eng := [] }) (fun s => s.flight? 50 == none &&
    { s with fab := {} } == { sFab with fab := {} }) = true := by decide +kernel
theorem test_ring_chunk : sFab.ringOf { rq with ptype := 7 } = none ∧ onNext (exec (.ringChunkRx { rq with ptype := 7 }) sFab) (fun s => s.fab.chunks == [{ rq with ptype := 7 }] &&
    { s with fab := {} } == { sFab with fab := {} }) = true := by decide +kernel

/-! Links and groups -/

theorem witness_link : (sFab.port? 0).any (fun q => q.up && (0 + 1) % 2 ^ 32 == (q.rxLast + 1) % 2 ^ 32 && pk.chunk == [] && (pk.rx 0).isSome) = true ∧ pk.ptype ≠ 13 := by decide +kernel
theorem test_link_packet : onNext (exec (.linkPacketRx 0 1 true true pk) sFab) (fun s => s.agenda.length == 1 && (s.port? 0).any (fun q => q.rxLast == 1 && q.ctl == some (0, 1)) &&
    { s with agenda := [], ctxs := [], fab := {} } == { sFab with ctxs := [], fab := {} }) = true := by decide +kernel
theorem test_link_bad_crc : onNext (exec (.linkPacketRx 0 1 false true pk) sFab) (fun s => s.agenda == [] && (s.port? 0).any fun q => q.rxLast == 0 && q.fails == 1 && q.errors == 1 && q.ctl == some (1, 1)) = true := by
  decide +kernel
theorem test_retrain : onNext (exec (.linkRetrain 0 true 0) sFab) (fun s => s.mem == sFab.mem && (s.port? 0).any fun q => q.up && q.downAt == none) = true ∧
    onNext (exec (.linkRetrain 0 false 0) sFab) (fun s => (s.port? 0).any (·.downAt == some 3000000) && { s with fab := {} } == { sFab with fab := {} }) = true := by decide +kernel
def sIdle : State := { sFab with ctxs := [{ ctx := 0, live := true, desc := { fjob := 9 } }] }
theorem test_link_loss : onNext (exec (.linkLoss 0) sIdle) (fun s => (s.port? 0).any (fun q => !q.up) && (s.frontMem.readN (span 0 4), s.frontMem.readN (span 24 8)) == (5, 2) && s.fw.mq.ctail == 1) = true := by
  decide +kernel
theorem test_group_create : onNext (exec (.multicastGroupCreate 5 9 [1, 2] 1 false 7) sFab) (fun s => (s.group? 9 5).any (fun g => g.members == [1, 2] && g.amembers == [1, 2] && g.next == 7 && g.want == 7) &&
    { s with fab := {} } == { sFab with fab := {} }) = true := by decide +kernel
def grp : Group := { group := 5, job := 9, members := [1, 2], anchor := 1, xop := false, amembers := [1, 2] }
/-- A claim of the group, kind 8, with a destination at 0x20. -/
def sGrp (g : Group) : State := { sFab with fab := { sFab.fab with groups := [g] } }
def mp : Packet := { ptype := 8, srcN := 2, job := 9, group := 5, claim := 4, tag := 1, data := [7, 8] }
theorem witness_stamp : ((sGrp grp).group? 9 5) = some grp ∧ (sGrp grp).anchors grp = true ∧ 2 ∈ grp.amembers ∧
    grp.hist.find? (fun x => x.p.ptype == 8 && x.p.srcN == 2 && x.p.claim == 4 && x.p.tag == 1) = none := by decide +kernel
theorem test_stamp : onNext (exec (.mcstStamp mp) (sGrp grp)) (fun s => s.mem == sFab.mem && (s.group? 9 5).any fun g => g.next == 2 && (g.hist.map (·.seq)) == [1]) = true := by decide +kernel
theorem test_nack : onNext (exec (.nackRx { mp with seq := 1 }) (sGrp grp)) (fun s => s.group? 9 5 == some grp && s.mem == sFab.mem) = true := by decide +kernel
theorem test_stamp_ack : onNext (exec (.mcstAckRx { mp with ptype := 10, sub := 1, opId := 50, seq := 6 }) (sFl putsI .begun fl)) (fun s => s.flight? 50 == some { fl with stamp := some 6 } &&
    { s with fab := {} } == { sFl putsI .begun fl with fab := {} }) = true := by decide +kernel
theorem witness_member_lost : (sGrp { grp with amembers := [1, 3] }).isLost { grp with amembers := [1, 3] } 3 = true := by decide +kernel
theorem test_member_lost : onNext (exec (.memberLost ⟨9, 5⟩ 3) (sGrp { grp with amembers := [1, 3] })) (fun s => (s.group? 9 5).any fun g => g.aview == 1 && g.amembers == [1] && g.next == 2) = true := by
  decide +kernel
theorem test_multicast_packet : onNext (exec (.mcstPacketRx 0 { mp with seq := 1 }) (sGrp { grp with want := 2 })) (· == sGrp { grp with want := 2 }) = true ∧
    onNext (exec (.mcstPacketRx 0 { mp with seq := 2 }) (sGrp grp)) (fun s => (s.group? 9 5).any fun g => g.want == 1 && g.waiting.length == 1) = true := by decide +kernel


/-! ### Events: launch engine. A queue of context 0 stands at 0x12000, its completion ring at 0x12800 -/

def qu : Queue := { q := 1, ring := 0x12000, cring := 0x12800, en := true, upto := 1, lastCseq := 4 }
/-- The queue's first command. -/
def sQ (ws : List Word) : State := { stateOf uReady with
  mem := Memory.writes [] (span 0x12000 64) (bytesOf (ws ++ List.replicate (16 - ws.length) 0)), time := 2000 * tick, nextId := 40
  ctxs := [{ ctx := 0, live := true, queues := [qu], desc := { qtab := 0x13000, lsa := 0x100000 } }] }
/-- Header words: type and record, cseq 5. -/
def hw (t : Nat) : List Word := [BitVec.ofNat 32 (0x30200 + t), 5, 0, 0]
def pad16 (ws : List Word) : List Word := ws ++ List.replicate (16 - ws.length) 0

theorem witness_bell : (sQ (hw 7)).queue? 0 1 = some qu ∧ qu.usable = true ∧ qu.held = [] ∧ ((3 : DWord) >>> 32) = 0 ∧ qu.entries = 16 := by decide +kernel
theorem test_doorbell : onNext (exec (.doorbellWrite 0 1 3) (sQ (hw 7))) (fun s => s.queue? 0 1 == some { qu with upto := 3, st := 1 }) = true ∧
    onNext (exec (.doorbellWrite 0 1 17) (sQ (hw 7))) (fun s => (s.queue? 0 1).any fun q => q.st == 3 && q.upto == 0) = true := by decide +kernel
def sQErr : State := { sQ (hw 7) with ctxs := [{ ctx := 0, live := true, queues := [{ qu with st := 3 }] }] }
theorem test_reenable : onNext (exec (.queueReenable 0 1) sQErr) (fun s => s.queue? 0 1 == some { qu with st := 0, upto := 0 }) = true := by decide +kernel
theorem test_chead : onNext (exec (.cheadWrite 0 1 9) (sQ (hw 7))) (fun s => s.queue? 0 1 == some { qu with chead := 9 }) = true := by decide +kernel

theorem witness_head : (sQ (hw 7)).headCmd 0 1 = some (qu, pad16 (hw 7)) ∧ cmdBad (pad16 (hw 7)) = none ∧ cmdBad (pad16 (hw 9)) = some 1 ∧
    (sQ (hw 7)).phasePast 0 (pad16 (hw 7)) = false := by decide +kernel
theorem test_resync : onNext (exec (.resync 0 1) (sQ (hw 7))) (fun s => s.frontMem.at_ 0x12800 8 == 0x0000000500000007 && s.frontMem.at_ 0x1280C 4 == 1 && s.frontMem.at_ 0x12818 8 == 4) = true := by
  decide +kernel
theorem test_rejected : onNext (exec (.commandRejected 0 1) (sQ (hw 9))) (fun s => s.frontMem.at_ 0x12800 8 == 0x0000000500010309 &&
    (s.queue? 0 1).any fun q => q.head == 1 && q.ctail == 1) = true := by decide +kernel

/-- A launch of 2 by 3 by 1 units that claims block 6. -/
def launchWs (t : Nat) : List Word := hw t ++ [0x100, 0, 0, 0, 0, 0, 6, 0, 0x30002, 0x400001, 0, 0]
theorem witness_launch : (sQ (launchWs 1)).headCmd 0 1 = some (qu, launchWs 1) ∧ cmdBad (launchWs 1) = none ∧ cmdBad (launchWs 2) = none ∧
    (sQ (launchWs 1)).blockBusy 6 = false := by decide +kernel
theorem test_launch : onNext (exec (.launch 0 1) (sQ (launchWs 1))) (fun s => (s.launch? 6).any fun l => !l.guarded && l.dimx == 2 && l.dimy == 3 && l.dimz == 1 && l.body == launchWs 1) = true ∧
    onNext (exec (.guardedLaunch 0 1) (sQ (launchWs 2))) (fun s => (s.launch? 6).any fun l => l.guarded && l.dimx == 2 && l.dimy == 3) = true := by decide +kernel

/-- A graph of one node, whose table is at 0x200. -/
def graphWs : List Word := hw 3 ++ [0x200, 0, 1, 0, 0, 0, 0, 0, 0, 0, 0, 0]
def nodeBs : List Byte := bytesOf ([0x30001, 0, 0, 0, 0x100, 0, 0, 0, 0, 0, 6, 0, 0x30002, 0x400001, 0, 0] ++ List.replicate 16 0)
def sGraph : State := { sQ graphWs with mem := ((sQ graphWs).mem.writes (span 0x10200 128) nodeBs) }
theorem witness_graph : sGraph.headCmd 0 1 = some (qu, graphWs) ∧ cmdBad graphWs = none ∧ (match sGraph.readVa 0 0x200 128 with | .ok bs => (nodesOf 1 1 bs).any fun ns => acyclic 1 ns | _ => false) = true := by
  decide +kernel
theorem test_graph : onNext (exec (.graph 0 1) sGraph) (fun s => s.cmds.any fun c => c.words == graphWs && c.nodes.length == 1 && c.nodes.all fun n => n.ctr == 0 && n.succ == []) = true := by
  decide +kernel

/-- EVENT SIGNAL adds 5 to event 9 of context 0; EVENT WAIT asks for 5 of it. -/
def evWs (t : Nat) : List Word := hw t ++ [5, 0, 0x90000, 0, 0, 0, 0, 0, 0, 0, 0, 0]
def cmdOf (ws : List Word) : Cmd := { cid := 40, ctx := 0, q := 1, words := ws, readAt := 2000 }
theorem witness_event_commands : (sQ (evWs 4)).headCmd 0 1 = some (qu, evWs 4) ∧ cmdBad (evWs 4) = none ∧ cmdBad (evWs 5) = none ∧
    ((sQ (evWs 4)).takeCmd 0 qu (evWs 4)).1.ungranted ((sQ (evWs 4)).takeCmd 0 qu (evWs 4)).2 = false := by decide +kernel
theorem test_signal : onNext (exec (.eventSignal 0 1) (sQ (evWs 4))) (fun s => s.event 0 9 == 5 && s.frontMem.at_ 0x12800 8 == 0x0000000500000004) = true ∧
    onNext (exec (.eventWait 0 1) (sQ (evWs 5))) (fun s => s.event 0 9 == 0 && s.cmds.map (·.st) == [.started] && s.frontMem.at_ 0x12800 8 == 0) = true := by decide +kernel
def sStart (ws : List Word) : State := { sQ ws with cmds := [cmdOf ws], nextId := 41 }
theorem witness_start : (sStart (evWs 4)).nextCmd = some (cmdOf (evWs 4)) ∧ CW.type (evWs 4) = 4 ∧ CW.evs (evWs 4) = false ∧ (sStart (launchWs 1)).nextCmd = some (cmdOf (launchWs 1)) := by
  decide +kernel
theorem test_start : onNext (exec (.commandStart 0 40) (sStart (evWs 4))) (fun s => s.event 0 9 == 5) = true ∧
    ((sStart (launchWs 1)).startCmd (cmdOf (launchWs 1))).cmds = [{ cmdOf (launchWs 1) with st := .started }] := by decide +kernel
theorem test_cancel : cmdBad (pad16 (hw 6 ++ [1, 1])) = none ∧ onNext (exec (.cancel 0 1) (sQ (hw 6 ++ [1, 1]))) (fun s => s.frontMem.at_ 0x12800 8 == 0x0000000500000006) = true := by
  decide +kernel

def sPlimit (p : Nat) : State := { stateOf { uEng with role := .prologue } with time := 100000 * tick, launches := [{ lid := 3, ctx := 0, cmd := 0, st := .prologue, pstart := p }] }
theorem test_prologue_timeout : onNext (exec (.prologueTimeout 0 3) (sPlimit 0)) (fun s => s.units == [] && (s.launch? 3).any fun l => l.code == 4 && l.st == .faulted) = true ∧
    onNext (exec (.prologueTimeout 0 3) (sPlimit 1)) (· == sPlimit 1) = true := by decide +kernel

/-! Policies, modes, power, agents outside -/

/-- A policy of one operation, RET g0. -/
theorem witness_policy : (match tilthVerify [0, 0, 0, 0, 0xB000] with | .ok p => p.ops == [0xB000] | _ => false) = true ∧
    (match tilthVerify [0, 0, 0, 0] with | .error 1 => true | _ => false) = true := by decide +kernel
theorem test_policy_load : onNext (exec (.tilthPolicyLoad 0 [0, 0, 0, 0, 0xB000]) sReady) (fun s => (s.ctx? 0).any (fun c => c.policy == some { mask := 0, ents := [0, 0, 0], ops := [0xB000] }) && s.fw.polRej == 0) = true ∧
    onNext (exec (.tilthPolicyLoad 0 [0, 0, 0, 0]) sReady) (fun s => s.fw.polRej == 1 && s.ctxs == sReady.ctxs) = true := by decide +kernel
def sSliceEnd : State := { sReady with units := [{ uReady with ctx := 2, st := .saved }], time := 2000000 * tick }
theorem witness_slice_end : (sSliceEnd.ctx? 0).any (fun c => c.policy == none && c.sliceAt + c.slice10 * 10000 ≤ sSliceEnd.dt) = true := by decide +kernel
theorem test_slice_end : onNext (exec (.tilthSlice 0) sSliceEnd) (fun s => (s.ctx? 0).any (·.sliceAt == 2000000) && { s with ctxs := [] } == { sSliceEnd with ctxs := [] }) = true ∧
    onNext (exec (.tilthSlice 0) { sSliceEnd with time := 1999999 * tick }) (· == { sSliceEnd with time := 1999999 * tick }) = true := by decide +kernel
def sL1 : State := { sReady with changing := [4], leases := [{ core := 16, line := 3, till := 9 }, { core := 20, line := 3, till := 9 }] }
theorem witness_l1 : sL1.clusterHolds 4 false = false ∧ sL1.partOf 1 = 8 := by decide +kernel
/-- A saved unit waits for fused mode on die 1, which has none. -/
def sWant : State := { stateOf { uReady with st := .saved, away := true } with
  ctxs := [{ ctx := 0, live := true, desc := { part := 2 } }], launches := [{ lid := 3, ctx := 0, cmd := 0, st := .running, desc := { fl1 := true } }] }
theorem test_l1_mode : onNext (exec (.l1ModeChange 4) sWant) (fun s => s == { sWant with changing := [4] }) = true ∧
    onNext (exec (.l1ModeChange 3) sWant) (fun s => s == sWant) = true ∧
    onNext (exec (.l1ModeChange 4) sL1) (fun s => s.fused == [4] && s.changing == [] && s.leases.map (·.core) == [20]) = true := by decide +kernel
/-- Its context's table at 0x30000 allows job 5 3 mJ in a window. -/
def sEnergy : State := { sReady with time := 1000000 * tick, mem := Memory.writes [] (span 0x30014 4) (leBytes 4 3), ctxs := [{ ctx := 0, live := true, desc := { etab := 0x30000 }, jobs := [{ job := 5, energy := 4000, excess := 500, placed := 2 }] }] }
theorem test_energy_window : onNext (exec .energyWindow sEnergy) (fun s => s.power.window == 1 && (s.ctx? 0).any fun c => (c.job? 5).any fun j => j.energy == 0 && j.placed == 0 && j.excess == 1500) = true := by
  decide +kernel
def sTick (f : BitVec 16) : State := { sReady with time := 100000 * tick, power := { sReady.power with plimit := 2800, freq := f } }
theorem test_clock : onNext (exec (.powerControlTick 2950) (sTick 2400)) (fun s => s.power.freq == 2300 && s.power.pnow == 2950) = true ∧
    onNext (exec (.powerControlTick 2600) (sTick 2300)) (·.power.freq == 2400) = true ∧ onNext (exec (.powerControlTick 2700) (sTick 2300)) (·.power.freq == 2300) = true := by decide +kernel
theorem test_plimit : onNext (exec (.plimit 3200) sReady) (fun s => s.power.plimit == 3200 && !s.power.bad) = true ∧
    onNext (exec (.plimit 999) sReady) (fun s => s.power.plimit == 3200 && s.power.bad) = true := by decide +kernel
def sPart : State := { sReady with power := { sReady.power with parts := [{ part := 2, dies := 1 }] } }
theorem witness_gate : (sPart.power.parts.find? (·.part == 2)) = some { part := 2, dies := 1 } ∧ (∀ c ∈ sPart.ctxs, c.live = true → c.desc.part &&& 1 = 0) := by decide +kernel
theorem test_gate : onNext (exec (.partitionGate 2) sPart) (fun s => s.power.parts.map (fun p => p.gated) == [some (Sha.sha256 (0x47 :: List.replicate 40 0))]) = true := by decide +kernel
/-- Core 2 has used 30 µJ, of which unit 7 has a third by 10 issue cycles and unit 8 the rest by 15 and 5 busy ones; of 9 µJ of
HBM context 0 has moved two thirds. -/
def sShares : State := { sTick 2400 with units := [{ uReady with core := 2, issued := 10 }, { uReady with uid := 8, core := 2, issued := 15 }]
                                         ctxs := [{ ctx := 0, live := true, hbmB := 512 }, { ctx := 1, live := true, hbmB := 256 }] }
theorem witness_energy : sShares.dt / 100000 ≠ sShares.power.share ∧ (sShares.units.map (·.uid)).Nodup ∧ (sShares.ctxs.map (·.ctx)).Nodup := by decide +kernel
theorem test_energy : onNext (exec (.energyAttribution 50 { cores := [(2, 30)], busy := [(8, 5)] }) sShares) (fun s => s.power.edev == 50 &&
      (s.unit? 7).any (fun u => u.energy == 10 && u.issued == 0) && (s.unit? 8).any (·.energy == 20)) = true ∧
    onNext (exec (.energyAttribution 50 { hbm := 9 }) sShares) (fun s => (s.ctx? 0).any (fun c => c.energy == 6 && c.hbmB == 0) && (s.ctx? 1).any (·.energy == 3)) = true := by decide +kernel
/-- The main image has started the application cores. -/
def sUp : State := { sReady with trust := { sReady.trust with stage := 3 } }
/-- The page at 0x10000 is of world 0; another is of world 4, which has no key. -/
theorem witness_outside : sUp.hostOpen = true ∧ sReady.hostOpen = false ∧ sReady.mayReach 0 (span 0x10020 2) = true ∧ sReady.atFence 0 = false ∧ sReady.atFence 4 = false ∧
    sReady.mayReach 4 (span 0x10020 2) = false := by decide +kernel
theorem witness_outside_clear : Clear sUp (span 0x10020 2) := ⟨by decide +kernel, by decide +kernel⟩
theorem test_outside : onNext (exec (.hostMemAccess (.write 0x10020 [1, 2])) sUp) (fun s => s.mem.at_ 0x10020 2 == 0x201 && s.ops == []) = true ∧
    onNext (exec (.applicationCoreAccess ⟨3, 4⟩ (.write 0x10020 [1, 2])) sUp) (· == sUp) = true := by decide +kernel
theorem test_outside_read : onNext (exec (.hostMemAccess .fence) sUp) (· == sUp) = true ∧ onNext (exec (.applicationCoreAccess ⟨3, 0⟩ (.read 0x10020 2)) sUp) (· == sUp) = true := by decide +kernel
theorem test_outside_atom : onNext (exec (.applicationCoreAccess ⟨3, 0⟩ (.atom .add false 0x10020 7 0)) { sUp with mem := Memory.writes [] [0x10020] [250] })
    (fun s => s.mem.at_ 0x10020 4 == 257 && s.ops == []) = true := by decide +kernel

/-! Firmware -/

def sMsg : State := { sReady with fw := { sReady.fw with links := [{ up := { permits := 15, sent := 1, acted := 0, queue := [(1, .report { kind := 5, detail := 2 })] } }] } }
theorem test_message : onNext (exec (.firmwareMessage 0 true 1) sMsg) (fun s => s.fw.links == [{ up := { permits := 16, sent := 1, acted := 1 } }] && s.frontMem.readN (span 12 4) == 2) = true ∧
    onNext (exec (.firmwareMessage 0 true 2) sMsg) (· == sMsg) = true := by decide +kernel
theorem test_restart : onNext (exec (.controllerRestart 0) (sHand 0)) (fun s => s.handler? 0 == none && !s.leafUp 0 && (s.unit? 7).any (·.threads == uTrap.threads)) = true ∧
    onNext (exec (.controllerRestart 0) { sReady with fw := { sReady.fw with restarting := [0] } }) (fun s => s.leafUp 0) = true := by decide +kernel
/-- A state whose management ring, at 0x20000, holds one request with number 8; reports go to 0x21000, and descriptors of
contexts lie at 0x22000. -/
def withReq (t c : Nat) (a : Word) (d : List Word) (s : State) : State := { s with
  mem := (s.mem.writes (span 0x20000 64) (bytesOf (pad16 [BitVec.ofNat 32 (t + 256 * c), 8, a]))).writes (span (0x22000 + 128 * c) (4 * d.length)) (bytesOf d)
  fw := { s.fw with mq := { q := 0, ring := 0x20000, cring := 0x21000, en := true, upto := 1 }, ctxTab := 0x22000 }
  trust := { s.trust with stage := 3 } }
/-- The first report of the ring. -/
def reported (s' : State) (c status : Nat) : Bool :=
  s'.frontMem.readN (span 0x21000 4) == 65536 * c + 256 * status + 1 && s'.frontMem.readN (span 0x21004 4) == 8 && s'.fw.mq.head == 1 && s'.fw.mlast == 8
theorem witness_request : (withReq 1 5 0 [] sReady).headReq = some (pad16 [0x501, 8]) ∧ MReq.type (pad16 [0x501, 8]) = 1 ∧ MReq.ctx (pad16 [0x501, 8]) = 5 ∧
    (withReq 1 5 0 [] sReady).fw.mq.room = true ∧ (withReq 1 5 0 [] sReady).fw.mq.held = [] := by decide +kernel
/-- Descriptors: of zeros, of a world without a key, with an odd table root. -/
theorem witness_desc : [[0], [0x4000000], [0, 0, 8]].map (fun d => let s := withReq 1 5 0 d sReady; let x := ctxDescOf (s.descWords 5)
    (x.rsv, descAligned x, s.keyLoaded x.world, s.partOk 5 x.part)) = [(false, true, true, true), (false, true, false, true), (false, false, true, true)] := by decide +kernel
theorem test_ctx_start : onNext (exec (.ctxStart 8 5 {}) (withReq 1 5 0 [0] sReady)) (fun s => reported s 5 0 && (s.ctx? 5).any (fun c => c.live && !c.frz && c.claims == [])) = true := by decide +kernel
theorem test_ctx_start_bad : onNext (exec (.ctxStart 8 5 { world := 4 }) (withReq 1 5 0 [0x4000000] sReady)) (fun s => reported s 5 3 && s.ctxs == sReady.ctxs) = true ∧
    onNext (exec (.ctxStart 8 5 { s1root := 8 }) (withReq 1 5 0 [0, 0, 8] sReady)) (fun s => reported s 5 3) = true := by decide +kernel
theorem test_not_live : onNext (exec (.ctxKill 8 5) (withReq 4 5 0 [] sReady)) (fun s => reported s 5 1 && s.ctxs == sReady.ctxs) = true ∧
    onNext (exec (.managementRejected 8 0 5) (withReq 0 5 0 [] sReady)) (fun s => reported s 5 1) = true := by decide +kernel
def sNoUnit : State := { sReady with units := [] }
theorem witness_update : (∀ i < 64, (MReq.mask (pad16 [2, 8, 0x11])).getLsbD i = true → i ∈ [0, 1, 2, 3, 4, 5, 6, 14]) ∧ (sNoUnit.ctx? 0).any (·.live) = true := by decide +kernel
theorem test_ctx_update : onNext (exec (.ctxUpdate 8 0 0x11 { world := 3, hmask := 5 }) (withReq 2 0 0x11 [0x3000000, 5] sNoUnit)) (fun s => reported s 0 0 && (s.ctx? 0).any fun c => c.desc == { world := 3, hmask := 5 }) = true ∧
    onNext (exec (.ctxUpdate 8 0 1 {}) (withReq 2 0 1 [] sReady)) (fun s => reported s 0 1) = true := by decide +kernel
theorem test_ctx_stop : onNext (exec (.ctxStop 8 0) (withReq 3 0 0 [] sReady)) (fun s => reported s 0 0 && (s.ctx? 0).any (fun c => c.frz && c.live) && s.units == [uReady] && s.preemptSent uReady) = true ∧
    onNext (exec (.preempt 8 0 4) (withReq 5 0 4 [] sReady)) (fun s => reported s 0 0 && !s.preemptSent uReady) = true := by decide +kernel
theorem test_ctx_kill : onNext (exec (.ctxKill 8 0) (withReq 4 0 0 [] (sOp (eFlow .accepted)))) (fun s => (s.ctx? 0).any (fun c => !c.live && c.claims == []) && s.units == [] && s.eng == [] && s.fw.mq.ctail == 2 &&
    s.frontMem.readN (span 0x21000 4) == 2 && s.frontMem.readN (span 0x21020 4) == 1) = true := by decide +kernel
def sQuar : State := { sReady with fw := { sReady.fw with quars := [16777217, 5], events := [(16777217, [1])], mlast := 3 } }
theorem test_qclear : onNext (exec (.qclear 8 16777217) (withReq 6 0 16777217 [] sQuar)) (fun s => reported s 0 0 && s.fw.quars == [5] && s.fw.events == []) = true ∧
    onNext (exec (.managementResync 8) (withReq 7 0 0 [] sQuar)) (fun s => s.frontMem.readN (span 0x21000 4) == 8 && s.frontMem.readN (span 0x2100C 4) == 3) = true := by decide +kernel
theorem test_error : onNext (exec (.uncorrectableError 9 false) sReady) (fun s => (s.lineSt 9).poison && !(s.lineSt 8).poison && { s with lines := [] } == { sReady with lines := [] }) = true ∧
    onNext (exec (.errorEvent (.way 3 2 true)) sReady) (fun s => s.fw.quars.contains (16777216 + 3 * 16 + 2)) = true := by decide +kernel
def sPoison : State := { sReady with lines := [{ line := 512, owner := some 0, poison := true }] }
theorem witness_poison : (sPoison.lineSt 512).poison = true ∧ (sPoison.lineSt 512).owner.or none = some 0 := by decide +kernel
theorem test_poison : onNext (exec (.poisonConsume { line := 512 }) sPoison) (fun s => s.fw.retired.contains 1 && (s.ctx? 0).any (!·.live) && s.units == []) = true := by decide +kernel

/-! Trust core -/

def sTrust (ts : TrustSt) : State := { sReady with trust := ts }
theorem test_trust_status : onNext (exec (.trustRequestInvalid 9 0) sReady) (·.trust.status == 3) = true ∧ onNext (exec (.keyRetire (.request 0)) sReady) (·.trust.status == 3) = true ∧
    onNext (exec (.trustRequestInvalid 9 0) (sTrust { removing := [4] })) (·.trust.status == 2) = true := by decide +kernel
theorem test_key_load : onNext (exec (.keyLoad 4 true 7 8) sReady) (fun s => s.trust.slots == [{ slot := 4, net := 7, key := 8 }] && s.trust.status == 0) = true ∧
    onNext (exec (.keyLoad 4 false 7 8) sReady) (fun s => s.trust.slots == [] && s.trust.status == 1) = true ∧
    onNext (exec (.keyLoad 4 true 7 8) (sTrust { slots := [{ slot := 4 }] })) (·.trust.status == 2) = true := by decide +kernel
def sKey : State := sTrust { slots := [{ slot := 4 }, { slot := 5 }] }
theorem witness_key : sKey.worldCtxs 4 = [] ∧ sKey.worldLines 4 = [] := by decide +kernel
theorem test_key_retire : onNext (exec (.keyRetire (.request 4)) sKey) (fun s => s.trust.removing == [4] && s.agenda == [.keyRetire (.resume 4)] && s.trust.slots.length == 2) = true ∧
    onNext (exec (.keyRetire (.resume 4)) (sTrust { slots := [{ slot := 4 }, { slot := 5 }], removing := [4] })) (fun s => s.trust.removing == [] && s.trust.slots.map (·.slot) == [5] && s.trust.status == 0) = true := by
  decide +kernel
theorem test_key_destroy : onNext (exec (.keyDestroy 4) sKey) (fun s => s.trust.slots.map (·.slot) == [5] && s.trust.status == 0) = true := by decide +kernel
theorem test_svn : onNext (exec (.svnRaise 3 true) (sTrust { floor := 2 })) (fun s => s.trust.floor == 3 && s.trust.status == 0) = true ∧
    onNext (exec (.svnRaise 1 true) (sTrust { floor := 2 })) (fun s => s.trust.floor == 2 && s.trust.status == 4) = true := by decide +kernel
theorem test_extend : onNext (exec (.extend 20 5) sReady) (fun s => s.trust.meas.getD 20 0 == Sha.sha256 (List.replicate 63 0 ++ [5]) && s.trust.meas.getD 21 0 == 0 && s.trust.status == 0) = true ∧
    onNext (exec (.extend 19 5) sReady) (fun s => s.trust.status == 3 && s.trust.meas == sReady.trust.meas) = true := by decide +kernel
/-- The attempt count rises; at 3 the other slot is tried with fb set; with both failed, recovery. -/
theorem test_boot_word : bootSelect (bootWord false 0 0) = (bootWord false 1 0, false) ∧ bootSelect (bootWord false 3 0) = (bootWord true 1 1, false) ∧
    (bootSelect (bootWord true 3 1)).2 = true := by decide +kernel
theorem test_device_reset : onNext (exec .deviceReset (sTrust { boot := bootWord true 3 1, floor := 6, slots := [{ slot := 4 }] })) (fun s => s.trust.recovery && s.trust.boot == bootWord true 3 1 &&
    s.trust.floor == 6 && s.trust.slots == [] && s.units == [] && s.ctxs == [] && s.mem == [] && s.kclk == 0) = true := by decide +kernel
def img : BootImage := { digest := 5, svn := 2, sigOk := true, recsOk := true, from_ := .flash 0, recDig := 6, manifest := 7 }
theorem test_boot_stage : onNext (exec (.bootStageLoad img) (sTrust { floor := 2 })) (fun s => s.trust.stage == 1 && !s.trust.halted && s.trust.meas.getD 1 0 == Sha.sha256 (List.replicate 63 0 ++ [5])) = true ∧
    onNext (exec (.bootStageLoad img) (sTrust { floor := 3 })) (fun s => s.trust.stage == 0 && s.trust.halted) = true := by decide +kernel
theorem test_boot_complete : onNext (exec .bootComplete (sTrust { stage := 2, boot := bootWord true 2 1 })) (fun s => s.trust.stage == 3 && s.trust.boot == bootWord false 0 1 && s.trust.slots.map (·.slot) == [0]) = true := by
  decide +kernel
def sSpdm (r : Spdm) : State := sTrust { spdm := [r] }
theorem test_spdm : onNext (exec (.getVersion { box := 0, msg := [0x13, 0x84, 0, 0] }) (sSpdm {})) (fun s =>
      s.trust.spdm == [{ phase := 1, script := [0x13, 0x84, 0, 0] ++ [0x10, 4, 0, 0, 0, 1, 0, 0x13], negLen := 12, reply := [0x10, 4, 0, 0, 0, 1, 0, 0x13] }]) = true ∧
    onNext (exec (.getDigests { box := 0 }) (sSpdm { phase := 1 })) (fun s => s.trust.spdm == [{ phase := 1, reply := [0x13, 0x7F, 4, 0] }]) = true ∧
    onNext (exec (.spdmUnsupported { box := 0 } 0xFE) (sSpdm { phase := 1 })) (fun s => s.trust.spdm == [{ phase := 1, reply := [0x13, 0x7F, 7, 0] }]) = true := by decide +kernel
/-- M20 is reported in one block of 39 bytes, its value's last byte 9. -/
theorem test_measurements : onNext (exec (.getMeasurements { box := 0 } 21 false) { sSpdm { phase := 3 } with trust := { meas := List.replicate 20 0 ++ [9, 0, 0, 0], spdm := [{ phase := 3 }] } }) (fun s =>
    s.trust.spdm.all fun r => r.phase == 3 && r.reply.take 8 == [0x13, 0x60, 0, 0, 1, 39, 0, 0] && (r.reply.drop 46).take 1 == [9]) = true := by decide +kernel

/-! Ring chunks and the application of stamped packets -/

/-- A ring of three members with id 3, whose epoch 3 this member has begun. -/
def ringI : Instr := .ring 6 0
def ringClaim : Claim := { h := 4, unit := 7, kind := 7, flags := 0, len := 64, src := 0x20, dst := 0x20, st := .flowing, ring := [0x200, 8, 0, 3] }
def sRing : State := { sFl ringI .begun fl with ctxs := [{ ctx := 0, live := true, desc := { fjob := 9 }, claims := [ringClaim] }] }
def ck : Packet := { ptype := 7, srcN := 2, job := 9, claim := 3, tag := 3, view := 1, data := [5, 0, 0, 0] }
theorem witness_ring : sRing.ringOf ck = some (ringClaim, fOp ringI .begun) ∧ (sRing.unit? 7).isSome = true ∧ ck.view + 1 < ringClaim.ringN := by decide +kernel
theorem test_ring_goes_on : onNext (exec (.ringChunkRx ck) sRing) (fun s => s.mem == sFab.mem && (s.port? 0).any fun q => q.unacked.any fun x => x.2.view == 2 && x.2.ptype == 7) = true := by
  decide +kernel

/-- The member's claim of group 5 writes its block at 0x20. -/
def sServe (g : Group) : State := { sGrp g with ctxs := [{ ctx := 0, live := true, desc := { fjob := 9 }, claims :=
  [{ h := 4, unit := 7, kind := 9, node := 5, len := 64, dst := 0x20, st := .held, param := BitVec.ofNat 128 0 }] }] }
theorem witness_serving : ((sServe { grp with group := 0 }).serving { grp with group := 0 }).isSome = true ∧
    ((sServe { grp with group := 0 }).serving { grp with group := 0 }).any (fun x => !x.1.arv && x.2.role != .surrogate) = true ∧
    (sServe { grp with group := 0 }).reach 0 0x20 .w 2 = .ok (span 0x10020 2) := by decide +kernel
theorem test_apply : onNext (exec (.mcstPacketRx 0 { mp with seq := 1, group := 0 }) (sServe { grp with group := 0 })) (fun s => s.mem == sFab.mem.writes (span 0x10020 2) [7, 8] &&
    (s.group? 9 0).any fun g => g.want == 2 && g.waiting == []) = true := by decide +kernel
theorem test_view_marker : onNext (exec (.mcstPacketRx 0 { mp with seq := 1, group := 0, ptype := 12, view := 3, members := [1] }) (sServe { grp with group := 0 })) (fun s => s.mem == sFab.mem &&
    (s.group? 9 0).any fun g => g.want == 2 && g.view == 3 && g.members == [1]) = true := by decide +kernel
def grpLate : Group := { grp with group := 0, waiting := [{ port := 0, at_ := 2990000, p := { mp with seq := 4, group := 0 } }] }
theorem test_nack_sent : onNext (exec (.mcstNack ⟨9, 0⟩) (sServe grpLate)) (fun s => s.mem == sFab.mem && (s.group? 9 0).any (·.nacked == 3000000)) = true := by decide +kernel

/-! ### Further witnesses of hypotheses -/

theorem witness_bounded_store : Ready sBound true [src .d 0 1, base 4 2] ∧ ∀ t ∈ [0, 1], ((viewOf sBound).u.thread t).full .s = false ∧
    (gaddr (opsOf (viewOf sBound) [src .d 0 1, base 4 2] t).2 0).toNat % 4 = 0 ∧ sBound.reach 0 (gaddr (opsOf (viewOf sBound) [src .d 0 1, base 4 2] t).2 0) .w 4 = .ok (span (0x10020 + 16 * t) 4) ∧
    newGuardLines (viewOf sBound).u [({ sp := .global, addrs := span 0x10020 4, kind := .stb 0 0 } : Post)] = [] ∧ sBound.boundOf (viewOf sBound).u 9 = none :=
  ⟨ready_of (by decide +kernel), by decide +kernel⟩
theorem witness_gets_prologue : View.Open sPro (viewOf sPro) ∧ View.AllRead sPro (viewOf sPro) false [dst 6 (selRegs 0x020)] (opsOf (viewOf sPro) [dst 6 (selRegs 0x020)]) ∧
    (0x020#12 : BitVec 12).toNat ∈ [0x010, 0x011, 0x012, 0x020] := ⟨open_of (by decide +kernel), reads_of (by decide +kernel), by decide⟩
theorem test_gets_prologue : onNext (exec (.gets 6 0x020) sPro) (fun s => (s.launch? 3).any fun l => l.pinsn == 6 && l.code == 0) = true := by decide +kernel
theorem test_stb_passes : onNext (exec (.stb 0 4 0 .plain .unit 9) sBound) (fun s => (s.ops.map (·.kind)) == [.stb 0x40400000 0, .stb 0x3F800000 0]) = true := by decide +kernel

theorem witness_times : State.firstDue { sReady with kclk := sReady.kclk + 1, time := sReady.time + 1000 * tick / sReady.power.freq.toNat } = none ∧
    (sReady.unit? 7).any (fun u => (u.bundle? 0).any fun b => !b.yld) = true ∧ 2000 ≤ (sWait (.event false 4 9 3 (some 2000) false)).dtBefore := by decide +kernel
theorem witness_lease : (∃ x ∈ leased.leases, x.core = 2 ∧ x.line = 5 ∧ x.till ≤ leased.dt) ∧ ∀ x ∈ leased.leases, x.core = 2 → x.line = 6 → leased.dt < x.till :=
  ⟨⟨{ core := 2, line := 5, till := 3000 }, by decide, by decide, by decide, by decide +kernel⟩, by decide⟩
theorem witness_element_order : sElem.ops = [] ∧ sElem.heldBack { id := sElem.nextId, unit := 7, tid := 0, core := 0, sp := .scratch, addrs := span 64 4, grp := sElem.nextId, kind := .elem (leBytes 4 5) 2 0 } = false := by decide +kernel
theorem witness_prologue_miss : (stateOf { uReady with role := .prologue, threads := [{ thr [] with st := .missing 0x20, replay := some .l }] }).units.any fun u =>
    u.role == .prologue && (u.thread 0).replay != none := by decide +kernel
theorem witness_leaf_down : State.leafUp { sPlace with fw := { sPlace.fw with restarting := [1] } } 1 = false := by decide
theorem test_place_waits : onNext (exec (.placeUnit 3 5 [0]) { sPlace with fw := { sPlace.fw with restarting := [1] } }) (fun s => s.units == [] &&
    (s.linkDir 1 false).queue.map (·.2) == [.place 3 5 [0]]) = true := by decide +kernel
theorem witness_restore_rest : (sSaved.unit? 7).any (fun u => sSaved.claimsOf u == [] && sSaved.pinnedOf u == [] && sSaved.linkFree 2) = true := by decide +kernel
theorem witness_retire_rest : ((sDone .plain).unit? 7).any (fun u => u.commit == none) = true ∧ ((sDone .plain).launch? 3).any (fun l => !l.cancel && l.retired + 1 != l.units) = true ∧
    ∃ u, u = ({ uDone .surrogate with checked := 2, residual := some 0 } : UnitSt) ∧ u.passes 0x3F800000 = true ∧ u.guard = [] := ⟨by decide +kernel, by decide +kernel, _, rfl, by decide +kernel, rfl⟩
theorem witness_unmap_rest : (4096 : Nat) % 4096 = 0 ∧ sReady.engineWrites = false ∧ sReady.farPinned (.unmap 0 0 4096) = false ∧ sPinned.engineWrites = false ∧
    sPinned.farPinned (.unmap 0 0 4096) = false ∧ sPinned.claim? 0 4 = some { h := 4, unit := 7, kind := 0, len := 64, src := 0x40, dst := 0, st := .held } := by decide +kernel
theorem witness_flow_rest : (eFlow .accepted).o.c ≠ 0 ∧ (sOp (eFlow .begun)).engineBusy 7 (State.side (sOp (eFlow .begun)) uEng .r true 128 0 8) = false ∧
    ((sOp (eFlow .begun)).claim? 0 4).any (fun c => c.st != .claiming && c.unit == 7) = true := by decide +kernel
theorem witness_packets : pk.held = [] ∧ pk.aw = none ∧ sFab.noCredit { rq with ptype := 7 } = false ∧ sFab.noCredit pk = false ∧
    fl.got.length + pk.data.length < (eOp getI { c := 8 } .f .begun).o.c.toNat ∧ sRing.noCredit ck = false ∧ ck.sub ≠ 1 := by decide +kernel
theorem witness_group_rest : mp.seq < 1 ∧ grp.waiting = [] ∧ Group.settling sFab.fab.groups 0 + mp.data.length ≤ 262144 ∧ grp.want = 1 ∧
    (grp.hist.map (·.seq)).foldl min grp.next ≤ 1 ∧ grpLate.nacked = 0 ∧ grpLate.want < 4 ∧ 2990000 + 10000 ≤ sFab.dt := by decide +kernel
theorem witness_event_entry : (sStart (evWs 4)).hasEntry 0 9 = true ∨ (sStart (evWs 4)).entries < eventEntries := by decide +kernel
theorem witness_phase : (sQ (evWs 4)).phasePast 0 (evWs 4) = false ∧ (sQ (launchWs 1)).blockBusy (0 * 4096 + CW.blk (launchWs 1)) = false := by decide +kernel
theorem witness_l1_rest : sL1.dirtyL1 4 = false ∧ sL1.changing.contains 4 = true ∧ sWant.changing.contains 4 = false := by decide +kernel
/-- The host stands at a FENCE: a write of its own waits for a lease. -/
def sFence : State := { sUp with ops := [{ id := 9, unit := 200, tid := 0, core := 128, sp := .global, addrs := [0x10020], kind := .outside 0 0 [1] }], fw := { sReady.fw with fences := [0] } }
theorem witness_fence : sFence.atFence 0 = true ∧ (sFence.ownWrites 0).isEmpty = false ∧ (sReady.ownWrites 0).isEmpty = true := by decide +kernel
theorem test_fence_waits : onNext (exec (.hostMemAccess (.write 0x10040 [1])) sFence) (fun s => s.fw.behind == [(0, 0, .write 0x10040 [1])] && s.mem == []) = true := by decide +kernel
theorem witness_message : (sMsg.linkDir 0 true).queue = [(1, .report { kind := 5, detail := 2 })] ∧ (sMsg.linkDir 0 true).held = [] ∧ sReady.leafUp 0 = true := by decide +kernel
theorem witness_threshold : (sReady.limit 1).1 ≤ 1 := by decide

/-! ### Words, steps, reset and memory -/

/-- The path's turn has come: its word at 0x1008 is ADD.s32, or none. -/
def sTurn (w : DWord) : State := { s0 with cur := none, issueQ := [{ unit := 7, bundle := 0, slot := false }], mem := Memory.writes [] (span 0x11008 8) (leBytes 8 w.toNat) }
theorem witness_turn : ({ sTurn 0x0300300800000000 with issueQ := [], cur := some { unit := 7, bundle := 0, slot := false } } : State).view?.isSome = true ∧
    (sTurn 0).reach 0 0x1008 .x 8 = .ok (span 0x11008 8) := by decide +kernel
theorem test_step_runs : onNext (step (sTurn (0x03#8 ++ 0#4 ++ 9#9 ++ 0#9 ++ 2#9 ++ 0#9 ++ 0#16))) (fun s => (s.unit? 7).any fun u => (u.thread 0).reg 9 == 12 && (u.thread 1).reg 9 == 14) = true ∧
    onNext (step (sTurn 0xFF00000000000000)) (fun s => (s.unit? 7).any fun u => match (u.thread 0).st with | .trapped r => r.trap.cause == .illegalInstr | _ => false) = true := by decide +kernel
theorem test_step_header : onNext (step { stateOf (unitOf [] [] 0) with cur := none, issueQ := [{ unit := 7, bundle := 0, slot := false }], mem := hdrMem }) (fun s =>
    (s.unit? 7).any fun u => (u.bundle? 0).any fun b => b.path0.any fun p => p.widx == 1) = true := by decide +kernel
theorem test_step_agenda : onNext (step { sNoUnit with cur := none, agenda := [.plimit 2000] }) (·.power.plimit == 2000) = true := by decide +kernel

/-- A barrier word of target 4096 and count 3000 gains 6000: it passes its target twice and counts 808 on. -/
theorem test_arrive : arrive (3000 * 2 ^ 32 + 4096) 6000 = 2 * 2 ^ 64 + 808 * 2 ^ 32 + 4096 := by decide
theorem test_memory : (Memory.writes [] (span 3 4) (leBytes 4 0x12345678)).at_ 3 4 = 0x12345678 ∧ (Memory.writes [] (span 3 4) (leBytes 4 0x12345678)).read 3 = 0x78 ∧
    ((Memory.writes [] (span 3 4) (leBytes 4 0x12345678)).write 4 0).length = 3 ∧ (Memory.writes [] (span 3 4) (leBytes 4 0x12345678)).wf = true := by decide +kernel

/-! ### Witnesses of further hypotheses: paths, words, traps and stalls -/

def proL (n : Nat) : Launch := { lid := 3, ctx := 0, cmd := 0, st := .prologue, pinsn := 5, ploads := n }
theorem witness_may_issue : View.MayIssue sPro (viewOf sPro) (.band .i32 3 1 2) ∧ View.MayIssue sPro (viewOf sPro) (.ld .b32 3 { base := 4, off := 0 }) ∧
    View.MayIssue sPro (viewOf sPro) (.gets 6 0x020) ∧ View.MayIssue s0 (viewOf s0) (.fadd .f32 3 1 2 {}) :=
  ⟨.inr ⟨rfl, proL 0, by decide +kernel, by decide, by decide⟩, .inr ⟨rfl, proL 0, by decide +kernel, by decide, by decide⟩,
    .inr ⟨by decide, proL 0, by decide +kernel, by decide, by decide⟩, .inl (by decide +kernel)⟩
theorem witness_prologue_words : isPlainWord (.fadd .f32 3 1 2 {}) = true ∧ inProSet (.fadd .f32 3 1 2 {}) = false ∧
    (∀ t ∈ (viewOf sPro).p.tids, ((viewOf sPro).u.thread t).useBad (viewOf sPro).u.nregs (onLanes (.fadd .f32 3 1 2 {})) (namedBy (.fadd .f32 3 1 2 {})) = none) ∧
    (viewOf sPro).u.faulted = false ∧ isProLoad (.ld .b32 3 { base := 4, off := 0 }) = true ∧ 128 ≤ (proL 128).ploads ∧ (proL 128).code = 0 := by decide +kernel
theorem test_prologue_code : onNext (exec (.fadd .f32 3 1 2 {}) sPro) (fun s => (s.launch? 3).any fun l => l.code == 3) = true ∧
    onNext (exec (.ld .b32 3 { base := 4, off := 0 }) { sPro with launches := [proL 128] }) (fun s => (s.launch? 3).any fun l => l.code == 4) = true := by decide +kernel
theorem witness_outside_set : ∀ us ∈ [[src .a 4 2], ([] : List RegUse), [src .a 0]], Ready s0 false us := by
  intro us h
  simp only [List.mem_cons, List.not_mem_nil, or_false] at h
  rcases h with h | h | h <;> subst h <;> exact ready_of (by decide +kernel)
/-- A register beyond the count, a load queue as a destination, carried registers beyond the count. -/
theorem witness_misnamed : View.Misnamed (viewOf s0) (.add .i32 16 1 2 false) 4 ∧ View.Misnamed (viewOf sStream) (.mov .i32 506 1) 3 ∧
    View.Misnamed (viewOf s0) (.cut 3 14 4) 3 ∧ isPlainWord (.add .i32 16 1 2 false) = true ∧ isPlainWord (.mov .i32 506 1) = true ∧ isPlainWord (.cut 3 14 4) = true := by
  refine ⟨?_, ?_, ?_, by decide, by decide, by decide⟩ <;> simp only [View.Misnamed] <;> decide +kernel
theorem witness_transfers : brTaken .nz ((opsOf (viewOf sFar) [src .a 0] 0).2.a.setWidth 32) = true ∧ (viewOf sEnd).p.advance = none ∧
    ((opsOf (viewOf sFar) [src .a 4 2] 0).2.a.setWidth 64).toNat % 8 ≠ 0 ∧ (∀ t ∈ [0, 1], privBad (viewOf sEnd).u.npriv ((viewOf sEnd).u.thread t).sp 4 = none ∧
      privBad (viewOf sEnd).u.npriv (((viewOf sEnd).u.thread t).fp - 4) 4 = none) ∧ privBad 64 64 4 = some 64 ∧ privBad 64 62 4 = some 64 ∧
    ¬ (branchTarget { (viewOf sEnd).p with hdr := 8 } (-2)).toNat < 2 ^ 56 ∧ ((viewOf sEnd).u.thread 0).retPc 8 = 0 := by decide +kernel
/-- A thread whose frame record returns to 0x1003. -/
def sOdd : State := stateOf (unitOne (({ thr [] with pos := { hdr := 0x1000, widx := 4 } } : Thread).push 0x1003 0) 4 0)
theorem witness_odd_return : Ready sOdd true [] ∧ (((viewOf sOdd).u.thread 0).retPc ((viewOf sOdd).u.thread 0).fp).toNat = 0x1003 ∧
    privBad (viewOf sOdd).u.npriv (((viewOf sOdd).u.thread 0).fp - 4) 4 = none := ⟨ready_of (by decide +kernel), by decide +kernel⟩
theorem test_odd_return : onNext (exec .ret sOdd) (fun s => (s.unit? 7).any fun u =>
    match (u.thread 0).st with | .trapped r => r.trap.cause == .illegalClause && r.trap.sub == 7 && r.pc == 0x1003 | _ => false) = true := by decide +kernel

/-- Counters of one thread at 62. -/
def sFull (c : Ctrs) : State := stateOf { unitOne { thr [0, 0, 0, 0, 0x40] with ctrs := c } 1 0 with scr := [] }
theorem witness_full_counters : (∀ k ∈ [CtrKind.l, .s, .t, .c, .f], 62 ≤ ((({ l := 62, s := 62, t := 62, c := 62, f := 62 } : Ctrs)).get k).toNat) ∧
    Ready (sFull { l := 62, s := 62 }) true [dst 6, base 4 1] ∧ (saddr (opsOf (viewOf (sFull { l := 62, s := 62 })) [dst 6, base 4 1] 0).2 0).toNat + 16 ≤ 1024 ∧
    Ready (sFull { l := 62, s := 62 }) true [srcDst 8 4, base 4 2] ∧ Ready (sFull { l := 62, s := 62 }) false [dst 6, src .a 0, src .b 2] ∧
    (opsOf (viewOf (sFull { l := 62, s := 62 })) [dst 6, src .a 0, src .b 2] 0).2.a.toNat < 65536 :=
  ⟨by decide, ready_of (by decide +kernel), by decide +kernel, ready_of (by decide +kernel), ready_of (by decide +kernel), by decide +kernel⟩
theorem test_engine_stall : ∀ i ∈ [Instr.swadd { ty := .f32, count := 1, d := 4, a := 0, b := 1, bound := 0 } {}, .tzero 6 0, .claim 6 4, .ring 6 0],
    onNext (exec i (sFull { t := 62, c := 62, f := 62 })) (· == sFull { t := 62, c := 62, f := 62 }) = true := by decide +kernel
/-- v1 waits for a load of thread 1. -/
def sPend : State := { s0 with ops := [{ id := 1, unit := 7, tid := 1, sp := .global, addrs := span 0x10020 4, kind := .load 1 .b32 }] }
theorem witness_pends : View.Pends sPend (viewOf sPend) (.add .i32 3 1 2 false) ∧ View.Pends sPend (viewOf sPend) (.join 1 9) ∧
    (∀ t ∈ (viewOf sPend).p.tids, ((viewOf sPend).u.thread t).useBad (viewOf sPend).u.nregs (onLanes (.join 1 9)) (namedBy (.join 1 9)) = none) := by
  simp only [View.Pends]; decide +kernel
theorem test_pends : onNext (exec (.add .i32 3 1 2 false) sPend) (· == sPend) = true ∧ onNext (exec (.join 1 9) sPend) (· == sPend) = true := by decide +kernel

/-- A header's clause of two words at 0x1000. -/
def sWords (a b : DWord) : State := { sHead with mem := (Memory.writes [] (span 0x11008 8) (leBytes 8 a.toNat)).writes (span 0x11010 8) (leBytes 8 b.toNat) }
def twoH : Header := { nopHeader with cnt := 1 }
/-- Class, reserved bits, a word of class 1 in class 0, a BRA and a REP out of place. -/
theorem witness_malformed : ([({ nopHeader with cls := 7 }, (0 : DWord), (0 : DWord)), ({ nopHeader with rsv := 1 }, 0, 0), (twoH, 0xC080080502C18180, 0),
      (twoH, 0x8100000000000000, 0), (twoH, 0, 0x9E31100000000000), (twoH, 0x9E31100000000000, 0x8100000000000000)].map fun x =>
      (sWords x.2.1 x.2.2).checkClause 0 0x1000 x.1) =
    [.trap (badClause { nopHeader with cls := 7 } 0x1000 2), .trap (badClause { nopHeader with rsv := 1 } 0x1000 3), .trap (badClause twoH 0x1000 4),
      .trap (badClause twoH 0x1000 5), .trap (badClause twoH 0x1000 6), .trap (badClause twoH 0x1000 6)] ∧
    State.checkClause { sHead with map1 := [] } 0 0x1000 twoH = .miss 0x1008 ∧ (match (sWords 0 0).clauseWords 0 0x1000 1 2 with | .ok ws => ws == [0, 0] | _ => false) = true := by decide +kernel

theorem witness_scratch_misaligned : Ready s0 true [srcDst 8, base 4 1] ∧ Ready s0 true [dst 8 4, base 4 1] ∧ ∀ t ∈ [0, 1],
    (saddr (opsOf (viewOf s0) [srcDst 8, base 4 1] t).2 2).toNat % 4 = 2 ∧ (saddr (opsOf (viewOf s0) [dst 8 4, base 4 1] t).2 8).toNat % 16 = 8 ∧
    (saddr (opsOf (viewOf s0) [srcDst 8, base 4 1] t).2 0x3E0).toNat % 16 = 0 ∧ 1024 < (saddr (opsOf (viewOf s0) [srcDst 8, base 4 1] t).2 0x3E0).toNat + 4 :=
  ⟨ready_of (by decide +kernel), ready_of (by decide +kernel), by decide +kernel⟩
theorem test_scratch_misaligned : ∀ i ∈ [Instr.atom true false .add 6 4 2 .plain .unit, .awget true 8 4 8 .plain .unit], onNext (exec i s0) (fun s => (s.unit? 7).any fun u =>
    match (u.thread 0).st with | .trapped r => r.trap.cause == .spaceRange && r.trap.sub == 3 && r.trap.info == 1024 | _ => false) = true := by decide +kernel
theorem witness_beyond_limits : Ready s0 true [dst 6, base 0 1] ∧ 4096 < (saddr (opsOf (viewOf s0) [dst 6, base 0 1] 0).2 4087).toNat + 4 ∧ 4096 < (saddr (opsOf (viewOf s0) [dst 6, base 0 1] 1).2 4087).toNat + 4 ∧
    Ready s0 true [src .d 6, base 6 1] ∧ (∀ t ∈ [0, 1], privBad (viewOf s0).u.npriv (privIndex (opsOf (viewOf s0) [src .d 6, base 6 1] t).1 (opsOf (viewOf s0) [src .d 6, base 6 1] t).2 0 .none true) 1 =
      some (BitVec.ofNat 32 (64 + 16 * t))) :=
  ⟨ready_of (by decide +kernel), by decide +kernel, by decide +kernel, ready_of (by decide +kernel), by decide +kernel⟩
theorem witness_store_miss : Ready sMiss true [src .d 8 1, base 4 2] ∧ (∀ t ∈ [0, 1], sMiss.reach 0 (gaddr (opsOf (viewOf sMiss) [src .d 8 1, base 4 2] t).2 0) .w 4 =
    .miss (gaddr (opsOf (viewOf sMiss) [src .d 8 1, base 4 2] t).2 0)) := ⟨ready_of (by decide +kernel), by decide +kernel⟩

/-- The cutting thread's frame above its marked one, and what its slice needs. -/
theorem witness_cut_frames : let th := (viewOf sCut).u.thread 0
    th.frame 0 = 16 ∧ th.frame 1 = 12 ∧ (th.pw (th.frame 0 - 1)).getLsbD 0 = false ∧ (th.pw (th.frame 1 - 1)).getLsbD 0 = true ∧ th.sp = 16 ∧
    (sCut.ctx? 0).any (fun c => c.freeSlot == some 0 && c.heapFits 1000) = true := by decide +kernel
theorem witness_cut_stops : let th := (viewOf sCut).u.thread 0
    ({ th with fp := 3 } : Thread).fp.toNat < 4 ∧ (({ th with fp := 12 } : Thread).pw (12 - 1)).getLsbD 0 = true ∧ ({ th with fp := 12, sp := 9 } : Thread).sp.toNat < 12 ∧
    64 < ({ th with fp := 12, sp := 65 } : Thread).sp.toNat := by decide +kernel
theorem freeSlotFrom_full {used : List Nat} (h : ∀ k < 1024, k ∈ used) : ∀ n k, freeSlotFrom used k n = none
  | 0, _ => rfl
  | n + 1, k => by simp [freeSlotFrom, h _ (Nat.mod_lt k (by decide : 0 < 1024)), freeSlotFrom_full h n]
theorem witness_no_slot : Ctx.freeSlot { ctx := 0, slices := (List.range 1024).map fun k => { slot := k, words := [], fpOff := 0, resume := 0, dreg := 0, a0 := 0, carried := [] } } = none := by
  unfold Ctx.freeSlot
  exact freeSlotFrom_full (by simp [Function.comp_def]) _ _
/-- The greatest magnitude of 3, -5 and 0 is 5, of FP4 elements: scale 127, and elements 3, -4 (ties to even below 6) and 0. -/
theorem test_renormalise : renormalise .e2m1 [(.fin false 3 0, .rne), (.fin true 5 0, .rne), (.fin false 0 0, .rne)] = (127, [5, 14, 0]) ∧
    (Val.fin true 5 0).abs.lt (Val.fin false 3 0).abs = false ∧ elemOf .int8 .rne (.fin true 3 (2 - 6)) = 244 := by decide +kernel
/-- Launch 3's extents, and the context's world and energy, in the selectors. -/
def sSel : State := { s0 with launches := [{ lid := 3, ctx := 0, cmd := 0, st := .running, dimx := 5, dimy := 6, dimz := 7 }]
                              ctxs := [{ ctx := 0, live := true, desc := { world := 4 }, energy := 99, claims := [{ h := 4, unit := 7 }, { h := 5, unit := 8 }] }] }
theorem witness_selectors : (viewOf sSel).b.slots.findIdx? (· == some 1) = some 1 ∧ (sSel.launch? 3).isSome = true ∧ (sSel.ctx? 0).isSome = true ∧
    [0x008, 0x00A, 0x012, 0x040, 0x060].map (getsValue sSel (viewOf sSel) 1 (thr [])) = [5, 7, 4, 99, 1] := by decide +kernel

/-! Witnesses of further hypotheses: accesses, streams, units -/

theorem witness_issue_yields : (sReady.unit? 7).any (fun u => (u.bundle? 0).any fun b => !b.yields && !b.hold) = true ∧
    ((stateOf { uReady with bundles := uReady.bundles.map fun b => { b with yld := true } }).unit? 7).any (fun u => (u.bundle? 0).any (·.yld)) = true := by decide +kernel
theorem test_yield_holds : onNext (exec (.elderRule 7 0) (stateOf { uReady with bundles := uReady.bundles.map fun b => { b with yld := true }, threads := uReady.threads.map fun th => { th with age := 256 } }))
    (fun s => (s.unit? 7).any fun u => (u.bundle? 0).any fun b => b.path0 == none) = true := by decide +kernel
theorem witness_access_world : (withOp memS opLd).portOpen ((withOp memS opLd).opWorld opLd) = true ∧ uReady.paged (span 32 4) = true ∧
    (withOp memS { opLd with ord := .acq, scope := .dev }).coreStores 7 (linesOf opLd.addrs) = false := by decide +kernel
/-- A store to host memory leaves the thread's GWCT. -/
def opHost : MemOp := { opSt with addrs := span (hbmBytes + 64) 2 }
theorem witness_host_store : opHost.toHost = true ∧ opSt.toHost = false ∧ (withOp memS opHost).mayArrive opHost = true ∧ (withOp memS opHost).refuses opHost = false := by decide +kernel
theorem test_host_store : onNext (exec (.gwctReturn 9) (withOp memS opHost)) (fun s => s.ops == [] && (s.unit? 7).any fun u => (u.thread 1).gwct == 0 && (u.thread 1).ctrs.s == 0) = true := by decide +kernel
theorem witness_streams_free : (sElem.unit? 7).any (fun u => !(sElem.streamHeld u 0 ((u.thread 0).stream 0)) && (sElem.poisonedPlace (sElem.indexAt u (pat false 32 true) 0)).isNone &&
    (sElem.poisonedPlace (sElem.place u true 32 4 .r)).isNone && (sElem.poisonedPlace (sElem.indexAt u (pat true 0x40 false) 0)).isNone) = true := by decide +kernel
theorem witness_entries : placeL.desc.entry.toNat < 2 ^ 56 ∧ placeL.desc.entry.toNat % 8 = 0 ∧ ((placeL.kernel false).thr : Nat) = 32 ∧
    ¬ ((0x2004 : DWord).toNat < 2 ^ 56 ∧ (0x2004 : DWord).toNat % 8 = 0) ∧ 0 < placeL.dimx ∧ (placeL.kernel false).tile = false := by decide +kernel
theorem test_entry_trap : (match ((sPlace.newUnit 100 { placeL with desc := { placeL.desc with entry := 0x2004 } } false 1 5 [0]).thread 3).st with
    | .trapped r => r.fatal && r.trap == { cause := .illegalClause, sub := 7, addr := 0x2004 }
    | _ => false) = true := by decide +kernel
theorem witness_preempt : sReady.leafUp 0 = true ∧ (sReady.unit? 7).any (fun u => u.st == .resident && u.role == .plain && !(sReady.launchOf u).cores) = true := by decide +kernel
/-- Two co-resident units of one launch, and another launch's. -/
def sCores : State := { sReady with units := [uReady, { uReady with uid := 8 }, { uReady with uid := 9, launch := 4 }], launches := [{ lid := 3, ctx := 0, cmd := 0, st := .running, cores := true }] }
theorem test_preempt_cores : onNext (exec (.preemptRequest 7) sCores) (fun s => s.units.map (·.preempt) == [true, true, false]) = true := by decide +kernel
/-- A unit without private words whose place in the save area is 1,024 bytes. -/
def sStop0 : State := { sStop with units := [{ uReady with preempt := true, mirror := false, npriv := 0 }] }
theorem witness_save_rest : (sStop.unit? 7).any (fun u => !(sStop.launchOf u).cores && (sStop.running 7).isNone && u.npriv == 64) = true ∧
    (sStop0.unit? 7).any (fun u => sStop0.mayStop u && u.npriv == 0 && (firstFit (sStop0.saveSize 0) (sStop0.saveBytes u) (sStop0.saveUsed 0)).isSome) = true ∧
    ¬ sStop.fw.links.length ≤ clusterOf 0 ∧ (sNoSave.unit? 7).any (fun u => sNoSave.mayStop u && (sNoSave.running 7).isNone && !(sNoSave.launchOf u).cores) = true := by decide +kernel
theorem test_save_tells : onNext (exec (.unitSave 7) sStop0) (fun s => (s.linkDir 0 true).waiting == [.saved 7] && (s.unit? 7).any fun u => u.st == .saved && !u.freed) = true := by decide +kernel
/-- A saved tile unit comes back with its accumulator. -/
def sTileBack : State := { sSaved with units := [{ uReady with st := .saved, away := true, bundles := [], tile := true, mirror := false, tsave := { acc := [(1, 5)], high := 2 } }] }
theorem witness_restore_tile : (sTileBack.unit? 7).any (fun u => sTileBack.mayRestore u 9 && u.tile && sTileBack.claimsOf u == [] && sTileBack.pinnedOf u == []) = true ∧ 9 < sTileBack.cores.length := by decide +kernel
theorem test_restore_tile : onNext (exec (.restoreUnit 7 9) sTileBack) (fun s => (s.core 9).te == { acc := [(1, 5)], high := 2 }) = true := by decide +kernel
theorem witness_guard_committed : ((sDone .surrogate).launch? 3).any (fun l => !l.cancel && l.retired + 1 != l.units) = true := by decide +kernel
theorem witness_handler_rest : sDue.leafUp 0 = true ∧ State.leafUp { sDue with fw := { sDue.fw with restarting := [0] } } 0 = false ∧
    (∃ r, (uTrap.thread 0).st = .trapped r ∧ r.fatal = false) ∧ uTrap.latch = none ∧ uTrap.faulted = false := ⟨by decide +kernel, by decide +kernel, ⟨_, rfl, rfl⟩, rfl, rfl⟩

/-! Engines and the fabric -/

/-- A flow of 8 bytes from scratchpad 128 to memory at 0x24. -/
def sGlob (flags : Nat) : State := { sOp (eFlow .begun) with ctxs := [{ ctx := 0, live := true, claims := [{ h := 4, unit := 7, kind := 1, flags := flags, len := 64, src := 128, dst := 0x20, aw := 0x40, st := .flowing }] }] }
theorem clear_of {s : State} {pas : List Nat} (h : (s.ops.all (fun o => o.id != s.nextId) && (s.unit? s.nextId).isNone && (linesOf pas).all fun l => (s.liveLeases l).isEmpty && (s.waitingOn l).isEmpty) = true) : Clear s pas := by
  simp only [Bool.and_eq_true, List.all_eq_true, bne_iff_ne, ne_eq, Option.isNone_iff_eq_none, List.isEmpty_iff] at h
  exact ⟨⟨h.1.1, h.1.2⟩, h.2⟩
theorem witness_flow_global : (∃ pas, (sGlob 0).side uEng .w (some false) 0x20 4 8 = .glob pas ∧ pas ≠ [] ∧ Clear (sGlob 0) pas) ∧ uEng.role ≠ .surrogate ∧ (sGlob 0).portOpen ((sGlob 0).ctxWorld 0) = true ∧
    ((sGlob 256).claim? 0 4).any (fun c => c.arv && !c.aws && c.dstScr == some false) = true ∧ (sGlob 256).reach 0 0x40 .w 16 = .ok (span 0x10040 16) ∧ Clear (sGlob 256) (span 0x10040 16) ∧
    (sGlob 0).poisonedSide ((sGlob 0).side uEng .r (some true) 128 0 8) = none :=
  ⟨⟨span 0x10024 8, by decide +kernel, by decide +kernel, clear_of (by decide +kernel)⟩, by decide, by decide +kernel, by decide +kernel, by decide +kernel, clear_of (by decide +kernel), by decide +kernel⟩
theorem test_flow_global : onNext (exec (.flowEnd 50) (sGlob 0)) (fun s => s.eng == [] && s.mem == Memory.writes [] (span 0x10024 8) (leBytes 8 0x3F80000040000000) && (s.unit? 7).any fun u => (u.thread 0).egwct == 3000) = true ∧
    onNext (exec (.flowEnd 50) (sGlob 256)) (fun s => s.eng == [] && s.mem.at_ 0x10024 8 == 0x3F80000040000000 && s.mem.at_ 0x10040 16 == arrive 0 8) = true := by decide +kernel
/-- The same to scratchpad 4, with an arrival at its word at 64. -/
def sArrive : State := { sGlob 0 with ctxs := [{ ctx := 0, live := true, claims := [{ h := 4, unit := 7, kind := 3, flags := 0x300, len := 64, src := 128, dst := 0, aw := 64, st := .flowing }] }] }
theorem witness_flow_arrival : (sArrive.claim? 0 4).any (fun c => c.arv && c.aws && c.dstScr == some true) = true ∧ uEng.st = .resident ∧ flowNoarv (eFlow .begun).ins = false := by decide +kernel
theorem test_flow_arrival : onNext (exec (.flowEnd 50) sArrive) (fun s => (s.unit? 7).any fun u => u.scr.at_ 4 8 == 0x3F80000040000000 && u.scr.at_ 64 16 == arrive 0 8) = true := by decide +kernel
theorem witness_get_source : sFab.fab.node = 1 ∧ (0 : Nat) < 4 ∧ sFab.poisoned (span 0x10020 4) = none ∧ sFab.portOpen (sFab.ctxWorld 0) = true := by decide +kernel
theorem witness_get_data : ((sFl getI .begun fl).engOp? 50).any (fun e => decide (fl.got.length + pk.data.length < e.len)) = true := by decide +kernel
theorem witness_ratom_times : (990000 : Nat) + 20000 ≤ 3000000 ∧ fl.sent + 20000 ≤ sFab.dt ∧ fl.first + 520000 ≤ sFab.dt ∧ (eRatom .begun).wd = 1 ∧ (eRatom .begun).fell = false ∧ fl.tag = rq.tag ∧
    (sRatom { fl with first := 2990000 }).dt < 2990000 + 500000 := by decide +kernel
theorem witness_ring_side : sRing.poisonedSide (sRing.side uEng .r ringClaim.srcScr ringClaim.src (ck.seq * ringClaim.ringSeg + ck.doff) ck.data.length) = none := by decide +kernel
theorem witness_link_loss : ∀ x ∈ sIdle.ctxs, ∀ c ∈ x.claims, c.isFabric = true → c.port ≠ 0 := by decide
theorem witness_stamped : ∃ x, ({ grp with hist := [{ seq := 1, at_ := 5, p := mp }] } : Group).hist.find? (fun x => x.p.ptype == 8 && x.p.srcN == 2 && x.p.claim == 4 && x.p.tag == 1) = some x := ⟨_, rfl⟩
theorem test_stamped_again : onNext (exec (.mcstStamp mp) (sGrp { grp with hist := [{ seq := 1, at_ := 5, p := mp }] })) (fun s => (s.group? 9 5).any (·.next == grp.next)) = true := by decide +kernel

/-! Launch engine, power, firmware and trust -/

def sFrozen : State := { sQ (hw 7) with ctxs := [{ ctx := 0, live := true, frz := true, queues := [{ qu with st := 2 }] }] }
theorem witness_frozen_bell : sFrozen.queue? 0 1 = some { qu with st := 2 } ∧ ({ qu with st := 2 } : Queue).usable = true ∧ sQErr.queue? 0 1 = some { qu with st := 3 } ∧ ({ qu with st := 3 } : Queue).usable = false := by decide +kernel
theorem test_frozen_bell : onNext (exec (.doorbellWrite 0 1 3) sFrozen) (fun s => s.queue? 0 1 == some { qu with upto := 3, st := 2 }) = true ∧
    onNext (exec (.doorbellWrite 0 1 3) sQErr) (· == sQErr) = true := by decide +kernel
/-- Poison in the line of the head command; a node table that misses its translation, or stands in a poisoned line. -/
def sHeadBad : State := { sQ (hw 7) with lines := [{ line := 0x240, poison := true }] }
theorem witness_head_poison : sHeadBad.headQueue 0 1 = some qu ∧ sHeadBad.poisoned (span (qu.ring.toNat + 64 * (qu.head.toNat % qu.entries)) 64) = some 0x240 ∧
    (match State.readVa { sGraph with map1 := [] } 0 0x200 128 with | .miss => true | _ => false) = true ∧
    (match State.readVa { sGraph with lines := [{ line := 0x204, poison := true }] } 0 0x200 128 with | .poison 0x204 => true | _ => false) = true := by decide +kernel
theorem test_head_poison : onNext (exec (.launch 0 1) sHeadBad) (fun s => s.agenda == [.poisonConsume { line := 0x240, by_ := some 0 }]) = true := by decide +kernel
/-- The event of context 2, which has granted nothing. -/
def evFar (t : Nat) : List Word := hw t ++ [5, 0, 0x90002, 0, 0, 0, 0, 0, 0, 0, 0, 0]
theorem witness_ungranted : (sQ (evFar 4)).headCmd 0 1 = some (qu, evFar 4) ∧ cmdBad (evFar 4) = none ∧ cmdBad (evFar 5) = none ∧
    ((sQ (evFar 4)).takeCmd 0 qu (evFar 4)).1.ungranted ((sQ (evFar 4)).takeCmd 0 qu (evFar 4)).2 = true := by decide +kernel
theorem test_ungranted : onNext (exec (.eventSignal 0 1) (sQ (evFar 4))) (fun s => s.frontMem.at_ 0x12800 8 == 0x0000000500060304) = true := by decide +kernel
/-- Every entry of the device is of event 3, which a command waits for. -/
def sFullEv (es : List (Nat × DWord)) : State := { sStart (evWs 4) with
  cmds := [cmdOf (evWs 4), { cid := 41, ctx := 0, q := 1, words := hw 5 ++ [5, 0, 0x30000, 0, 0, 0, 0, 0, 0, 0, 0, 0], st := .started }]
  ctxs := [{ ctx := 0, live := true, events := es }] }
theorem no_entry {es : List (Nat × DWord)} (h : ∀ y ∈ es, y.1 = 3) (hn : es.length = 16384) : (sFullEv es).canEnter 0 9 = false := by
  have hw : (sFullEv es).waiters 0 3 = 1 := by
    have : (sFullEv []).waiters 0 3 = 1 := by decide +kernel
    exact this
  have h1 : es.any (·.1 == 9) = false := List.any_eq_false.mpr fun y hy => by simp [h y hy]
  have h2 : es.find? (fun y => (sFullEv es).waiters 0 y.1 == 0) = none := List.find?_eq_none.mpr fun y hy => by simp [h y hy, hw]
  have e1 : (sFullEv es).hasEntry 0 9 = es.any (·.1 == 9) := rfl
  have e2 : (sFullEv es).entries = 0 + es.length := rfl
  have e3 : (sFullEv es).spareEntry = none := by
    have hc : (sFullEv es).ctxs = [{ ctx := 0, live := true, events := es }] := rfl
    simp only [State.spareEntry, hc, List.findSome?, h2, Option.map_none]
  rw [State.canEnter, e1, h1, e2, hn, e3]
  rfl
theorem witness_no_entry : (sFullEv (List.replicate 16384 (3, 0))).canEnter 0 9 = false ∧ (sFullEv []).ctx? 0 ≠ none :=
  ⟨no_entry (fun _ h => by rw [(List.mem_replicate.mp h).2]) List.length_replicate, by decide⟩
theorem witness_timeout : (sPlimit 0).alive 0 = true ∧ ((sPlimit 0).launch? 3).any (fun l => l.st == .prologue && l.code == 0 && !l.cancel && decide (l.pstart + 100000 ≤ (sPlimit 0).dt)) = true := by decide +kernel
theorem witness_slice_launch : (∃ u ∈ sSliceEnd.units, u.ctx ≠ 0 ∧ u.st = .saved) ∧
    ∃ l ∈ ({ sReady with launches := [{ lid := 5, ctx := 2, cmd := 0, st := .running, units := 3, placed := 1 }] } : State).launches, l.ctx ≠ 0 ∧ l.hasWaiting = true :=
  ⟨⟨_, List.mem_singleton.mpr rfl, by decide, by decide⟩, _, List.mem_singleton.mpr rfl, by decide, by decide⟩
theorem witness_energy_bounds : sShares.power.edev.toNat + ((({ cores := [(2, 30)], busy := [(8, 5)] } : EnergyUse).cores.map (·.2)).sum + 0 + 0) ≤ 50 ∧
    50 < sShares.power.edev.toNat + ((([(2, 51)] : List (Nat × Nat)).map (·.2)).sum + 0 + 0) ∧ (50 : Nat) < 2 ^ 64 ∧ sReady.dt / 100000 = sReady.power.share := by decide +kernel
theorem test_energy_again : onNext (exec (.energyAttribution 50 { cores := [(2, 51)] }) sShares) (· == sShares) = true := by decide +kernel
theorem witness_not_up : State.hostOpen sReady = false ∧ sReady.trust.stage < 2 ∧ 2 ≤ sUp.trust.stage := by decide +kernel
theorem test_not_up : onNext (exec (.hostMemAccess (.write 0x10020 [1])) sReady) (· == sReady) = true ∧ onNext (exec (.applicationCoreAccess ⟨3, 0⟩ (.write 0x10020 [1])) sReady) (· == sReady) = true := by decide +kernel
/-- The host's FENCE has what it waited for, with two writes and another FENCE behind it. -/
def sBehind : State := { sUp with fw := { sReady.fw with fences := [0], behind := [(0, 0, .write 0x10020 [1]), (0, 0, .fence), (0, 0, .write 0x10040 [2])] } }
theorem witness_behind : sBehind.atFence 0 = true ∧ sBehind.ownWrites 0 = [] ∧ sBehind.fw.behind.filter (·.1 == 0) = [(0, 0, .write 0x10020 [1]), (0, 0, .fence), (0, 0, .write 0x10040 [2])] ∧
    sBehind.mayReach 0 (span 0x10020 1) = true ∧ sBehind.mayReach 0 (span 0x10040 1) = true ∧ (∀ o ∈ sBehind.ops, o.id < sBehind.nextId) ∧ (∀ u ∈ sBehind.units, u.uid < sBehind.nextId) ∧
    (∀ l ∈ linesOf (span 0x10020 1) ++ linesOf (span 0x10040 1), sBehind.liveLeases l = [] ∧ sBehind.waitingOn l = []) ∧ ∀ x ∈ ({ sUp with fw := { sReady.fw with fences := [0] } } : State).fw.behind, x.1 ≠ 0 := by decide +kernel
theorem test_behind : onNext (exec (.hostMemAccess .resume) sBehind) (fun s => !s.atFence 0 && s.mem == Memory.writes [] [0x10020, 0x10040] [1, 2]) = true ∧
    onNext (exec (.hostMemAccess .resume) sFence) (fun s => s.agenda == [.hostMemAccess .resume]) = true := by decide +kernel
theorem witness_atom_bad : (0x10021 : Nat) % 4 ≠ 0 ∧ sUp.mayReach 0 (span 0x10020 4) = true ∧ sUp.atFence 4 = false ∧ Clear sUp (span 0x10020 4) := ⟨by decide, by decide +kernel, by decide +kernel, clear_of (by decide +kernel)⟩
theorem test_atom_bad : onNext (exec (.applicationCoreAccess ⟨3, 0⟩ (.atom .add false 0x10021 7 0)) sUp) (· == sUp) = true ∧ onNext (exec (.hostMemAccess (.atom .add false 0x10020 7 0)) sUp) (· == sUp) = true := by decide +kernel

/-- A debug context's descriptor is measured into M10. -/
theorem test_debug_context : onNext (exec (.ctxStart 8 5 { dbg := true }) (withReq 1 5 0 [8] sReady)) (fun s => reported s 5 0 &&
    s.trust.meas.getD 10 0 == extended 0 (Sha.sha256 (descBytes { dbg := true }))) = true := by decide +kernel
theorem witness_context_free : (withReq 1 5 0 [8] sReady).ctx? 5 = none ∧ (ctxDescOf ((withReq 1 5 0 [8] sReady).descWords 5)).dbg = true ∧ (sReady.ctx? 0).any (·.live) = true := by decide +kernel
/-- A line in L2 with an error; a dirty line. -/
def sLines : State := { sReady with lines := [{ line := 9, inL2 := true, way := 3 }, { line := 10, dirty := true }] }
theorem witness_errors : (sLines.lineSt 9).inL2 = true ∧ (sLines.lineSt 10).dirty = true ∧ (sLines.lineSt 9).dirty = false ∧ (sLines.limit 1).1 ≤ 1 ∧ (sReady.lineSt 9).inL2 = false := by decide +kernel
theorem test_error_in_l2 : onNext (exec (.uncorrectableError 9 false) sLines) (fun s => s.fw.quars.length == 1) = true ∧
    onNext (exec (.uncorrectableError 10 true) sLines) (fun s => (s.lineSt 10).poison) = true ∧ onNext (exec (.uncorrectableError 9 true) sLines) (fun s => !(s.lineSt 9).poison) = true := by decide +kernel

theorem test_boot_elsewhere : onNext (exec (.bootStageLoad { img with from_ := .host }) (sTrust { floor := 2 })) (· == sTrust { floor := 2 }) = true ∧
    onNext (exec (.bootStageLoad { img with recsOk := false }) (sTrust { floor := 2 })) (fun s => s.trust.stage == 1 && s.trust.halted) = true := by decide +kernel
/-- The main image over Ethernet port 1, which stage one's records selected, with a partition of dies 0 and 1 and a power limit. -/
def main : BootImage := { img with from_ := .eth 1, gsc := 8, leaf := 9, app := 10, recs := { parts := some [{ part := 1, dies := 3 }], plimit := some 2000, limits := some [(1, 5)] } }
theorem witness_main : (sTrust { stage := 1, link := .eth 1, floor := 2 }).trust.halted = false ∧ partsOk (main.recs.parts.getD []) = true ∧ partsOk [{ part := 1, dies := 3 }, { part := 2, dies := 2 }] = false := by decide +kernel
theorem test_main : onNext (exec (.bootStageLoad main) (sTrust { stage := 1, link := .eth 1, floor := 2 })) (fun s => s.trust.stage == 2 && s.power.plimit == 2000 && s.power.parts.map (·.part) == [1] &&
    s.fw.limits == [(1, 5)] && s.trust.meas.getD 7 0 == extended 0 9 && s.trust.meas.getD 11 0 == extended 0 (retiredDigest [])) = true := by decide +kernel
theorem test_stage_one_link : onNext (exec (.bootStageLoad { img with recs := { link := .eth 1 } }) (sTrust { floor := 2 })) (fun s => s.trust.link == .eth 1 && s.trust.meas.getD 3 0 == extended 0 6) = true := by decide +kernel

/-- World 4's line 0x200 stands under the key that its world had when it was retired. -/
def sSealed : State := { sTrust { sealed_ := [(4, 9)] } with mem := Memory.writes [] [0x10000] [5], map2 := sReady.map2.map fun m => { m with world := 4 } }
theorem witness_key_load : (∀ x ∈ ({ sealed_ := [(4, 8)] } : TrustSt).sealed_, x.1 = 4 → x.2 = 8) ∧ sSealed.trust.removing = [] ∧ (∀ k ∈ sSealed.trust.slots, k.slot ≠ 4) := by decide +kernel
theorem test_key_load_sealed : onNext (exec (.keyLoad 4 true 7 8) (sTrust { sealed_ := [(4, 8)] })) (fun s => s.trust.sealed_ == [] && s.mem == []) = true := by decide +kernel
theorem test_key_busy : onNext (exec (.keyRetire (.request 4)) (sTrust { removing := [5] })) (·.trust.status == 2) = true ∧ onNext (exec (.keyRetire (.resume 6)) sKey) (· == sKey) = true := by decide +kernel
/-- World 4 is being removed while its unit is still to be pre-empted. -/
def sRemoving : State := { sTrust { removing := [4], slots := [{ slot := 4 }] } with units := [{ uReady with preempt := true }], ctxs := [{ ctx := 0, live := true, desc := { world := 4 } }] }
theorem witness_removing : sRemoving.trust.removing.contains 4 = true ∧ sRemoving.worldPreempting 4 = true ∧ State.worldPreempting (sTrust { removing := [4] }) 4 = false := by decide +kernel
theorem test_removing : onNext (exec (.keyRetire (.resume 4)) sRemoving) (fun s => s.agenda == [.keyRetire (.resume 4)] && s.trust.slots.length == 1) = true := by decide +kernel
theorem witness_spdm : (sSpdm { phase := 1 }).trust.spdm[0]? = some { phase := 1 } ∧ ({ phase := 1 } : Spdm).phase ≠ 3 := by decide
theorem test_spdm_signs : onNext (exec (.challenge { box := 0, msg := [0x13, 0x83, 0, 0] }) (sSpdm { phase := 3, script := [1, 2], negLen := 2 })) (fun s =>
    s.trust.spdm.all fun r => r.phase == 3 && r.script == [1, 2] && r.signed.isSome && r.reply.take 2 == [0x13, 0x03]) = true ∧
    onNext (exec (.negotiateAlgorithms { box := 0, msg := [7] }) (sSpdm { phase := 2, script := [1] })) (fun s => s.trust.spdm == [{ phase := 3, script := [1, 7] ++ algorithmsResp, negLen := 2 + algorithmsResp.length, reply := algorithmsResp }]) = true := by decide +kernel

/-! Sweeps and tiles; poisoned code -/

/-- Cursors of two segments, 128 bytes apart, at 0 and at 512. -/
theorem witness_segments : SegsApart 2 (cursor 0x2000000).seg 128 ∧ ReadBefore 2 (cursor 0x2000200).seg 128 (cursor 0x2000000).seg 128 (fun k i => k < i) ∧
    ReadBefore 32 (cursor 0x2001000).seg 128 (cursor 0x2000000).seg 128 (fun k i => k / 32 < i / 32) ∧ 0 < 2 ∧ 32 % 32 = 0 := by
  simp only [SegsApart, ReadBefore]; decide +kernel
theorem test_sweep_results : ((sweepRun (.swmul { ty := .i32, count := 1, d := 0, a := 0, b := 0, bound := 0 } { scal := true }) { a := 128, b := 3 } none
      { scr := Memory.writes [] (span 128 8) (leBytes 8 0x0000000500000007), rm := .rne }).scr.at_ 0 8 == 0x0000000F00000015) = true ∧
    ((sweepRun (.swred { ty := .i32, count := 2, d := 0, a := 0, b := 0, bound := 0 } .add false .rne) { d := 0, a := 0x2000080 } none
      { scr := (Memory.writes [] (span 128 4) (leBytes 4 7)).writes (span 256 4) (leBytes 4 8), rm := .rne }).scr.at_ 0 4 == 15) = true := by decide +kernel

/-- A tile unit whose operation has begun, with a loaded tile. -/
def tl : Tile := { kb := 1, nb := 1, bfmt := 8, sparse := false, mcopy := true, cols := [[{ e := 0, xs := [.fin 3 1] }]] }
def sTile (i : Instr) (a b c : BitVec 128) : State := { sOp { eOp i { a := a, b := b, c := c } .t .begun with out := [] } with cores := [{ te := { tile := some tl } }] }
theorem witness_tile_ops : (sTile (.tmma 6 0 2 4) 128 0 0x800).tileHead 0 = some (uEng, { eOp (.tmma 6 0 2 4) { a := 128, b := 0, c := 0x800 } .t .begun with out := [] }) ∧
    dimsOf (0 % 2 ^ 32) = some (1, 1) ∧ (bFmtOf 8).isSome = true ∧ shapeOf 0 = some ⟨1, 0, 1⟩ ∧ 0 < tl.kb ∧ tstTy .bf16 = .ok .bf16 ∧ uEng.engScr.wf = true ∧ (⟨1, 0, 1⟩ : TShape).m = 1 ∧
    (⟨1, 0, 1⟩ : TShape).n ≤ 512 := by
  refine ⟨by decide +kernel, by decide, by decide, by decide, by decide, rfl, by decide +kernel, rfl, by decide⟩
theorem test_tst : onNext (exec (.tileOpComplete 0) { sTile (.tst 6 0 2 true false .rne .f32 0) 0 0x0000000000000000 0 with cores := [{ te := { acc := [(0, 5)], high := 1 } }] }) (fun s =>
    (s.unit? 7).any fun u => u.late == [(span 0 4).zip (leBytes 4 5)] && (u.thread 0).reg 6 == 0) = true := by decide +kernel

theorem witness_code_poison : State.codePoison { sTurn 0 with lines := [{ line := 0x220, poison := true }] } 0 { tids := [0, 1], hdr := 0x1000, widx := 1 } = some 0x220 ∧
    (sTurn 0).codePoison 0 { tids := [0, 1], hdr := 0x1000, widx := 1 } = none := by decide +kernel
theorem test_code_poison : onNext (step { sTurn 0 with lines := [{ line := 0x220, poison := true }] }) (fun s => s.agenda == [.poisonConsume { line := 0x220, by_ := some 0 }]) = true := by decide +kernel
end Sys2Proof.Tests
end

/-! SUPPORT. The special operands of a conversion (R62) and the rounding generator (R64). -/

namespace Sys2Proof.Machine

/-! ### Codes of a sign and a magnitude -/

/-- The magnitude code of the infinity leaves the sign bit free, so that `Fmt.dec` reads sign and magnitude apart. -/
theorem Fmt.infCode_lt (f : Fmt) : f.infCode < 2 ^ f.signPos := by
  have hexp : 2 ^ f.expBits - 1 < 2 ^ f.expBits := Nat.sub_lt (Nat.two_pow_pos _) Nat.one_pos
  calc f.infCode < 2 ^ f.expBits * 2 ^ f.man := Nat.mul_lt_mul_of_pos_right hexp (Nat.two_pow_pos _)
    _ = 2 ^ f.signPos := (Nat.pow_add _ _ _).symm

theorem Fmt.signed_mod (f : Fmt) (neg : Bool) {mag : Nat} (h : mag < 2 ^ f.signPos) :
    f.signed neg mag % 2 ^ f.signPos = mag := by
  cases neg <;> simp [Fmt.signed, Nat.mod_eq_of_lt h]

theorem Fmt.signed_div (f : Fmt) (neg : Bool) {mag : Nat} (h : mag < 2 ^ f.signPos) :
    f.signed neg mag / 2 ^ f.signPos = neg.toNat := by
  cases neg with
  | false => simp only [Fmt.signed, Bool.false_eq_true, if_false, Nat.zero_add, Nat.div_eq_of_lt h, Bool.toNat_false]
  | true => simp only [Fmt.signed, if_true, Nat.add_div_left _ (Nat.two_pow_pos _), Nat.div_eq_of_lt h, Nat.zero_add, Bool.toNat_true]

theorem Fmt.signed_zero (f : Fmt) (neg : Bool) : f.signed neg 0 = if neg then 2 ^ f.signPos else 0 := rfl

theorem Fmt.dec_signed_infCode {f : Fmt} (hf : f.kind = .ieee) (neg : Bool) : f.dec (f.signed neg f.infCode) = .inf neg := by
  have hexp : f.infCode / 2 ^ f.man = 2 ^ f.expBits - 1 := Nat.mul_div_cancel _ (Nat.two_pow_pos _)
  have hman : f.infCode % 2 ^ f.man = 0 := Nat.mul_mod_left _ _
  cases neg <;> simp [Fmt.dec, f.signed_div _ f.infCode_lt, f.signed_mod _ f.infCode_lt, hexp, hman, hf]

/-! ### What the special operands convert to (R62) -/

theorem Fmt.round_inf_keeps {f : Fmt} (hf : f.kind = .ieee) (rm : RM) (neg : Bool) :
    f.round rm false (.inf neg) = f.signed neg f.infCode := by simp [Fmt.round, hf]

theorem Fmt.round_inf_saturates (f : Fmt) (rm : RM) (neg : Bool) :
    f.round rm true (.inf neg) = f.signed neg f.maxCode := by simp [Fmt.round]

theorem Fmt.round_inf_lacking {f : Fmt} (hf : f.kind ≠ .ieee) (rm : RM) (sat neg : Bool) :
    f.round rm sat (.inf neg) = f.signed neg f.maxCode := by simp [Fmt.round, hf]

theorem Fmt.round_nan (f : Fmt) (rm : RM) (sat : Bool) : f.round rm sat .nan = f.nan := rfl

theorem Fmt.round_zero (f : Fmt) (rm : RM) (sat neg : Bool) (e : Int) : f.round rm sat (.fin neg 0 e) = f.signed neg 0 := rfl

/-- The block's scale 255 stands for a NaN, so the elements of such a block are zeros (R71). -/
theorem renormalise_special (t : BTy) {xs : List (Val × RM)} (h : ∃ x ∈ xs, x.1.isNan = true ∨ x.1.isInf = true) :
    renormalise t xs = (255, xs.map fun _ => 0) := by
  have hany : (xs.any fun x => x.1.isNan || x.1.isInf) = true := by simpa only [List.any_eq_true, Bool.or_eq_true] using h
  exact if_pos hany

/-! ### The rounding generator (R64) -/

theorem nonzeroG_eq (g : BitVec 32) : nonzeroG g = if g = 0 then 1 else g := by simp only [nonzeroG, beq_iff_eq]

/-- Selector 0x052 of R190 is the generator. -/
theorem getsValue_rgen (s : State) (v : View) (t : Nat) (th : Thread) : getsValue s v t th 0x052 = th.rng.toNat := rfl

@[simp] theorem Thread.setSel_rgen_rng (th : Thread) (x : Word) : (th.setSel 0x052 x).rng = nonzeroG x := rfl

theorem seedG_eq (seed : BitVec 32) (lin tid : Nat) :
    seedG seed lin tid = nonzeroG (seed ^^^ BitVec.ofNat 32 ((lin * 1024 + tid) * 0x9E3779B9 % 2 ^ 32)) := by
  have hmod (n : Nat) : BitVec.ofNat 32 (n % 2 ^ 32) = BitVec.ofNat 32 n := by
    apply BitVec.eq_of_toNat_eq
    simp only [BitVec.toNat_ofNat, Nat.mod_mod]
  rw [hmod, seedG]

@[simp] theorem Thread.trapped_rng (th : Thread) (p : Pos) (r : TrapRec) : (th.trapped p r).rng = th.rng := rfl

@[simp] theorem Thread.arriveAt_rng (th : Thread) (s : State) (c : Nat) (x : DWord) : (th.arriveAt s c x).rng = th.rng := by
  unfold Thread.arriveAt
  split
  · rfl
  · exact Thread.trapped_rng _ _ _

theorem State.newThread_rng (s : State) (l : Launch) (d : Desc) (lin t : Nat) :
    (s.newThread l d lin t).rng = seedG l.seed lin t := Thread.arriveAt_rng _ _ _ _

theorem State.newUnit_thread (s : State) (n : Nat) (l : Launch) (exact : Bool) (lin core : Nat) (bs : List DWord) {t : Nat}
    (ht : t < (l.kernel exact).thr) :
    (s.newUnit n l exact lin core bs).thread t = s.newThread l (l.kernel exact) lin t := by
  simp [State.newUnit, UnitSt.thread, List.getD, ht]

theorem lfsr_eq (g : BitVec 32) : lfsr g = if g.toNat % 2 = 1 then (g >>> 1) ^^^ 0x80200003#32 else g >>> 1 := by
  have hbit : g.getLsbD 0 = decide (g.toNat % 2 = 1) := Nat.testBit_zero _
  simp only [lfsr, hbit, decide_eq_true_eq]

/-- An odd state takes the mask's bit 31, which the shift has left clear; an even state loses no set bit to the shift. -/
theorem lfsr_ne_zero {g : BitVec 32} (hg : g ≠ 0) : lfsr g ≠ 0 := by
  rw [lfsr_eq]
  split
  next =>
    intro h
    have htop : ((g >>> 1) ^^^ 0x80200003#32).getLsbD 31 = true := by simp
    rw [h] at htop
    simp at htop
  next heven =>
    intro h
    have hhalf : g.toNat / 2 = 0 := by simpa [Nat.shiftRight_eq_div_pow] using congrArg BitVec.toNat h
    exact hg (by bv_omega)

/-! ### The statements of R62 and R64 -/

/-- Settles O9, a clause for each kind of operand: the formats enter only by their kind (IEEE or without infinity) and by
their canonical NaN codes. -/
theorem specialOperandsConverted : Obligations.SpecialOperandsConverted := by
  refine ⟨fun f hf rm neg => ?_, fun f hf rm sat neg => ?_, fun rm sat => ?_,
    fun f rm sat neg e => (f.round_zero rm sat neg e).trans (f.signed_zero neg), fun t xs => renormalise_special t⟩
  · have hieee : ∀ f ∈ [fp64, fp32, fp16, bf16, fE5m2], f.kind = .ieee := by decide
    exact ⟨by rw [Fmt.round_inf_keeps (hieee f hf), Fmt.dec_signed_infCode (hieee f hf)], f.round_inf_saturates rm neg⟩
  · have hlacks : ∀ f ∈ [fE4m3, fE3m2, fE2m3, fE2m1], f.kind ≠ .ieee := by decide
    exact Fmt.round_inf_lacking (hlacks f hf) rm sat neg
  · simp only [Fmt.round_nan]
    decide

/-- Settles O11: reads and writes by the selector 0x052, the seed of a new unit's thread through `State.newThread`, and the
step, which keeps the state non-zero. -/
theorem roundingGenerator : Obligations.RoundingGenerator := by
  refine ⟨getsValue_rgen, fun th x => ?_, fun seed lin tid => ?_, fun s n l exact lin core bs t ht => ?_,
    lfsr_eq, fun _ => lfsr_ne_zero⟩
  · rw [Thread.setSel_rgen_rng, nonzeroG_eq]
  · exact (seedG_eq seed lin tid).trans (nonzeroG_eq _)
  · rw [State.newUnit_thread s n l exact lin core bs ht, State.newThread_rng]

end Sys2Proof.Machine

/-! SUPPORT. The integer division (R130), the truth-table instruction (R132) and the shifts (R129): that they complete, and
what they give. -/

namespace Sys2Proof.Machine

/-! ### Prologue-class instructions that write a typed result -/

/-- A word of `laneP` that writes one typed result completes: its prologue gate is the set's, and the write leaves the
thread in its path. -/
theorem computes_putT {i : Instr} {us : List RegUse} {t : Ty} {d : VReg} {g : Opnds → BitVec 128}
    (hs : inProSet i = true ∧ isProLoad i = false)
    (he : ∀ s, exec i s = laneP us (fun o th => th.putT t d (g o)) s) :
    Computes i us fun o th => th.putT t d (g o) :=
  computes_of { pro := true } rfl hs he fun _ th => th.putN_st _ _ _

/-! ### Division (R130) -/

theorem divI_zero (sg : Bool) (w : Nat) (a : Int) : divI sg w a 0 = if sg then -1 else 2 ^ w - 1 := rfl

theorem remI_zero (sg : Bool) (w : Nat) (a : Int) : remI sg w a 0 = a := rfl

theorem divI_limit (w : Nat) : divI true w (-(2 ^ (w - 1))) (-1) = -(2 ^ (w - 1)) := by simp [divI, loOf]

theorem remI_limit (w : Nat) : remI true w (-(2 ^ (w - 1))) (-1) = 0 := by simp [remI, loOf]

section
variable {sg : Bool} {w : Nat} {a b : Int} (hb : b ≠ 0) (hlim : ¬ (sg = true ∧ a = -(2 ^ (w - 1)) ∧ b = -1))
include hlim

theorem limit_test_false : (sg && a == loOf sg w && b == -1) = false := by
  rw [Bool.eq_false_iff]
  intro h
  simp only [Bool.and_eq_true, beq_iff_eq] at h
  obtain ⟨⟨hsg, ha⟩, hb1⟩ := h
  subst hsg
  exact hlim ⟨rfl, ha, hb1⟩

include hb

theorem divI_eq_tdiv : divI sg w a b = Int.tdiv a b := by
  simp only [divI, beq_eq_false_iff_ne.mpr hb, limit_test_false hlim, Bool.false_eq_true, if_false]

theorem remI_eq_tmod : remI sg w a b = Int.tmod a b := by
  simp only [remI, beq_eq_false_iff_ne.mpr hb, limit_test_false hlim, Bool.false_eq_true, if_false, Int.tmod_def]

end

theorem natAbs_tmod_lt (a : Int) {b : Int} (hb : b ≠ 0) : (Int.tmod a b).natAbs < b.natAbs := by
  rw [Int.natAbs_tmod]
  exact Nat.mod_lt _ (Int.natAbs_pos.mpr hb)

/-- A remainder that is not zero has the sign of the dividend. -/
theorem tmod_zero_or_neg_iff (a b : Int) : Int.tmod a b = 0 ∨ (Int.tmod a b < 0 ↔ a < 0) := by
  have hsign := Int.sign_tmod a b
  by_cases hdvd : b ∣ a
  · exact .inl (Int.tmod_eq_zero_of_dvd hdvd)
  · rw [if_neg hdvd] at hsign
    exact .inr (by rw [← Int.sign_eq_neg_one_iff_neg, hsign, Int.sign_eq_neg_one_iff_neg])

/-- Settles O2: the two instructions write their results element by element; a zero divisor, the one quotient that a signed
type cannot hold, and every other pair of operands are the three cases of the values. -/
theorem divisionResults : Obligations.DivisionResults := by
  refine ⟨fun t d a b => computes_putT ⟨rfl, rfl⟩ fun _ => rfl, fun t d a b => computes_putT ⟨rfl, rfl⟩ fun _ => rfl,
    fun sg w a b => ⟨?zero, ?limit, ?other⟩⟩
  case zero =>
    rintro rfl
    exact ⟨divI_zero sg w a, remI_zero sg w a⟩
  case limit =>
    rintro rfl rfl rfl
    exact ⟨divI_limit w, remI_limit w⟩
  case other =>
    intro hb hlim
    rw [remI_eq_tmod hb hlim]
    exact ⟨divI_eq_tdiv hb hlim, Int.tmod_def a b, natAbs_tmod_lt a hb, tmod_zero_or_neg_iff a b⟩

/-! ### The truth table (R132) -/

theorem testBit_pack {w : Nat} (hw : 0 < w) (xs : List Nat) (i : Nat) :
    (pack w xs).testBit i = (xs.getD (i / w) 0).testBit (i % w) := by
  induction xs generalizing i with
  | nil => simp [pack]
  | cons x xs ih =>
    have hlow : x % 2 ^ w < 2 ^ w := Nat.mod_lt _ (Nat.two_pow_pos w)
    rw [pack, Nat.add_comm, Nat.testBit_two_pow_mul_add _ hlow]
    split
    next hi => simp [Nat.div_eq_of_lt hi, Nat.mod_eq_of_lt hi, Nat.testBit_mod_two_pow, hi]
    next hi =>
      have hi : w ≤ i := Nat.le_of_not_lt hi
      rw [ih, Nat.div_eq_sub_div hw hi, List.getD_cons_succ, Nat.mod_eq_sub_mod hi]

/-- The place in the table that bits a, b and c select. -/
theorem table_place (a b c : Bool) :
    (if a then 4 else 0) + (if b then 2 else 0) + (if c then 1 else 0) = a.toNat * 4 + b.toNat * 2 + c.toNat := by
  cases a <;> cases b <;> cases c <;> rfl

theorem testBit_indicator (b : Bool) : (if b then 1 else 0 : Nat).testBit 0 = b := by cases b <;> rfl

theorem lop3V_getLsbD (t : Ty) (table : BitVec 8) (a b c : BitVec 128) {i : Nat} (hi : i < t.width) (hw : t.width ≤ 128) :
    (lop3V t table a b c).getLsbD i =
      table.getLsbD ((a.getLsbD i).toNat * 4 + (b.getLsbD i).toNat * 2 + (c.getLsbD i).toNat) := by
  rw [← table_place, lop3V, BitVec.getLsbD_ofNat, testBit_pack Nat.one_pos, Nat.div_one, Nat.mod_one]
  simp [List.getD, hi, Nat.lt_of_lt_of_le hi hw, testBit_indicator, -Nat.testBit_zero]

theorem table_parity (a b c : Bool) : (0x96 : BitVec 8).getLsbD (a.toNat * 4 + b.toNat * 2 + c.toNat) = ((a ^^ b) ^^ c) := by
  cases a <;> cases b <;> cases c <;> rfl

theorem table_majority (a b c : Bool) :
    (0xE8 : BitVec 8).getLsbD (a.toNat * 4 + b.toNat * 2 + c.toNat) = ((a && b || a && c) || b && c) := by
  cases a <;> cases b <;> cases c <;> rfl

/-! ### The fields of a word of the formats FR and FI (R34, R35) -/

section
variable (op : BitVec 8) (fn : BitVec 4) (d a b c : VReg) (m : BitVec 16) (imm : BitVec 34)

@[simp] theorem op_fr : W.op (fr op fn d a b c m) = op := by
  show BitVec.extractLsb' 56 8 (op ++ fn ++ d ++ a ++ b ++ c ++ m) = op
  rw [BitVec.extractLsb'_append_eq_of_le, BitVec.extractLsb'_append_eq_of_le, BitVec.extractLsb'_append_eq_of_le, BitVec.extractLsb'_append_eq_of_le, BitVec.extractLsb'_append_eq_of_le]
  · exact BitVec.extractLsb'_append_eq_left
  all_goals decide

@[simp] theorem mod_fr : W.mod (fr op fn d a b c m) = m := by
  show BitVec.extractLsb' 0 16 (op ++ fn ++ d ++ a ++ b ++ c ++ m) = m
  exact BitVec.extractLsb'_append_eq_right

@[simp] theorem op_fi : W.op (fi op fn d a imm) = op := by
  show BitVec.extractLsb' 56 8 (op ++ fn ++ d ++ a ++ imm) = op
  rw [BitVec.extractLsb'_append_eq_of_le, BitVec.extractLsb'_append_eq_of_le, BitVec.extractLsb'_append_eq_of_le]
  · exact BitVec.extractLsb'_append_eq_left
  all_goals decide

@[simp] theorem fn_fi : W.fn (fi op fn d a imm) = fn := by
  show BitVec.extractLsb' 52 4 (op ++ fn ++ d ++ a ++ imm) = fn
  rw [BitVec.extractLsb'_append_eq_of_le, BitVec.extractLsb'_append_eq_of_le, BitVec.extractLsb'_append_eq_of_le]
  · exact BitVec.extractLsb'_append_eq_right
  all_goals decide

@[simp] theorem imm_fi : W.imm (fi op fn d a imm) = imm := by
  show BitVec.extractLsb' 0 34 (op ++ fn ++ d ++ a ++ imm) = imm
  exact BitVec.extractLsb'_append_eq_right

end

/-- Opcodes 0x10 to 0x1F are the logic and shift instructions'. -/
theorem decodeWord_logic {w : DWord} (h : fld (W.op w) 4 4 = 1#4) : decodeWord w = decodeLogic w := by
  have hnib : fld w 60 4 = 1#4 := by
    rw [← h]
    ext i hi
    have hi : 4 + i < 8 := by omega
    simp [fld, W.op, hi, ← Nat.add_assoc]
  unfold decodeWord
  rw [hnib]
  rfl

theorem chk_unclean (v : Option Instr) : chk false v = .error .reservedField := rfl

theorem decodeWord_lop3 (fn : BitVec 4) (d a b c : VReg) (m : BitVec 16) (h : fld m 8 8 ≠ 0) :
    decodeWord (fr 0x17 fn d a b c m) = .error .reservedField := by
  have hop := op_fr 0x17 fn d a b c m
  rw [decodeWord_logic (by rw [hop]; rfl), decodeLogic, hop]
  show chk (fld (W.mod _) 8 8 == 0) _ = _
  rw [mod_fr, beq_eq_false_iff_ne.mpr h, chk_unclean]

/-- Settles O4. -/
theorem lop3Bits : Obligations.Lop3Bits := by
  refine ⟨fun t d a b c table => computes_putT ⟨rfl, rfl⟩ fun _ => rfl, fun t table a b c i hi hw => ⟨?table, ?parity, ?majority⟩,
    fun fn d a b c x table hx => ?reserved⟩
  case table => exact lop3V_getLsbD t table a b c hi hw
  case parity => rw [lop3V_getLsbD t _ a b c hi hw, table_parity, BitVec.getLsbD_xor, BitVec.getLsbD_xor]
  case majority =>
    rw [lop3V_getLsbD t _ a b c hi hw, table_majority]
    simp only [BitVec.getLsbD_or, BitVec.getLsbD_and]
  case reserved =>
    have hhigh : fld (x ++ table) 8 8 = x := BitVec.extractLsb'_append_eq_left
    exact decodeWord_lop3 fn d a b c _ (by rwa [hhigh])

/-! ### The shifts on w-bit values (R129) -/

section
variable {w x : Nat} (n : Nat)

theorem toSigned_eq_toInt : toSigned w x = (BitVec.ofNat w x).toInt := by
  rw [BitVec.toInt_eq_toNat_cond, BitVec.toNat_ofNat, toSigned, low, Int.natCast_pow]
  rfl

theorem sarN_eq_sshiftRight : sarN w x n = ((BitVec.ofNat w x).sshiftRight (min n (w - 1))).toNat := by
  rw [BitVec.sshiftRight_eq, BitVec.toNat_ofInt, Int.shiftRight_eq_div_pow, sarN, wrap, toSigned_eq_toInt, Int.natCast_pow,
    Int.natCast_pow]
  rfl

variable (hx : x < 2 ^ w)
include hx

theorem getLsbD_ofNat_of_lt (i : Nat) : (BitVec.ofNat w x).getLsbD i = x.testBit i := by
  rw [← BitVec.testBit_toNat, BitVec.toNat_ofNat, Nat.mod_eq_of_lt hx]

theorem shlN_eq_shiftLeft : shlN w x n = (BitVec.ofNat w x <<< n).toNat := by
  rw [BitVec.toNat_shiftLeft, BitVec.toNat_ofNat, Nat.mod_eq_of_lt hx, Nat.shiftLeft_eq, shlN]
  split
  next => rfl
  next h =>
    have hdvd : 2 ^ w ∣ x * 2 ^ n := Nat.dvd_mul_left_of_dvd (Nat.pow_dvd_pow 2 (Nat.le_of_not_lt h)) x
    exact (Nat.mod_eq_zero_of_dvd hdvd).symm

theorem shrN_eq_ushiftRight : shrN w x n = (BitVec.ofNat w x >>> n).toNat := by
  rw [BitVec.toNat_ushiftRight, BitVec.toNat_ofNat, Nat.mod_eq_of_lt hx, Nat.shiftRight_eq_div_pow, shrN]
  split
  next => rfl
  next h => exact (Nat.div_eq_of_lt (Nat.lt_of_lt_of_le hx (Nat.pow_le_pow_right Nat.two_pos (Nat.le_of_not_lt h)))).symm

/-- The bits that a rotation moves out of the top fill the places that the shift leaves free, so the model's sum is the
library's disjunction. -/
theorem rotN_eq_rotateLeft (hw : 0 < w) : rotN w x n = ((BitVec.ofNat w x).rotateLeft n).toNat := by
  have hk : n % w < w := Nat.mod_lt _ hw
  have hout : x / 2 ^ (w - n % w) < 2 ^ (n % w) := by
    rw [Nat.div_lt_iff_lt_mul (Nat.two_pow_pos _), ← Nat.pow_add]
    rwa [Nat.add_sub_cancel' (Nat.le_of_lt hk)]
  have hkept : low w (x * 2 ^ (n % w)) = (x % 2 ^ (w - n % w)) <<< (n % w) := by
    rw [low, Nat.shiftLeft_eq, ← Nat.mul_mod_mul_right, ← Nat.pow_add, Nat.sub_add_cancel (Nat.le_of_lt hk)]
  rw [BitVec.toNat_rotateLeft, BitVec.toNat_ofNat, Nat.mod_eq_of_lt hx, Nat.shiftLeft_eq, Nat.shiftRight_eq_div_pow, rotN]
  show _ = low w _ ||| _
  rw [hkept, Nat.shiftLeft_add_eq_or_of_lt hout]

theorem testBit_shlN {i : Nat} (hi : i < w) : (shlN w x n).testBit i = (decide (n ≤ i) && x.testBit (i - n)) := by
  rw [shlN_eq_shiftLeft n hx, BitVec.testBit_toNat, BitVec.getLsbD_shiftLeft, getLsbD_ofNat_of_lt hx, decide_eq_true hi, Bool.true_and,
    ← decide_not]
  simp only [Nat.not_lt]

theorem testBit_shrN (i : Nat) : (shrN w x n).testBit i = (decide (i + n < w) && x.testBit (i + n)) := by
  rw [shrN_eq_ushiftRight n hx, BitVec.testBit_toNat, BitVec.getLsbD_ushiftRight, BitVec.getLsbD_ofNat, Nat.add_comm]

theorem testBit_sarN {i : Nat} (hi : i < w) : (sarN w x n).testBit i = x.testBit (min (i + n) (w - 1)) := by
  rw [sarN_eq_sshiftRight n, BitVec.testBit_toNat, BitVec.getLsbD_sshiftRight, BitVec.msb_eq_getLsbD_last,
    getLsbD_ofNat_of_lt hx, getLsbD_ofNat_of_lt hx, decide_eq_false (Nat.not_le.mpr hi), Bool.not_false, Bool.true_and]
  split
  next h =>
    have hplace : min n (w - 1) + i = min (i + n) (w - 1) := by omega
    rw [hplace]
  next h =>
    have hplace : w - 1 = min (i + n) (w - 1) := by omega
    rw [← hplace]

theorem testBit_rotN {i : Nat} (hi : i < w) : (rotN w x n).testBit i = x.testBit ((i + w - n % w) % w) := by
  have hw : 0 < w := Nat.zero_lt_of_lt hi
  have hk : n % w < w := Nat.mod_lt _ hw
  rw [rotN_eq_rotateLeft n hx hw, BitVec.testBit_toNat, BitVec.getLsbD_rotateLeft]
  by_cases h : i < n % w
  · have hplace : (i + w - n % w) % w = w - n % w + i := by rw [Nat.mod_eq_of_lt (by omega)]; omega
    simp [h, getLsbD_ofNat_of_lt hx, hplace]
  · have hplace : (i + w - n % w) % w = i - n % w := by
      rw [show i + w - n % w = i - n % w + w by omega, Nat.add_mod_right, Nat.mod_eq_of_lt (by omega)]
    simp [h, hi, getLsbD_ofNat_of_lt hx, hplace]

end

/-! ### The immediates of the shifts (R129) -/

/-- An immediate below 64 is the count that its low six bits give. -/
theorem toNat_fld_of_high_zero {imm : BitVec 34} (h : fld imm 6 28 = 0) : (fld imm 0 6).toNat = imm.toNat := by
  have h' := congrArg BitVec.toNat h
  simp [fld, Nat.shiftRight_eq_div_pow] at h' ⊢
  omega

/-- The words of SHLI, SHRI and SARI decode by one rule: the immediate holds a count of six bits below the type's width. -/
theorem decodeWord_shiftImm (fn : BitVec 4) (d a : VReg) (imm : BitVec 34) {op : BitVec 8} (hop : op ∈ [0x1C#8, 0x1D#8, 0x1E#8]) :
    ∃ mk : BitVec 6 → Instr,
      (∀ n, (mk n).wf = ((Ty.ofCode fn).plain && decide (n.toNat < (Ty.ofCode fn).width))) ∧
      decodeWord (fi op fn d a imm) = chk true (if fld imm 6 28 == 0 then some (mk (fld imm 0 6)) else none) := by
  have hw := op_fi op fn d a imm
  have hfn := fn_fi op fn d a imm
  have himm := imm_fi op fn d a imm
  generalize fi op fn d a imm = w at hw hfn himm ⊢
  subst hfn himm
  simp only [List.mem_cons, List.not_mem_nil, or_false] at hop
  rw [decodeWord_logic (by rw [hw]; obtain rfl | rfl | rfl := hop <;> rfl), decodeLogic, hw]
  obtain rfl | rfl | rfl := hop
  · exact ⟨.shli (Ty.ofCode (W.fn w)) (W.d w) (W.a w), fun _ => rfl, rfl⟩
  · exact ⟨.shri (Ty.ofCode (W.fn w)) (W.d w) (W.a w), fun _ => rfl, rfl⟩
  · exact ⟨.sari (Ty.ofCode (W.fn w)) (W.d w) (W.a w), fun _ => rfl, rfl⟩

theorem shiftImm_reserved (fn : BitVec 4) (d a : VReg) {imm : BitVec 34} {op : BitVec 8} (hop : op ∈ [0x1C#8, 0x1D#8, 0x1E#8])
    (himm : (Ty.ofCode fn).width ≤ imm.toNat) : decodeWord (fi op fn d a imm) = .error .reservedValue := by
  obtain ⟨mk, hwf, hdec⟩ := decodeWord_shiftImm fn d a imm hop
  rw [hdec]
  by_cases h : fld imm 6 28 = 0
  · have hcount : ¬ (fld imm 0 6).toNat < (Ty.ofCode fn).width := by rw [toNat_fld_of_high_zero h]; omega
    simp [h, chk, hwf, hcount]
  · rw [beq_eq_false_iff_ne.mpr h]
    rfl

/-- Settles O5: each shift is the library's on `BitVec w`, whose bits are known; a reserved immediate is one that is not below
the type's width. -/
theorem shiftResults : Obligations.ShiftResults := by
  refine ⟨⟨fun t d a b => ?_, fun t d a b => ?_, fun t d a b => ?_, fun t d a b => ?_, fun t d a n => ?_, fun t d a n => ?_,
    fun t d a n => ?_⟩, fun w x n i _ hx hi => ⟨?shl, ?shr, ?sar, ?rot⟩, fun d a imm op hop => ⟨?code0, ?code2⟩⟩
  case shl => exact testBit_shlN n hx hi
  case shr => exact testBit_shrN n hx i
  case sar => exact testBit_sarN n hx hi
  case rot => exact testBit_rotN n hx hi
  case code0 => exact shiftImm_reserved 0 d a hop
  case code2 => exact shiftImm_reserved 2 d a hop
  all_goals exact computes_putT ⟨rfl, rfl⟩ fun _ => rfl

end Sys2Proof.Machine
